-- ==== Sys2Proof/Word.lean ====
section
/-! DEFINITION. The word types of the block: every stream transfer is a byte, every host register a 32-bit
word (10_state.md R32, 20_memory.md R107). All values are unsigned (00_scope.md R21). -/

namespace Sys2Proof

/-- One byte of a stream or of a byte memory. -/
abbrev Byte := BitVec 8

/-- One host register (00_scope.md R10: `WORD_BITS = 32`). -/
abbrev Word := BitVec 32

end Sys2Proof
end

