-- ==== Sys2Proof/Config.lean ====
section
/-! DEFINITION. What one instance of the block fixes (00_scope.md R11 to R16, 20_memory.md R104) and the free
values of the model. The parameters are plain data that every state carries and no step writes (assumption 1);
the free values are opaque constants without a body, so that no proof can know one. -/

namespace Sys2Proof

/-- `LZW_FIRST_INDEX_POLICY` (R15): which first index of an LZW block the decoder accepts. -/
inductive LzwPolicy
  /-- The default: a first index is legal exactly when it names an existing entry. -/
  | dictSize
  /-- A first index is legal exactly when it is below 256. -/
  | strict256
  deriving DecidableEq, Repr

/-- `HUF_SINGLE_PAYLOAD` (R16): the code stream of an input with one distinct symbol. -/
inductive HufSingle
  /-- The default: no code stream. -/
  | noPayload
  /-- One bit `1` for each input byte. -/
  | oneBit
  deriving DecidableEq, Repr

/-- The instance parameters. The three limits have the five bits they occupy in ID (10_state.md R49). -/
structure Params where
  /-- `MAX_SEARCH_BITS` (R11), in `[2, 29]`. -/
  maxSearchBits : BitVec 5
  /-- `MAX_DICT_BITS` (R12), in `[8, 31]`. -/
  maxDictBits : BitVec 5
  /-- `MAX_BLOCK_BITS` (R13), in `[1, 31]`. -/
  maxBlockBits : BitVec 5
  /-- `LZ78_FIRST_INDEX` (R14), 0 or 1. -/
  lz78First : Fin 2
  /-- `LZW_FIRST_INDEX_POLICY` (R15). -/
  lzwPolicy : LzwPolicy
  /-- `HUF_SINGLE_PAYLOAD` (R16). -/
  hufSingle : HufSingle
  /-- `BASE` (20_memory.md R104): the address of the block's register window. -/
  base : Nat
  deriving DecidableEq, Repr

/-- The ranges that R11 to R13 give the limits. -/
abbrev Params.wf (p : Params) : Prop :=
  (2 ≤ p.maxSearchBits.toNat ∧ p.maxSearchBits.toNat ≤ 29) ∧
    8 ≤ p.maxDictBits.toNat ∧ 1 ≤ p.maxBlockBits.toNat

/-- The instance of `State.reset`. DESIGN CHOICE (assumption 1): each limit is the only bound its source names
(29 of R18, the reference value 24 of R12, the five header bits of R13); the three other parameters have the
spec's defaults; `BASE` is 0. -/
def Params.reference : Params where
  maxSearchBits := 29
  maxDictBits := 24
  maxBlockBits := 31
  lz78First := 0
  lzwPolicy := .dictSize
  hufSingle := .noPayload
  base := 0

/-- FREE VALUE (assumption 8): what a host read of RESULT, DETECT or FREQ_TOTAL returns while a command runs
(70_reset_and_hazards.md R612), one fresh value for each such read. -/
opaque Config.busyRead : Nat → Word

/-- FREE VALUE (assumption 5): `SRC.HOLDER` after a reset that found `holder` in it (10_state.md R72: unspecified). -/
opaque Config.resetHolder : Byte → Byte

/-- FREE VALUE (assumption 5): `HUF.ROOT` after a reset that found this index in it (R72: unspecified). -/
opaque Config.resetRoot : Nat → BitVec 9

/-- FREE VALUE (assumption 5): `HUF.CURSOR` after a reset that found this index in it (R72: unspecified). -/
opaque Config.resetCursor : Nat → BitVec 9

/-- FREE VALUE (assumption 6): what a byte of `LZ77.WIN` that nothing has written reads as (10_state.md R65). -/
opaque Config.unwrittenWindow : Nat → Byte

/-- FREE VALUE (assumption 6): what a byte of `BLK` that nothing has written reads as (10_state.md R69). -/
opaque Config.unwrittenBlock : Nat → Byte

/-- FREE VALUE (assumption 9): what a frequency counter holds after one more occurrence than its 32 bits count. -/
opaque Config.counterOverflow : Byte → Word

/-- FREE VALUE (assumption 9): the 32-bit weight of an internal node whose children's weights sum to more. -/
opaque Config.weightOverflow : Word → Word → Word

end Sys2Proof
end

