-- ==== Sys2Proof/Syntax.lean ====
section
/-! DEFINITION. The instructions: one constructor for each row of the opcode table. The first 25 are the commands
a host writes to CMD (30_encoding.md part A); the last 18 are the tokens of the compressed stream, which a
running decoder fetches from the BitSource one after another (part B). -/

namespace Sys2Proof

/-- The four algorithms (10_state.md R43). -/
inductive Alg
  | huf | lz77 | lz78 | lzw
  deriving DecidableEq, Repr

/-- The three algorithms whose payload is made of blocks (30_encoding.md R131). -/
inductive Lz
  | lz77 | lz78 | lzw
  deriving DecidableEq, Repr

/-- Where an instruction stands, which is what tells a decoder how to read the next bits (30_encoding.md R140).
Widths are those of the stream being read. -/
inductive Ctx
  /-- A 32-bit word in CMD. -/
  | command
  /-- The 16 bits of a magic. -/
  | envelope
  /-- Version and `N` of a Huffman payload. -/
  | hufHeader
  /-- A node of a serialized tree. -/
  | tree
  /-- The code stream of a Huffman payload. -/
  | code
  /-- Version and the two parameters of an LZ payload. -/
  | lzHeader (a : Lz)
  /-- The flag of a block, with its count of `width` bits when the flag is 1. -/
  | block (width : Nat)
  /-- A record of an LZ77 block. -/
  | lz77Record (lookaheadBits searchBits : Nat)
  /-- A record of an LZ78 block. -/
  | lz78Record (dictBits : Nat)
  /-- A record of an LZW block. -/
  | lzwRecord (dictBits : Nat)
  deriving DecidableEq, Repr

/-- The instructions. -/
inductive Instr
  /-- NOP (47_control.md R460). -/
  | nop
  /-- SRC_RESET (40_bitsource.md R201). -/
  | srcReset
  /-- SRC_GET_BIT (R204). -/
  | srcGetBit
  /-- SRC_GET_BITS n (R206). -/
  | srcGetBits (n : Byte)
  /-- SNK_RESET (41_bitsink.md R231). -/
  | snkReset
  /-- SNK_PUT_BIT bit (R234). -/
  | snkPutBit (bit : Bool)
  /-- SNK_PUT_BITS n (R236). -/
  | snkPutBits (n : Byte)
  /-- SNK_FLUSH (R238). -/
  | snkFlush
  /-- FREQ_CLEAR (42_huffman.md R261). -/
  | freqClear
  /-- FREQ_ADD sym (R263). -/
  | freqAdd (sym : Byte)
  /-- FREQ_GET sym (R264). -/
  | freqGet (sym : Byte)
  /-- HUF_BUILD (R271). -/
  | hufBuild
  /-- HUF_CODE_LEN sym (R272). -/
  | hufCodeLen (sym : Byte)
  /-- HUF_PUT_SYM sym (R273). -/
  | hufPutSym (sym : Byte)
  /-- HUF_SERIALIZE (R275). -/
  | hufSerialize
  /-- HUF_DESERIALIZE (R278). -/
  | hufDeserialize
  /-- HUF_WALK_RESET (R280). -/
  | hufWalkReset
  /-- HUF_ADD_BIT bit (R282). -/
  | hufAddBit (bit : Bool)
  /-- ENV_PUT_MAGIC alg (46_envelope.md R431). -/
  | envPutMagic (alg : Alg)
  /-- ENV_GET_MAGIC (R434). -/
  | envGetMagic
  /-- ENC_BODY alg (R436). -/
  | encBody (alg : Alg)
  /-- DEC_BODY alg (R438). -/
  | decBody (alg : Alg)
  /-- ENC (R435). -/
  | enc
  /-- DEC (R437). -/
  | dec
  /-- SOFT_RESET (47_control.md R462). -/
  | softReset
  /-- MAGIC_HUF, the token `0x27AB` (46_envelope.md R430). -/
  | magicHuf
  /-- MAGIC_LZ77, the token `0xA5E8`. -/
  | magicLz77
  /-- MAGIC_LZ78, the token `0x7869`. -/
  | magicLz78
  /-- MAGIC_LZW, the token `0x8E83`. -/
  | magicLzw
  /-- HUF_HEADER: version and total symbol count (30_encoding.md R133). -/
  | hufHeader (total : Word)
  /-- HUF_TREE_INTERNAL: `0` (R134). -/
  | hufTreeInternal
  /-- HUF_TREE_LEAF: `1` and the symbol (R134). -/
  | hufTreeLeaf (sym : Byte)
  /-- HUF_CODE: bits of the code stream (R135). -/
  | hufCode (bits : List Bool)
  /-- LZ77_HEADER: version, `search_bits`, `lookahead_bits` (R136). -/
  | lz77Header (searchBits lookaheadBits : BitVec 5)
  /-- LZ78_HEADER: version, `dict_bits`, `block_bits` (R137). -/
  | lz78Header (dictBits blockBits : BitVec 5)
  /-- LZW_HEADER: version, `dict_bits`, `block_bits` (R138). -/
  | lzwHeader (dictBits blockBits : BitVec 5)
  /-- BLOCK_FULL: flag `0` (R131). -/
  | blockFull
  /-- BLOCK_SHORT_OR_TERMINATOR: flag `1` and the count (R131). -/
  | blockShort (count : Nat)
  /-- LZ77_LITERAL: `0` and the byte (R136). -/
  | lz77Literal (b : Byte)
  /-- LZ77_MATCH: `1`, length, relative position, next byte (R136). -/
  | lz77Match (len pos : Nat) (b : Byte)
  /-- LZ78_LITERAL: `0` and the byte (R137). -/
  | lz78Literal (b : Byte)
  /-- LZ78_PHRASE: `1`, index, next byte (R137). -/
  | lz78Phrase (index : Nat) (b : Byte)
  /-- LZW_INDEX: the index (R138). -/
  | lzwIndex (index : Nat)
  deriving DecidableEq, Repr

end Sys2Proof
end

