-- ==== Sys2Proof/WellFormed.lean ====
section
/-! DEFINITION. Which instructions a context admits: the operand ranges of 30_encoding.md R122 and R124 for the
commands, the field widths of R133 to R138 for the stream tokens. -/

namespace Sys2Proof

/-- A bit count of one transfer: `n ∈ [1, 32]` (R122). -/
def bitCountOk (n : Byte) : Bool := decide (1 ≤ n.toNat) && decide (n.toNat ≤ 32)

/-- `i` is a command, and its bit count, where it has one, is legal. -/
def Instr.wfCommand : Instr → Bool
  | .srcGetBits n | .snkPutBits n => bitCountOk n
  | .nop | .srcReset | .srcGetBit | .snkReset | .snkPutBit _ | .snkFlush | .freqClear | .freqAdd _
  | .freqGet _ | .hufBuild | .hufCodeLen _ | .hufPutSym _ | .hufSerialize | .hufDeserialize
  | .hufWalkReset | .hufAddBit _ | .envPutMagic _ | .envGetMagic | .encBody _ | .decBody _ | .enc
  | .dec | .softReset => true
  | .magicHuf | .magicLz77 | .magicLz78 | .magicLzw | .hufHeader _ | .hufTreeInternal | .hufTreeLeaf _
  | .hufCode _ | .lz77Header _ _ | .lz78Header _ _ | .lzwHeader _ _ | .blockFull | .blockShort _
  | .lz77Literal _ | .lz77Match _ _ _ | .lz78Literal _ | .lz78Phrase _ _ | .lzwIndex _ => false

/-- `i` may stand in context `c`: it is an instruction of that context and each operand fits its field. A code
is read one bit at a time (assumption 11), so the context of a code stream admits single bits. -/
def Instr.wf (c : Ctx) (i : Instr) : Bool :=
  match c with
  | .command => i.wfCommand
  | .envelope =>
    match i with
    | .magicHuf | .magicLz77 | .magicLz78 | .magicLzw => true
    | _ => false
  | .hufHeader =>
    match i with
    | .hufHeader _ => true
    | _ => false
  | .tree =>
    match i with
    | .hufTreeInternal | .hufTreeLeaf _ => true
    | _ => false
  | .code =>
    match i with
    | .hufCode bits => bits.length == 1
    | _ => false
  | .lzHeader a =>
    match a, i with
    | .lz77, .lz77Header _ _ | .lz78, .lz78Header _ _ | .lzw, .lzwHeader _ _ => true
    | _, _ => false
  | .block width =>
    match i with
    | .blockFull => true
    | .blockShort count => decide (count < 2 ^ width)
    | _ => false
  | .lz77Record lookaheadBits searchBits =>
    match i with
    | .lz77Literal _ => true
    | .lz77Match len pos _ => decide (len < 2 ^ lookaheadBits) && decide (pos < 2 ^ searchBits)
    | _ => false
  | .lz78Record dictBits =>
    match i with
    | .lz78Literal _ => true
    | .lz78Phrase index _ => decide (index < 2 ^ dictBits)
    | _ => false
  | .lzwRecord dictBits =>
    match i with
    | .lzwIndex index => decide (index < 2 ^ dictBits)
    | _ => false

end Sys2Proof
end

