-- ==== Sys2Proof/Decode.lean ====
section
/-! DEFINITION. Reading an instruction from bits, and writing it as bits. `decodeCommand` reads the word of a CMD
write (30_encoding.md R120 to R125); `decodeBits` reads the next instruction of any context from a bit string in
transmission order (R130 to R140) and is total: it answers an instruction with the bits left over, asks for more
bits, or rejects by name. `encodeWord` and `encode` are written from the same tables. -/

namespace Sys2Proof

/-! ## Bit strings (20_memory.md R91: a field is transferred most significant bit first) -/

/-- The `n`-bit field of value `v`: `v[n-1], …, v[0]`. -/
def bitsOf : Nat → Nat → List Bool
  | 0, _ => []
  | n + 1, v => v.testBit n :: bitsOf n v

/-- The value of a bit string, first bit most significant, `acc` holding the bits before it. -/
def bitsValue : Nat → List Bool → Nat
  | acc, [] => acc
  | acc, b :: bs => bitsValue (2 * acc + b.toNat) bs

/-- The first `n` bits of a bit string as a value, and the rest, when there are that many. -/
def takeField (n : Nat) (bits : List Bool) : Option (Nat × List Bool) :=
  if n ≤ bits.length then some (bitsValue 0 (bits.take n), bits.drop n) else none

/-! ## Command words -/

/-- Why bits are no instruction. -/
inductive Reject
  /-- The opcode is not in the opcode map (R124 a). -/
  | unknownOpcode
  /-- A bit that the opcode does not use is 1 (R124 b). -/
  | unusedFieldBit
  /-- The bit count is outside `[1, 32]` (R124 c). -/
  | badBitCount
  /-- The sixteen bits are none of the four magics (46_envelope.md R432). -/
  | unknownMagic (m : BitVec 16)
  /-- The version byte is not `0x01` (R439). -/
  | badVersion
  deriving DecidableEq, Repr

/-- The algorithm of a two-bit code (10_state.md R43). -/
def Alg.ofCode (c : BitVec 2) : Alg :=
  match c.toNat with
  | 0 => .huf
  | 1 => .lz77
  | 2 => .lz78
  | _ => .lzw

/-- The two-bit code of an algorithm (R43). -/
def Alg.code : Alg → BitVec 2
  | .huf => 0
  | .lz77 => 1
  | .lz78 => 2
  | .lzw => 3

/-- A command without operands: A and B are 0 (R121). -/
def commandPlain (a : BitVec 8) (b : BitVec 16) (i : Instr) : Except Reject Instr :=
  if a = 0 ∧ b = 0 then .ok i else .error .unusedFieldBit

/-- A command with a bit count in A (R121, R124 c). -/
def commandCount (a : BitVec 8) (b : BitVec 16) (mk : Byte → Instr) : Except Reject Instr :=
  if b ≠ 0 then .error .unusedFieldBit
  else if bitCountOk a then .ok (mk a) else .error .badBitCount

/-- A command with a bit in `B[0]`. -/
def commandBit (a : BitVec 8) (b : BitVec 16) (mk : Bool → Instr) : Except Reject Instr :=
  if a = 0 ∧ b.extractLsb' 1 15 = 0 then .ok (mk (b.getLsbD 0)) else .error .unusedFieldBit

/-- A command with a byte value in `B[7:0]`. -/
def commandSym (a : BitVec 8) (b : BitVec 16) (mk : Byte → Instr) : Except Reject Instr :=
  if a = 0 ∧ b.extractLsb' 8 8 = 0 then .ok (mk (b.extractLsb' 0 8)) else .error .unusedFieldBit

/-- A command with an algorithm code in `A[1:0]`. -/
def commandAlg (a : BitVec 8) (b : BitVec 16) (mk : Alg → Instr) : Except Reject Instr :=
  if a.extractLsb' 2 6 = 0 ∧ b = 0 then .ok (mk (Alg.ofCode (a.extractLsb' 0 2)))
  else .error .unusedFieldBit

/-- The command that a CMD word is, by the opcode map (R123). -/
def decodeCommand (w : Word) : Except Reject Instr :=
  let a : BitVec 8 := w.extractLsb' 16 8
  let b : BitVec 16 := w.extractLsb' 0 16
  match w.extractLsb' 24 8 with
  | 0x00#8 => commandPlain a b .nop
  | 0x01#8 => commandPlain a b .srcReset
  | 0x02#8 => commandPlain a b .srcGetBit
  | 0x03#8 => commandCount a b .srcGetBits
  | 0x10#8 => commandPlain a b .snkReset
  | 0x11#8 => commandBit a b .snkPutBit
  | 0x12#8 => commandCount a b .snkPutBits
  | 0x13#8 => commandPlain a b .snkFlush
  | 0x20#8 => commandPlain a b .freqClear
  | 0x21#8 => commandSym a b .freqAdd
  | 0x22#8 => commandSym a b .freqGet
  | 0x23#8 => commandPlain a b .hufBuild
  | 0x24#8 => commandSym a b .hufCodeLen
  | 0x25#8 => commandSym a b .hufPutSym
  | 0x26#8 => commandPlain a b .hufSerialize
  | 0x27#8 => commandPlain a b .hufDeserialize
  | 0x28#8 => commandPlain a b .hufWalkReset
  | 0x29#8 => commandBit a b .hufAddBit
  | 0x30#8 => commandAlg a b .envPutMagic
  | 0x31#8 => commandPlain a b .envGetMagic
  | 0x32#8 => commandAlg a b .encBody
  | 0x33#8 => commandAlg a b .decBody
  | 0x34#8 => commandPlain a b .enc
  | 0x35#8 => commandPlain a b .dec
  | 0xFF#8 => commandPlain a b .softReset
  | _ => .error .unknownOpcode

/-- A command word from its fields OPC, A and B (R120). -/
def commandWord (opc a : BitVec 8) (b : BitVec 16) : Word := (opc ++ a ++ b : BitVec 32)

/-- The word of a command (R121, R123); a stream token has none and gives 0. -/
def encodeWord : Instr → Word
  | .nop => commandWord 0x00 0 0
  | .srcReset => commandWord 0x01 0 0
  | .srcGetBit => commandWord 0x02 0 0
  | .srcGetBits n => commandWord 0x03 n 0
  | .snkReset => commandWord 0x10 0 0
  | .snkPutBit bit => commandWord 0x11 0 ((BitVec.ofBool bit).setWidth 16)
  | .snkPutBits n => commandWord 0x12 n 0
  | .snkFlush => commandWord 0x13 0 0
  | .freqClear => commandWord 0x20 0 0
  | .freqAdd sym => commandWord 0x21 0 (sym.setWidth 16)
  | .freqGet sym => commandWord 0x22 0 (sym.setWidth 16)
  | .hufBuild => commandWord 0x23 0 0
  | .hufCodeLen sym => commandWord 0x24 0 (sym.setWidth 16)
  | .hufPutSym sym => commandWord 0x25 0 (sym.setWidth 16)
  | .hufSerialize => commandWord 0x26 0 0
  | .hufDeserialize => commandWord 0x27 0 0
  | .hufWalkReset => commandWord 0x28 0 0
  | .hufAddBit bit => commandWord 0x29 0 ((BitVec.ofBool bit).setWidth 16)
  | .envPutMagic alg => commandWord 0x30 (alg.code.setWidth 8) 0
  | .envGetMagic => commandWord 0x31 0 0
  | .encBody alg => commandWord 0x32 (alg.code.setWidth 8) 0
  | .decBody alg => commandWord 0x33 (alg.code.setWidth 8) 0
  | .enc => commandWord 0x34 0 0
  | .dec => commandWord 0x35 0 0
  | .softReset => commandWord 0xFF 0 0
  | .magicHuf | .magicLz77 | .magicLz78 | .magicLzw | .hufHeader _ | .hufTreeInternal | .hufTreeLeaf _
  | .hufCode _ | .lz77Header _ _ | .lz78Header _ _ | .lzwHeader _ _ | .blockFull | .blockShort _
  | .lz77Literal _ | .lz77Match _ _ _ | .lz78Literal _ | .lz78Phrase _ _ | .lzwIndex _ => 0

/-! ## Stream tokens -/

/-- The magic of an algorithm (46_envelope.md R430). -/
def Alg.magic : Alg → BitVec 16
  | .huf => 0x27AB
  | .lz77 => 0xA5E8
  | .lz78 => 0x7869
  | .lzw => 0x8E83

/-- The token that carries the magic of an algorithm. -/
def Alg.magicToken : Alg → Instr
  | .huf => .magicHuf
  | .lz77 => .magicLz77
  | .lz78 => .magicLz78
  | .lzw => .magicLzw

/-- `Lookup(m)` (R432): the algorithm whose magic is `m`. -/
def lookupMagic (m : BitVec 16) : Option Alg :=
  if m = Alg.huf.magic then some .huf
  else if m = Alg.lz77.magic then some .lz77
  else if m = Alg.lz78.magic then some .lz78
  else if m = Alg.lzw.magic then some .lzw
  else none

/-- The format version byte (00_scope.md R2). -/
def formatVersion : Nat := 0x01

/-- What the bits read so far are. -/
inductive Decoded
  /-- The start of an instruction: more bits are needed. -/
  | more
  /-- An instruction, and the bits after it. -/
  | instr (i : Instr) (rest : List Bool)
  /-- The start of no instruction. -/
  | reject (r : Reject)
  deriving DecidableEq, Repr

/-- Go on with the value of an `n`-bit field and the bits after it, or ask for more bits. -/
def withField (n : Nat) (bits : List Bool) (k : Nat → List Bool → Decoded) : Decoded :=
  match takeField n bits with
  | none => .more
  | some (v, rest) => k v rest

/-- The version byte, checked as soon as its eight bits are there (R439), then the rest of a header. -/
def withVersion (bits : List Bool) (k : List Bool → Decoded) : Decoded :=
  withField 8 bits fun v rest => if v = formatVersion then k rest else .reject .badVersion

/-- A header of an LZ payload: version and two five-bit parameters (30_encoding.md R136 to R138). -/
def decodeLzHeader (mk : BitVec 5 → BitVec 5 → Instr) (bits : List Bool) : Decoded :=
  withVersion bits fun r1 =>
    withField 5 r1 fun p1 r2 =>
      withField 5 r2 fun p2 r3 => .instr (mk (BitVec.ofNat 5 p1) (BitVec.ofNat 5 p2)) r3

/-- The next instruction of context `c` in a bit string in transmission order (R140). -/
def decodeBits (c : Ctx) (bits : List Bool) : Decoded :=
  match c with
  | .command =>
    withField 32 bits fun v r =>
      match decodeCommand (BitVec.ofNat 32 v) with
      | .ok i => .instr i r
      | .error e => .reject e
  | .envelope =>
    withField 16 bits fun v r =>
      match lookupMagic (BitVec.ofNat 16 v) with
      | some a => .instr a.magicToken r
      | none => .reject (.unknownMagic (BitVec.ofNat 16 v))
  | .hufHeader =>
    withVersion bits fun r1 => withField 32 r1 fun n r2 => .instr (.hufHeader (BitVec.ofNat 32 n)) r2
  | .tree =>
    match bits with
    | [] => .more
    | false :: r => .instr .hufTreeInternal r
    | true :: r => withField 8 r fun s r1 => .instr (.hufTreeLeaf (BitVec.ofNat 8 s)) r1
  | .code =>
    match bits with
    | [] => .more
    | b :: r => .instr (.hufCode [b]) r
  | .lzHeader .lz77 => decodeLzHeader .lz77Header bits
  | .lzHeader .lz78 => decodeLzHeader .lz78Header bits
  | .lzHeader .lzw => decodeLzHeader .lzwHeader bits
  | .block width =>
    match bits with
    | [] => .more
    | false :: r => .instr .blockFull r
    | true :: r => withField width r fun n r1 => .instr (.blockShort n) r1
  | .lz77Record lookaheadBits searchBits =>
    match bits with
    | [] => .more
    | false :: r => withField 8 r fun b r1 => .instr (.lz77Literal (BitVec.ofNat 8 b)) r1
    | true :: r =>
      withField lookaheadBits r fun len r1 =>
        withField searchBits r1 fun pos r2 =>
          withField 8 r2 fun b r3 => .instr (.lz77Match len pos (BitVec.ofNat 8 b)) r3
  | .lz78Record dictBits =>
    match bits with
    | [] => .more
    | false :: r => withField 8 r fun b r1 => .instr (.lz78Literal (BitVec.ofNat 8 b)) r1
    | true :: r =>
      withField dictBits r fun index r1 =>
        withField 8 r1 fun b r2 => .instr (.lz78Phrase index (BitVec.ofNat 8 b)) r2
  | .lzwRecord dictBits => withField dictBits bits fun index r => .instr (.lzwIndex index) r

/-- The bits of an LZ header. -/
def encodeLzHeader (p1 p2 : BitVec 5) : List Bool :=
  bitsOf 8 formatVersion ++ bitsOf 5 p1.toNat ++ bitsOf 5 p2.toNat

/-- The bits of an instruction in context `c`, in transmission order. Meaningful where `i.wf c`; an
instruction that is none of the context's has no bits. -/
def encode (c : Ctx) (i : Instr) : List Bool :=
  match c with
  | .command => if i.wfCommand then bitsOf 32 (encodeWord i).toNat else []
  | .envelope =>
    match i with
    | .magicHuf => bitsOf 16 Alg.huf.magic.toNat
    | .magicLz77 => bitsOf 16 Alg.lz77.magic.toNat
    | .magicLz78 => bitsOf 16 Alg.lz78.magic.toNat
    | .magicLzw => bitsOf 16 Alg.lzw.magic.toNat
    | _ => []
  | .hufHeader =>
    match i with
    | .hufHeader total => bitsOf 8 formatVersion ++ bitsOf 32 total.toNat
    | _ => []
  | .tree =>
    match i with
    | .hufTreeInternal => [false]
    | .hufTreeLeaf sym => true :: bitsOf 8 sym.toNat
    | _ => []
  | .code =>
    match i with
    | .hufCode bits => bits
    | _ => []
  | .lzHeader a =>
    match a, i with
    | .lz77, .lz77Header p1 p2 | .lz78, .lz78Header p1 p2 | .lzw, .lzwHeader p1 p2 => encodeLzHeader p1 p2
    | _, _ => []
  | .block width =>
    match i with
    | .blockFull => [false]
    | .blockShort count => true :: bitsOf width count
    | _ => []
  | .lz77Record lookaheadBits searchBits =>
    match i with
    | .lz77Literal b => false :: bitsOf 8 b.toNat
    | .lz77Match len pos b => true :: (bitsOf lookaheadBits len ++ bitsOf searchBits pos ++ bitsOf 8 b.toNat)
    | _ => []
  | .lz78Record dictBits =>
    match i with
    | .lz78Literal b => false :: bitsOf 8 b.toNat
    | .lz78Phrase index b => true :: (bitsOf dictBits index ++ bitsOf 8 b.toNat)
    | _ => []
  | .lzwRecord dictBits =>
    match i with
    | .lzwIndex index => bitsOf dictBits index
    | _ => []

/-- The most bits an instruction of a context has (R140). -/
def Ctx.maxBits : Ctx → Nat
  | .command => 32
  | .envelope => 16
  | .hufHeader => 40
  | .tree => 9
  | .code => 1
  | .lzHeader _ => 18
  | .block width => 1 + width
  | .lz77Record lookaheadBits searchBits => 9 + lookaheadBits + searchBits
  | .lz78Record dictBits => 9 + dictBits
  | .lzwRecord dictBits => dictBits

/-! ## The opcode table's own numbering -/

/-- The context that the length of a row of the opcode table gives by itself: a command word, a magic, a Huffman
header. The other token rows have no fixed bits in the table, and which token their bits are depends on what is
being decoded (R140), so a bare length says nothing of them. -/
def tableContext (nbits : Nat) : Option Ctx :=
  match nbits with
  | 32 => some .command
  | 16 => some .envelope
  | 40 => some .hufHeader
  | _ => none

/-- The instruction that `decodeBits` reads from `nbits` bits of value `w`, bit 0 least significant. -/
def decodeTableWord (nbits w : Nat) : Option Instr :=
  match tableContext nbits with
  | none => none
  | some c =>
    match decodeBits c (bitsOf nbits w) with
    | .instr i _ => some i
    | _ => none

end Sys2Proof
end

