-- ==== Sys2Proof/Machine/State.lean ====
section
/-! DEFINITION. The state of the machine: the block (10_state.md) and, as plain data beside it, the three agents of
its environment (00_scope.md R8, 70_reset_and_hazards.md R614, R615). INVENTORY.md lists every field with the
rule that names it and its reset value. -/

namespace Sys2Proof.Machine

/-- A table by key in one canonical form: keys strictly rising. -/
abbrev Sparse (α : Type) := List (Nat × α)

/-- A byte memory: the bytes that have been written, by address. -/
abbrev Memory := List Host.Cell

/-- The canonical form: keys strictly rising, so that equal tables are equal data. -/
abbrev Sparse.wf {α : Type} (m : Sparse α) : Prop := (m.map Prod.fst).Pairwise (· < ·)

/-- The canonical form of a byte memory. Every listed byte has been written; an unlisted one has no value of
its own (assumption 6). -/
abbrev Memory.wf (m : Memory) : Prop := Sparse.wf m

/-! ## The units -/

/-- BitSource (10_state.md R51, R52). -/
structure Src where
  /-- `SRC.HOLDER`: the byte last pulled from the input port. -/
  holder : Byte
  /-- `SRC.POS`: the place of the next bit, 7 down to 0; 8 is EMPTY. -/
  pos : Fin 9
  /-- `SRC.EOF`: a refill found the input at End. -/
  eof : Bool
  /-- `SRC.ERR`: a refill found the input at Error. -/
  err : Bool
  deriving DecidableEq, Repr

/-- BitSink (R54, R55). -/
structure Snk where
  /-- `SNK.ACC`: the byte being assembled. -/
  acc : Byte
  /-- `SNK.POS`: the place the next bit goes to, 7 down to 0. -/
  pos : Fin 8
  /-- `SNK.GOOD`: no byte has been refused. -/
  good : Bool
  deriving DecidableEq, Repr

/-- A node of `HUF.NODE` (R58). A child is absent only while a tree is being read (42_huffman.md R276). -/
inductive Node
  | leaf (sym : Byte) (weight : Word)
  | internal (left right : Option Nat) (weight : Word)
  deriving DecidableEq, Repr

/-- `HUF.TREE_STATE` (R60). -/
inductive TreeState
  | empty | leafRoot | internalRoot
  deriving DecidableEq, Repr

/-- The Huffman units (R57 to R61). -/
structure Huf where
  /-- `HUF.FREQ`: the counters that are not 0, by byte value. -/
  freq : Sparse Word
  /-- `HUF.TOTAL`. -/
  total : Word
  /-- `HUF.NODE`: the entries in use; `HUF.NCOUNT` is their number (assumption 7). -/
  nodes : List Node
  /-- `HUF.ROOT`: index of the root. -/
  root : Nat
  /-- `HUF.CURSOR`: where the decode walk stands. -/
  cursor : Nat
  /-- `HUF.TREE_STATE`. -/
  tree : TreeState
  /-- `HUF.CODE`: the codes that are not empty, by byte value, first bit first; `len` is the length. -/
  code : Sparse (List Bool)
  deriving DecidableEq, Repr

/-- The LZ77 unit (R62 to R65). `WSIZE`, `S` and `A` are computed from `sb` and `lb`. Cursors and counters are numbers;
that they fit their widths is an invariant (assumption 17). -/
structure Lz77 where
  /-- `LZ77.SB`. -/
  sb : BitVec 5
  /-- `LZ77.LB`. -/
  lb : BitVec 5
  /-- `LZ77.WIN`. -/
  win : Memory
  /-- `LZ77.SS`, search_start. -/
  ss : Nat
  /-- `LZ77.SP`, search_pos. -/
  sp : Nat
  /-- `LZ77.LS`, lookahead_start. -/
  ls : Nat
  /-- `LZ77.LE`, lookahead_end. -/
  le : Nat
  /-- `LZ77.CSIZE`: bytes of the search region (30 bits). -/
  csize : Nat
  /-- `LZ77.REM`: bytes of the block not yet coded (29 bits). -/
  rem : Nat
  deriving DecidableEq, Repr

/-- An entry of `DICT` (20_memory.md R100). -/
inductive Entry
  /-- The reserved LZ78 entry: the empty phrase. -/
  | emptyPhrase
  /-- The phrase of the parent, or the empty one for NONE, and one byte. -/
  | pair (parent : Option Nat) (b : Byte)
  deriving DecidableEq, Repr

/-- The block registers of LZ78 and LZW and the encoder's block buffer (10_state.md R69). -/
structure Dz where
  /-- `DZ.DB`; `DICT.CAP` is `2 ^ db` (R66). -/
  db : BitVec 5
  /-- `DZ.BB`; `DZ.B` is `2 ^ bb`. -/
  bb : BitVec 5
  /-- `BLK`. -/
  blk : Memory
  /-- `DZ.CNT`: bytes in the block (32 bits). -/
  cnt : Nat
  /-- `DZ.I`: bytes of the block already coded (32 bits). -/
  i : Nat
  deriving DecidableEq, Repr

/-- The LZW phrase registers (R70), NONE as `none`. -/
structure Lzw where
  /-- `LZW.W`. -/
  w : Option Nat
  /-- `LZW.PREV`. -/
  prev : Option Nat
  deriving DecidableEq, Repr

/-- DETECT (R47). -/
structure Detect where
  alg : Alg
  valid : Bool
  p1 : BitVec 5
  p2 : BitVec 5
  deriving DecidableEq, Repr

/-! ## The ports (20_memory.md R94 to R99) -/

/-- How an input stream stops. -/
inductive Terminal
  /-- `End`. -/
  | ended
  /-- `Error`. -/
  | failed
  deriving DecidableEq, Repr

/-- One item of the input port (R94). -/
inductive InItem
  | byte (b : Byte)
  | stop (t : Terminal)
  deriving DecidableEq, Repr

/-- The input port and its producer. -/
structure InPort where
  /-- Items the producer offers and the block has not yet taken, first one first. -/
  offer : List InItem
  /-- Items taken since the first byte of the stream (or the last rewind), oldest first. -/
  given : List InItem
  /-- The terminal item, once taken: every later `InRead` returns it again (R94). -/
  closed : Option Terminal
  /-- `IN_SEEKABLE` (R96). -/
  seekable : Bool
  /-- What a producer that breaks its replay duty offers after the next rewind; `none` keeps the duty (R96). -/
  replay : Option (List InItem)
  /-- How many items `InRead` has returned (R99). -/
  taken : Nat
  deriving DecidableEq, Repr

/-- The consumer's answer to one byte (R97). -/
inductive Answer
  | ok | fail
  deriving DecidableEq, Repr

/-- One event at the output port (R99). -/
inductive OutEvent
  /-- A byte the consumer accepted. -/
  | byte (b : Byte)
  /-- A flush marker. -/
  | flush
  deriving DecidableEq, Repr

/-- The output port and its consumer. -/
structure OutPort where
  /-- What has happened at the port, oldest first. -/
  events : List OutEvent
  /-- The consumer's answers to the next bytes. -/
  answers : List Answer
  /-- Its answer to every byte after those; `none`: it has not answered, and the block waits. -/
  habit : Option Answer
  deriving DecidableEq, Repr

/-- What a running command works on: the units, their memories, RESULT, DETECT and the two ports. -/
structure Units where
  src : Src
  snk : Snk
  huf : Huf
  lz77 : Lz77
  /-- `DICT`: the entries in use, index 0 first; `DICT.SIZE` is their number (assumption 7). -/
  dict : List Entry
  dz : Dz
  lzw : Lzw
  /-- DETECT. -/
  detect : Detect
  /-- RESULT. -/
  result : Word
  inp : InPort
  out : OutPort
  deriving DecidableEq, Repr

/-! ## The command sequencer (10_state.md R31) -/

/-- The encoders that use the dictionary. -/
inductive DictAlg
  | lz78 | lzw
  deriving DecidableEq, Repr

/-- For which command a tree is read. -/
inductive TreeUse
  /-- HUF_DESERIALIZE: the command ends with the tree. -/
  | command
  /-- The Huffman decoder: the code stream follows. -/
  | payload
  deriving DecidableEq, Repr

/-- For which command a magic is read. -/
inductive MagicUse
  /-- ENV_GET_MAGIC. -/
  | identify
  /-- DEC: the payload follows. -/
  | decode
  deriving DecidableEq, Repr

/-- Where the sequencer stands inside the running command: which stretch of its rule comes next. -/
inductive Phase
  /-- No command runs. -/
  | idle
  /-- The command's own rule, from its start. -/
  | command
  /-- A decoder reads a magic. -/
  | magic (use : MagicUse)
  /-- A decoder reads the header of a payload. -/
  | header (a : Alg)
  /-- A decoder reads a tree node; `stack` holds the internal nodes with a free child slot, top first. -/
  | tree (stack : List Nat) (use : TreeUse)
  /-- The Huffman decoder emits the symbol of a single-leaf root, `left` times more. -/
  | leafRun (left : Nat)
  /-- The Huffman decoder reads the code stream, `produced` symbols emitted. -/
  | code (produced : Nat)
  /-- A decoder reads a block flag. -/
  | block (a : Lz)
  /-- A decoder reads a record. -/
  | record (a : Lz)
  /-- Huffman encoder, first pass; `magic`: whether the envelope is written after it. -/
  | hufCount (magic : Bool)
  /-- Huffman encoder: build, header, tree. -/
  | hufHead (magic : Bool)
  /-- Huffman encoder, second pass, `count` bytes encoded. -/
  | hufPass (count : Nat)
  /-- LZ77 encoder: reading a block, `cnt` bytes read. -/
  | lz77Read (cnt : Nat)
  /-- LZ77 encoder: the flag of the block of `cnt` bytes. -/
  | lz77Flag (cnt : Nat)
  /-- LZ77 encoder: the next record. -/
  | lz77Emit
  /-- LZ78 or LZW encoder: reading a block. -/
  | dictRead (a : DictAlg)
  /-- LZ78 or LZW encoder: the flag of the block. -/
  | dictFlag (a : DictAlg)
  /-- LZ78 or LZW encoder: the next record. -/
  | dictEmit (a : DictAlg)
  /-- An encoder's final flush. -/
  | encFlush
  deriving DecidableEq, Repr

/-! ## The environment's moves -/

/-- One move of an agent. The script of a state lists the moves to come in the order in which they happen
(assumption 2). -/
inductive Move
  /-- The command sequencer goes on to the end of its stretch. -/
  | core
  /-- The command sequencer goes on by `steps` steps at most, and stays inside its stretch where that has more. -/
  | coreFor (steps : Nat)
  /-- The host writes `v` to the register at `addr`, `width` bytes wide (20_memory.md R103). -/
  | write (width addr : Nat) (v : Word)
  /-- The host reads the register at `addr`. -/
  | read (width addr : Nat)
  /-- The producer offers one more item (R94). -/
  | offer (item : InItem)
  /-- The consumer answers one more byte (R97). -/
  | answer (a : Answer)
  /-- The platform connects a producer at the first byte of a stream (70_reset_and_hazards.md R604, R614). -/
  | connectInput (seekable : Bool) (replay : Option (List InItem))
  /-- The platform connects a consumer with this habit. -/
  | connectOutput (habit : Option Answer)
  /-- The platform asserts and releases `rst` (R600). -/
  | hardReset
  deriving DecidableEq, Repr

/-- Where a running stretch stands that is not over, because a port has not answered or another agent acts in its
middle (assumption 3). -/
structure Begun where
  /-- The units and ports as they were where the stretch began. -/
  units : Units
  /-- How many of its steps have been made. -/
  made : Nat
  deriving DecidableEq, Repr

/-- CONFIG (10_state.md R42); its reserved bits read 0 and ignore writes. -/
structure ConfigReg where
  alg : Alg
  p1 : BitVec 5
  p2 : BitVec 5
  deriving DecidableEq, Repr

/-- The machine. -/
structure State where
  /-- The instance parameters; no step writes them (assumption 1). -/
  cfg : Params
  /-- `SEQ.BUSY`. -/
  busy : Bool
  /-- `SEQ.CMD`. -/
  cmd : Word
  /-- Where the running command stands. -/
  phase : Phase
  /-- The instruction being executed, when it has begun and is not over. -/
  current : Option Instr
  /-- ARG. -/
  arg : Word
  /-- CONFIG. -/
  config : ConfigReg
  /-- `CTRL.IE`. -/
  ie : Bool
  /-- `STATUS.DONE`. -/
  done : Bool
  /-- `STATUS.ERR`. -/
  err : Bool
  /-- `STATUS.ECODE`. -/
  ecode : BitVec 4
  /-- `STATUS.IRQ_PEND`. -/
  irqPend : Bool
  /-- `STATUS.OVR`. -/
  ovr : Bool
  /-- The units and ports, as they are now. -/
  units : Units
  /-- Where the running stretch stands, when it has begun and is not over (assumption 3). -/
  begun : Option Begun
  /-- The moves of the environment to come. -/
  script : List Move
  /-- The word the last register read gave the host (assumption 16). -/
  rdata : Word
  /-- How many register reads have drawn a free value (assumption 8). -/
  draws : Nat
  deriving DecidableEq, Repr

/-- Why the machine stops with a fault. The block itself has none (70_reset_and_hazards.md R617). -/
inductive Fault
  /-- A host access to an address outside the block's window (20_memory.md R104): raised by a register
  read or write. Safe: the block takes no part in such an access. -/
  | outsideWindow
  deriving DecidableEq, Repr

/-- Why a step has no meaning. -/
inductive Refusal
  /-- The instruction has no meaning yet: raised by an arm of `exec` only. Safe. -/
  | notModelled (mnemonic : String)
  /-- A register access that is not an aligned 32-bit one: raised by a register read or write (20_memory.md R103:
  a model refuses it). Safe. -/
  | registerAccess
  /-- A stream token where no running decoder reads such a token: raised by the meanings of the tokens; `step`
  never asks for it (30_encoding.md R140, assumption 12). Safe. -/
  | tokenOutOfPlace
  /-- A producer or consumer replaced while a command runs: raised by the two connect moves
  (70_reset_and_hazards.md R604, assumption 15). Safe. -/
  | portReplacedWhileBusy
  deriving DecidableEq, Repr

/-! ## Reset (10_state.md R72) -/

/-- The units at reset, with the ports given. The unspecified `SRC.HOLDER`, `HUF.ROOT` and `HUF.CURSOR` are 0 in
`State.reset` (DESIGN CHOICE, assumption 5; a later reset leaves them free); the unspecified memories list nothing
(assumption 6). -/
def Units.resetWith (inp : InPort) (out : OutPort) : Units where
  src := { holder := 0, pos := 8, eof := false, err := false }
  snk := { acc := 0, pos := 7, good := true }
  huf := { freq := [], total := 0, nodes := [], root := 0, cursor := 0, tree := .empty, code := [] }
  lz77 := { sb := 0, lb := 0, win := [], ss := 0, sp := 0, ls := 0, le := 0, csize := 0, rem := 0 }
  dict := []
  dz := { db := 0, bb := 0, blk := [], cnt := 0, i := 0 }
  lzw := { w := none, prev := none }
  detect := { alg := .huf, valid := false, p1 := 0, p2 := 0 }
  result := 0
  inp := inp
  out := out

/-- CONFIG at reset: LZW with both parameters 0 (R44). -/
def ConfigReg.reset : ConfigReg := { alg := .lzw, p1 := 0, p2 := 0 }

/-- The machine right after reset, no agent of the environment having a move to make. DESIGN CHOICE
(assumption 4): the producer has offered nothing and its stream is seekable; the consumer accepts every byte. -/
def State.reset : State where
  cfg := Params.reference
  busy := false
  cmd := 0
  phase := .idle
  current := none
  arg := 0
  config := ConfigReg.reset
  ie := false
  done := false
  err := false
  ecode := 0
  irqPend := false
  ovr := false
  units := Units.resetWith
    { offer := [], given := [], closed := none, seekable := true, replay := none, taken := 0 }
    { events := [], answers := [], habit := some .ok }
  begun := none
  script := []
  rdata := 0
  draws := 0

end Sys2Proof.Machine
end

