-- ==== Sys2Proof/Machine/Ops.lean ====
section
/-! DEFINITION. The named operations: tables and byte memories, the two ports (20_memory.md), the BitSource and
BitSink (40_bitsource.md, 41_bitsink.md), the checked forms the codecs use, and the frame the sequencer puts around
every command: its start, its successful end and its end with an error (47_control.md R461, 60_exceptions.md R510,
R511). The block has no trap and no return from one (R510): ending with an error is the whole of it. -/

namespace Sys2Proof.Machine

/-! ## Tables by key -/

/-- The value at a key. -/
def Sparse.get {α : Type} : Sparse α → Nat → Option α
  | [], _ => none
  | (a, v) :: m, k => if a = k then some v else Sparse.get m k

/-- Write one key, keeping the keys rising. -/
def Sparse.set {α : Type} : Sparse α → Nat → α → Sparse α
  | [], k, v => [(k, v)]
  | (a, w) :: m, k, v =>
    if k < a then (k, v) :: (a, w) :: m
    else if k = a then (k, v) :: m
    else (a, w) :: Sparse.set m k v

/-- Take one key out. -/
def Sparse.erase {α : Type} (m : Sparse α) (k : Nat) : Sparse α := m.filter fun e => e.1 ≠ k

/-- Write one key of a table whose unlisted keys read as `d`. -/
def Sparse.write {α : Type} [DecidableEq α] (m : Sparse α) (d : α) (k : Nat) (v : α) : Sparse α :=
  if v = d then m.erase k else m.set k v

/-- `MemWrite` of a byte memory (20_memory.md R102). -/
def Memory.write (m : Memory) (a : Nat) (b : Byte) : Memory := Sparse.set m a b

/-- `MemRead` of a byte memory whose unwritten bytes have the free values `free` (assumption 6). -/
def Memory.read (m : Memory) (free : Nat → Byte) (a : Nat) : Byte := (Sparse.get m a).getD (free a)

/-! ## Programs over the units -/

/-- The error codes (60_exceptions.md R500). -/
inductive ErrorCode
  | headerInvalid | unexpectedEof | streamError | dictionaryIndex | unterminatedStream
  | badCommand | badParameter | capacityExceeded
  deriving DecidableEq, Repr

/-- `STATUS.ECODE` of an error (R500). -/
def ErrorCode.code : ErrorCode → BitVec 4
  | .headerInvalid => 1
  | .unexpectedEof => 2
  | .streamError => 3
  | .dictionaryIndex => 4
  | .unterminatedStream => 5
  | .badCommand => 6
  | .badParameter => 7
  | .capacityExceeded => 8

/-- Why a stretch of a command's rule does not run to its end. -/
inductive Stop
  /-- `raise Error(e)` (R510). -/
  | raise (e : ErrorCode)
  /-- A port has not answered: the command waits (20_memory.md R95, R97). -/
  | wait
  deriving DecidableEq, Repr

/-- A stretch of a command's rule. What it did before it stopped stays done (R512). Beside its end it gives the units
after each of its steps, so that another agent can act between any two of them (70_reset_and_hazards.md R615). -/
abbrev M := ExceptT Stop (WriterT (List Units) (StateM Units))

/-- A stretch that begins in units `u`: its end, the units after each of its steps, and those it leaves. -/
def M.run {α : Type} (m : M α) (u : Units) : (Except Stop α × List Units) × Units :=
  StateT.run (WriterT.run (ExceptT.run m)) u

/-- How a stretch ends that begins in units `u`. -/
def M.on {α : Type} (m : M α) (u : Units) : EStateM.Result Stop Units α :=
  match m.run u with
  | ((.ok a, _), v) => .ok a v
  | ((.error e, _), v) => .error e v

/-- The units after each step of a stretch that begins in units `u`, first one first. -/
def M.past {α : Type} (m : M α) (u : Units) : List Units := (m.run u).1.2

/-- What follows a stretch that ran to its end. -/
inductive Next
  /-- `complete()`. -/
  | complete
  /-- The command goes on in this phase. -/
  | goto (p : Phase)
  deriving DecidableEq, Repr

/-- One step: one effect on the units or one transfer at a port. A step that has to wait has not been made. -/
def act {α : Type} (f : Units → EStateM.Result Stop Units α) : M α :=
  ExceptT.mk (WriterT.mk fun u =>
    match f u with
    | .ok a v => ((.ok a, [v]), v)
    | .error e v => ((.error e, []), v))

/-- Read something of the units: no step, since no other agent changes them. -/
def look {α : Type} (f : Units → α) : M α := ExceptT.mk (WriterT.mk fun u => ((.ok (f u), []), u))

/-- The stretch stops. -/
def stop {α : Type} (e : Stop) : M α := ExceptT.mk (WriterT.mk fun u => ((.error e, []), u))

/-- Change the units. -/
def upd (f : Units → Units) : M Unit := act fun u => .ok () (f u)

/-- `raise Error(e)`. -/
def raise {α : Type} (e : ErrorCode) : M α := stop (.raise e)

/-- The command waits for a port. -/
def await {α : Type} : M α := stop .wait

/-! ## The ports -/

/-- `InRead()` (20_memory.md R94, R95). -/
def inRead : M InItem := act fun u =>
  match u.inp.closed with
  | some t => .ok (.stop t) { u with inp := { u.inp with taken := u.inp.taken + 1 } }
  | none =>
    match u.inp.offer with
    | [] => .error .wait u
    | .byte b :: rest =>
      .ok (.byte b) { u with inp := { u.inp with
        offer := rest, given := u.inp.given ++ [.byte b], taken := u.inp.taken + 1 } }
    | .stop t :: rest =>
      .ok (.stop t) { u with inp := { u.inp with
        offer := rest, given := u.inp.given ++ [.stop t], closed := some t, taken := u.inp.taken + 1 } }

/-- `InRewind()` (R96): the producer offers its stream again from the first byte, or, where it breaks its duty,
what it has instead (42_huffman.md R314). -/
def InPort.rewound (p : InPort) : InPort :=
  { p with offer := p.replay.getD (p.given ++ p.offer), given := [], closed := none, replay := none }

/-- `InRewind()` (R96). -/
def inRewind : M Unit := upd fun u => { u with inp := u.inp.rewound }

/-- An event at the output port. -/
def OutPort.happens (p : OutPort) (e : OutEvent) : OutPort := { p with events := p.events ++ [e] }

/-- `OutWrite(b)` (R97): whether the consumer accepted the byte. -/
def outWrite (b : Byte) : M Bool := act fun u =>
  match u.out.answers, u.out.habit with
  | .ok :: rest, _ => .ok true { u with out := { u.out with answers := rest }.happens (.byte b) }
  | .fail :: rest, _ => .ok false { u with out := { u.out with answers := rest } }
  | [], some .ok => .ok true { u with out := u.out.happens (.byte b) }
  | [], some .fail => .ok false u
  | [], none => .error .wait u

/-- `OutFlush()` (R98). -/
def outFlush : M Unit := upd fun u => { u with out := u.out.happens .flush }

/-- `TakeByte()` (R117): the next input byte, or `none` for End. -/
def takeByte : M (Option Byte) := do
  match ← inRead with
  | .byte b => pure (some b)
  | .stop .ended => pure none
  | .stop .failed => raise .streamError

/-- `EmitByte(b)` (R118). -/
def emitByte (b : Byte) : M Unit := do
  if ← outWrite b then pure () else raise .streamError

/-- `EmitByte` of each byte in order. -/
def emitBytes : List Byte → M Unit
  | [] => pure ()
  | b :: bs => do
    emitByte b
    emitBytes bs

/-! ## BitSource (40_bitsource.md) -/

/-- The initial state of the BitSource (R201); the holder keeps its value. -/
def Src.cleared (s : Src) : Src := { s with pos := 8, eof := false, err := false }

/-- `good` (R207). -/
def Src.good (s : Src) : Bool := !(s.eof || s.err)

/-- `Refill()` (R202): whether it got a byte. -/
def refill : M Bool := do
  match ← inRead with
  | .byte b => do
    upd fun u => { u with src := { u.src with holder := b, pos := 7 } }
    pure true
  | .stop .ended => do
    upd fun u => { u with src := { u.src with eof := true } }
    pure false
  | .stop .failed => do
    upd fun u => { u with src := { u.src with err := true } }
    pure false

/-- The place of the bit after the one at `pos`: one lower, or EMPTY after place 0 (R203). -/
def nextPos (pos : Fin 9) : Fin 9 := if pos = 0 then 8 else pos - 1

/-- The next bit of a held byte (R203). -/
def heldBit : M Bool := do
  let s ← look (·.src)
  upd fun u => { u with src := { u.src with pos := nextPos s.pos } }
  pure (s.holder.getLsbD s.pos.val)

/-- `SrcGetBit()` (R203). -/
def srcGetBit : M Bool := do
  let s ← look (·.src)
  if s.good then
    if s.pos = 8 then
      if ← refill then heldBit else pure false
    else heldBit
  else pure false

/-- `SrcGetBits(n)` (R205), `acc` holding the bits already read. -/
def srcGetBits : Nat → Nat → M Nat
  | 0, acc => pure acc
  | n + 1, acc => do
    let b ← srcGetBit
    srcGetBits n (2 * acc + b.toNat)

/-- One bit of a checked read, `eofError` being the error of End here: `ReadField` (R208) and `ReadBlockFlag`
(R209) test after all their bits, which is the same, since a read that has failed changes nothing any more
(assumption 10). StreamError takes precedence (60_exceptions.md R513). -/
def readBit (eofError : ErrorCode) : M Bool := do
  let b ← srcGetBit
  let s ← look (·.src)
  if s.err then raise .streamError
  else if s.eof then raise eofError
  else pure b

/-! ## BitSink (41_bitsink.md) -/

/-- The initial state of the BitSink (R231). -/
def Snk.initial : Snk := { acc := 0, pos := 7, good := true }

/-- `v[i] <- b`. -/
def setBit (v : Byte) (i : Nat) (b : Bool) : Byte :=
  if b then v ||| (1#8 <<< i) else v &&& ~~~(1#8 <<< i)

/-- `Emit()` (R232). -/
def snkEmit : M Unit := do
  if ← outWrite (← look (·.snk.acc)) then pure ()
  else upd fun u => { u with snk := { u.snk with good := false } }
  upd fun u => { u with snk := { u.snk with acc := 0 } }
  upd fun u => { u with snk := { u.snk with pos := 7 } }

/-- `SnkPutBit(b)` (R233). -/
def snkPutBit (b : Bool) : M Unit := do
  let k ← look (·.snk)
  if k.good then do
    upd fun u => { u with snk := { u.snk with acc := setBit k.acc k.pos.val b } }
    if k.pos = 0 then snkEmit
    else upd fun u => { u with snk := { u.snk with pos := k.pos - 1 } }
  else pure ()

/-- Append bits in order; `SnkPutBits(v, n)` (R235) is this on `bitsOf n v`. -/
def snkPutBits : List Bool → M Unit
  | [] => pure ()
  | b :: bs => do
    snkPutBit b
    snkPutBits bs

/-- `SnkFlush()` (R237). -/
def snkFlush : M Unit := do
  let k ← look (·.snk)
  if k.good then do
    if k.pos = 7 then pure () else snkEmit
    if ← look (·.snk.good) then outFlush else pure ()
  else pure ()

/-- A checked write of bits: `WriteField` (R240) of one field or of several in a row. Testing once after the last
is the same, since a sink that has failed ignores every later bit (assumption 18). No field, no test. -/
def writeBits : List Bool → M Unit
  | [] => pure ()
  | b :: bs => do
    snkPutBits (b :: bs)
    if ← look (·.snk.good) then pure () else raise .streamError

/-- Write an instruction of a stream, checked. -/
def writeToken (c : Ctx) (i : Instr) : M Unit := writeBits (encode c i)

/-! ## The frame of every command (47_control.md R461) -/

/-- The start of a command: `BUSY <- 1`, DONE, ERR, ECODE and IRQ_PEND cleared; nothing of it has run. -/
def State.begin (s : State) : State :=
  { s with
    busy := true, done := false, err := false, ecode := 0, irqPend := false
    phase := .command, current := none, begun := none }

/-- No command runs. -/
def State.atRest (s : State) : State :=
  { s with busy := false, phase := .idle, current := none, begun := none }

/-- `complete()` (60_exceptions.md R511). -/
def State.complete (s : State) : State :=
  { s.atRest with done := true, err := false, ecode := 0, irqPend := true }

/-- The end of a command by `raise Error(e)` (R510). -/
def State.raised (s : State) (e : ErrorCode) : State :=
  { s.atRest with done := false, err := true, ecode := e.code, irqPend := true }

/-- The units are `u`, and the running stretch is not over: `n` of its steps have been made, from the units of `s` on.
It will be run again from there, with the port answers that have come in the meantime (assumption 3). -/
def State.amid (s : State) (u : Units) (n : Nat) : State := { s with units := u, begun := some ⟨s.units, n⟩ }

/-- What the running stretch leaves at its end, or where a port has not answered. -/
def State.settle (s : State) (p : M Next) : State :=
  match p.on s.units with
  | .ok .complete u => { s with units := u }.complete
  | .ok (.goto q) u => { s with units := u, phase := q, current := none, begun := none }
  | .error (.raise e) u => { s with units := u }.raised e
  | .error .wait u => s.amid u (p.past s.units).length

/-- How many steps a stretch has; the end of the command, `complete()` or `raise`, is one of them. -/
def M.steps (p : M Next) (u : Units) : Nat :=
  match p.on u with
  | .ok .complete _ | .error (.raise _) _ => (p.past u).length + 1
  | .ok (.goto _) _ | .error .wait _ => (p.past u).length

/-- The units after `n` steps of a stretch. -/
def unitsAt (u : Units) (past : List Units) (n : Nat) : Units := ((u :: past)[n]?).getD u

/-- The first `n` steps of a stretch, or all of it where it has no more (assumption 2). -/
def State.partly (s : State) (n : Nat) (p : M Next) : State :=
  if n < p.steps s.units then s.amid (unitsAt s.units (p.past s.units) n) n else s.settle p

/-- A rule and the state in which it runs. -/
structure Stretch where
  start : State
  rule : M Next

/-- Command `i` in its frame. -/
def commandStretch (i : Instr) (p : M Next) (s : State) : Stretch := ⟨{ s.begin with current := some i }, p⟩

/-- Stream token `i` where the running decoder reads such tokens: `p` answers the token's rule in the phases that
admit it (assumption 12). -/
def tokenStretch (i : Instr) (p : Phase → Option (M Next)) (s : State) : Option Stretch :=
  (p s.phase).map fun rule => ⟨{ s with current := some i }, rule⟩

/-- Run a stretch to its end, or until it waits. -/
def Stretch.run (r : Stretch) : Host.Outcome State Fault Refusal := .next (r.start.settle r.rule)

/-- Run the rule of command `i`. -/
def runCommand (i : Instr) (p : M Next) (s : State) : Host.Outcome State Fault Refusal := (commandStretch i p s).run

/-- Run a stretch of the running command that is no instruction of its own. -/
def runStretch (p : M Next) (s : State) : Host.Outcome State Fault Refusal := (Stretch.mk s p).run

/-- Run stream token `i`. -/
def runToken (i : Instr) (p : Phase → Option (M Next)) (s : State) : Host.Outcome State Fault Refusal :=
  match tokenStretch i p s with
  | some r => r.run
  | none => .refused .tokenOutOfPlace

end Sys2Proof.Machine
end

