-- ==== Sys2Proof/Machine/Operands.lean ====
section
/-! DEFINITION. Operands and results: the words of the host registers (10_state.md R33 to R49), the forms of RESULT
(R35), the parameters of an encoder (R45) and the sizes that follow from parameters (R62, R66, R69). -/

namespace Sys2Proof.Machine

/-! ## Register words -/

/-- CONFIG as a word (R42); reserved bits are 0. -/
def ConfigReg.toWord (c : ConfigReg) : Word := (0#11 ++ c.p2 ++ 0#3 ++ c.p1 ++ 0#6 ++ c.alg.code : BitVec 32)

/-- CONFIG after a write (R42): the reserved bits of the written word are ignored. -/
def ConfigReg.ofWord (w : Word) : ConfigReg where
  alg := Alg.ofCode (w.extractLsb' 0 2)
  p1 := w.extractLsb' 8 5
  p2 := w.extractLsb' 16 5

/-- DETECT as a word (R47). -/
def Detect.toWord (d : Detect) : Word :=
  (0#11 ++ d.p2 ++ 0#3 ++ d.p1 ++ 0#5 ++ BitVec.ofBool d.valid ++ d.alg.code : BitVec 32)

/-- DETECT cleared (R47). -/
def Detect.zero : Detect := { alg := .huf, valid := false, p1 := 0, p2 := 0 }

/-- CTRL as a word (R46). -/
def ctrlWord (ie : Bool) : Word := (0#31 ++ BitVec.ofBool ie : BitVec 32)

/-- ID (R49). Bits 15:13 and 23:21, to which R49 gives no value, are 0 (DESIGN CHOICE, assumption 23). -/
def idWord (p : Params) : Word :=
  (0#3 ++ p.maxBlockBits ++ 0#3 ++ p.maxDictBits ++ 0#3 ++ p.maxSearchBits ++ BitVec.ofNat 8 formatVersion : BitVec 32)

/-! ## RESULT (R35) -/

/-- RESULT of HUF_ADD_BIT: `[8]` SYM_VALID, `[7:0]` the symbol. -/
def walkResult (r : Option Byte) : Word :=
  match r with
  | some sym => (0#23 ++ 1#1 ++ sym : BitVec 32)
  | none => 0

/-- RESULT of ENV_GET_MAGIC: the value read and, where it is a magic, bit 18 and the algorithm code. -/
def magicResult (m : BitVec 16) (a : Option Alg) : Word :=
  match a with
  | some alg => (0#13 ++ 1#1 ++ alg.code ++ m : BitVec 32)
  | none => (0#16 ++ m : BitVec 32)

/-- Write RESULT. -/
def setResult (w : Word) : M Unit := upd fun u => { u with result := w }

/-- `RESULT <- w ; complete()`. -/
def completeWith (w : Word) : M Next := do
  setResult w
  pure .complete

/-- The end of a decoder that has read its whole stream: `OutFlush() ; complete()` (46_envelope.md R437, R438). -/
def finishDecode : M Next := do
  outFlush
  pure .complete

/-- The end of an encoder: the final flush, checked (41_bitsink.md R240). -/
def finishEncode : M Next := do
  snkFlush
  if ← look (·.snk.good) then pure .complete else raise .streamError

/-! ## Encoder parameters (R45, 46_envelope.md R435) -/

/-- The format range of an algorithm's parameters (00_scope.md R18). -/
def paramsInFormat (a : Alg) (p1 p2 : Nat) : Bool :=
  match a with
  | .huf => true
  | .lz77 => 1 ≤ p1 && p1 ≤ 29 && 1 ≤ p2 && p2 + 1 ≤ p1
  | .lz78 => 1 ≤ p1 && 1 ≤ p2
  | .lzw => 8 ≤ p1 && 1 ≤ p2

/-- The instance limits for an encoder (R11 to R13). -/
def paramsInLimits (cfg : Params) (a : Alg) (p1 p2 : Nat) : Bool :=
  match a with
  | .huf => true
  | .lz77 => p1 ≤ cfg.maxSearchBits.toNat
  | .lz78 | .lzw => p1 ≤ cfg.maxDictBits.toNat && p2 ≤ cfg.maxBlockBits.toNat

/-- `CheckEncParams` (R45): the format range first, then the limits. -/
def checkEncParams (cfg : Params) (a : Alg) (p1 p2 : BitVec 5) : M Unit := do
  if paramsInFormat a p1.toNat p2.toNat then
    if paramsInLimits cfg a p1.toNat p2.toNat then pure () else raise .capacityExceeded
  else raise .badParameter

/-- The limit a decoder puts on a header's first parameter (R351, R382, R406); `block_bits` has none. -/
def headerInLimits (cfg : Params) (a : Alg) (p1 : Nat) : Bool :=
  match a with
  | .huf => true
  | .lz77 => p1 ≤ cfg.maxSearchBits.toNat
  | .lz78 | .lzw => p1 ≤ cfg.maxDictBits.toNat

/-- The header check of an LZ decoder: DETECT first, then the format range, then the limit
(43_lz77.md R351, 44_lz78.md R382, 45_lzw.md R406). -/
def checkHeader (cfg : Params) (a : Alg) (p1 p2 : BitVec 5) : M Unit := do
  upd fun u => { u with detect := { u.detect with p1 := p1, p2 := p2 } }
  if paramsInFormat a p1.toNat p2.toNat then
    if headerInLimits cfg a p1.toNat then pure () else raise .capacityExceeded
  else raise .headerInvalid

/-! ## Sizes -/

/-- `S`, search_size (R62). -/
def Lz77.searchSize (z : Lz77) : Nat := 2 ^ z.sb.toNat

/-- `A`, lookahead_size, the block size of LZ77 (R62). -/
def Lz77.lookaheadSize (z : Lz77) : Nat := 2 ^ z.lb.toNat

/-- `WSIZE`, window_size (R62). -/
def Lz77.windowSize (z : Lz77) : Nat := z.searchSize + z.lookaheadSize

/-- `DICT.CAP` (R66). -/
def Dz.cap (z : Dz) : Nat := 2 ^ z.db.toNat

/-- `DZ.B`, the block size of LZ78 and LZW (R69). -/
def Dz.blockSize (z : Dz) : Nat := 2 ^ z.bb.toNat

end Sys2Proof.Machine
end

