-- ==== Sys2Proof/Machine/Flags.lean ====
section
/-! DEFINITION. STATUS and the interrupt line (10_state.md R36 to R41, 60_exceptions.md R520, R521). The block has no
arithmetic flags (R50); every bit of STATUS is a view of a field of the state. -/

namespace Sys2Proof.Machine

/-- TREE_VALID: a tree is held. -/
def Huf.treeValid (h : Huf) : Bool :=
  match h.tree with
  | .empty => false
  | .leafRoot | .internalRoot => true

/-- STATUS (R36), from bit 31 down to bit 0. -/
def statusWord (s : State) : Word :=
  (s.units.snk.acc
    ++ 0#1
    ++ BitVec.ofNat 3 s.units.snk.pos.val
    ++ BitVec.ofNat 4 s.units.src.pos.val
    ++ 0#1
    ++ BitVec.ofBool s.ovr
    ++ BitVec.ofBool s.irqPend
    ++ BitVec.ofBool s.units.huf.treeValid
    ++ BitVec.ofBool s.units.snk.good
    ++ BitVec.ofBool s.units.src.good
    ++ BitVec.ofBool s.units.src.err
    ++ BitVec.ofBool s.units.src.eof
    ++ s.ecode
    ++ 0#1
    ++ BitVec.ofBool s.err
    ++ BitVec.ofBool s.done
    ++ BitVec.ofBool s.busy : BitVec 32)

/-- STATUS after a host write (R39, R40, R463): bit 13 clears IRQ_PEND, bit 14 clears OVR, nothing else. -/
def writeStatus (s : State) (w : Word) : State :=
  { s with irqPend := s.irqPend && !w.getLsbD 13, ovr := s.ovr && !w.getLsbD 14 }

/-- The interrupt output (R521): a level. -/
def irq (s : State) : Bool := s.irqPend && s.ie

end Sys2Proof.Machine
end

