-- ==== Sys2Proof/Machine/BitSink.lean ====
section
/-! DEFINITION. The BitSink commands (41_bitsink.md). A refused byte is no error here: SNK_GOOD reports it
(R234 to R238). -/

namespace Sys2Proof.Machine

/-- The rule of SNK_RESET. -/
def ruleSnkReset : M Next := do
  upd fun u => { u with snk := Snk.initial }
  pure .complete

/-- SNK_RESET (R231). -/
def execSnkReset (s : State) : Host.Outcome State Fault Refusal := runCommand .snkReset ruleSnkReset s

/-- The rule of SNK_PUT_BIT. -/
def ruleSnkPutBit (bit : Bool) : M Next := do
  snkPutBit bit
  pure .complete

/-- SNK_PUT_BIT bit (R234). -/
def execSnkPutBit (bit : Bool) (s : State) : Host.Outcome State Fault Refusal :=
  runCommand (.snkPutBit bit) (ruleSnkPutBit bit) s

/-- The rule of SNK_PUT_BITS, `arg` being ARG. -/
def ruleSnkPutBits (n : Byte) (arg : Word) : M Next := do
  if bitCountOk n then do
    snkPutBits (bitsOf n.toNat arg.toNat)
    pure .complete
  else raise .badCommand

/-- SNK_PUT_BITS n (R236): the low `n` bits of ARG. -/
def execSnkPutBits (n : Byte) (s : State) : Host.Outcome State Fault Refusal :=
  runCommand (.snkPutBits n) (ruleSnkPutBits n s.arg) s

/-- The rule of SNK_FLUSH. -/
def ruleSnkFlush : M Next := do
  snkFlush
  pure .complete

/-- SNK_FLUSH (R238). -/
def execSnkFlush (s : State) : Host.Outcome State Fault Refusal := runCommand .snkFlush ruleSnkFlush s

end Sys2Proof.Machine
end

