-- ==== Sys2Proof/Machine/BitSource.lean ====
section
/-! DEFINITION. The BitSource commands (40_bitsource.md). End of input and input failure are no errors here: the
flags report them (R204, R206). -/

namespace Sys2Proof.Machine

/-- The rule of SRC_RESET. -/
def ruleSrcReset : M Next := do
  upd fun u => { u with src := u.src.cleared }
  pure .complete

/-- SRC_RESET (R201). -/
def execSrcReset (s : State) : Host.Outcome State Fault Refusal := runCommand .srcReset ruleSrcReset s

/-- The rule of SRC_GET_BIT. -/
def ruleSrcGetBit : M Next := do
  let b ← srcGetBit
  completeWith (BitVec.ofNat 32 b.toNat)

/-- SRC_GET_BIT (R204). -/
def execSrcGetBit (s : State) : Host.Outcome State Fault Refusal := runCommand .srcGetBit ruleSrcGetBit s

/-- The rule of SRC_GET_BITS. -/
def ruleSrcGetBits (n : Byte) : M Next := do
  if bitCountOk n then do
    let v ← srcGetBits n.toNat 0
    completeWith (BitVec.ofNat 32 v)
  else raise .badCommand

/-- SRC_GET_BITS n (R206). -/
def execSrcGetBits (n : Byte) (s : State) : Host.Outcome State Fault Refusal :=
  runCommand (.srcGetBits n) (ruleSrcGetBits n) s

end Sys2Proof.Machine
end

