-- ==== Sys2Proof/Machine/Control.lean ====
section
/-! DEFINITION. The control commands (47_control.md): NOP and SOFT_RESET. -/

namespace Sys2Proof.Machine

/-- The rule of NOP. -/
def ruleNop : M Next := pure .complete

/-- NOP (R460). -/
def execNop (s : State) : Host.Outcome State Fault Refusal := runCommand .nop ruleNop s

/-- The units after a reset (10_state.md R72): every entry at its reset value, the ports as they are (R462,
70_reset_and_hazards.md R600), and the unspecified `SRC.HOLDER`, `HUF.ROOT` and `HUF.CURSOR` free (assumption 5). -/
def unitsReset (u : Units) : Units :=
  let r := Units.resetWith u.inp u.out
  { r with
    src := { r.src with holder := Config.resetHolder u.src.holder }
    huf := { r.huf with
      root := (Config.resetRoot u.huf.root).toNat
      cursor := (Config.resetCursor u.huf.cursor).toNat } }

/-- The units reset: SOFT_RESET touches no port (R462). -/
def softResetUnits : M Next := do
  upd unitsReset
  pure .complete

/-- SOFT_RESET resets these host registers too (R462). R462 gives its entries no order: that these come with the start of
the command, before its first step, and the units after them is DESIGN CHOICE (assumption 26). -/
def softResetStart (s : State) : State := { s with cmd := 0, arg := 0, config := ConfigReg.reset }

/-- SOFT_RESET (R462): every entry of 10_state.md R72 but CTRL and STATUS.OVR (R72, 70_reset_and_hazards.md R602); of
SEQ, `CMD` is reset and `BUSY` is the running command's own (assumption 25). -/
def execSoftReset (s : State) : Host.Outcome State Fault Refusal :=
  runCommand .softReset softResetUnits (softResetStart s)

/-- Hardware reset (70_reset_and_hazards.md R600): every entry of R72; a running command is abandoned where it
stands. The ports are the environment's and keep what they have taken and accepted
(assumption 14). -/
def hardReset (s : State) : State :=
  { State.reset with
    cfg := s.cfg
    units := unitsReset s.units
    script := s.script
    rdata := s.rdata
    draws := s.draws }

end Sys2Proof.Machine
end

