-- ==== Sys2Proof/Machine/Huffman.lean ====
section
/-! DEFINITION. The Huffman tree encoder, the tree decoder with its trie walk, and the Huffman codec
(42_huffman.md): the ten commands, the tokens HUF_HEADER, HUF_TREE_INTERNAL, HUF_TREE_LEAF and HUF_CODE, and the
stretches of the two-pass encoder. -/

namespace Sys2Proof.Machine

/-- Change the Huffman state. -/
def updHuf (f : Huf → Huf) : M Unit := upd fun u => { u with huf := f u.huf }

/-! ## Frequency table (R261 to R264) -/

/-- `HUF.FREQ[s]` (R57). -/
def Huf.count (h : Huf) (s : Byte) : Word := (Sparse.get h.freq s.toNat).getD 0

/-- A counter after one more occurrence. R262 argues that none can overflow, which a total that a decoder has
overwritten (10_state.md R48) makes untrue: the value is then free (assumption 9). -/
def countUp (s : Byte) (v : Word) : Word :=
  if v = 0xFFFFFFFF then Config.counterOverflow s else v + 1

/-- The table with no occurrence counted (R261). -/
def Huf.freqCleared (h : Huf) : Huf := { h with freq := [], total := 0 }

/-- The table after one occurrence of `s` (R262). -/
def Huf.counted (h : Huf) (s : Byte) : Huf :=
  { h with freq := Sparse.write h.freq 0 s.toNat (countUp s (h.count s)), total := h.total + 1 }

/-- `FreqAdd(s)` (R262). -/
def freqAdd (s : Byte) : M Unit := do
  if (← look (·.huf.total)) = 0xFFFFFFFF then raise .capacityExceeded
  else updHuf (·.counted s)

/-- The rule of FREQ_CLEAR. -/
def ruleFreqClear : M Next := do
  updHuf Huf.freqCleared
  pure .complete

/-- FREQ_CLEAR (R261). -/
def execFreqClear (s : State) : Host.Outcome State Fault Refusal := runCommand .freqClear ruleFreqClear s

/-- The rule of FREQ_ADD. -/
def ruleFreqAdd (sym : Byte) : M Next := do
  freqAdd sym
  pure .complete

/-- FREQ_ADD sym (R263). -/
def execFreqAdd (sym : Byte) (s : State) : Host.Outcome State Fault Refusal :=
  runCommand (.freqAdd sym) (ruleFreqAdd sym) s

/-- The rule of FREQ_GET. -/
def ruleFreqGet (sym : Byte) : M Next := do
  let v ← look (·.huf.count sym)
  completeWith v

/-- FREQ_GET sym (R264). -/
def execFreqGet (sym : Byte) (s : State) : Host.Outcome State Fault Refusal :=
  runCommand (.freqGet sym) (ruleFreqGet sym) s

/-! ## Tree construction (R265 to R269) -/

/-- The weight of a node. -/
def Node.weight : Node → Word
  | .leaf _ w => w
  | .internal _ _ w => w

/-- The weight of node `i`. -/
def weightAt (nodes : List Node) (i : Nat) : Word := (nodes[i]?.map Node.weight).getD 0

/-- The sum of two weights. R269 argues that it fits 32 bits, which a total that a decoder has overwritten makes
untrue: the value is then free (assumption 9). -/
def addWeights (a b : Word) : Word :=
  if a.toNat + b.toNat < 2 ^ 32 then a + b else Config.weightOverflow a b

/-- The leaves in ascending order of byte value (R268). -/
def Huf.leaves (h : Huf) : List Node :=
  (h.freq.filter fun e => e.2 ≠ 0).map fun e => .leaf (BitVec.ofNat 8 e.1) e.2

/-- `k`, the number of distinct symbols (R271). -/
def Huf.distinct (h : Huf) : Nat := h.leaves.length

/-- The key order of the queue: weight first, then index (R268). -/
def leavesBefore (nodes : List Node) (i j : Nat) : Bool :=
  (weightAt nodes i).toNat < (weightAt nodes j).toNat ||
    ((weightAt nodes i).toNat == (weightAt nodes j).toNat && i < j)

/-- The element with the least key among `best` and a list. -/
def leastKey (nodes : List Node) : Nat → List Nat → Nat
  | best, [] => best
  | best, i :: rest => leastKey nodes (if leavesBefore nodes i best then i else best) rest

/-- The merges of `Build()` (R267): `queue` holds the indices in the queue; `fuel` bounds their number. -/
def mergeNodes : Nat → List Nat → List Node → List Node
  | 0, _, nodes => nodes
  | fuel + 1, queue, nodes =>
    match queue with
    | [] => nodes
    | i :: rest =>
      let a := leastKey nodes i rest
      match queue.erase a with
      | [] => nodes
      | j :: rest' =>
        let b := leastKey nodes j rest'
        mergeNodes fuel (nodes.length :: (j :: rest').erase b)
          (nodes ++ [.internal (some a) (some b) (addWeights (weightAt nodes a) (weightAt nodes b))])

/-- The walk of `Codify()` (R270) from node `i` with path `path`; `fuel` bounds the depth. -/
def walkCodes (nodes : List Node) : Nat → Nat → List Bool → Sparse (List Bool) → Sparse (List Bool)
  | 0, _, _, code => code
  | fuel + 1, i, path, code =>
    match nodes[i]? with
    | some (.leaf sym _) => Sparse.write code [] sym.toNat path
    | some (.internal left right _) =>
      let afterLeft :=
        match left with
        | some l => walkCodes nodes fuel l (path ++ [false]) code
        | none => code
      match right with
      | some r => walkCodes nodes fuel r (path ++ [true]) afterLeft
      | none => afterLeft
    | none => code

/-- `Codify()` (R270). -/
def Huf.codified (h : Huf) : Huf :=
  { h with code :=
      match h.tree with
      | .empty => []
      | .leafRoot =>
        match h.nodes[h.root]? with
        | some (.leaf sym _) => Sparse.write [] [] sym.toNat [true]
        | _ => []
      | .internalRoot => walkCodes h.nodes h.nodes.length h.root [] [] }

/-- The tree for the frequency table, by `k` (R265, R266, R267). -/
def Huf.treeBuilt (h : Huf) : Huf :=
  match h.leaves with
  | [] => { h with nodes := [], tree := .empty }
  | [l] => { h with nodes := [l], root := 0, tree := .leafRoot }
  | l :: l' :: ls =>
    let nodes := mergeNodes (l :: l' :: ls).length (List.range (l :: l' :: ls).length) (l :: l' :: ls)
    { h with nodes := nodes, root := nodes.length - 1, tree := .internalRoot }

/-- The walk stands at the root. -/
def Huf.walkReset (h : Huf) : Huf := { h with cursor := h.root }

/-- What HUF_BUILD makes of the Huffman state (R271). -/
def Huf.built (h : Huf) : Huf := h.treeBuilt.codified.walkReset

/-- `Build()`, `Codify()`, and the walk at the root (R271). -/
def hufBuild : M Unit := do
  updHuf Huf.treeBuilt
  updHuf Huf.codified
  updHuf Huf.walkReset

/-- The rule of HUF_BUILD. -/
def ruleHufBuild : M Next := do
  hufBuild
  pure .complete

/-- HUF_BUILD (R271). -/
def execHufBuild (s : State) : Host.Outcome State Fault Refusal := runCommand .hufBuild ruleHufBuild s

/-! ## Codes and serialization (R272 to R275) -/

/-- The code of `s`, first bit first: `HUF.CODE[s].bits`, whose length is `HUF.CODE[s].len` (R61); no symbol has one
while TREE_VALID is 0 (R272, R273, assumption 24). -/
def Huf.codeOf (h : Huf) (s : Byte) : List Bool :=
  if h.tree = .empty then [] else (Sparse.get h.code s.toNat).getD []

/-- The rule of HUF_CODE_LEN. -/
def ruleHufCodeLen (sym : Byte) : M Next := do
  let c ← look (·.huf.codeOf sym)
  completeWith (BitVec.ofNat 32 c.length)

/-- HUF_CODE_LEN sym (R272). -/
def execHufCodeLen (sym : Byte) (s : State) : Host.Outcome State Fault Refusal :=
  runCommand (.hufCodeLen sym) (ruleHufCodeLen sym) s

/-- `PutCode(s)` (R273), in one piece (assumption 18). -/
def putCode (sym : Byte) : M Unit := do
  let c ← look (·.huf.codeOf sym)
  writeToken .code (.hufCode c)

/-- The rule of HUF_PUT_SYM. -/
def ruleHufPutSym (sym : Byte) : M Next := do
  if (← look (·.huf.codeOf sym)) = [] then raise .badParameter
  else do
    putCode sym
    pure .complete

/-- HUF_PUT_SYM sym (R273). -/
def execHufPutSym (sym : Byte) (s : State) : Host.Outcome State Fault Refusal :=
  runCommand (.hufPutSym sym) (ruleHufPutSym sym) s

/-- The pre-order walk of `Serialize()` (R274) with its stack, top first; `fuel` bounds the nodes written. -/
def serializeNodes (nodes : List Node) : Nat → List Nat → List Bool
  | 0, _ => []
  | _ + 1, [] => []
  | fuel + 1, i :: stack =>
    match nodes[i]? with
    | some (.leaf sym _) => encode .tree (.hufTreeLeaf sym) ++ serializeNodes nodes fuel stack
    | some (.internal left right _) =>
      encode .tree .hufTreeInternal ++ serializeNodes nodes fuel (left.toList ++ right.toList ++ stack)
    | none => serializeNodes nodes fuel stack

/-- The serialized tree (R274); nothing for the empty tree. -/
def Huf.serialized (h : Huf) : List Bool :=
  match h.tree with
  | .empty => []
  | .leafRoot | .internalRoot => serializeNodes h.nodes h.nodes.length [h.root]

/-- `Serialize()` (R274). -/
def serialize : M Unit := do
  writeBits (← look (·.huf.serialized))

/-- The rule of HUF_SERIALIZE. -/
def ruleHufSerialize : M Next := do
  serialize
  pure .complete

/-- HUF_SERIALIZE (R275). -/
def execHufSerialize (s : State) : Host.Outcome State Fault Refusal :=
  runCommand .hufSerialize ruleHufSerialize s

/-! ## Deserialization (R276 to R278) -/

/-- The Huffman state where a tree begins to be read (R276). -/
def Huf.treeStarted (h : Huf) : Huf := { h with tree := .empty, nodes := [], code := [] }

/-- Node `i` becomes the first free child of the node on top of the stack, which is popped once it has both
(R276). -/
def attachChild (nodes : List Node) (i : Nat) : List Nat → List Node × List Nat
  | [] => (nodes, [])
  | p :: stack =>
    match nodes[p]? with
    | some (.internal none right w) => (nodes.set p (.internal (some i) right w), p :: stack)
    | some (.internal (some l) _ w) => (nodes.set p (.internal (some l) (some i) w), stack)
    | _ => (nodes, stack)

/-- The Huffman state when every leaf slot has been filled (R276). -/
def Huf.treeEnded (h : Huf) : Huf :=
  let shape : TreeState :=
    match h.nodes.head? with
    | some (.leaf _ _) => .leafRoot
    | _ => .internalRoot
  Huf.codified { h with root := 0, cursor := 0, tree := shape }

/-- What follows a whole tree. -/
def afterTree (h : Huf) : TreeUse → Next
  | .command => .complete
  | .payload =>
    match h.tree with
    | .leafRoot => .goto (.leafRun h.total.toNat)
    | _ => .goto (.code 0)

/-- One node of a serialized tree (R276): allocate it, attach it, and go on until no slot is free. `opens`: it has
free slots of its own. -/
def addTreeNode (n : Node) (opens : Bool) (stack : List Nat) (use : TreeUse) : M Next := do
  let nodes ← look (·.huf.nodes)
  let (nodes', stack') := attachChild (nodes ++ [n]) nodes.length stack
  updHuf fun h => { h with nodes := nodes' }
  match (if opens then nodes.length :: stack' else stack') with
  | [] => do
    updHuf Huf.treeEnded
    pure (afterTree (← look (·.huf)) use)
  | p :: rest => pure (.goto (.tree (p :: rest) use))

/-- An internal node. -/
def Node.isInternal : Node → Bool
  | .leaf _ _ => false
  | .internal _ _ _ => true

/-- A leaf of symbol `sym`. -/
def Node.isLeafOf (sym : Byte) : Node → Bool
  | .leaf s _ => s = sym
  | .internal _ _ _ => false

/-- The rule of HUF_TREE_INTERNAL: a 256th internal node is malformed (R277). -/
def ruleTreeInternal (stack : List Nat) (use : TreeUse) : M Next := do
  if (← look (·.huf.nodes)).countP Node.isInternal = 255 then raise .headerInvalid
  else addTreeNode (.internal none none 0) true stack use

/-- The rule of HUF_TREE_LEAF: a symbol that already occurs is malformed (R277). -/
def ruleTreeLeaf (sym : Byte) (stack : List Nat) (use : TreeUse) : M Next := do
  if (← look (·.huf.nodes)).any (Node.isLeafOf sym) then raise .headerInvalid
  else addTreeNode (.leaf sym 0) false stack use

/-- The rule of HUF_TREE_INTERNAL in a phase that reads it. -/
def treeInternalRule : Phase → Option (M Next)
  | .tree stack use => some (ruleTreeInternal stack use)
  | _ => none

/-- HUF_TREE_INTERNAL, where a tree is being read (R276). -/
def execHufTreeInternal (s : State) : Host.Outcome State Fault Refusal :=
  runToken .hufTreeInternal treeInternalRule s

/-- The rule of HUF_TREE_LEAF in a phase that reads it. -/
def treeLeafRule (sym : Byte) : Phase → Option (M Next)
  | .tree stack use => some (ruleTreeLeaf sym stack use)
  | _ => none

/-- HUF_TREE_LEAF, where a tree is being read (R276). -/
def execHufTreeLeaf (sym : Byte) (s : State) : Host.Outcome State Fault Refusal :=
  runToken (.hufTreeLeaf sym) (treeLeafRule sym) s

/-- The rule of HUF_DESERIALIZE. -/
def ruleHufDeserialize : M Next := do
  updHuf Huf.treeStarted
  pure (.goto (.tree [] .command))

/-- HUF_DESERIALIZE (R278): the tree's tokens follow. -/
def execHufDeserialize (s : State) : Host.Outcome State Fault Refusal :=
  runCommand .hufDeserialize ruleHufDeserialize s

/-! ## The trie walk (R279 to R282) -/

/-- The child of the cursor's node on the side of a bit. -/
def Huf.child (h : Huf) (b : Bool) : Option Nat :=
  match h.nodes[h.cursor]? with
  | some (.internal left right _) => if b then right else left
  | _ => none

/-- `AddBit(b)` (R281): the symbol of the leaf reached, if one is. A missing child is a decoder error
(assumption 21). -/
def addBit (b : Bool) : M (Option Byte) := do
  let h ← look (·.huf)
  if h.tree = .leafRoot then raise .headerInvalid
  else
    match h.child b with
    | none => raise .headerInvalid
    | some c =>
      match h.nodes[c]? with
      | some (.leaf sym _) => do
        updHuf Huf.walkReset
        pure (some sym)
      | some (.internal _ _ _) => do
        updHuf fun h => { h with cursor := c }
        pure none
      | none => raise .headerInvalid

/-- The rule of HUF_WALK_RESET. -/
def ruleHufWalkReset : M Next := do
  if ← look (·.huf.treeValid) then do
    updHuf Huf.walkReset
    pure .complete
  else raise .badCommand

/-- HUF_WALK_RESET (R280). -/
def execHufWalkReset (s : State) : Host.Outcome State Fault Refusal :=
  runCommand .hufWalkReset ruleHufWalkReset s

/-- The rule of HUF_ADD_BIT. -/
def ruleHufAddBit (bit : Bool) : M Next := do
  if ← look (·.huf.treeValid) then do
    let r ← addBit bit
    completeWith (walkResult r)
  else raise .badCommand

/-- HUF_ADD_BIT bit (R282). -/
def execHufAddBit (bit : Bool) (s : State) : Host.Outcome State Fault Refusal :=
  runCommand (.hufAddBit bit) (ruleHufAddBit bit) s

/-! ## Huffman decoder (R320 to R323) -/

/-- The rule of HUF_HEADER: the count goes to `HUF.TOTAL`; a tree follows unless it is 0 (R320). -/
def ruleHufHeader (total : Word) : M Next := do
  updHuf fun h => { h with total := total, tree := .empty }
  if total = 0 then finishDecode
  else do
    updHuf Huf.treeStarted
    pure (.goto (.tree [] .payload))

/-- The rule of HUF_HEADER in a phase that reads it. -/
def hufHeaderRule (total : Word) : Phase → Option (M Next)
  | .header .huf => some (ruleHufHeader total)
  | _ => none

/-- HUF_HEADER, where a Huffman header is being read. -/
def execHufHeader (total : Word) (s : State) : Host.Outcome State Fault Refusal :=
  runToken (.hufHeader total) (hufHeaderRule total) s

/-- The rule of HUF_CODE: walk the tree with each bit; emit the symbol of a leaf; stop after the `N`-th symbol
(R320, R322). -/
def ruleHufCode : List Bool → Nat → M Next
  | [], produced => pure (.goto (.code produced))
  | b :: bits, produced => do
    match ← addBit b with
    | none => ruleHufCode bits produced
    | some sym => do
      emitByte sym
      if produced + 1 < (← look (·.huf.total)).toNat then ruleHufCode bits (produced + 1)
      else finishDecode

/-- The rule of HUF_CODE in a phase that reads it. -/
def hufCodeRule (bits : List Bool) : Phase → Option (M Next)
  | .code produced => some (ruleHufCode bits produced)
  | _ => none

/-- HUF_CODE, where a code stream is being read (assumption 11). -/
def execHufCode (bits : List Bool) (s : State) : Host.Outcome State Fault Refusal :=
  runToken (.hufCode bits) (hufCodeRule bits) s

/-- One symbol of a single-leaf root's run (R321). -/
def leafRun : Nat → M Next
  | 0 => finishDecode
  | left + 1 => do
    let h ← look (·.huf)
    match h.nodes[h.root]? with
    | some (.leaf sym _) => do
      emitByte sym
      pure (.goto (.leafRun left))
    | _ => raise .headerInvalid

/-! ## Huffman encoder (R310 to R315) -/

/-- Its start: a stream that cannot be read twice is refused, and the first pass begins (R312, R313). -/
def hufEncode (magic : Bool) : M Next := do
  if ← look (·.inp.seekable) then do
    updHuf Huf.freqCleared
    pure (.goto (.hufCount magic))
  else raise .streamError

/-- One item of the first pass (R312). -/
def hufCount (magic : Bool) : M Next := do
  match ← takeByte with
  | none => pure (.goto (.hufHead magic))
  | some b => do
    freqAdd b
    pure (.goto (.hufCount magic))

/-- Whether a code stream is written (R311). -/
def hasPayload (cfg : Params) (k : Nat) : Bool := 2 ≤ k || (k == 1 && cfg.hufSingle == .oneBit)

/-- Between the passes: build, magic, header, tree, rewind (R312). -/
def hufHead (cfg : Params) (magic : Bool) : M Next := do
  hufBuild
  if magic then writeToken .envelope .magicHuf else pure ()
  writeToken .hufHeader (.hufHeader (← look (·.huf.total)))
  serialize
  if hasPayload cfg (← look (·.huf.distinct)) then do
    inRewind
    pure (.goto (.hufPass 0))
  else pure (.goto .encFlush)

/-- One item of the second pass; an item that does not replay the first pass is a StreamError (R312, R314). -/
def hufPass (count : Nat) : M Next := do
  let item ← takeByte
  let n ← look (·.huf.total.toNat)
  match item with
  | none => if count = n then pure (.goto .encFlush) else raise .streamError
  | some b => do
    let c ← look (·.huf.codeOf b)
    if count = n ∨ c = [] then raise .streamError
    else do
      putCode b
      pure (.goto (.hufPass (count + 1)))

end Sys2Proof.Machine
end

