-- ==== Sys2Proof/Machine/Lz77.lean ====
section
/-! DEFINITION. The LZ77 sliding-window match engine (43_lz77.md): the stretches of its encoder, and the tokens
LZ77_HEADER, LZ77_LITERAL and LZ77_MATCH of its decoder. -/

namespace Sys2Proof.Machine

/-- Change the LZ77 state. -/
def updLz77 (f : Lz77 → Lz77) : M Unit := upd fun u => { u with lz77 := f u.lz77 }

/-- A window byte; the index is reduced modulo `WSIZE` (20_memory.md R101). -/
def Lz77.winAt (z : Lz77) (i : Nat) : Byte :=
  Memory.read z.win Config.unwrittenWindow (i % z.windowSize)

/-- The window with one byte written. -/
def Lz77.winSet (z : Lz77) (i : Nat) (b : Byte) : Lz77 :=
  { z with win := Memory.write z.win (i % z.windowSize) b }

/-- Stream start with the stream's parameters (R333, R339, R350); the window keeps its bytes. -/
def Lz77.started (z : Lz77) (sb lb : BitVec 5) : Lz77 :=
  { z with sb := sb, lb := lb, ss := 0, sp := 0, ls := 0, le := 0, csize := 0, rem := 0 }

/-- `Advance(L)` (R334). -/
def Lz77.advanced (z : Lz77) (len : Nat) : Lz77 :=
  let ls := (z.ls + len + 1) % z.windowSize
  let csize := min (z.csize + len + 1) z.searchSize
  { z with
    ls := ls
    rem := z.rem - (len + 1)
    csize := csize
    ss := (ls + z.windowSize - csize) % z.windowSize }

/-! ## Encoder (R335 to R339) -/

/-- The encoder's header and stream start (R339). -/
def lz77Encode (p1 p2 : BitVec 5) : M Next := do
  updLz77 fun z => { z with sb := p1, lb := p2 }
  writeToken (.lzHeader .lz77) (.lz77Header p1 p2)
  updLz77 fun z => z.started p1 p2
  pure (.goto (.lz77Read 0))

/-- One item of `ReadBlock()` (R335), `cnt` bytes of the block read. -/
def lz77Read (cnt : Nat) : M Next := do
  if cnt = 0 then updLz77 fun z => { z with le := z.ls } else pure ()
  let z ← look (·.lz77)
  if cnt < z.lookaheadSize then do
    match ← takeByte with
    | none => pure (.goto (.lz77Flag cnt))
    | some b => do
      updLz77 fun z => { z.winSet z.le b with le := (z.le + 1) % z.windowSize }
      pure (.goto (.lz77Read (cnt + 1)))
  else pure (.goto (.lz77Flag cnt))

/-- The token that opens a block of `cnt` bytes (30_encoding.md R131). -/
def blockToken (size cnt : Nat) : Instr := if cnt = size then .blockFull else .blockShort cnt

/-- The block's flag; a block of no bytes is the terminator (R335, R339). -/
def lz77Flag (cnt : Nat) : M Next := do
  let z ← look (·.lz77)
  writeToken (.block z.lb.toNat) (blockToken z.lookaheadSize cnt)
  updLz77 fun z => { z with rem := cnt }
  if cnt = 0 then pure (.goto .encFlush) else pure (.goto .lz77Emit)

/-- The length of the match at window place `p`, at most `fuel` bytes, `len` of them compared (R336). -/
def Lz77.matchLen (z : Lz77) (p : Nat) : Nat → Nat → Nat
  | 0, len => len
  | fuel + 1, len =>
    if z.winAt (p + len) = z.winAt (z.ls + len) then z.matchLen p fuel (len + 1) else len

/-- The scan of `FindMatch()` (R336): `count` offsets from `off` on, `best` the length and offset so far. Only a
strictly longer match replaces the best. -/
def Lz77.scan (z : Lz77) : Nat → Nat → Nat × Nat → Nat × Nat
  | 0, _, best => best
  | count + 1, off, best =>
    let len := z.matchLen (z.ss + off) z.rem 0
    z.scan count (off + 1) (if best.1 < len then (len, off) else best)

/-- `FindMatch()` (R336): length and offset. -/
def Lz77.findMatch (z : Lz77) : Nat × Nat := z.scan z.csize 0 (0, 0)

/-- Where the scan leaves `SP` (assumption 22). -/
def Lz77.searched (z : Lz77) : Lz77 :=
  { z with sp := if z.csize = 0 then z.sp else (z.ss + (z.csize - 1)) % z.windowSize }

/-- The match with the block-boundary reduction (R337). -/
def Lz77.reducedMatch (z : Lz77) : Nat × Nat :=
  let m := z.findMatch
  (if m.1 = z.rem then m.1 - 1 else m.1, m.2)

/-- The record of a match (R338). -/
def Lz77.recordToken (z : Lz77) (m : Nat × Nat) : Instr :=
  let c := z.winAt (z.ls + m.1)
  if m.1 = 0 then .lz77Literal c else .lz77Match m.1 m.2 c

/-- One record of the block, or the next block (R339). -/
def lz77Emit : M Next := do
  let z ← look (·.lz77)
  if z.rem = 0 then pure (.goto (.lz77Read 0))
  else do
    updLz77 Lz77.searched
    writeToken (.lz77Record z.lb.toNat z.sb.toNat) (z.recordToken z.reducedMatch)
    updLz77 fun z' => z'.advanced z.reducedMatch.1
    pure (.goto .lz77Emit)

/-! ## Decoder (R350 to R354) -/

/-- The rule of LZ77_HEADER (R350, R351). -/
def ruleLz77Header (cfg : Params) (sb lb : BitVec 5) : M Next := do
  checkHeader cfg .lz77 sb lb
  updLz77 fun z => z.started sb lb
  pure (.goto (.block .lz77))

/-- The rule of LZ77_HEADER in a phase that reads it. -/
def lz77HeaderRule (cfg : Params) (searchBits lookaheadBits : BitVec 5) : Phase → Option (M Next)
  | .header .lz77 => some (ruleLz77Header cfg searchBits lookaheadBits)
  | _ => none

/-- LZ77_HEADER, where an LZ77 header is being read. -/
def execLz77Header (searchBits lookaheadBits : BitVec 5) (s : State) : Host.Outcome State Fault Refusal :=
  runToken (.lz77Header searchBits lookaheadBits) (lz77HeaderRule s.cfg searchBits lookaheadBits) s

/-- The block of `count` bytes begins (R350). -/
def lz77Block (count : Nat) : M Next := do
  updLz77 fun z => { z with rem := count }
  if count = 0 then finishDecode else pure (.goto (.record .lz77))

/-- The copy of a match, byte by byte, so that it may overlap the bytes it writes (R352): `count` bytes, `i` of
them copied. -/
def lz77Copy (pos : Nat) : Nat → Nat → M Unit
  | 0, _ => pure ()
  | count + 1, i => do
    let z ← look (·.lz77)
    let x := z.winAt (z.ss + pos + i)
    updLz77 fun z => z.winSet (z.ls + i) x
    emitByte x
    lz77Copy pos count (i + 1)

/-- The effect of a record once it has been checked (R352), and what follows it (R350). -/
def lz77Record (len pos : Nat) (c : Byte) : M Next := do
  lz77Copy pos len 0
  updLz77 fun z => z.winSet (z.ls + len) c
  emitByte c
  updLz77 fun z => z.advanced len
  if (← look (·.lz77.rem)) = 0 then pure (.goto (.block .lz77)) else pure (.goto (.record .lz77))

/-- The rule of LZ77_MATCH: the checks of R352 and R353, then the record. -/
def ruleLz77Match (len pos : Nat) (b : Byte) : M Next := do
  let z ← look (·.lz77)
  if 0 < len ∧ z.csize ≤ pos then raise .dictionaryIndex
  else if z.rem < len + 1 then raise .headerInvalid
  else lz77Record len pos b

/-- The rule of LZ77_LITERAL in a phase that reads it. -/
def lz77LiteralRule (b : Byte) : Phase → Option (M Next)
  | .record .lz77 => some (lz77Record 0 0 b)
  | _ => none

/-- LZ77_LITERAL, where an LZ77 record is being read. -/
def execLz77Literal (b : Byte) (s : State) : Host.Outcome State Fault Refusal :=
  runToken (.lz77Literal b) (lz77LiteralRule b) s

/-- The rule of LZ77_MATCH in a phase that reads it. -/
def lz77MatchRule (len pos : Nat) (b : Byte) : Phase → Option (M Next)
  | .record .lz77 => some (ruleLz77Match len pos b)
  | _ => none

/-- LZ77_MATCH, where an LZ77 record is being read. -/
def execLz77Match (len pos : Nat) (b : Byte) (s : State) : Host.Outcome State Fault Refusal :=
  runToken (.lz77Match len pos b) (lz77MatchRule len pos b) s

end Sys2Proof.Machine
end

