-- ==== Sys2Proof/Machine/Dictionary.lean ====
section
/-! DEFINITION. What LZ78 and LZW share: the phrase dictionary (10_state.md R66 to R68, 20_memory.md R100), the block
registers and the encoder's block buffer (R69), and the block framing (30_encoding.md R131). -/

namespace Sys2Proof.Machine

/-- Change the block registers. -/
def updDz (f : Dz → Dz) : M Unit := upd fun u => { u with dz := f u.dz }

/-- The bytes of entry `i`, before those of `tail`; `fuel` bounds the chain of parents (R100). -/
def phraseBytes (dict : List Entry) : Nat → Nat → List Byte → List Byte
  | 0, _, tail => tail
  | fuel + 1, i, tail =>
    match dict[i]? with
    | some (.pair none b) => b :: tail
    | some (.pair (some p) b) => phraseBytes dict fuel p (b :: tail)
    | some .emptyPhrase => tail
    | none => tail

/-- `phrase(w)`: the phrase of an index, empty for NONE (R100). A parent lies below its entry, so the chain has at
most `w + 1` entries. -/
def phraseOf (dict : List Entry) : Option Nat → List Byte
  | none => []
  | some w => phraseBytes dict (w + 1) w []

/-- The entry `(w, c)` of the dictionary, if it has one (44_lz78.md R375, 45_lzw.md R402). -/
def findEntry (dict : List Entry) (w : Option Nat) (c : Byte) : Option Nat :=
  dict.findIdx? fun e => e = .pair w c

/-- `Insert(parent, c)` where there is room (44_lz78.md R373, R377); a full dictionary stays as it is (R68). -/
def insertIfRoom (parent : Option Nat) (c : Byte) : M Unit :=
  upd fun u =>
    if u.dict.length < u.dz.cap then { u with dict := u.dict ++ [.pair parent c] } else u

/-- The dictionary at the start of an LZ78 stream (R371, R372). -/
def lz78Seed (cfg : Params) : List Entry := if cfg.lz78First = 1 then [.emptyPhrase] else []

/-- The dictionary at the start of an LZW stream: the 256 single bytes (45_lzw.md R401). -/
def lzwSeed : List Entry := (List.range 256).map fun i => .pair none (BitVec.ofNat 8 i)

/-- Stream start of either algorithm (R372, R401). -/
def dictStart (cfg : Params) (a : DictAlg) (db bb : BitVec 5) : M Unit :=
  upd fun u =>
    { u with
      dz := { u.dz with db := db, bb := bb }
      dict := match a with | .lz78 => lz78Seed cfg | .lzw => lzwSeed
      lzw := match a with | .lz78 => u.lzw | .lzw => { w := none, prev := none } }

/-- A byte of the block buffer. -/
def Dz.blockAt (z : Dz) (i : Nat) : Byte := Memory.read z.blk Config.unwrittenBlock i

/-- The next block begins to be read (44_lz78.md R374). -/
def dictBlockStart (a : DictAlg) : M Next := do
  updDz fun z => { z with cnt := 0 }
  pure (.goto (.dictRead a))

/-- The token of an LZ78 or LZW header. -/
def DictAlg.headerToken : DictAlg → BitVec 5 → BitVec 5 → Instr
  | .lz78 => .lz78Header
  | .lzw => .lzwHeader

/-- The context of an LZ78 or LZW header. -/
def DictAlg.headerCtx : DictAlg → Ctx
  | .lz78 => .lzHeader .lz78
  | .lzw => .lzHeader .lzw

/-- The encoder's header and stream start (44_lz78.md R378, 45_lzw.md R402). -/
def dictEncode (cfg : Params) (a : DictAlg) (p1 p2 : BitVec 5) : M Next := do
  updDz fun z => { z with db := p1, bb := p2 }
  writeToken a.headerCtx (a.headerToken p1 p2)
  dictStart cfg a p1 p2
  dictBlockStart a

/-- One item of `ReadBlock()` (R374). -/
def dictRead (a : DictAlg) : M Next := do
  let z ← look (·.dz)
  if z.cnt < z.blockSize then do
    match ← takeByte with
    | none => pure (.goto (.dictFlag a))
    | some b => do
      updDz fun z => { z with blk := Memory.write z.blk z.cnt b, cnt := z.cnt + 1 }
      pure (.goto (.dictRead a))
  else pure (.goto (.dictFlag a))

/-- The block's flag; a block of no bytes is the terminator (R374, R378, 45_lzw.md R402). -/
def dictFlag (a : DictAlg) : M Next := do
  let z ← look (·.dz)
  writeToken (.block z.bb.toNat) (if z.cnt = z.blockSize then .blockFull else .blockShort z.cnt)
  upd fun u =>
    { u with
      dz := { u.dz with i := 0 }
      lzw := match a with | .lz78 => u.lzw | .lzw => { u.lzw with w := none } }
  if z.cnt = 0 then pure (.goto .encFlush) else pure (.goto (.dictEmit a))

/-- A decoder's block of `count` bytes begins (R382, 45_lzw.md R406). -/
def dictBlock (a : DictAlg) (count : Nat) : M Next := do
  updDz fun z => { z with cnt := count }
  if count = 0 then finishDecode
  else do
    upd fun u =>
      { u with
        dz := { u.dz with i := 0 }
        lzw := match a with | .lz78 => u.lzw | .lzw => { u.lzw with prev := none } }
    pure (.goto (.record (match a with | .lz78 => .lz78 | .lzw => .lzw)))

/-- The rule of an LZ78 or LZW header (R382, 45_lzw.md R406). -/
def ruleDictHeader (cfg : Params) (a : DictAlg) (db bb : BitVec 5) : M Next := do
  checkHeader cfg (match a with | .lz78 => .lz78 | .lzw => .lzw) db bb
  dictStart cfg a db bb
  pure (.goto (.block (match a with | .lz78 => .lz78 | .lzw => .lzw)))

/-- The next record of the block, or the next block. -/
def nextRecord (a : Lz) : M Next := do
  let z ← look (·.dz)
  if z.i < z.cnt then pure (.goto (.record a)) else pure (.goto (.block a))

end Sys2Proof.Machine
end

