-- ==== Sys2Proof/Machine/Lz78.lean ====
section
/-! DEFINITION. The LZ78 dictionary encoder and decoder (44_lz78.md): the record stretch of its encoder, and the
tokens LZ78_HEADER, LZ78_LITERAL and LZ78_PHRASE of its decoder. -/

namespace Sys2Proof.Machine

/-- The search of `FindPhrase()` (R375): extend the phrase `w` of `len` bytes while an entry continues it and a
byte of the block is left for `c`; `fuel` bounds the bytes. -/
def extendPhrase (dict : List Entry) (z : Dz) : Nat → Option Nat → Nat → Option Nat × Nat
  | 0, w, len => (w, len)
  | fuel + 1, w, len =>
    if len + 1 ≤ z.cnt - z.i - 1 then
      match findEntry dict w (z.blockAt (z.i + len)) with
      | some j => extendPhrase dict z fuel (some j) (len + 1)
      | none => (w, len)
    else (w, len)

/-- `FindPhrase()` (R375). -/
def findPhrase (dict : List Entry) (z : Dz) : Option Nat × Nat :=
  extendPhrase dict z (z.cnt - z.i) none 0

/-- The record of a phrase and its next byte (R376). -/
def phraseToken (w : Option Nat) (c : Byte) : Instr :=
  match w with
  | none => .lz78Literal c
  | some index => .lz78Phrase index c

/-- `if DZ.I < DZ.CNT` then insert where there is room (R377). -/
def insertInBlock (w : Option Nat) (c : Byte) : M Unit := do
  let z ← look (·.dz)
  if z.i < z.cnt then insertIfRoom w c else pure ()

/-- One record of the block, or the next block (R378). -/
def lz78Emit : M Next := do
  let z ← look (·.dz)
  if z.i < z.cnt then do
    let (w, len) := findPhrase (← look (·.dict)) z
    let c := z.blockAt (z.i + len)
    writeToken (.lz78Record z.db.toNat) (phraseToken w c)
    updDz fun z => { z with i := z.i + len + 1 }
    insertInBlock w c
    pure (.goto (.dictEmit .lz78))
  else dictBlockStart .lz78

/-- The rule of LZ78_HEADER in a phase that reads it. -/
def lz78HeaderRule (cfg : Params) (dictBits blockBits : BitVec 5) : Phase → Option (M Next)
  | .header .lz78 => some (ruleDictHeader cfg .lz78 dictBits blockBits)
  | _ => none

/-- LZ78_HEADER, where an LZ78 header is being read. -/
def execLz78Header (dictBits blockBits : BitVec 5) (s : State) : Host.Outcome State Fault Refusal :=
  runToken (.lz78Header dictBits blockBits) (lz78HeaderRule s.cfg dictBits blockBits) s

/-- The effect of a record `(w, c)` whose index is legal (R383). -/
def lz78Record (w : Option Nat) (c : Byte) : M Next := do
  let phrase := phraseOf (← look (·.dict)) w ++ [c]
  let z ← look (·.dz)
  if z.cnt < z.i + phrase.length then raise .headerInvalid
  else do
    emitBytes phrase
    updDz fun z => { z with i := z.i + phrase.length }
    insertInBlock w c
    nextRecord .lz78

/-- The rule of LZ78_PHRASE: an index at or beyond `DICT.SIZE` is a DictionaryIndex (R383). -/
def ruleLz78Phrase (index : Nat) (b : Byte) : M Next := do
  if (← look (·.dict.length)) ≤ index then raise .dictionaryIndex
  else lz78Record (some index) b

/-- The rule of LZ78_LITERAL in a phase that reads it. -/
def lz78LiteralRule (b : Byte) : Phase → Option (M Next)
  | .record .lz78 => some (lz78Record none b)
  | _ => none

/-- LZ78_LITERAL, where an LZ78 record is being read. -/
def execLz78Literal (b : Byte) (s : State) : Host.Outcome State Fault Refusal :=
  runToken (.lz78Literal b) (lz78LiteralRule b) s

/-- The rule of LZ78_PHRASE in a phase that reads it. -/
def lz78PhraseRule (index : Nat) (b : Byte) : Phase → Option (M Next)
  | .record .lz78 => some (ruleLz78Phrase index b)
  | _ => none

/-- LZ78_PHRASE, where an LZ78 record is being read. -/
def execLz78Phrase (index : Nat) (b : Byte) (s : State) : Host.Outcome State Fault Refusal :=
  runToken (.lz78Phrase index b) (lz78PhraseRule index b) s

end Sys2Proof.Machine
end

