-- ==== Sys2Proof/Machine/Lzw.lean ====
section
/-! DEFINITION. The LZW dictionary encoder and decoder (45_lzw.md): the record stretch of its encoder, and the tokens
LZW_HEADER and LZW_INDEX of its decoder. -/

namespace Sys2Proof.Machine

/-- Change the phrase registers. -/
def updLzw (f : Lzw → Lzw) : M Unit := upd fun u => { u with lzw := f u.lzw }

/-- One byte `c` of the block against the current phrase `W` (R402): extend it, or write its index, insert `W·c`
where there is room and start again with `c`, which is entry `c`. -/
def lzwByte (c : Byte) : M Unit := do
  let dict ← look (·.dict)
  match ← look (·.lzw.w) with
  | none => updLzw fun l => { l with w := some c.toNat }
  | some w =>
    match findEntry dict (some w) c with
    | some j => updLzw fun l => { l with w := some j }
    | none => do
      writeToken (.lzwRecord (← look (·.dz.db.toNat))) (.lzwIndex w)
      insertIfRoom (some w) c
      updLzw fun l => { l with w := some c.toNat }

/-- The end of a block: the index of a non-empty `W`, which keeps its value until the next block begins (R402). -/
def lzwBlockEnd : M Unit := do
  match ← look (·.lzw.w) with
  | none => pure ()
  | some w => writeToken (.lzwRecord (← look (·.dz.db.toNat))) (.lzwIndex w)

/-- One byte of the block, or its end and the next block (R402). -/
def lzwEmit : M Next := do
  let z ← look (·.dz)
  if z.i < z.cnt then do
    lzwByte (z.blockAt z.i)
    updDz fun z => { z with i := z.i + 1 }
    pure (.goto (.dictEmit .lzw))
  else do
    lzwBlockEnd
    dictBlockStart .lzw

/-- The rule of LZW_HEADER in a phase that reads it. -/
def lzwHeaderRule (cfg : Params) (dictBits blockBits : BitVec 5) : Phase → Option (M Next)
  | .header .lzw => some (ruleDictHeader cfg .lzw dictBits blockBits)
  | _ => none

/-- LZW_HEADER, where an LZW header is being read. -/
def execLzwHeader (dictBits blockBits : BitVec 5) (s : State) : Host.Outcome State Fault Refusal :=
  runToken (.lzwHeader dictBits blockBits) (lzwHeaderRule s.cfg dictBits blockBits) s

/-- Whether a first index of a block is legal (R408). -/
def firstIndexOk (cfg : Params) (dict : List Entry) (p : Nat) : Bool :=
  match cfg.lzwPolicy with
  | .dictSize => p < dict.length
  | .strict256 => p < 256

/-- The phrase that index `p` stands for (R407), or the error it raises (R407, R408). -/
def lzwPhrase (cfg : Params) (dict : List Entry) (prev : Option Nat) (p : Nat) : Except ErrorCode (List Byte) :=
  match prev with
  | none => if firstIndexOk cfg dict p then .ok (phraseOf dict (some p)) else .error .headerInvalid
  | some q =>
    if p < dict.length then .ok (phraseOf dict (some p))
    else if p = dict.length then .ok (phraseOf dict (some q) ++ (phraseOf dict (some q)).take 1)
    else .error .dictionaryIndex

/-- The insertion after a record whose phrase is `phrase` (R407): none after the first of a block. -/
def lzwInsert (prev : Option Nat) (phrase : List Byte) : M Unit :=
  match prev, phrase with
  | some q, b :: _ => insertIfRoom (some q) b
  | _, _ => pure ()

/-- The rule of LZW_INDEX (R407). -/
def ruleLzwIndex (cfg : Params) (p : Nat) : M Next := do
  let prev ← look (·.lzw.prev)
  match lzwPhrase cfg (← look (·.dict)) prev p with
  | .error e => raise e
  | .ok phrase => do
    let z ← look (·.dz)
    if z.cnt < z.i + phrase.length then raise .headerInvalid
    else do
      emitBytes phrase
      updDz fun z => { z with i := z.i + phrase.length }
      lzwInsert prev phrase
      updLzw fun l => { l with prev := some p }
      nextRecord .lzw

/-- The rule of LZW_INDEX in a phase that reads it. -/
def lzwIndexRule (cfg : Params) (index : Nat) : Phase → Option (M Next)
  | .record .lzw => some (ruleLzwIndex cfg index)
  | _ => none

/-- LZW_INDEX, where an LZW record is being read. -/
def execLzwIndex (index : Nat) (s : State) : Host.Outcome State Fault Refusal :=
  runToken (.lzwIndex index) (lzwIndexRule s.cfg index) s

end Sys2Proof.Machine
end

