-- ==== Sys2Proof/Machine/Envelope.lean ====
section
/-! DEFINITION. The format envelope and multiplexer (46_envelope.md): the magic commands, the whole-stream and body
commands, the magic tokens, and the two block tokens that the three LZ decoders share (30_encoding.md R131). -/

namespace Sys2Proof.Machine

/-- The rule of ENV_PUT_MAGIC. -/
def ruleEnvPutMagic (alg : Alg) : M Next := do
  writeToken .envelope alg.magicToken
  pure .complete

/-- ENV_PUT_MAGIC alg (R431). -/
def execEnvPutMagic (alg : Alg) (s : State) : Host.Outcome State Fault Refusal :=
  runCommand (.envPutMagic alg) (ruleEnvPutMagic alg) s

/-- The rule of ENV_GET_MAGIC. -/
def ruleEnvGetMagic : M Next := pure (.goto (.magic .identify))

/-- ENV_GET_MAGIC (R434): the magic token follows. -/
def execEnvGetMagic (s : State) : Host.Outcome State Fault Refusal :=
  runCommand .envGetMagic ruleEnvGetMagic s

/-- The rule of a magic token: ENV_GET_MAGIC ends with it (R434), DEC goes on to the header (R437). -/
def ruleMagic (a : Alg) : MagicUse → M Next
  | .identify => do
    setResult (magicResult a.magic (some a))
    upd fun u => { u with detect := { u.detect with alg := a, valid := true } }
    pure .complete
  | .decode => do
    upd fun u => { u with detect := { u.detect with alg := a, valid := true } }
    pure (.goto (.header a))

/-- Sixteen bits that are no magic: HeaderInvalid, ENV_GET_MAGIC leaving them in RESULT (R434, R437). -/
def unknownMagic (m : BitVec 16) : MagicUse → M Next
  | .identify => do
    setResult (magicResult m none)
    upd fun u => { u with detect := { u.detect with alg := .huf, valid := false } }
    raise .headerInvalid
  | .decode => raise .headerInvalid

/-- A magic token, where a magic is being read. -/
def magicRule (a : Alg) : Phase → Option (M Next)
  | .magic use => some (ruleMagic a use)
  | _ => none

/-- MAGIC_HUF. -/
def execMagicHuf (s : State) : Host.Outcome State Fault Refusal := runToken .magicHuf (magicRule .huf) s

/-- MAGIC_LZ77. -/
def execMagicLz77 (s : State) : Host.Outcome State Fault Refusal := runToken .magicLz77 (magicRule .lz77) s

/-- MAGIC_LZ78. -/
def execMagicLz78 (s : State) : Host.Outcome State Fault Refusal := runToken .magicLz78 (magicRule .lz78) s

/-- MAGIC_LZW. -/
def execMagicLzw (s : State) : Host.Outcome State Fault Refusal := runToken .magicLzw (magicRule .lzw) s

/-! ## Encoding (R435, R436) -/

/-- The encoder of an algorithm: the magic where asked for (the Huffman encoder writes its own, after its first
pass), then the start of its body. -/
def encodeWith (cfg : Params) (a : Alg) (p1 p2 : BitVec 5) (magic : Bool) : M Next := do
  match a with
  | .huf => hufEncode magic
  | .lz77 => do
    if magic then writeToken .envelope .magicLz77 else pure ()
    lz77Encode p1 p2
  | .lz78 => do
    if magic then writeToken .envelope .magicLz78 else pure ()
    dictEncode cfg .lz78 p1 p2
  | .lzw => do
    if magic then writeToken .envelope .magicLzw else pure ()
    dictEncode cfg .lzw p1 p2

/-- The rule of ENC, `config` being CONFIG. -/
def ruleEnc (cfg : Params) (config : ConfigReg) : M Next := do
  checkEncParams cfg config.alg config.p1 config.p2
  upd fun u => { u with src := u.src.cleared }
  upd fun u => { u with snk := Snk.initial }
  encodeWith cfg config.alg config.p1 config.p2 true

/-- ENC (R435). -/
def execEnc (s : State) : Host.Outcome State Fault Refusal := runCommand .enc (ruleEnc s.cfg s.config) s

/-- The rule of ENC_BODY, `config` being CONFIG. -/
def ruleEncBody (cfg : Params) (config : ConfigReg) (alg : Alg) : M Next := do
  checkEncParams cfg alg config.p1 config.p2
  encodeWith cfg alg config.p1 config.p2 false

/-- ENC_BODY alg (R436): no magic, and the BitSink goes on where it stands. -/
def execEncBody (alg : Alg) (s : State) : Host.Outcome State Fault Refusal :=
  runCommand (.encBody alg) (ruleEncBody s.cfg s.config alg) s

/-! ## Decoding (R437, R438) -/

/-- The rule of DEC. -/
def ruleDec : M Next := do
  upd fun u => { u with src := u.src.cleared }
  upd fun u => { u with detect := Detect.zero }
  pure (.goto (.magic .decode))

/-- DEC (R437): the magic follows. -/
def execDec (s : State) : Host.Outcome State Fault Refusal := runCommand .dec ruleDec s

/-- The rule of DEC_BODY. -/
def ruleDecBody (alg : Alg) : M Next := pure (.goto (.header alg))

/-- DEC_BODY alg (R438): the header follows, from where the BitSource stands. -/
def execDecBody (alg : Alg) (s : State) : Host.Outcome State Fault Refusal :=
  runCommand (.decBody alg) (ruleDecBody alg) s

/-- A block of `count` bytes, or the terminator, in the decoder of `a`. -/
def blockOf (a : Lz) (count : Nat) : M Next :=
  match a with
  | .lz77 => lz77Block count
  | .lz78 => dictBlock .lz78 count
  | .lzw => dictBlock .lzw count

/-- The rule of BLOCK_FULL: the block has the block size of the stream (R350, R382, R406). -/
def ruleBlockFull (a : Lz) : M Next := do
  match a with
  | .lz77 => blockOf .lz77 (← look (·.lz77.lookaheadSize))
  | .lz78 => blockOf .lz78 (← look (·.dz.blockSize))
  | .lzw => blockOf .lzw (← look (·.dz.blockSize))

/-- The rule of BLOCK_FULL in a phase that reads it. -/
def blockFullRule : Phase → Option (M Next)
  | .block a => some (ruleBlockFull a)
  | _ => none

/-- BLOCK_FULL, where a block flag is being read. -/
def execBlockFull (s : State) : Host.Outcome State Fault Refusal :=
  runToken .blockFull blockFullRule s

/-- The rule of BLOCK_SHORT_OR_TERMINATOR in a phase that reads it. -/
def blockShortRule (count : Nat) : Phase → Option (M Next)
  | .block a => some (blockOf a count)
  | _ => none

/-- BLOCK_SHORT_OR_TERMINATOR, where a block flag is being read. -/
def execBlockShort (count : Nat) (s : State) : Host.Outcome State Fault Refusal :=
  runToken (.blockShort count) (blockShortRule count) s

end Sys2Proof.Machine
end

