-- ==== Sys2Proof/Machine/Sequencer.lean ====
section
/-! DEFINITION. The command sequencer between the start and the end of a command (10_state.md R31): fetching the next
token of a stream from the BitSource (30_encoding.md R140), running the next stretch of an encoder, and going on
with a stretch that is not over. `Step.lean` only calls what is here. -/

namespace Sys2Proof.Machine

/-! ## Fetching a token -/

/-- The context in which the running decoder reads next. -/
def readCtx (p : Phase) (u : Units) : Option Ctx :=
  match p with
  | .magic _ => some .envelope
  | .header .huf => some .hufHeader
  | .header .lz77 => some (.lzHeader .lz77)
  | .header .lz78 => some (.lzHeader .lz78)
  | .header .lzw => some (.lzHeader .lzw)
  | .tree _ _ => some .tree
  | .code _ => some .code
  | .block .lz77 => some (.block u.lz77.lb.toNat)
  | .block .lz78 => some (.block u.dz.bb.toNat)
  | .block .lzw => some (.block u.dz.bb.toNat)
  | .record .lz77 => some (.lz77Record u.lz77.lb.toNat u.lz77.sb.toNat)
  | .record .lz78 => some (.lz78Record u.dz.db.toNat)
  | .record .lzw => some (.lzwRecord u.dz.db.toNat)
  | .idle | .command | .leafRun _ | .hufCount _ | .hufHead _ | .hufPass _ | .lz77Read _ | .lz77Flag _
  | .lz77Emit | .dictRead _ | .dictFlag _ | .dictEmit _ | .encFlush => none

/-- The error of End at the next bit: UnterminatedStream at a block flag (40_bitsource.md R209), UnexpectedEof
anywhere else (R208). -/
def eofError (c : Ctx) (bits : List Bool) : ErrorCode :=
  match c, bits with
  | .block _, [] => .unterminatedStream
  | _, _ => .unexpectedEof

/-- Bits that are no token end the command (30_encoding.md R139). -/
def rejectToken (p : Phase) (r : Reject) : M Instr :=
  match p, r with
  | .magic use, .unknownMagic m => do
    let _ ← unknownMagic m use
    raise .headerInvalid
  | _, _ => raise .headerInvalid

/-- Read bits until they are a token: `bits` have been read, at most `fuel` more are (`Ctx.maxBits`). -/
def fetchBits (p : Phase) (c : Ctx) : Nat → List Bool → M Instr
  | 0, _ => await
  | fuel + 1, bits => do
    let b ← readBit (eofError c bits)
    match decodeBits c (bits ++ [b]) with
    | .more => fetchBits p c fuel (bits ++ [b])
    | .instr i _ => pure i
    | .reject r => rejectToken p r

/-- Fetch the next token. -/
def fetchToken (p : Phase) (c : Ctx) : M Instr := fetchBits p c c.maxBits []

/-! ## The stretches that are no instruction -/

/-- The encoder stretch, or the run of a single-leaf root, that a phase names. -/
def stretchOf (cfg : Params) : Phase → Option (M Next)
  | .leafRun left => some (leafRun left)
  | .hufCount magic => some (hufCount magic)
  | .hufHead magic => some (hufHead cfg magic)
  | .hufPass count => some (hufPass count)
  | .lz77Read cnt => some (lz77Read cnt)
  | .lz77Flag cnt => some (lz77Flag cnt)
  | .lz77Emit => some lz77Emit
  | .dictRead a => some (dictRead a)
  | .dictFlag a => some (dictFlag a)
  | .dictEmit .lz78 => some lz78Emit
  | .dictEmit .lzw => some lzwEmit
  | .encFlush => some finishEncode
  | .idle | .command | .magic _ | .header _ | .tree _ _ | .code _ | .block _ | .record _ => none

/-! ## What the sequencer does next -/

/-- The stretch that executing an instruction runs (`exec` runs it whole); `none` for a token out of its place. -/
def instrStretch (i : Instr) (s : State) : Option Stretch :=
  match i with
  | .nop => commandStretch .nop ruleNop s
  | .srcReset => commandStretch .srcReset ruleSrcReset s
  | .srcGetBit => commandStretch .srcGetBit ruleSrcGetBit s
  | .srcGetBits n => commandStretch (.srcGetBits n) (ruleSrcGetBits n) s
  | .snkReset => commandStretch .snkReset ruleSnkReset s
  | .snkPutBit bit => commandStretch (.snkPutBit bit) (ruleSnkPutBit bit) s
  | .snkPutBits n => commandStretch (.snkPutBits n) (ruleSnkPutBits n s.arg) s
  | .snkFlush => commandStretch .snkFlush ruleSnkFlush s
  | .freqClear => commandStretch .freqClear ruleFreqClear s
  | .freqAdd sym => commandStretch (.freqAdd sym) (ruleFreqAdd sym) s
  | .freqGet sym => commandStretch (.freqGet sym) (ruleFreqGet sym) s
  | .hufBuild => commandStretch .hufBuild ruleHufBuild s
  | .hufCodeLen sym => commandStretch (.hufCodeLen sym) (ruleHufCodeLen sym) s
  | .hufPutSym sym => commandStretch (.hufPutSym sym) (ruleHufPutSym sym) s
  | .hufSerialize => commandStretch .hufSerialize ruleHufSerialize s
  | .hufDeserialize => commandStretch .hufDeserialize ruleHufDeserialize s
  | .hufWalkReset => commandStretch .hufWalkReset ruleHufWalkReset s
  | .hufAddBit bit => commandStretch (.hufAddBit bit) (ruleHufAddBit bit) s
  | .envPutMagic alg => commandStretch (.envPutMagic alg) (ruleEnvPutMagic alg) s
  | .envGetMagic => commandStretch .envGetMagic ruleEnvGetMagic s
  | .encBody alg => commandStretch (.encBody alg) (ruleEncBody s.cfg s.config alg) s
  | .decBody alg => commandStretch (.decBody alg) (ruleDecBody alg) s
  | .enc => commandStretch .enc (ruleEnc s.cfg s.config) s
  | .dec => commandStretch .dec ruleDec s
  | .softReset => commandStretch .softReset softResetUnits (softResetStart s)
  | .magicHuf => tokenStretch .magicHuf (magicRule .huf) s
  | .magicLz77 => tokenStretch .magicLz77 (magicRule .lz77) s
  | .magicLz78 => tokenStretch .magicLz78 (magicRule .lz78) s
  | .magicLzw => tokenStretch .magicLzw (magicRule .lzw) s
  | .hufHeader total => tokenStretch (.hufHeader total) (hufHeaderRule total) s
  | .hufTreeInternal => tokenStretch .hufTreeInternal treeInternalRule s
  | .hufTreeLeaf sym => tokenStretch (.hufTreeLeaf sym) (treeLeafRule sym) s
  | .hufCode bits => tokenStretch (.hufCode bits) (hufCodeRule bits) s
  | .lz77Header sb lb => tokenStretch (.lz77Header sb lb) (lz77HeaderRule s.cfg sb lb) s
  | .lz78Header db bb => tokenStretch (.lz78Header db bb) (lz78HeaderRule s.cfg db bb) s
  | .lzwHeader db bb => tokenStretch (.lzwHeader db bb) (lzwHeaderRule s.cfg db bb) s
  | .blockFull => tokenStretch .blockFull blockFullRule s
  | .blockShort count => tokenStretch (.blockShort count) (blockShortRule count) s
  | .lz77Literal b => tokenStretch (.lz77Literal b) (lz77LiteralRule b) s
  | .lz77Match len pos b => tokenStretch (.lz77Match len pos b) (lz77MatchRule len pos b) s
  | .lz78Literal b => tokenStretch (.lz78Literal b) (lz78LiteralRule b) s
  | .lz78Phrase index b => tokenStretch (.lz78Phrase index b) (lz78PhraseRule index b) s
  | .lzwIndex index => tokenStretch (.lzwIndex index) (lzwIndexRule s.cfg index) s

/-- The next thing the sequencer does. -/
inductive Work
  /-- Run instruction `i` in state `s`. -/
  | run (i : Instr) (s : State)
  /-- The step's outcome is this. -/
  | result (o : Host.Outcome State Fault Refusal)

/-- The state in which the stretch that has begun and is not over, if there is one, began (assumption 3). -/
def State.resumed (s : State) : State :=
  { s with units := (s.begun.map Begun.units).getD s.units, begun := none }

/-- How many steps of it have been made. -/
def State.made (s : State) : Nat := (s.begun.map Begun.made).getD 0

/-- A stretch from its start: its first `limit` steps, or to its end. -/
def stretchWork (limit : Option Nat) (p : M Next) (s : State) : Work :=
  match limit with
  | none => .result (runStretch p s)
  | some n => .result (.next (s.partly n p))

/-- An instruction from its start: the first `limit` steps of its rule, or to its end. -/
def instrWork (limit : Option Nat) (i : Instr) (s : State) : Work :=
  match limit, instrStretch i s with
  | some n, some r => .result (.next (r.start.partly n r.rule))
  | _, _ => .run i s

/-- A command from its start (47_control.md R461): an illegal word is a BadCommand before any other effect
(30_encoding.md R124). -/
def commandWork (limit : Option Nat) (s : State) : Work :=
  match decodeCommand s.cmd with
  | .ok i => instrWork limit i s
  | .error _ => stretchWork limit (raise .badCommand) s

/-- Fetching a token, as a stretch. -/
def fetchRule (p : Phase) (c : Ctx) : M Next := do
  let _ ← fetchToken p c
  pure (.goto p)

/-- Fetch a token and run it, or end or wait as the fetch did. -/
def fetchWork (limit : Option Nat) (c : Ctx) (s : State) : Work :=
  match (fetchToken s.phase c).on s.units, limit with
  | .ok i u, none => .run i { s with units := u }
  | .ok i u, some n =>
    let fetched := (fetchRule s.phase c).steps s.units
    if n < fetched then stretchWork limit (fetchRule s.phase c) s
    else instrWork (some (n - fetched)) i { s with units := u }
  | .error _ _, _ => stretchWork limit (fetchRule s.phase c) s

/-- The sequencer goes on (R31), by `limit` steps at most or to the end of its stretch: an idle block keeps its state
(70_reset_and_hazards.md R623). -/
def turnWork (limit : Option Nat) (s : State) : Work :=
  if s.busy then
    let r := s.resumed
    let n := limit.map (s.made + ·)
    match r.current with
    | some i => instrWork n i r
    | none =>
      if r.phase = .command then commandWork n r
      else
        match readCtx r.phase r.units with
        | some c => fetchWork n c r
        | none =>
          match stretchOf r.cfg r.phase with
          | some p => stretchWork n p r
          | none => .result (.next s)
  else .result (.next s)

end Sys2Proof.Machine
end

