-- ==== Sys2Proof/Machine/Bus.lean ====
section
/-! DEFINITION. The moves of the environment: host reads and writes of the registers (10_state.md R32 to R49,
20_memory.md R103 to R105, 70_reset_and_hazards.md R611 to R613), the producer, the consumer and the platform
(R614). -/

namespace Sys2Proof.Machine

/-! ## Register access -/

/-- The offset of an access to the block, or why it has none (R103, R104). -/
inductive Access
  | register (offset : Nat)
  | faulty (f : Fault)
  | refused (r : Refusal)
  deriving DecidableEq, Repr

/-- What an access of `width` bytes at `addr` is (assumption 20). -/
def accessOf (cfg : Params) (width addr : Nat) : Access :=
  if addr < cfg.base ∨ cfg.base + 64 ≤ addr then .faulty .outsideWindow
  else if width = 4 ∧ (addr - cfg.base) % 4 = 0 then .register (addr - cfg.base)
  else .refused .registerAccess

/-- The value of a register that is read while a command runs and then has no law (R41, R612): a free value. -/
def freeRead (s : State) : State × Word := ({ s with draws := s.draws + 1 }, Config.busyRead s.draws)

/-- The register at an offset, and the state after reading it (R32 to R49): reading has no side effect (R105). -/
def readRegister (s : State) (offset : Nat) : State × Word :=
  match offset with
  | 0x00 => (s, 0)
  | 0x04 => (s, s.arg)
  | 0x08 => if s.busy then freeRead s else (s, s.units.result)
  | 0x0C => (s, statusWord s)
  | 0x10 => (s, s.config.toWord)
  | 0x14 => (s, ctrlWord s.ie)
  | 0x18 => if s.busy then freeRead s else (s, s.units.detect.toWord)
  | 0x1C => if s.busy then freeRead s else (s, s.units.huf.total)
  | 0x20 => (s, idWord s.cfg)
  | _ => (s, 0)

/-- A host read hands the word to the host. -/
def hostRead (s : State) (offset : Nat) : State :=
  let r := readRegister s offset
  { r.1 with rdata := r.2 }

/-- A host write of a register other than CMD (R34, R40, R42, R46, R463, R613). -/
def writeRegister (s : State) (offset : Nat) (v : Word) : State :=
  match offset with
  | 0x04 => if s.busy then s else { s with arg := v }
  | 0x0C => writeStatus s v
  | 0x10 => if s.busy then s else { s with config := ConfigReg.ofWord v }
  | 0x14 => { s with ie := v.getLsbD 0 }
  | _ => s

/-- A word written to CMD (R31, R33, R461): dropped while a command runs; else it is latched and the command starts. What
the command then does, the sequencer does at its turns (`commandWork`). -/
def hostCommand (s : State) (w : Word) : State :=
  if s.busy then { s with ovr := true } else { s with cmd := w }.begin

/-- A host write. -/
def hostWrite (s : State) (offset : Nat) (v : Word) : State :=
  match offset with
  | 0x00 => hostCommand s v
  | _ => writeRegister s offset v

/-! ## The ports' agents -/

/-- Change the ports, both as they are now and as the stretch that is not over will find them when it is run again. -/
def State.mapPorts (s : State) (f : Units → Units) : State :=
  { s with units := f s.units, begun := s.begun.map fun b => { b with units := f b.units } }

/-- The producer offers one more item. -/
def Units.offered (u : Units) (item : InItem) : Units :=
  { u with inp := { u.inp with offer := u.inp.offer ++ [item] } }

/-- The consumer answers one more byte; one with a habit has answered every byte to come already (assumption 15). -/
def OutPort.answered (p : OutPort) (a : Answer) : OutPort :=
  match p.habit with
  | none => { p with answers := p.answers ++ [a] }
  | some _ => p

/-- The consumer answers one more byte. -/
def Units.answered (u : Units) (a : Answer) : Units := { u with out := u.out.answered a }

/-- A producer at the first byte of a stream. -/
def freshInput (seekable : Bool) (replay : Option (List InItem)) (taken : Nat) : InPort where
  offer := []
  given := []
  closed := none
  seekable := seekable
  replay := replay
  taken := taken

/-- A move of the platform that waits for no running command. -/
def whenIdle (s : State) (t : State) : Work :=
  if s.busy then .result (.refused .portReplacedWhileBusy) else .result (.next t)

/-- One move of the environment. -/
def moveWork (s : State) : Move → Work
  | .core => turnWork none s
  | .coreFor steps => turnWork (some steps) s
  | .write width addr v =>
    match accessOf s.cfg width addr with
    | .register offset => .result (.next (hostWrite s offset v))
    | .faulty f => .result (.fault f)
    | .refused r => .result (.refused r)
  | .read width addr =>
    match accessOf s.cfg width addr with
    | .register offset => .result (.next (hostRead s offset))
    | .faulty f => .result (.fault f)
    | .refused r => .result (.refused r)
  | .offer item => .result (.next (s.mapPorts fun u => u.offered item))
  | .answer a => .result (.next (s.mapPorts fun u => u.answered a))
  | .connectInput seekable replay =>
    whenIdle s { s with units := { s.units with inp := freshInput seekable replay s.units.inp.taken } }
  | .connectOutput habit =>
    whenIdle s { s with units := { s.units with out := { s.units.out with answers := [], habit := habit } } }
  | .hardReset => .result (.next (hardReset s))

/-- What the machine does in this step: the first move of the script, or, where there is none, the sequencer goes on
(assumption 2). -/
def stepWork (s : State) : Work :=
  match s.script with
  | [] => turnWork none s
  | m :: rest => moveWork { s with script := rest } m

/-! ## Placing one instruction (assumption 13) -/

/-- The command word latched, as a CMD write to an idle block leaves it. -/
def placeCommand (s : State) (w : Word) : State :=
  { { s with cmd := w }.begin with script := .core :: s.script }

/-- A decoder about to read a token of `bytes` in phase `p` of command `w`, from a byte boundary. -/
def placeToken (s : State) (w : Word) (p : Phase) (bytes : List Byte) : State :=
  { s.atRest with
    busy := true
    cmd := w
    phase := p
    script := .core :: s.script
    units := { s.units with
      src := s.units.src.cleared
      inp := { s.units.inp with offer := bytes.map InItem.byte ++ s.units.inp.offer, closed := none } } }

/-- The bytes of an `nbits`-bit token, first one first (20_memory.md R92). -/
def tokenBytes : Nat → Nat → List Byte
  | 0, _ => []
  | n + 1, w => BitVec.ofNat 8 (w >>> (8 * n)) :: tokenBytes n w

/-- The state in which the next step runs the instruction of `nbits` bits of value `w`; a length that is no
instruction's by itself changes nothing. -/
def placeInstr (s : State) (nbits w : Nat) : State :=
  match tableContext nbits with
  | some .command => placeCommand s (BitVec.ofNat 32 w)
  | some .envelope => placeToken s (encodeWord .dec) (.magic .decode) (tokenBytes 2 w)
  | some .hufHeader => placeToken s (encodeWord (.decBody .huf)) (.header .huf) (tokenBytes 5 w)
  | _ => s

end Sys2Proof.Machine
end

