-- ==== Sys2Proof/Machine/Dispatch.lean ====
section
/-! DEFINITION. The dispatch: one arm per instruction, each one call of its meaning. -/

namespace Sys2Proof.Machine

def exec (i : Instr) (s : State) : Host.Outcome State Fault Refusal :=
  match i with
  | .nop => Sys2Proof.Machine.execNop s
  | .srcReset => Sys2Proof.Machine.execSrcReset s
  | .srcGetBit => Sys2Proof.Machine.execSrcGetBit s
  | .srcGetBits n => Sys2Proof.Machine.execSrcGetBits n s
  | .snkReset => Sys2Proof.Machine.execSnkReset s
  | .snkPutBit bit => Sys2Proof.Machine.execSnkPutBit bit s
  | .snkPutBits n => Sys2Proof.Machine.execSnkPutBits n s
  | .snkFlush => Sys2Proof.Machine.execSnkFlush s
  | .freqClear => Sys2Proof.Machine.execFreqClear s
  | .freqAdd sym => Sys2Proof.Machine.execFreqAdd sym s
  | .freqGet sym => Sys2Proof.Machine.execFreqGet sym s
  | .hufBuild => Sys2Proof.Machine.execHufBuild s
  | .hufCodeLen sym => Sys2Proof.Machine.execHufCodeLen sym s
  | .hufPutSym sym => Sys2Proof.Machine.execHufPutSym sym s
  | .hufSerialize => Sys2Proof.Machine.execHufSerialize s
  | .hufDeserialize => Sys2Proof.Machine.execHufDeserialize s
  | .hufWalkReset => Sys2Proof.Machine.execHufWalkReset s
  | .hufAddBit bit => Sys2Proof.Machine.execHufAddBit bit s
  | .envPutMagic alg => Sys2Proof.Machine.execEnvPutMagic alg s
  | .envGetMagic => Sys2Proof.Machine.execEnvGetMagic s
  | .encBody alg => Sys2Proof.Machine.execEncBody alg s
  | .decBody alg => Sys2Proof.Machine.execDecBody alg s
  | .enc => Sys2Proof.Machine.execEnc s
  | .dec => Sys2Proof.Machine.execDec s
  | .softReset => Sys2Proof.Machine.execSoftReset s
  | .magicHuf => Sys2Proof.Machine.execMagicHuf s
  | .magicLz77 => Sys2Proof.Machine.execMagicLz77 s
  | .magicLz78 => Sys2Proof.Machine.execMagicLz78 s
  | .magicLzw => Sys2Proof.Machine.execMagicLzw s
  | .hufHeader total => Sys2Proof.Machine.execHufHeader total s
  | .hufTreeInternal => Sys2Proof.Machine.execHufTreeInternal s
  | .hufTreeLeaf sym => Sys2Proof.Machine.execHufTreeLeaf sym s
  | .hufCode bits => Sys2Proof.Machine.execHufCode bits s
  | .lz77Header searchBits lookaheadBits => Sys2Proof.Machine.execLz77Header searchBits lookaheadBits s
  | .lz78Header dictBits blockBits => Sys2Proof.Machine.execLz78Header dictBits blockBits s
  | .lzwHeader dictBits blockBits => Sys2Proof.Machine.execLzwHeader dictBits blockBits s
  | .blockFull => Sys2Proof.Machine.execBlockFull s
  | .blockShort count => Sys2Proof.Machine.execBlockShort count s
  | .lz77Literal b => Sys2Proof.Machine.execLz77Literal b s
  | .lz77Match len pos b => Sys2Proof.Machine.execLz77Match len pos b s
  | .lz78Literal b => Sys2Proof.Machine.execLz78Literal b s
  | .lz78Phrase index b => Sys2Proof.Machine.execLz78Phrase index b s
  | .lzwIndex index => Sys2Proof.Machine.execLzwIndex index s

end Sys2Proof.Machine
end

