-- ==== Sys2Proof/Machine/Step.lean ====
section
/-! DEFINITION. One step of the machine: one move of the environment or one stretch of the running command. -/

namespace Sys2Proof.Machine

/-- Do a piece of work. -/
def Work.outcome : Work → Host.Outcome State Fault Refusal
  | .run i s => exec i s
  | .result o => o

/-- One step. -/
def step (s : State) : Host.Outcome State Fault Refusal := (stepWork s).outcome

/-- `s` with one instruction placed so that the next step runs it (assumption 13). -/
def State.withFetchWord (s : State) (nbits w : Nat) : State := placeInstr s nbits w

end Sys2Proof.Machine
end

