-- ==== Sys2Proof/Safety.lean ====
section
/-! DEFINITION. The terms in which claims are made: how a command ends or goes on (60_exceptions.md R510, R511), what
the BitSource has ahead of it and what the BitSink makes of a string of bits (20_memory.md R92), and the invariants
of the machine. -/

namespace Sys2Proof.Machine

/-! ## How a command ends, goes on or waits -/

/-- `s` after a command that completed (R511), its units and ports being `u`. -/
def State.completed (s : State) (u : Units) : State :=
  { s with
    busy := false, phase := .idle, current := none, begun := none
    done := true, err := false, ecode := 0, irqPend := true, units := u }

/-- `s` after a command that ended with error `e` (R510). -/
def State.failed (s : State) (e : ErrorCode) (u : Units) : State :=
  { s with
    busy := false, phase := .idle, current := none, begun := none
    done := false, err := true, ecode := e.code, irqPend := true, units := u }

/-- `s` after the start of a command that goes on in phase `p` (47_control.md R461). -/
def State.started (s : State) (p : Phase) (u : Units) : State :=
  { s with
    busy := true, phase := p, current := none, begun := none
    done := false, err := false, ecode := 0, irqPend := false, units := u }

/-- `s` after a token or stretch of a command that goes on in phase `p`: no register of the host changes. -/
def State.goesOn (s : State) (p : Phase) (u : Units) : State :=
  { s with phase := p, current := none, begun := none, units := u }

/-- `s` after command `i` began and is not over, `n` of its steps having led to `u`: it waits for a port
(20_memory.md R95), or another agent's turn has come. -/
def State.waiting (s : State) (i : Instr) (u : Units) (n : Nat) : State :=
  { s with
    busy := true, phase := .command, current := some i, begun := some ⟨s.units, n⟩
    done := false, err := false, ecode := 0, irqPend := false, units := u }

/-- The units in which the sequencer's stretch began, or will begin (assumption 3). -/
def State.origin (s : State) : Units := (s.begun.map Begun.units).getD s.units

/-- The next move is the sequencer's, to the end of its stretch (assumption 2). -/
abbrev State.coreTurn (s : State) : Prop := s.script.head? = none ∨ s.script.head? = some .core

/-- `s` with the move of this step taken from its script. -/
def State.turned (s : State) : State := { s with script := s.script.tail }

/-- `s` where the sequencer's stretch began, or will begin, the move taken. -/
def State.resuming (s : State) (u : Units) : State := { s.turned with units := u, begun := none }

/-- A decoder is about to read a token in context `c`. -/
abbrev State.reads (s : State) (c : Ctx) : Prop :=
  s.coreTurn ∧ s.busy = true ∧ s.current = none ∧ readCtx s.phase s.origin = some c

/-! ## The fields of the units -/

/-- The fields of the units. -/
inductive Field
  | src | snk | huf | lz77 | dict | dz | lzw | detect | result | inp | out
  deriving DecidableEq, Repr

/-- `v` has the field of `u`. -/
def Field.same (f : Field) (u v : Units) : Prop :=
  match f with
  | .src => v.src = u.src
  | .snk => v.snk = u.snk
  | .huf => v.huf = u.huf
  | .lz77 => v.lz77 = u.lz77
  | .dict => v.dict = u.dict
  | .dz => v.dz = u.dz
  | .lzw => v.lzw = u.lzw
  | .detect => v.detect = u.detect
  | .result => v.result = u.result
  | .inp => v.inp = u.inp
  | .out => v.out = u.out

/-- `v` differs from `u` in none but the fields `fs`. -/
def SameBut (fs : List Field) (u v : Units) : Prop := ∀ f, f ∉ fs → f.same u v

/-- The fields of the units that instruction `i` may change. -/
def touches : Instr → List Field
  | .nop | .envGetMagic | .decBody _ => []
  | .srcReset => [.src]
  | .srcGetBit | .srcGetBits _ => [.src, .inp, .result]
  | .snkReset => [.snk]
  | .snkPutBit _ | .snkPutBits _ | .snkFlush | .hufPutSym _ | .hufSerialize | .envPutMagic _ => [.snk, .out]
  | .freqClear | .freqAdd _ | .hufBuild | .hufDeserialize | .hufWalkReset => [.huf]
  | .freqGet _ | .hufCodeLen _ => [.result]
  | .hufAddBit _ => [.huf, .result]
  | .encBody .huf => [.huf]
  | .encBody .lz77 => [.lz77, .snk, .out]
  | .encBody .lz78 => [.dz, .dict, .snk, .out]
  | .encBody .lzw => [.dz, .dict, .lzw, .snk, .out]
  | .enc => [.src, .huf, .lz77, .dz, .dict, .lzw, .snk, .out]
  | .dec => [.src, .detect]
  | .softReset => [.src, .snk, .huf, .lz77, .dict, .dz, .lzw, .detect, .result]
  | .magicHuf | .magicLz77 | .magicLz78 | .magicLzw => [.result, .detect]
  | .hufHeader _ | .hufCode _ => [.huf, .out]
  | .hufTreeInternal | .hufTreeLeaf _ => [.huf]
  | .lz77Header _ _ => [.lz77, .detect]
  | .lz78Header _ _ => [.dz, .dict, .detect]
  | .lzwHeader _ _ => [.dz, .dict, .lzw, .detect]
  | .blockFull | .blockShort _ => [.lz77, .dz, .lzw, .out]
  | .lz77Literal _ | .lz77Match _ _ _ => [.lz77, .out]
  | .lz78Literal _ | .lz78Phrase _ _ => [.dz, .dict, .out]
  | .lzwIndex _ => [.dz, .dict, .lzw, .out]

/-! ## The bits ahead of the BitSource -/

/-- The bytes offered before the first terminal item. -/
def bytesAhead : List InItem → List Byte
  | .byte b :: rest => b :: bytesAhead rest
  | _ => []

/-- The bits of a byte in transmission order (20_memory.md R90). -/
def byteBits (b : Byte) : List Bool := bitsOf 8 b.toNat

/-- The bits of the holder not yet delivered (10_state.md R51). -/
def Src.heldBits (s : Src) : List Bool := if s.pos = 8 then [] else bitsOf (s.pos.val + 1) s.holder.toNat

/-- The bytes the input port has for a reader: none once a terminal item was taken (20_memory.md R94). -/
def InPort.ahead (p : InPort) : List Byte := if p.closed = none then bytesAhead p.offer else []

/-- The bits a reader of the BitSource gets next, as far as the producer has offered them. -/
def Units.pendingBits (u : Units) : List Bool := u.src.heldBits ++ u.inp.ahead.flatMap byteBits

/-- The BitSource is good. -/
abbrev Units.readable (u : Units) : Prop := u.src.good = true

/-- `v` is `u` after bits were read from a good BitSource: only the BitSource and the input port have changed, the
source is still good, and every item taken was the next one offered (20_memory.md R110). -/
abbrev Units.readTo (u v : Units) : Prop :=
  v = { u with src := v.src, inp := v.inp } ∧ v.readable ∧ v.inp.closed = u.inp.closed ∧
    v.inp.given ++ v.inp.offer = u.inp.given ++ u.inp.offer ∧
    v.inp.taken + u.inp.given.length = u.inp.taken + v.inp.given.length ∧
    v.inp.seekable = u.inp.seekable ∧ v.inp.replay = u.inp.replay

/-- The next `InRead` gets `item`: the next one offered, or again the terminal item that was taken before (R94). -/
abbrev Units.offers (u : Units) (item : InItem) : Prop :=
  (u.inp.closed = none ∧ u.inp.offer.head? = some item) ∨ u.inp.closed.map InItem.stop = some item

/-- The port after `InRead` got `item`. -/
def InPort.took (p : InPort) (item : InItem) : InPort :=
  match p.closed with
  | some _ => { p with taken := p.taken + 1 }
  | none =>
    { p with
      offer := p.offer.tail
      given := p.given ++ [item]
      closed := match item with
        | .byte _ => none
        | .stop t => some t
      taken := p.taken + 1 }

/-- `u` after `InRead` got `item`. -/
def Units.took (u : Units) (item : InItem) : Units := { u with inp := u.inp.took item }

/-- A good BitSource needs a byte, and the input port has terminal item `t` for it. -/
abbrev Units.meets (u : Units) (t : Terminal) : Prop := u.src.good = true ∧ u.src.pos = 8 ∧ u.offers (.stop t)

/-- After the bytes ahead the input port has terminal item `t`, or it had given it before. -/
abbrev InPort.stopsWith (p : InPort) (t : Terminal) : Prop :=
  p.closed = some t ∨ (p.closed = none ∧ (p.offer.drop p.ahead.length).head? = some (.stop t))

/-- The sequencer is about to run an encoder's stretch in phase `p`. -/
abbrev State.encodes (s : State) (p : Phase) : Prop :=
  s.coreTurn ∧ s.busy = true ∧ s.current = none ∧ s.phase = p

/-! ## What the BitSink makes of bits -/

/-- The consumer accepts every byte (R97). -/
abbrev OutPort.accepts (p : OutPort) : Prop := (∀ a ∈ p.answers, a = Answer.ok) ∧ p.habit = some .ok

/-- The consumer refuses the next byte. -/
abbrev OutPort.refuses (p : OutPort) : Prop :=
  p.answers.head? = some .fail ∨ (p.answers = [] ∧ p.habit = some .fail)

/-- The consumer's answer to the byte after `n` more (R97). -/
def OutPort.answerTo (p : OutPort) (n : Nat) : Option Answer :=
  match p.answers[n]? with
  | some a => some a
  | none => p.habit

/-- The consumer accepts the next `n` bytes and refuses the one after them. -/
abbrev OutPort.refusesAt (p : OutPort) (n : Nat) : Prop :=
  (∀ k < n, p.answerTo k = some .ok) ∧ p.answerTo n = some .fail

/-- `u` after the consumer accepted `bytes` and refused the byte after them. -/
def Units.refused (u : Units) (bytes : List Byte) : Units :=
  { u with out := { u.out with
      events := u.out.events ++ bytes.map OutEvent.byte
      answers := u.out.answers.drop (bytes.length + 1) } }

/-- `u` after the consumer accepted `bytes`. -/
def Units.emitted (u : Units) (bytes : List Byte) : Units :=
  { u with out := { u.out with
      events := u.out.events ++ bytes.map OutEvent.byte
      answers := u.out.answers.drop bytes.length } }

/-- `u` after a flush marker. -/
def Units.flushed (u : Units) : Units :=
  { u with out := { u.out with events := u.out.events ++ [OutEvent.flush] } }

/-- The bits of the accumulator that are committed (10_state.md R54), first one first. -/
def Snk.held (k : Snk) : List Bool := (bitsOf 8 k.acc.toNat).take (7 - k.pos.val)

/-- The byte of at most eight bits, zero-padded (41_bitsink.md R237). -/
def packByte (bits : List Bool) : Byte := BitVec.ofNat 8 (bitsValue 0 bits <<< (8 - bits.length))

/-- The whole bytes of a bit string (R92). -/
def packFull : List Bool → List Byte
  | b7 :: b6 :: b5 :: b4 :: b3 :: b2 :: b1 :: b0 :: rest =>
    packByte [b7, b6, b5, b4, b3, b2, b1, b0] :: packFull rest
  | _ => []

/-- The bits after the whole bytes. -/
def packRest : List Bool → List Bool
  | _ :: _ :: _ :: _ :: _ :: _ :: _ :: _ :: rest => packRest rest
  | bits => bits

/-- A good BitSink holding fewer than eight bits. -/
def Snk.holding (bits : List Bool) : Snk :=
  { acc := packByte bits, pos := ⟨7 - bits.length, by omega⟩, good := true }

/-- `u` after `bits` went through its good BitSink to a consumer that accepts every byte: the whole bytes have been
emitted, the rest is held (41_bitsink.md R241). -/
def Units.wrote (u : Units) (bits : List Bool) : Units :=
  { u.emitted (packFull (u.snk.held ++ bits)) with snk := Snk.holding (packRest (u.snk.held ++ bits)) }

/-- `u` after `bits` went through its good BitSink to a consumer that refused the byte after the first `n` whole ones:
the sink has failed and is empty (41_bitsink.md R232, R239). -/
def Units.cut (u : Units) (bits : List Bool) (n : Nat) : Units :=
  { u.refused ((packFull (u.snk.held ++ bits)).take n) with snk := { acc := 0, pos := 7, good := false } }

/-- `u` after a flush of its good BitSink to a willing consumer (R237). -/
def Units.flushedBits (u : Units) : Units :=
  if u.snk.held = [] then u.flushed
  else ({ u.emitted [u.snk.acc] with snk := Snk.holding [] } : Units).flushed

/-- The bits of the accumulator at and below the cursor are 0 (10_state.md R54). -/
abbrev Snk.wf (k : Snk) : Prop := ∀ j : Fin 8, j ≤ k.pos → k.acc.getLsbD j.val = false

/-- The BitSink is good and its consumer accepts every byte. -/
abbrev Units.writable (u : Units) : Prop := u.snk.good = true ∧ u.snk.wf ∧ u.out.accepts

/-! ## The shape of a Huffman tree -/

/-- A Huffman tree without its weights and places. -/
inductive Shape
  | leaf (sym : Byte)
  | node (left right : Shape)
  deriving DecidableEq, Repr

/-- The bits of a serialized tree (30_encoding.md R134). -/
def Shape.bits : Shape → List Bool
  | .leaf sym => true :: byteBits sym
  | .node left right => false :: (left.bits ++ right.bits)

/-- How many nodes a tree has. -/
def Shape.size : Shape → Nat
  | .leaf _ => 1
  | .node left right => left.size + right.size + 1

/-- The node memory holds the tree at index `i` (10_state.md R58). -/
def Shape.heldAt (nodes : List Node) : Shape → Nat → Prop
  | .leaf sym, i => ∃ w, nodes[i]? = some (.leaf sym w)
  | .node left right, i =>
    ∃ l r w, nodes[i]? = some (.internal (some l) (some r) w) ∧ left.heldAt nodes l ∧ right.heldAt nodes r

/-- The symbols of the leaves, from left to right. -/
def Shape.leaves : Shape → List Byte
  | .leaf sym => [sym]
  | .node left right => left.leaves ++ right.leaves

/-- Every leaf with its path from the root, `0` to the left (42_huffman.md R270). -/
def Shape.paths : Shape → List (Byte × List Bool)
  | .leaf sym => [(sym, [])]
  | .node left right =>
    (left.paths.map fun e => (e.1, false :: e.2)) ++ right.paths.map fun e => (e.1, true :: e.2)

/-- The tokens of a serialized tree (R276). -/
def Shape.tokens : Shape → List Instr
  | .leaf sym => [.hufTreeLeaf sym]
  | .node left right => .hufTreeInternal :: (left.tokens ++ right.tokens)

/-- Node `i` is a child of one of the nodes below index `j`. -/
def childBelow (nodes : List Node) (i j : Nat) : Prop :=
  ∃ m l r w, m < j ∧ nodes[m]? = some (.internal l r w) ∧ (l = some i ∨ r = some i)

/-- Node `i` is in the queue when node `j` is made: it has been made and has no parent yet (R267). -/
def queuedAt (nodes : List Node) (j i : Nat) : Prop := i < j ∧ ¬ childBelow nodes i j

/-! ## Runs -/

/-- The outcome of a list of instructions, each executed where the one before has left off. -/
def execAll : List Instr → State → Host.Outcome State Fault Refusal
  | [], s => .next s
  | i :: is, s =>
    match exec i s with
    | .next t => execAll is t
    | .fault f => .fault f
    | .refused r => .refused r

/-- Write fields of given width and value through the BitSink, then flush it (41_bitsink.md R241). -/
def writeFields : List (Nat × Nat) → M Unit
  | [] => snkFlush
  | f :: fs => do
    snkPutBits (bitsOf f.1 f.2)
    writeFields fs

/-- Read fields of given widths through the BitSource (40_bitsource.md R210). -/
def readFields : List Nat → M (List Nat)
  | [] => pure []
  | n :: ns => do
    let v ← srcGetBits n 0
    let vs ← readFields ns
    pure (v :: vs)

/-! ## Invariants -/

/-- What a claim about units says of a state: of the units now, and of those a stretch that is not over will be run
again from. -/
abbrev State.allUnits (s : State) (p : Units → Prop) : Prop := p s.units ∧ ∀ b ∈ s.begun, p b.units

/-- Every memory is in its canonical form: keys rising, no counter of 0 and no empty code listed. -/
abbrev Units.memWf (u : Units) : Prop :=
  Memory.wf u.lz77.win ∧ Memory.wf u.dz.blk ∧
    Sparse.wf u.huf.freq ∧ (∀ e ∈ u.huf.freq, e.1 < 256 ∧ e.2 ≠ 0) ∧
    Sparse.wf u.huf.code ∧ (∀ e ∈ u.huf.code, e.1 < 256 ∧ e.2 ≠ [])

/-- The memories' invariant. -/
abbrev State.memInv (s : State) : Prop := s.allUnits Units.memWf

/-- The BitSink's invariant (R54), between stretches: inside one a bit may be in the accumulator before the cursor
moves, and what counts is where the stretch began. -/
abbrev State.sinkInv (s : State) : Prop := s.origin.snk.wf

/-- The phases in which an LZ77 stream is being coded. -/
def Phase.inWindow : Phase → Bool
  | .block .lz77 | .record .lz77 | .lz77Read _ | .lz77Flag _ | .lz77Emit => true
  | _ => false

/-- The geometry of the window (10_state.md R63, R64, 43_lz77.md R330, R331). -/
abbrev Lz77.geometry (z : Lz77) : Prop :=
  (2 ≤ z.sb.toNat ∧ z.sb.toNat ≤ 29 ∧ 1 ≤ z.lb.toNat ∧ z.lb.toNat < z.sb.toNat) ∧
    z.csize ≤ z.searchSize ∧
    z.ls < z.windowSize ∧ z.le < z.windowSize ∧ z.sp < z.windowSize ∧
    z.ss = (z.ls + z.windowSize - z.csize) % z.windowSize

/-- The window's invariant, while an LZ77 stream is being coded. -/
abbrev State.windowInv (s : State) : Prop :=
  s.phase.inWindow = true → s.allUnits fun u => u.lz77.geometry

/-- Every entry's parent stands below it (20_memory.md R100). -/
abbrev parentsBelow (dict : List Entry) : Prop :=
  ∀ i : Fin dict.length, ∀ p b, dict[i] = .pair (some p) b → p < i.val

/-- The phases in which an LZ78 stream is being coded. -/
def Phase.inLz78 : Phase → Bool
  | .block .lz78 | .record .lz78 | .dictRead .lz78 | .dictFlag .lz78 | .dictEmit .lz78 => true
  | _ => false

/-- The phases in which an LZW stream is being coded. -/
def Phase.inLzw : Phase → Bool
  | .block .lzw | .record .lzw | .dictRead .lzw | .dictFlag .lzw | .dictEmit .lzw => true
  | _ => false

/-- The phases in which the LZ78 encoder codes its stream. -/
def Phase.encodesLz78 : Phase → Bool
  | .dictRead .lz78 | .dictFlag .lz78 | .dictEmit .lz78 => true
  | _ => false

/-- The dictionary never outgrows `DICT.CAP` (10_state.md R66, R68), and parents stand below their entries
(20_memory.md R100). -/
abbrev Units.dictWf (u : Units) : Prop := u.dict.length ≤ u.dz.cap ∧ parentsBelow u.dict

/-- In an LZW stream the first 256 entries stay the single bytes (45_lzw.md R401), every entry is a phrase with a last
byte, and the phrase registers name entries (10_state.md R70). -/
abbrev Units.lzwWf (u : Units) : Prop :=
  u.dictWf ∧ lzwSeed <+: u.dict ∧ .emptyPhrase ∉ u.dict ∧
    (∀ w ∈ u.lzw.w, w < u.dict.length) ∧ ∀ q ∈ u.lzw.prev, q < u.dict.length

/-- No two entries are the same, and none continues the reserved one: what an LZ78 encoder makes (44_lz78.md R375,
R377). -/
abbrev distinctPhrases (dict : List Entry) : Prop :=
  dict.Nodup ∧ ∀ p b, Entry.pair (some p) b ∈ dict → dict[p]? ≠ some .emptyPhrase

/-- The dictionary's invariant. -/
abbrev State.dictInv (s : State) : Prop :=
  (s.phase.inLz78 = true → s.allUnits Units.dictWf) ∧
    (s.phase.encodesLz78 = true → s.allUnits fun u => distinctPhrases u.dict) ∧
    (s.phase.inLzw = true → s.allUnits Units.lzwWf)

/-- The instructions a phase executes: any command from its start, else the tokens its decoder reads. -/
def Phase.admits (p : Phase) (i : Instr) : Bool :=
  match p with
  | .command => i.wfCommand
  | .magic _ =>
    match i with
    | .magicHuf | .magicLz77 | .magicLz78 | .magicLzw => true
    | _ => false
  | .header a =>
    match a, i with
    | .huf, .hufHeader _ | .lz77, .lz77Header _ _ | .lz78, .lz78Header _ _ | .lzw, .lzwHeader _ _ => true
    | _, _ => false
  | .tree _ _ =>
    match i with
    | .hufTreeInternal | .hufTreeLeaf _ => true
    | _ => false
  | .code _ =>
    match i with
    | .hufCode _ => true
    | _ => false
  | .block _ =>
    match i with
    | .blockFull | .blockShort _ => true
    | _ => false
  | .record .lz77 =>
    match i with
    | .lz77Literal _ | .lz77Match _ _ _ => true
    | _ => false
  | .record .lz78 =>
    match i with
    | .lz78Literal _ | .lz78Phrase _ _ => true
    | _ => false
  | .record .lzw =>
    match i with
    | .lzwIndex _ => true
    | _ => false
  | .idle | .leafRun _ | .hufCount _ | .hufHead _ | .hufPass _ | .lz77Read _ | .lz77Flag _ | .lz77Emit
  | .dictRead _ | .dictFlag _ | .dictEmit _ | .encFlush => false

/-- The sequencer's invariant (10_state.md R31, R37): an idle block runs nothing; while a command runs the flags of
the last end are 0; DONE and ERR are never both 1 and ECODE is 0 exactly without an error; an instruction that has
begun and is not over is one its phase executes, and well-formed where its phase reads it. -/
abbrev State.seqInv (s : State) : Prop :=
  (s.busy = false → s.phase = .idle ∧ s.current = none ∧ s.begun = none) ∧
    (s.busy = true → s.phase ≠ .idle ∧ s.done = false ∧ s.err = false ∧ s.irqPend = false) ∧
    (s.done = true → s.err = false) ∧
    (s.err = true ↔ s.ecode ≠ 0) ∧ s.ecode.toNat ≤ 8 ∧
    (∀ i ∈ s.current, s.begun ≠ none ∧ s.phase.admits i = true ∧
      ∀ c ∈ readCtx s.phase s.origin, i.wf c = true)

/-- Every invariant. -/
abbrev State.Inv (s : State) : Prop :=
  s.cfg.wf ∧ s.seqInv ∧ s.memInv ∧ s.sinkInv ∧ s.windowInv ∧ s.dictInv

end Sys2Proof.Machine
end

