-- ==== Sys2Proof/Certificates/Slice0/Obligations.lean ====
section
/-! DEFINITION. The statements for the provers, from the numbered rules of the spec, in the order of its parts: the
step, the encodings, reset and the invariants, the host registers, what instructions leave alone, then the units one
after another. A statement about an instruction gives its whole next state: what it does not name keeps its value. -/

open Sys2Proof Sys2Proof.Machine

/-! ## The step -/

/-- A CMD write to an idle block latches the word and starts the command: BUSY is set, DONE, ERR, ECODE and IRQ_PEND
are cleared, nothing else changes (10_state.md R31, R33, 47_control.md R461). At the sequencer's turn a legal word
then runs the command it is; one that is no legal command ends with BadCommand and does nothing else (30_encoding.md
R124). That the two are steps of their own is the model's (assumption 2). -/
def Obligations.StepRunsTheCommandWord : Prop :=
  (∀ (s : State) (w : Word) (rest : List Move), s.script = .write 4 s.cfg.base w :: rest → s.busy = false →
    step s = .next { s with
      script := rest, cmd := w, busy := true, phase := .command, current := none, begun := none
      done := false, err := false, ecode := 0, irqPend := false }) ∧
  (∀ s : State, s.coreTurn → s.busy = true → s.phase = .command → s.current = none →
    (∀ i, decodeCommand s.cmd = .ok i → step s = exec i (s.resuming s.origin)) ∧
    (∀ r, decodeCommand s.cmd = .error r → step s = .next (s.turned.failed .badCommand s.origin)))

/-- What the sequencer does at its turn: nothing while idle (70_reset_and_hazards.md R623); the instruction that has
begun and is not over, from where it began; the token it fetches; else the stretch of its phase (30_encoding.md R140).
The turns and the resumption are the model's (assumptions 2 and 3). -/
def Obligations.StepRunsTheFetchedToken : Prop :=
  ∀ s : State, s.coreTurn →
    (s.busy = false → step s = .next s.turned) ∧
    (s.busy = true →
      (∀ i, s.current = some i → step s = exec i (s.resuming s.origin)) ∧
      (s.current = none →
        (∀ c i u, readCtx s.phase s.origin = some c → (fetchToken s.phase c).on s.origin = .ok i u →
          step s = exec i (s.resuming u)) ∧
        (∀ p, readCtx s.phase s.origin = none → stretchOf s.cfg s.phase = some p →
          step s = runStretch p (s.resuming s.origin))))

/-- The bits ahead of a decoder that are a token of its context are read, no more of them, and the token is run
(30_encoding.md R140, 40_bitsource.md R208, R209). -/
def Obligations.FetchDeliversTheTokenAhead : Prop :=
  ∀ (s : State) (c : Ctx) (i : Instr) (rest : List Bool),
    s.reads c → s.origin.readable → i.wf c = true → encode c i ≠ [] →
    s.origin.pendingBits = encode c i ++ rest →
      ∃ v, s.origin.readTo v ∧ v.pendingBits = rest ∧ step s = exec i (s.resuming v)

/-- A decoder that needs a bit and does not get one ends (40_bitsource.md R208, R209): at End with UnterminatedStream
where a block flag begins and UnexpectedEof anywhere else, inside a token too; at an input failure with StreamError,
which takes precedence (60_exceptions.md R513); at once where the source had failed before. The terminal item may be
the next one offered, or one that was taken before and is got again (20_memory.md R94). -/
def Obligations.FetchFailsAtTheEndOfInput : Prop :=
  ∀ (s : State) (c : Ctx), s.reads c → 0 < c.maxBits →
    let atStart : ErrorCode := match c with
      | .block _ => .unterminatedStream
      | _ => .unexpectedEof
    (s.origin.meets .ended → ∃ v, SameBut [.src, .inp] s.origin v ∧ v.src.eof = true ∧
      step s = .next (s.turned.failed atStart v)) ∧
    (s.origin.meets .failed → ∃ v, SameBut [.src, .inp] s.origin v ∧ v.src.err = true ∧
      step s = .next (s.turned.failed .streamError v)) ∧
    (s.origin.src.err = true → step s = .next (s.turned.failed .streamError s.origin)) ∧
    (s.origin.src.err = false → s.origin.src.eof = true → step s = .next (s.turned.failed atStart s.origin)) ∧
    (∀ t : Terminal, s.origin.readable → s.origin.pendingBits ≠ [] →
      decodeBits c s.origin.pendingBits = .more → s.origin.inp.stopsWith t →
        ∃ v, SameBut [.src, .inp] s.origin v ∧
          step s = .next (s.turned.failed (match t with
            | .ended => .unexpectedEof
            | .failed => .streamError) v))

/-- A version byte other than 0x01 ends the command with HeaderInvalid as soon as its eight bits are read
(46_envelope.md R439); sixteen bits that are no magic end it likewise (R432), and ENV_GET_MAGIC leaves them in RESULT
and clears DETECT's ALG and VALID (R434), while DEC leaves both alone (R437). -/
def Obligations.BadVersionsAndMagicsEndTheCommand : Prop :=
  ∀ (s : State) (c : Ctx) (rest : List Bool), s.reads c → s.origin.readable →
    (∀ version < 256, version ≠ 1 → (c = .hufHeader ∨ ∃ a, c = .lzHeader a) →
      s.origin.pendingBits = bitsOf 8 version ++ rest →
        ∃ v, s.origin.readTo v ∧ v.pendingBits = rest ∧ step s = .next (s.turned.failed .headerInvalid v)) ∧
    (∀ m : BitVec 16, m ∉ [0x27AB, 0xA5E8, 0x7869, 0x8E83] → s.origin.pendingBits = bitsOf 16 m.toNat ++ rest →
      (s.phase = .magic .decode →
        ∃ v, s.origin.readTo v ∧ v.pendingBits = rest ∧ step s = .next (s.turned.failed .headerInvalid v)) ∧
      (s.phase = .magic .identify →
        ∃ v, s.origin.readTo v ∧ v.pendingBits = rest ∧
          step s = .next (s.turned.failed .headerInvalid
            { v with result := m.setWidth 32, detect := { v.detect with alg := .huf, valid := false } })))

/-! ## The encodings -/

/-- A word is a command exactly when it is that command's own word, with a legal bit count: no other word is accepted,
and no two commands share one (30_encoding.md R121 to R125). -/
def Obligations.CommandWordsAreExactlyTheLegalOnes : Prop :=
  ∀ (w : Word) (i : Instr), decodeCommand w = .ok i ↔ i.wfCommand = true ∧ encodeWord i = w

/-- In every context, the bits of every instruction of it decode to that instruction and leave what follows, and no
beginning of them is an instruction already (30_encoding.md R133 to R140). -/
def Obligations.InstructionsDecodeToThemselves : Prop :=
  ∀ (c : Ctx) (i : Instr), i.wf c = true →
    (∀ rest, decodeBits c (encode c i ++ rest) = .instr i rest) ∧
    (∀ k < (encode c i).length, decodeBits c ((encode c i).take k) = .more)

/-- Words and bit strings written out from the spec's encodings, one for each family (30_encoding.md R123, R132 to
R138). -/
def Obligations.WordsOfTheSpecDecode : Prop :=
  decodeCommand 0x00000000 = .ok .nop ∧
  decodeCommand 0x03200000 = .ok (.srcGetBits 32) ∧
  decodeCommand 0x03210000 = .error .badBitCount ∧
  decodeCommand 0x11000001 = .ok (.snkPutBit true) ∧
  decodeCommand 0x21000061 = .ok (.freqAdd 0x61) ∧
  decodeCommand 0x32020000 = .ok (.encBody .lz78) ∧
  decodeCommand 0x32040000 = .error .unusedFieldBit ∧
  decodeCommand 0xFF000000 = .ok .softReset ∧
  decodeCommand 0x40000000 = .error .unknownOpcode ∧
  decodeBits .envelope (bitsOf 16 0x8E83) = .instr .magicLzw [] ∧
  decodeBits .hufHeader (bitsOf 8 0x01 ++ bitsOf 32 11) = .instr (.hufHeader 11) [] ∧
  decodeBits .tree (true :: bitsOf 8 0x61) = .instr (.hufTreeLeaf 0x61) [] ∧
  decodeBits (.block 3) [true, true, false, true] = .instr (.blockShort 5) [] ∧
  decodeBits (.lz77Record 2 3) ([true, true, false, false, true, false] ++ bitsOf 8 0x7A) =
    .instr (.lz77Match 2 2 0x7A) [] ∧
  decodeBits (.lz78Record 4) ([true, true, false, false, true] ++ bitsOf 8 0x7A) = .instr (.lz78Phrase 9 0x7A) [] ∧
  decodeBits (.lzwRecord 9) (bitsOf 9 256) = .instr (.lzwIndex 256) []

/-! ## Reset and the invariants -/

/-- What reset leaves, as a host and the output port see it (10_state.md R72): the registers at their stated values,
the irq output low, every cursor, counter and table of the units as the table of R72 says. The entries R72 leaves
unspecified are not named. -/
def Obligations.ResetLeavesTheStatedValues : Prop :=
  let s := State.reset
  s.busy = false ∧ s.cmd = 0 ∧
  (readRegister s 0x04).2 = 0 ∧ (readRegister s 0x08).2 = 0 ∧ (readRegister s 0x0C).2 = 0x00780C00 ∧
  (readRegister s 0x10).2 = 0x00000003 ∧ (readRegister s 0x14).2 = 0 ∧ (readRegister s 0x18).2 = 0 ∧
  (readRegister s 0x1C).2 = 0 ∧ irq s = false ∧
  s.units.src.pos = 8 ∧ s.units.src.eof = false ∧ s.units.src.err = false ∧
  s.units.snk.acc = 0 ∧ s.units.snk.pos = 7 ∧ s.units.snk.good = true ∧
  (∀ b, s.units.huf.count b = 0) ∧ s.units.huf.total = 0 ∧ s.units.huf.nodes.length = 0 ∧
  s.units.huf.tree = .empty ∧ (∀ b, (s.units.huf.codeOf b).length = 0) ∧
  s.units.lz77.ss = 0 ∧ s.units.lz77.sp = 0 ∧ s.units.lz77.ls = 0 ∧ s.units.lz77.le = 0 ∧
  s.units.lz77.csize = 0 ∧ s.units.lz77.rem = 0 ∧ s.units.lz77.sb = 0 ∧ s.units.lz77.lb = 0 ∧
  s.units.dict.length = 0 ∧
  s.units.dz.db = 0 ∧ s.units.dz.bb = 0 ∧ s.units.dz.cnt = 0 ∧ s.units.dz.i = 0 ∧
  s.units.lzw.w = none ∧ s.units.lzw.prev = none

/-- The state right after reset meets every invariant below. -/
def Obligations.ResetMeetsTheInvariants : Prop := State.reset.Inv

/-- A hardware reset puts everything to its reset value, a running command being abandoned (70_reset_and_hazards.md
R600), and says nothing of the holder, the root and the cursor, which R72 leaves unspecified (assumption 5); the
instance's parameters stay, and so do the ports, which are the environment's, and the moves to come (assumptions 1, 14
and 16). -/
def Obligations.HardResetAbandonsTheCommand : Prop :=
  ∀ (s : State) (rest : List Move), s.script = .hardReset :: rest →
    ∃ u : Units, step s = .next { State.reset with
        cfg := s.cfg
        units := u
        script := rest
        rdata := s.rdata
        draws := s.draws } ∧
      u = { State.reset.units with
        src := { State.reset.units.src with holder := u.src.holder }
        huf := { State.reset.units.huf with root := u.huf.root, cursor := u.huf.cursor }
        inp := s.units.inp
        out := s.units.out }

/-- Every step keeps the memories in their canonical form: keys rising, no counter of 0 and no empty code listed
(20_memory.md R100 to R102); the form is the model's (assumptions 6 and 7). -/
def Obligations.StepKeepsMemoriesCanonical : Prop :=
  ∀ s t : State, s.memInv → step s = .next t → t.memInv

/-- Every step keeps the accumulator's bits at and below the cursor 0 (10_state.md R54) where the sequencer's stretch
began or will begin, from every state in which an idle block runs nothing. -/
def Obligations.StepKeepsTheAccumulatorPadded : Prop :=
  ∀ s t : State, s.seqInv → s.sinkInv → step s = .next t → t.sinkInv

/-- Every step keeps the geometry of the window while an LZ77 stream is coded: `CSIZE ≤ S`, every cursor inside the
window, `SS = (LS − CSIZE) mod WSIZE` (10_state.md R64). -/
def Obligations.StepKeepsTheWindowGeometry : Prop :=
  ∀ s t : State, s.windowInv → step s = .next t → t.windowInv

/-- Every step keeps the dictionary within `DICT.CAP`, every parent below its entry, while an LZ78 or LZW stream is
coded (10_state.md R66, R68, 20_memory.md R100). In an LZW stream it keeps the 256 single bytes at the front and
`LZW.W` and `LZW.PREV` naming entries (45_lzw.md R401, 10_state.md R70); while LZ78 is encoded, no two entries are the
same and none continues the reserved one (44_lz78.md R375, R377). It holds from every state whose instruction in
progress, if there is one, is a token of its context. -/
def Obligations.StepKeepsTheDictionaryInBounds : Prop :=
  ∀ s t : State, s.seqInv → s.dictInv → step s = .next t → t.dictInv

/-- Every step keeps the sequencer consistent: DONE and ERR are never both 1, both are 0 while a command runs, ECODE
is 0 exactly while ERR is 0, an idle block runs nothing (10_state.md R31, R37). -/
def Obligations.StepKeepsTheSequencerConsistent : Prop :=
  ∀ s t : State, s.seqInv → step s = .next t → t.seqInv

/-- At its turn the sequencer always answers a next state: no instruction the machine itself runs is refused, whatever
the stream holds (60_exceptions.md R510, 70_reset_and_hazards.md R617). A turn of `n` steps stays inside the stretch
after exactly `n` of its steps where it has more, so that any other agent can act there (R615); and the stretch then
ends as it would have ended in one turn. The turns are the model's (assumptions 2 and 3), and so is that SOFT_RESET
stopped before its step has reset SEQ.CMD, ARG and CONFIG already (assumption 26). -/
def Obligations.SequencerNeverRefuses : Prop :=
  (∀ s : State, s.seqInv → (s.coreTurn ∨ ∃ n, s.script.head? = some (.coreFor n)) → ∃ t, step s = .next t) ∧
  (∀ (s : State) (n : Nat) (rest : List Move), s.seqInv → s.script = .coreFor n :: .core :: rest →
    let whole := step { s with script := .core :: rest }
    ∃ t, step s = .next t ∧ t.script = .core :: rest ∧
      (t.begun ≠ none → step t = whole) ∧ (t.begun = none → whole = .next { t with script := rest })) ∧
  (∀ (s : State) (n : Nat) (rest : List Move) (i : Instr) (r : Stretch), s.script = .coreFor n :: rest →
    s.busy = true → s.phase = .command → s.current = none → s.begun = none → decodeCommand s.cmd = .ok i →
    instrStretch i s.turned = some r →
      exec i s.turned = .next (r.start.settle r.rule) ∧
      (n < r.rule.steps s.units →
        step s = .next { r.start with
          units := if n = 0 then s.units else ((r.rule.past s.units)[n - 1]?).getD s.units
          begun := some ⟨s.units, n⟩ }) ∧
      (r.rule.steps s.units ≤ n → step s = exec i s.turned))

/-! ## The host registers -/

/-- A host read returns the register at its offset, CMD and every reserved offset 0 (10_state.md R32 to R49), and has
no side effect (20_memory.md R105). While a command runs, RESULT, DETECT and FREQ_TOTAL have no law and give a free
value (70_reset_and_hazards.md R612, assumption 8), one more being drawn; nothing is said of its value. -/
def Obligations.RegisterReads : Prop :=
  ∀ (s : State) (offset : Nat) (rest : List Move),
    s.script = .read 4 (s.cfg.base + offset) :: rest → offset < 64 → offset % 4 = 0 →
    (offset ∈ [0x08, 0x18, 0x1C] → s.busy = true →
      step s = .next { s with script := rest, rdata := Config.busyRead s.draws, draws := s.draws + 1 }) ∧
    (offset ∉ [0x08, 0x18, 0x1C] ∨ s.busy = false →
      step s = .next { s with
        script := rest
        rdata :=
          if offset = 0x04 then s.arg
          else if offset = 0x08 then s.units.result
          else if offset = 0x0C then statusWord s
          else if offset = 0x10 then s.config.toWord
          else if offset = 0x14 then ctrlWord s.ie
          else if offset = 0x18 then s.units.detect.toWord
          else if offset = 0x1C then s.units.huf.total
          else if offset = 0x20 then idWord s.cfg
          else 0 })

/-- A host write of a register other than CMD and STATUS: ARG and CONFIG take the word unless a command runs, when the
write is ignored (10_state.md R34, R42, 70_reset_and_hazards.md R613); CTRL takes bit 0 at any time (R46); every other
offset ignores it (R32). -/
def Obligations.RegisterWrites : Prop :=
  ∀ (s : State) (offset : Nat) (v : Word) (rest : List Move),
    s.script = .write 4 (s.cfg.base + offset) v :: rest → offset < 64 → offset % 4 = 0 →
    offset ≠ 0x00 → offset ≠ 0x0C →
      step s = .next { s with
        script := rest
        arg := if offset = 0x04 ∧ s.busy = false then v else s.arg
        config := if offset = 0x10 ∧ s.busy = false then
            { alg := match (v.extractLsb' 0 2).toNat with
                | 0 => .huf
                | 1 => .lz77
                | 2 => .lz78
                | _ => .lzw
              p1 := v.extractLsb' 8 5
              p2 := v.extractLsb' 16 5 }
          else s.config
        ie := if offset = 0x14 then v.getLsbD 0 else s.ie }

/-- A host write of STATUS clears IRQ_PEND where bit 13 is 1 and OVR where bit 14 is 1, at any time, and changes
nothing else (10_state.md R39, R40, 47_control.md R463). -/
def Obligations.StatusWritesClearByOnes : Prop :=
  ∀ (s : State) (v : Word) (rest : List Move), s.script = .write 4 (s.cfg.base + 0x0C) v :: rest →
    step s = .next { s with
      script := rest
      irqPend := if v.getLsbD 13 then false else s.irqPend
      ovr := if v.getLsbD 14 then false else s.ovr }

/-- A CMD write while a command runs is dropped: it sets OVR, the word is lost and the command goes on unchanged
(10_state.md R33, 70_reset_and_hazards.md R611). -/
def Obligations.CommandWritesWhileBusyAreDropped : Prop :=
  ∀ (s : State) (w : Word) (rest : List Move),
    s.script = .write 4 s.cfg.base w :: rest → s.busy = true → step s = .next { s with script := rest, ovr := true }

/-- A host access outside the window faults; one inside it that is not an aligned 32-bit access is refused
(20_memory.md R103, R104; the fault is the model's, assumption 20). -/
def Obligations.AccessOutsideTheContract : Prop :=
  ∀ (s : State) (width addr : Nat) (rest : List Move),
    (s.script = .read width addr :: rest ∨ ∃ v, s.script = .write width addr v :: rest) →
    (addr < s.cfg.base ∨ s.cfg.base + 64 ≤ addr → step s = .fault .outsideWindow) ∧
    (s.cfg.base ≤ addr → addr < s.cfg.base + 64 → width ≠ 4 ∨ (addr - s.cfg.base) % 4 ≠ 0 →
      step s = .refused .registerAccess)

/-- The fields of the register words: STATUS (10_state.md R36), CONFIG, whose reserved bits read 0 and ignore writes
(R42), CTRL (R46), DETECT (R47) and ID (R49); that bits 15:13 and 23:21 of ID are 0 is the model's choice (assumption
23). -/
def Obligations.RegisterWordLayouts : Prop :=
  ∀ (s : State) (c : ConfigReg) (w : Word),
    ((statusWord s).getLsbD 0 = s.busy ∧ (statusWord s).getLsbD 1 = s.done ∧ (statusWord s).getLsbD 2 = s.err ∧
      (statusWord s).getLsbD 3 = false ∧ (statusWord s).extractLsb' 4 4 = s.ecode ∧
      (statusWord s).getLsbD 8 = s.units.src.eof ∧ (statusWord s).getLsbD 9 = s.units.src.err ∧
      (statusWord s).getLsbD 10 = s.units.src.good ∧ (statusWord s).getLsbD 11 = s.units.snk.good ∧
      ((statusWord s).getLsbD 12 = true ↔ s.units.huf.tree ≠ .empty) ∧
      (statusWord s).getLsbD 13 = s.irqPend ∧ (statusWord s).getLsbD 14 = s.ovr ∧
      (statusWord s).getLsbD 15 = false ∧
      ((statusWord s).extractLsb' 16 4).toNat = s.units.src.pos.val ∧
      ((statusWord s).extractLsb' 20 3).toNat = s.units.snk.pos.val ∧
      (statusWord s).getLsbD 23 = false ∧ (statusWord s).extractLsb' 24 8 = s.units.snk.acc) ∧
    ConfigReg.ofWord c.toWord = c ∧ (ConfigReg.ofWord w).toWord = w &&& 0x001F1F03 ∧
    ctrlWord (w.getLsbD 0) = w &&& 1 ∧
    ((Detect.toWord s.units.detect).extractLsb' 0 2 = s.units.detect.alg.code ∧
      (Detect.toWord s.units.detect).getLsbD 2 = s.units.detect.valid ∧
      (Detect.toWord s.units.detect).extractLsb' 8 5 = s.units.detect.p1 ∧
      (Detect.toWord s.units.detect).extractLsb' 16 5 = s.units.detect.p2 ∧
      Detect.toWord s.units.detect &&& 0xFFE0E0F8 = 0) ∧
    ((idWord s.cfg).extractLsb' 0 8 = 0x01 ∧ (idWord s.cfg).extractLsb' 8 5 = s.cfg.maxSearchBits ∧
      (idWord s.cfg).extractLsb' 16 5 = s.cfg.maxDictBits ∧ (idWord s.cfg).extractLsb' 24 5 = s.cfg.maxBlockBits ∧
      idWord s.cfg &&& 0xE0E0E000 = 0)

/-- Whenever a command ends, IRQ_PEND is 1 and exactly one of DONE and ERR is; the irq output is then CTRL.IE
(10_state.md R37, R39, 60_exceptions.md R521). -/
def Obligations.EndOfACommandRaisesTheInterrupt : Prop :=
  ∀ s t : State, step s = .next t → s.busy = true → t.busy = false → s.script.head? ≠ some .hardReset →
    t.irqPend = true ∧ t.done = !t.err ∧ (t.err = true ↔ t.ecode ≠ 0) ∧ irq t = s.ie

/-! ## What instructions leave alone -/

/-- No instruction changes the parameters, CTRL, OVR or anything of the environment's; SEQ.CMD, ARG and CONFIG change
in none but SOFT_RESET, which resets them (10_state.md R34, R40, R46, R72, 47_control.md R462, 70_reset_and_hazards.md
R602; that SEQ.CMD is among them is assumption 25). -/
def Obligations.InstructionsLeaveHostRegistersAlone : Prop :=
  ∀ (i : Instr) (s t : State), exec i s = .next t →
    t.cfg = s.cfg ∧ t.ie = s.ie ∧ t.ovr = s.ovr ∧
    t.script = s.script ∧ t.rdata = s.rdata ∧ t.draws = s.draws ∧
    (if i = .softReset then t.cmd = 0 ∧ t.arg = 0 ∧ t.config = { alg := .lzw, p1 := 0, p2 := 0 }
      else t.cmd = s.cmd ∧ t.arg = s.arg ∧ t.config = s.config)

/-- Every instruction, whether it completes, goes on, fails or waits, changes none of the units but those of its own
list (`touches`), and RESULT in none but the commands that return a value, once they have completed (10_state.md R35,
R38). Of the two byte memories no instruction writes the block buffer, and none the window but the LZ77 records, which
write the bytes from `LS` on and no other (43_lz77.md R352); SOFT_RESET unwrites both (47_control.md R462). -/
def Obligations.InstructionsChangeOnlyTheirUnits : Prop :=
  ∀ (i : Instr) (s t : State), exec i s = .next t →
    SameBut (touches i) s.units t.units ∧
    (t.err = true ∨ t.busy = true → t.units.result = s.units.result) ∧
    (i ≠ .softReset → t.units.dz.blk = s.units.dz.blk ∧
      match i with
      | .lz77Literal _ => ∀ a, a ≠ s.units.lz77.ls % s.units.lz77.windowSize →
          Memory.read t.units.lz77.win Config.unwrittenWindow a =
            Memory.read s.units.lz77.win Config.unwrittenWindow a
      | .lz77Match len _ _ => ∀ a, (∀ k ≤ len, a ≠ (s.units.lz77.ls + k) % s.units.lz77.windowSize) →
          Memory.read t.units.lz77.win Config.unwrittenWindow a =
            Memory.read s.units.lz77.win Config.unwrittenWindow a
      | _ => t.units.lz77.win = s.units.lz77.win)

/-- The failure flags are sticky: only SRC_RESET, ENC, DEC and SOFT_RESET clear SRC_EOF and SRC_ERR (10_state.md R52),
only SNK_RESET, ENC and SOFT_RESET set SNK_GOOD again (R55). -/
def Obligations.FailureFlagsAreSticky : Prop :=
  ∀ (i : Instr) (s t : State), exec i s = .next t →
    (i ∉ [.srcReset, .enc, .dec, .softReset] →
      (s.units.src.eof = true → t.units.src.eof = true) ∧ (s.units.src.err = true → t.units.src.err = true)) ∧
    (i ∉ [.snkReset, .enc, .softReset] → s.units.snk.good = false → t.units.snk.good = false)

/-! ## Commands that need nothing -/

/-- The commands that succeed whatever the state. NOP (47_control.md R460), SRC_RESET (40_bitsource.md R201),
SNK_RESET (41_bitsink.md R231), FREQ_CLEAR (42_huffman.md R261) and SOFT_RESET (47_control.md R462), whose reset
values are those of `State.reset`, SEQ.CMD among them (assumption 25), the ports being left alone and nothing said of
the holder, the root and the cursor (10_state.md R72, assumption 5), complete. HUF_DESERIALIZE with no tree and no
code (42_huffman.md R276, R278), ENV_GET_MAGIC (46_envelope.md R434), DEC with the BitSource and DETECT cleared (R437)
and DEC_BODY from where the BitSource stands (R438) go on with the tokens of a stream. -/
def Obligations.PlainCommandsSucceed : Prop :=
  ∀ (s : State) (a : Alg),
    exec .nop s = .next (s.completed s.units) ∧
    exec .srcReset s = .next (s.completed
      { s.units with src := { s.units.src with pos := 8, eof := false, err := false } }) ∧
    exec .snkReset s = .next (s.completed { s.units with snk := { acc := 0, pos := 7, good := true } }) ∧
    exec .freqClear s = .next (s.completed
      { s.units with huf := { s.units.huf with freq := [], total := 0 } }) ∧
    (∃ u : Units,
      exec .softReset s =
        .next ({ s with cmd := 0, arg := 0, config := { alg := .lzw, p1 := 0, p2 := 0 } }.completed u) ∧
      u = { State.reset.units with
        src := { State.reset.units.src with holder := u.src.holder }
        huf := { State.reset.units.huf with root := u.huf.root, cursor := u.huf.cursor }
        inp := s.units.inp
        out := s.units.out }) ∧
    exec .hufDeserialize s = .next (s.started (.tree [] .command)
      { s.units with huf := { s.units.huf with tree := .empty, nodes := [], code := [] } }) ∧
    exec .envGetMagic s = .next (s.started (.magic .identify) s.units) ∧
    exec .dec s = .next (s.started (.magic .decode)
      { s.units with
        src := { s.units.src with pos := 8, eof := false, err := false }
        detect := { alg := .huf, valid := false, p1 := 0, p2 := 0 } }) ∧
    exec (.decBody a) s = .next (s.started (.header a) s.units)

/-! ## BitSource and BitSink -/

/-- SRC_GET_BIT and SRC_GET_BITS return the bits ahead, the first one most significant, and take no more
(40_bitsource.md R203 to R206). -/
def Obligations.SrcGetBitsReturnsTheBitsAhead : Prop :=
  ∀ (s : State) (bits rest : List Bool), s.units.readable → s.units.pendingBits = bits ++ rest →
    (∀ n : Byte, 1 ≤ n.toNat → n.toNat ≤ 32 → bits.length = n.toNat →
      ∃ v, s.units.readTo v ∧ v.pendingBits = rest ∧
        exec (.srcGetBits n) s =
          .next (s.completed { v with result := BitVec.ofNat 32 (bitsValue 0 bits) })) ∧
    (∀ b, bits = [b] →
      ∃ v, s.units.readTo v ∧ v.pendingBits = rest ∧
        exec .srcGetBit s = .next (s.completed { v with result := if b then 1 else 0 }))

/-- Reading past the end is no error of these commands: the bits that are missing read 0, the flag SRC_EOF or SRC_ERR
is set (40_bitsource.md R202 to R206), and once it is set every further bit reads 0 and nothing is taken. The end may
be the next item offered, or one that was taken before, as after SRC_RESET (R201, 20_memory.md R94). An illegal bit
count is a BadCommand (30_encoding.md R122). -/
def Obligations.SrcReadsReportTheEndByFlags : Prop :=
  ∀ (s : State) (n : Byte),
    (¬ (1 ≤ n.toNat ∧ n.toNat ≤ 32) → exec (.srcGetBits n) s = .next (s.failed .badCommand s.units)) ∧
    (1 ≤ n.toNat → n.toNat ≤ 32 →
      (s.units.src.good = false →
        exec (.srcGetBits n) s = .next (s.completed { s.units with result := 0 }) ∧
        exec .srcGetBit s = .next (s.completed { s.units with result := 0 })) ∧
      (∀ t : Terminal, s.units.readable → s.units.inp.stopsWith t →
        (s.units.pendingBits.length < n.toNat →
          ∃ v, SameBut [.src, .inp] s.units v ∧ (if t = .ended then v.src.eof = true else v.src.err = true) ∧
            exec (.srcGetBits n) s = .next (s.completed { v with
              result := BitVec.ofNat 32
                (bitsValue 0 s.units.pendingBits * 2 ^ (n.toNat - s.units.pendingBits.length)) })) ∧
        (s.units.pendingBits = [] →
          ∃ v, SameBut [.src, .inp] s.units v ∧ (if t = .ended then v.src.eof = true else v.src.err = true) ∧
            exec .srcGetBit s = .next (s.completed { v with result := 0 }))))

/-- SNK_PUT_BIT, SNK_PUT_BITS and SNK_FLUSH into a good sink with a willing consumer: the bits join those held, first
one most significant, every whole byte goes out, the rest is held; a flush sends a partial byte padded with zeros and
the flush marker (41_bitsink.md R232 to R238). An illegal bit count is a BadCommand (30_encoding.md R122). -/
def Obligations.SnkPutBitsPacksTheBits : Prop :=
  ∀ (s : State) (n : Byte) (b : Bool), s.units.writable →
    exec (.snkPutBit b) s = .next (s.completed (s.units.wrote [b])) ∧
    (1 ≤ n.toNat → n.toNat ≤ 32 →
      exec (.snkPutBits n) s = .next (s.completed (s.units.wrote (bitsOf n.toNat s.arg.toNat)))) ∧
    (¬ (1 ≤ n.toNat ∧ n.toNat ≤ 32) → exec (.snkPutBits n) s = .next (s.failed .badCommand s.units)) ∧
    exec .snkFlush s = .next (s.completed s.units.flushedBits)

/-- While SNK_GOOD is 0 the sink's commands complete and change nothing (41_bitsink.md R239), and everything that
writes a field ends with StreamError (R240): HUF_PUT_SYM, HUF_SERIALIZE of a tree, ENV_PUT_MAGIC, the start of
ENC_BODY for the LZ algorithms, the Huffman encoder's head and every encoder's final flush (42_huffman.md R275,
46_envelope.md R436). The byte the consumer refuses is dropped and clears SNK_GOOD (R232, R234); a checked write that
is refused in its middle ends with StreamError, what was accepted having been sent. A byte a decoder emits and the
consumer refuses ends the command with StreamError (20_memory.md R118), for every token that emits one. -/
def Obligations.FailedSinkIgnoresAndIsReported : Prop :=
  ∀ (s : State) (n sym : Byte) (b : Bool) (a : Alg) (t : Shape) (k : Nat),
    let u := s.units
    let p1 := s.config.p1
    let p2 := s.config.p2
    let refusedOne : OutPort := { u.out with answers := u.out.answers.drop 1 }
    (u.snk.good = false →
      exec (.snkPutBit b) s = .next (s.completed u) ∧
      (1 ≤ n.toNat → n.toNat ≤ 32 → exec (.snkPutBits n) s = .next (s.completed u)) ∧
      exec .snkFlush s = .next (s.completed u) ∧
      (u.huf.codeOf sym ≠ [] → exec (.hufPutSym sym) s = .next (s.failed .streamError u)) ∧
      (u.huf.tree ≠ .empty → t.heldAt u.huf.nodes u.huf.root →
        exec .hufSerialize s = .next (s.failed .streamError u)) ∧
      exec (.envPutMagic a) s = .next (s.failed .streamError u) ∧
      (1 ≤ p1.toNat → p1.toNat ≤ 29 → 1 ≤ p2.toNat → p2.toNat + 1 ≤ p1.toNat →
        p1.toNat ≤ s.cfg.maxSearchBits.toNat →
          exec (.encBody .lz77) s =
            .next (s.failed .streamError { u with lz77 := { u.lz77 with sb := p1, lb := p2 } })) ∧
      (1 ≤ p1.toNat → 1 ≤ p2.toNat → p1.toNat ≤ s.cfg.maxDictBits.toNat → p2.toNat ≤ s.cfg.maxBlockBits.toNat →
        exec (.encBody .lz78) s =
            .next (s.failed .streamError { u with dz := { u.dz with db := p1, bb := p2 } }) ∧
          (8 ≤ p1.toNat → exec (.encBody .lzw) s =
            .next (s.failed .streamError { u with dz := { u.dz with db := p1, bb := p2 } })))) ∧
    (s.origin.snk.good = false →
      (∀ magic, s.encodes (.hufHead magic) →
        step s = .next (s.turned.failed .streamError { s.origin with huf := s.origin.huf.built })) ∧
      (s.encodes .encFlush → step s = .next (s.turned.failed .streamError s.origin))) ∧
    (s.encodes .encFlush → s.origin.snk.good = true → s.origin.snk.pos ≠ 7 → s.origin.out.refuses →
      step s = .next (s.turned.failed .streamError { s.origin with
        snk := { acc := 0, pos := 7, good := false }
        out := { s.origin.out with answers := s.origin.out.answers.drop 1 } })) ∧
    (u.snk.good = true → u.out.refuses → u.snk.pos = 0 →
      exec (.snkPutBit b) s = .next (s.completed { u with
        snk := { acc := 0, pos := 7, good := false }, out := refusedOne })) ∧
    (u.snk.good = true → u.snk.wf → u.out.refusesAt k →
      (k < (packFull (u.snk.held ++ u.huf.codeOf sym)).length →
        exec (.hufPutSym sym) s = .next (s.failed .streamError (u.cut (u.huf.codeOf sym) k))) ∧
      (k < (packFull (u.snk.held ++ bitsOf 16 a.magic.toNat)).length →
        exec (.envPutMagic a) s = .next (s.failed .streamError (u.cut (bitsOf 16 a.magic.toNat) k))) ∧
      (u.huf.tree ≠ .empty → t.heldAt u.huf.nodes u.huf.root → t.size ≤ u.huf.nodes.length →
        k < (packFull (u.snk.held ++ t.bits)).length →
          exec .hufSerialize s = .next (s.failed .streamError (u.cut t.bits k)))) ∧
    (∀ c : Byte, s.phase = .record .lz77 → u.out.refuses →
      exec (.lz77Literal c) s = .next (s.failed .streamError { u with
        lz77 := { u.lz77 with win := Memory.write u.lz77.win (u.lz77.ls % u.lz77.windowSize) c }
        out := refusedOne })) ∧
    (∀ (len pos : Nat) (c : Byte), s.phase = .record .lz77 → (len = 0 ∨ pos < u.lz77.csize) →
      len + 1 ≤ u.lz77.rem → u.out.refusesAt k → k ≤ len →
        ∃ (bytes : List Byte) (win : Memory), bytes.length = k ∧
          exec (.lz77Match len pos c) s =
            .next (s.failed .streamError { u.refused bytes with lz77 := { u.lz77 with win := win } })) ∧
    (∀ (w : Option Nat) (c : Byte) (i : Instr), s.phase = .record .lz78 →
      ((w = none ∧ i = .lz78Literal c) ∨ ∃ index, w = some index ∧ i = .lz78Phrase index c ∧ index < u.dict.length) →
      let phrase := phraseOf u.dict w ++ [c]
      u.dz.i + phrase.length ≤ u.dz.cnt → u.out.refusesAt k → k < phrase.length →
        exec i s = .next (s.failed .streamError (u.refused (phrase.take k)))) ∧
    (∀ (p : Nat) (phrase : List Byte), s.phase = .record .lzw → lzwPhrase s.cfg u.dict u.lzw.prev p = .ok phrase →
      u.dz.i + phrase.length ≤ u.dz.cnt → u.out.refusesAt k → k < phrase.length →
        exec (.lzwIndex p) s = .next (s.failed .streamError (u.refused (phrase.take k)))) ∧
    (∀ produced bit l r w c x v, s.phase = .code produced → u.huf.tree = .internalRoot →
      u.huf.nodes[u.huf.cursor]? = some (.internal l r w) → (if bit then r else l) = some c →
      u.huf.nodes[c]? = some (.leaf x v) → u.out.refuses →
        exec (.hufCode [bit]) s = .next (s.failed .streamError { u with
          huf := { u.huf with cursor := u.huf.root }, out := refusedOne })) ∧
    (∀ left x w, s.encodes (.leafRun (left + 1)) → s.origin.huf.nodes[s.origin.huf.root]? = some (.leaf x w) →
      s.origin.out.refuses →
        step s = .next (s.turned.failed .streamError { s.origin with
          out := { s.origin.out with answers := s.origin.out.answers.drop 1 } }))

/-- The mirror law (40_bitsource.md R210): fields written from an empty accumulator and flushed come out as whole
bytes, `ceil(Σ n / 8)` of them (41_bitsink.md R241), and reading fields of the same widths from those bytes returns
every value's low bits in order, the source being good throughout. -/
def Obligations.MirrorLaw : Prop :=
  ∀ (fields : List (Nat × Nat)) (u : Units),
    (∀ f ∈ fields, 1 ≤ f.1 ∧ f.1 ≤ 32) → u.writable → u.snk.pos = 7 →
      ∃ (bytes : List Byte) (v : Units), (writeFields fields).on u = .ok () v ∧
        v.out.events = u.out.events ++ bytes.map OutEvent.byte ++ [OutEvent.flush] ∧
        bytes.length = ((fields.map Prod.fst).sum + 7) / 8 ∧
        ∀ w : Units, w.src.pos = 8 → w.readable → w.inp.closed = none → w.inp.offer = bytes.map InItem.byte ++ [.stop .ended] →
          ∃ w', (readFields (fields.map Prod.fst)).on w = .ok (fields.map fun f => f.2 % 2 ^ f.1) w' ∧
            w'.src.good = true

/-! ## Huffman -/

/-- FREQ_ADD counts one occurrence of its byte and of none other (42_huffman.md R262, R263), is refused at a full
total, and FREQ_GET returns a counter (R264). A counter that would pass 32 bits, which only a decode that has
overwritten HUF.TOTAL makes possible, becomes a free value (assumption 9). -/
def Obligations.FrequencyCommandsCount : Prop :=
  ∀ (s : State) (sym : Byte),
    (Sparse.wf s.units.huf.freq → s.units.huf.total ≠ 0xFFFFFFFF →
      ∃ h : Huf, exec (.freqAdd sym) s = .next (s.completed { s.units with huf := h }) ∧
        h = { s.units.huf with freq := h.freq, total := s.units.huf.total + 1 } ∧
        (∀ b, b ≠ sym → h.count b = s.units.huf.count b) ∧
        h.count sym = if s.units.huf.count sym = 0xFFFFFFFF then Config.counterOverflow sym
          else s.units.huf.count sym + 1) ∧
    (s.units.huf.total = 0xFFFFFFFF → exec (.freqAdd sym) s = .next (s.failed .capacityExceeded s.units)) ∧
    exec (.freqGet sym) s = .next (s.completed { s.units with result := s.units.huf.count sym })

/-- HUF_BUILD of a table with no symbol (42_huffman.md R265) and with one (R266): the empty tree without codes; a leaf
as the root, whose code is the single bit `1`. -/
def Obligations.BuildOfSmallTables : Prop :=
  ∀ s : State, s.units.memWf →
    ((∀ b, s.units.huf.count b = 0) →
      exec .hufBuild s = .next (s.completed { s.units with huf :=
        { s.units.huf with tree := .empty, nodes := [], code := [], cursor := s.units.huf.root } })) ∧
    (∀ sym, s.units.huf.count sym ≠ 0 → (∀ b, b ≠ sym → s.units.huf.count b = 0) →
      exec .hufBuild s = .next (s.completed { s.units with huf :=
        { s.units.huf with
          tree := .leafRoot
          nodes := [.leaf sym (s.units.huf.count sym)]
          root := 0
          cursor := 0
          code := [(sym.toNat, [true])] } }))

/-- HUF_BUILD of a table with `k ≥ 2` symbols (42_huffman.md R267, R268): the leaves come first in ascending order of
byte value, then `k - 1` internal nodes, each made of the two nodes of least weight, then index, of those without a
parent yet, the least one to the left; the last one is the root. A weight that would pass 32 bits is a free value
(assumption 9). -/
def Obligations.BuildMergesTheTwoLeast : Prop :=
  ∀ (s : State) (k : Nat), s.units.memWf →
    k = ((List.range 256).filter fun b => s.units.huf.count (BitVec.ofNat 8 b) ≠ 0).length → 2 ≤ k →
      ∃ h : Huf, exec .hufBuild s = .next (s.completed { s.units with huf := h }) ∧
        h.freq = s.units.huf.freq ∧ h.total = s.units.huf.total ∧ h.tree = .internalRoot ∧
        h.nodes.length = 2 * k - 1 ∧ h.root = 2 * k - 2 ∧ h.cursor = h.root ∧
        h.nodes.take k = (((List.range 256).filter fun b => s.units.huf.count (BitVec.ofNat 8 b) ≠ 0).map fun b =>
          Node.leaf (BitVec.ofNat 8 b) (s.units.huf.count (BitVec.ofNat 8 b))) ∧
        ∀ j, k ≤ j → j < 2 * k - 1 →
          ∃ a b, a ≠ b ∧
            h.nodes[j]? = some (.internal (some a) (some b)
              (if (weightAt h.nodes a).toNat + (weightAt h.nodes b).toNat < 2 ^ 32
                then weightAt h.nodes a + weightAt h.nodes b
                else Config.weightOverflow (weightAt h.nodes a) (weightAt h.nodes b))) ∧
            queuedAt h.nodes j a ∧ queuedAt h.nodes j b ∧
            (∀ i, queuedAt h.nodes j i → i ≠ a → leavesBefore h.nodes a i = true) ∧
            (∀ i, queuedAt h.nodes j i → i ≠ a → i ≠ b → leavesBefore h.nodes b i = true)

/-- After HUF_BUILD of a table with two symbols or more, the node memory holds one tree whose leaves are exactly the
symbols that occur, each once, and the code of every symbol is its path from the root (42_huffman.md R267, R270); a
symbol that does not occur has no code. -/
def Obligations.BuiltTreeCodesEverySymbol : Prop :=
  ∀ (s : State) (x y : Byte), s.units.memWf → x ≠ y → s.units.huf.count x ≠ 0 → s.units.huf.count y ≠ 0 →
    ∃ (h : Huf) (t : Shape), exec .hufBuild s = .next (s.completed { s.units with huf := h }) ∧
      t.heldAt h.nodes h.root ∧ t.size = h.nodes.length ∧ t.leaves.Nodup ∧
      (∀ b, b ∈ t.leaves ↔ s.units.huf.count b ≠ 0) ∧
      (∀ e ∈ t.paths, e.2 ≠ [] ∧ h.codeOf e.1 = e.2) ∧
      (∀ b, s.units.huf.count b = 0 → h.codeOf b = [])

/-- HUF_CODE_LEN returns the length of a symbol's code, 0 without one (42_huffman.md R272); HUF_PUT_SYM writes the
code through a good sink, and ends with BadParameter before any bit where there is none (R273). No symbol has one
while TREE_VALID is 0, whatever the code memory holds (assumption 24). -/
def Obligations.CodeCommandsUseTheCodeTable : Prop :=
  ∀ (s : State) (sym : Byte),
    exec (.hufCodeLen sym) s = .next (s.completed
      { s.units with result := BitVec.ofNat 32 (s.units.huf.codeOf sym).length }) ∧
    (s.units.huf.codeOf sym = [] → exec (.hufPutSym sym) s = .next (s.failed .badParameter s.units)) ∧
    (s.units.huf.tree = .empty →
      exec (.hufCodeLen sym) s = .next (s.completed { s.units with result := 0 }) ∧
      exec (.hufPutSym sym) s = .next (s.failed .badParameter s.units)) ∧
    (s.units.huf.tree ≠ .empty →
      s.units.huf.codeOf sym = (Sparse.get s.units.huf.code sym.toNat).getD []) ∧
    (s.units.huf.codeOf sym ≠ [] → s.units.writable →
      exec (.hufPutSym sym) s = .next (s.completed (s.units.wrote (s.units.huf.codeOf sym))))

/-- HUF_SERIALIZE writes the tree held, in pre-order, `0` for an internal node, `1` and the symbol for a leaf; it
writes nothing for the empty tree (42_huffman.md R274, R275). -/
def Obligations.SerializeWritesTheTree : Prop :=
  ∀ s : State,
    (s.units.huf.tree = .empty → exec .hufSerialize s = .next (s.completed s.units)) ∧
    (∀ t : Shape, s.units.huf.tree ≠ .empty → t.heldAt s.units.huf.nodes s.units.huf.root →
      t.size ≤ s.units.huf.nodes.length → s.units.writable →
        exec .hufSerialize s = .next (s.completed (s.units.wrote t.bits)))

/-- The tree tokens (42_huffman.md R276): a node takes the next index, becomes the first free child of the innermost
open node, which closes with its second child, and stays open itself if it is internal; the tree is whole when no node
is open. A repeated symbol and a 256th internal node are malformed (R277). -/
def Obligations.TreeTokensBuildTheTree : Prop :=
  ∀ (s : State) (stack : List Nat) (use : TreeUse), s.phase = .tree stack use →
    let h := s.units.huf
    let n := h.nodes.length
    (h.nodes.countP Node.isInternal = 255 →
      exec .hufTreeInternal s = .next (s.failed .headerInvalid s.units)) ∧
    (∀ sym w, Node.leaf sym w ∈ h.nodes →
      exec (.hufTreeLeaf sym) s = .next (s.failed .headerInvalid s.units)) ∧
    (∀ (new : Node) (nodes' : List Node) (stack' : List Nat),
      ((stack = [] ∧ nodes' = h.nodes ++ [new] ∧ stack' = []) ∨
        (∃ p rest r w, stack = p :: rest ∧ h.nodes[p]? = some (.internal none r w) ∧
          nodes' = (h.nodes ++ [new]).set p (.internal (some n) r w) ∧ stack' = p :: rest) ∨
        (∃ p rest l r w, stack = p :: rest ∧ h.nodes[p]? = some (.internal (some l) r w) ∧
          nodes' = (h.nodes ++ [new]).set p (.internal (some l) (some n) w) ∧ stack' = rest)) →
      (new = .internal none none 0 → h.nodes.countP Node.isInternal ≠ 255 →
        exec .hufTreeInternal s = .next (s.goesOn (.tree (n :: stack') use)
          { s.units with huf := { h with nodes := nodes' } })) ∧
      (∀ sym, new = .leaf sym 0 → (∀ w, Node.leaf sym w ∉ h.nodes) →
        (stack' ≠ [] →
          exec (.hufTreeLeaf sym) s = .next (s.goesOn (.tree stack' use)
            { s.units with huf := { h with nodes := nodes' } })) ∧
        (stack' = [] → ∃ h' : Huf,
          h' = { h with nodes := nodes', root := 0, cursor := 0, tree := h'.tree, code := h'.code } ∧
          (∀ a w, nodes'.head? = some (.leaf a w) → h'.tree = .leafRoot) ∧
          (∀ l r w, nodes'.head? = some (.internal l r w) → h'.tree = .internalRoot) ∧
          exec (.hufTreeLeaf sym) s = .next (match use with
            | .command => s.completed { s.units with huf := h' }
            | .payload =>
              s.goesOn (if h'.tree = .leafRoot then .leafRun h.total.toNat else .code 0)
                { s.units with huf := h' }))))

/-- A serialized tree reads back as the tree it is (42_huffman.md R274, R276): the tokens of any tree with distinct
symbols, executed one after another, complete HUF_DESERIALIZE with that tree held, the walk at its root and every
symbol's path as its code (R270); and their bits are the tree's serialization. -/
def Obligations.SerializedTreesReadBack : Prop :=
  ∀ (t : Shape) (s : State), t.leaves.Nodup → s.phase = .tree [] .command → s.units.huf.nodes = [] →
    t.tokens.flatMap (encode .tree) = t.bits ∧
    ∃ h : Huf, execAll t.tokens s = .next (s.completed { s.units with huf := h }) ∧
      h.freq = s.units.huf.freq ∧ h.total = s.units.huf.total ∧
      t.heldAt h.nodes h.root ∧ h.nodes.length = t.size ∧ h.root = 0 ∧ h.cursor = 0 ∧
      h.tree = (if t.size = 1 then .leafRoot else .internalRoot) ∧
      (∀ e ∈ t.paths, h.codeOf e.1 = if t.size = 1 then [true] else e.2) ∧
      (∀ b, b ∉ t.leaves → h.codeOf b = [])

/-- HUF_WALK_RESET returns the walk to the root (42_huffman.md R280). HUF_ADD_BIT descends on the side of its bit: at
a leaf RESULT is `0x100` and the symbol and the walk is back at the root, at an internal node RESULT is 0 and the walk
stands there (R281, R282). Both need a tree; there is no descent from a single leaf, nor to a missing child
(assumption 21). -/
def Obligations.WalkCommandsFollowTheTree : Prop :=
  ∀ (s : State) (bit : Bool),
    let h := s.units.huf
    (h.tree = .empty →
      exec .hufWalkReset s = .next (s.failed .badCommand s.units) ∧
      exec (.hufAddBit bit) s = .next (s.failed .badCommand s.units)) ∧
    (h.tree ≠ .empty →
      exec .hufWalkReset s = .next (s.completed { s.units with huf := { h with cursor := h.root } })) ∧
    (h.tree = .leafRoot → exec (.hufAddBit bit) s = .next (s.failed .headerInvalid s.units)) ∧
    (h.tree = .internalRoot → ∀ l r w, h.nodes[h.cursor]? = some (.internal l r w) →
      (∀ c sym v, (if bit then r else l) = some c → h.nodes[c]? = some (.leaf sym v) →
        exec (.hufAddBit bit) s = .next (s.completed { s.units with
          huf := { h with cursor := h.root }
          result := BitVec.ofNat 32 (256 + sym.toNat) })) ∧
      (∀ c l' r' v, (if bit then r else l) = some c → h.nodes[c]? = some (.internal l' r' v) →
        exec (.hufAddBit bit) s = .next (s.completed { s.units with
          huf := { h with cursor := c }
          result := 0 })) ∧
      ((if bit then r else l) = none → exec (.hufAddBit bit) s = .next (s.failed .headerInvalid s.units)))

/-- The tokens of a Huffman payload but its tree (42_huffman.md R320, R322): the header's count goes to HUF.TOTAL, and
without a symbol the decode is over; a bit of the code stream that reaches an internal node moves the walk, one that
reaches a leaf emits its symbol, and the `N`-th symbol ends the decode. A single leaf's symbol is emitted from step to
step until none is left (R321). The code stream is read one bit at a time (assumption 11). -/
def Obligations.HuffmanTokensDecode : Prop :=
  ∀ s : State,
    let h := s.units.huf
    (s.phase = .header .huf →
      exec (.hufHeader 0) s = .next (s.completed
        ({ s.units with huf := { h with total := 0, tree := .empty } } : Units).flushed) ∧
      (∀ total, total ≠ 0 →
        exec (.hufHeader total) s = .next (s.goesOn (.tree [] .payload)
          { s.units with huf := { h with total := total, tree := .empty, nodes := [], code := [] } }))) ∧
    (∀ produced bit l r w c, s.phase = .code produced → h.tree = .internalRoot →
      h.nodes[h.cursor]? = some (.internal l r w) → (if bit then r else l) = some c →
      (∀ l' r' v, h.nodes[c]? = some (.internal l' r' v) →
        exec (.hufCode [bit]) s = .next (s.goesOn (.code produced)
          { s.units with huf := { h with cursor := c } })) ∧
      (∀ sym v, h.nodes[c]? = some (.leaf sym v) → s.units.out.accepts →
        let u : Units := { s.units with huf := { h with cursor := h.root } }
        exec (.hufCode [bit]) s = .next (if produced + 1 < h.total.toNat
          then s.goesOn (.code (produced + 1)) (u.emitted [sym])
          else s.completed (u.emitted [sym]).flushed))) ∧
    (∀ left sym w, s.coreTurn → s.busy = true → s.current = none → s.phase = .leafRun left →
      s.origin.huf.nodes[s.origin.huf.root]? = some (.leaf sym w) → s.origin.out.accepts →
        step s = .next (if left = 0 then s.turned.completed s.origin.flushed
          else s.turned.goesOn (.leafRun (left - 1)) (s.origin.emitted [sym])))

/-- The path of a symbol in the tree held, read as the bits of the code stream, decodes to that symbol: one byte is
emitted, and the walk is back at the root (42_huffman.md R281, R322). -/
def Obligations.CodesDecodeToTheirSymbols : Prop :=
  ∀ (s : State) (t : Shape) (produced : Nat) (sym : Byte) (path : List Bool),
    s.phase = .code produced → s.units.huf.tree = .internalRoot → s.units.huf.cursor = s.units.huf.root →
    t.heldAt s.units.huf.nodes s.units.huf.root → (sym, path) ∈ t.paths → path ≠ [] → s.units.out.accepts →
      exec (.hufCode path) s = .next (if produced + 1 < s.units.huf.total.toNat
        then s.goesOn (.code (produced + 1)) (s.units.emitted [sym])
        else s.completed (s.units.emitted [sym]).flushed)

/-- The Huffman encoder's two passes (42_huffman.md R312): the first counts every byte; between them the tree is
built, the magic (where asked for), the header and the tree are written and the input is rewound; the second writes
the code of every byte and ends with StreamError where it does not replay the first (R314). -/
def Obligations.HuffmanEncoderMakesTwoPasses : Prop :=
  ∀ s : State,
    (∀ item magic, s.encodes (.hufCount magic) → s.origin.offers item →
      let u := s.origin.took item
      step s = .next (match item with
        | .byte b =>
          if u.huf.total = 0xFFFFFFFF then s.turned.failed .capacityExceeded u
          else s.turned.goesOn (.hufCount magic) { u with huf := u.huf.counted b }
        | .stop .ended => s.turned.goesOn (.hufHead magic) u
        | .stop .failed => s.turned.failed .streamError u)) ∧
    (∀ magic, s.encodes (.hufHead magic) → s.origin.writable →
      let h := s.origin.huf.built
      let u : Units := ({ s.origin with huf := h } : Units).wrote
        ((if magic then bitsOf 16 0x27AB else []) ++ bitsOf 8 0x01 ++ bitsOf 32 h.total.toNat ++ h.serialized)
      step s = .next (if 2 ≤ h.distinct ∨ (h.distinct = 1 ∧ s.cfg.hufSingle = .oneBit)
        then s.turned.goesOn (.hufPass 0) { u with inp := u.inp.rewound }
        else s.turned.goesOn .encFlush u)) ∧
    (∀ item count, s.encodes (.hufPass count) → s.origin.offers item → s.origin.writable →
      let u := s.origin.took item
      step s = .next (match item with
        | .byte b =>
          if count = u.huf.total.toNat ∨ u.huf.codeOf b = [] then s.turned.failed .streamError u
          else s.turned.goesOn (.hufPass (count + 1)) (u.wrote (u.huf.codeOf b))
        | .stop .ended =>
          if count = u.huf.total.toNat then s.turned.goesOn .encFlush u else s.turned.failed .streamError u
        | .stop .failed => s.turned.failed .streamError u))

/-! ## The payload headers and the blocks -/

/-- An LZ header: its parameters go to DETECT, then they are checked, the format's range first (HeaderInvalid), then
the instance's limit (CapacityExceeded), then the stream starts (43_lz77.md R350, R351, 44_lz78.md R372, R382,
45_lzw.md R401, R406). -/
def Obligations.LzHeadersAreChecked : Prop :=
  ∀ (s : State) (p1 p2 : BitVec 5),
    let u : Units := { s.units with detect := { s.units.detect with p1 := p1, p2 := p2 } }
    let dz : Dz := { s.units.dz with db := p1, bb := p2 }
    (s.phase = .header .lz77 →
      exec (.lz77Header p1 p2) s = .next (
        if ¬ (1 ≤ p1.toNat ∧ p1.toNat ≤ 29 ∧ 1 ≤ p2.toNat ∧ p2.toNat + 1 ≤ p1.toNat) then s.failed .headerInvalid u
        else if s.cfg.maxSearchBits.toNat < p1.toNat then s.failed .capacityExceeded u
        else s.goesOn (.block .lz77) { u with lz77 := { s.units.lz77 with
          sb := p1, lb := p2, ss := 0, sp := 0, ls := 0, le := 0, csize := 0, rem := 0 } })) ∧
    (s.phase = .header .lz78 →
      exec (.lz78Header p1 p2) s = .next (
        if ¬ (1 ≤ p1.toNat ∧ 1 ≤ p2.toNat) then s.failed .headerInvalid u
        else if s.cfg.maxDictBits.toNat < p1.toNat then s.failed .capacityExceeded u
        else s.goesOn (.block .lz78) { u with
          dz := dz
          dict := if s.cfg.lz78First = 1 then [.emptyPhrase] else [] })) ∧
    (s.phase = .header .lzw →
      exec (.lzwHeader p1 p2) s = .next (
        if ¬ (8 ≤ p1.toNat ∧ 1 ≤ p2.toNat) then s.failed .headerInvalid u
        else if s.cfg.maxDictBits.toNat < p1.toNat then s.failed .capacityExceeded u
        else s.goesOn (.block .lzw) { u with
          dz := dz
          dict := (List.range 256).map fun i => .pair none (BitVec.ofNat 8 i)
          lzw := { w := none, prev := none } }))

/-- The flag of a block: a full block has the stream's block size, a short one its count, and a count of 0 ends the
stream, with a flush of the output (30_encoding.md R131, 43_lz77.md R350, 44_lz78.md R382, 45_lzw.md R406). -/
def Obligations.BlockTokensFrameTheBlock : Prop :=
  ∀ (s : State) (n : Nat),
    (s.phase = .block .lz77 →
      exec .blockFull s = .next (s.goesOn (.record .lz77)
        { s.units with lz77 := { s.units.lz77 with rem := 2 ^ s.units.lz77.lb.toNat } }) ∧
      exec (.blockShort (n + 1)) s = .next (s.goesOn (.record .lz77)
        { s.units with lz77 := { s.units.lz77 with rem := n + 1 } }) ∧
      exec (.blockShort 0) s = .next (s.completed
        ({ s.units with lz77 := { s.units.lz77 with rem := 0 } } : Units).flushed)) ∧
    (s.phase = .block .lz78 →
      exec .blockFull s = .next (s.goesOn (.record .lz78)
        { s.units with dz := { s.units.dz with cnt := 2 ^ s.units.dz.bb.toNat, i := 0 } }) ∧
      exec (.blockShort (n + 1)) s = .next (s.goesOn (.record .lz78)
        { s.units with dz := { s.units.dz with cnt := n + 1, i := 0 } }) ∧
      exec (.blockShort 0) s = .next (s.completed
        ({ s.units with dz := { s.units.dz with cnt := 0 } } : Units).flushed)) ∧
    (s.phase = .block .lzw →
      exec .blockFull s = .next (s.goesOn (.record .lzw)
        { s.units with
          dz := { s.units.dz with cnt := 2 ^ s.units.dz.bb.toNat, i := 0 }
          lzw := { s.units.lzw with prev := none } }) ∧
      exec (.blockShort (n + 1)) s = .next (s.goesOn (.record .lzw)
        { s.units with
          dz := { s.units.dz with cnt := n + 1, i := 0 }
          lzw := { s.units.lzw with prev := none } }) ∧
      exec (.blockShort 0) s = .next (s.completed
        ({ s.units with dz := { s.units.dz with cnt := 0 } } : Units).flushed))

/-! ## LZ77 -/

/-- LZ77_LITERAL writes its byte at `LS` and to the output, and the window advances by one (43_lz77.md R352, R334);
the block goes on while bytes of it are left (R350). -/
def Obligations.Lz77LiteralExtendsTheWindow : Prop :=
  ∀ (s : State) (b : Byte), s.phase = .record .lz77 → s.units.out.accepts →
    let z := s.units.lz77
    let ls := (z.ls + 1) % z.windowSize
    let csize := min (z.csize + 1) z.searchSize
    exec (.lz77Literal b) s = .next (s.goesOn (if z.rem ≤ 1 then .block .lz77 else .record .lz77)
      (({ s.units with lz77 := { z with
        win := Memory.write z.win (z.ls % z.windowSize) b
        ls := ls
        rem := z.rem - 1
        csize := csize
        ss := (ls + z.windowSize - csize) % z.windowSize } } : Units).emitted [b]))

/-- LZ77_MATCH (43_lz77.md R352 to R354, R334): outside the search region DictionaryIndex, past the block
HeaderInvalid, the first one first. Else the bytes are those of the search region from the match's position on, the
bytes it has itself produced following them where it overlaps; then the next byte. They go to the output and into the
window from `LS` on, and no other byte of the window changes. -/
def Obligations.Lz77MatchCopiesFromTheWindow : Prop :=
  ∀ (s : State) (len pos : Nat) (b : Byte), s.phase = .record .lz77 →
    let z := s.units.lz77
    (0 < len → z.csize ≤ pos → exec (.lz77Match len pos b) s = .next (s.failed .dictionaryIndex s.units)) ∧
    ((len = 0 ∨ pos < z.csize) → z.rem < len + 1 →
      exec (.lz77Match len pos b) s = .next (s.failed .headerInvalid s.units)) ∧
    ((len = 0 ∨ pos < z.csize) → len + 1 ≤ z.rem → z.rem ≤ z.lookaheadSize → z.geometry → s.units.out.accepts →
      ∃ (bytes : List Byte) (z' : Lz77),
        exec (.lz77Match len pos b) s = .next (s.goesOn (if z.rem = len + 1 then .block .lz77 else .record .lz77)
          (({ s.units with lz77 := z' } : Units).emitted (bytes ++ [b]))) ∧
        bytes.length = len ∧
        (∀ i < len, bytes[i]? =
          if pos + i < z.csize then some (z.winAt (z.ss + pos + i)) else bytes[pos + i - z.csize]?) ∧
        z'.ls = (z.ls + len + 1) % z.windowSize ∧ z'.rem = z.rem - (len + 1) ∧
        z'.csize = min (z.csize + len + 1) z.searchSize ∧
        z'.ss = (z'.ls + z.windowSize - z'.csize) % z.windowSize ∧
        z'.sb = z.sb ∧ z'.lb = z.lb ∧ z'.sp = z.sp ∧ z'.le = z.le ∧
        (∀ k ≤ len, (bytes ++ [b])[k]? = some (z'.winAt (z.ls + k))) ∧
        (∀ a < z.windowSize, (∀ k ≤ len, a ≠ (z.ls + k) % z.windowSize) → z'.winAt a = z.winAt a))

/-- `FindMatch()` (43_lz77.md R336): its length is the longest match of any offset in the search region, its offset
the first one that has it; a match is as long as the bytes agree, within the block. The block-boundary reduction takes
one off a match that would use the whole block (R337). -/
def Obligations.MatchSearchFindsTheFirstLongest : Prop :=
  ∀ z : Lz77,
    let m := z.findMatch
    let lenAt : Nat → Nat := fun off => z.matchLen (z.ss + off) z.rem 0
    (∀ off, lenAt off ≤ z.rem ∧ (∀ k < lenAt off, z.winAt (z.ss + off + k) = z.winAt (z.ls + k)) ∧
      (lenAt off < z.rem → z.winAt (z.ss + off + lenAt off) ≠ z.winAt (z.ls + lenAt off))) ∧
    (∀ off < z.csize, lenAt off ≤ m.1) ∧
    (0 < m.1 → m.2 < z.csize ∧ lenAt m.2 = m.1 ∧ ∀ off < m.2, lenAt off < m.1) ∧
    z.reducedMatch = (if m.1 = z.rem then m.1 - 1 else m.1, m.2)

/-- The LZ77 encoder's stretches (43_lz77.md R335, R338, R339): a block is read into the window from `LS` on, then its
flag is written, then record after record of what `FindMatch()` found (R336, R337); the terminator leads to the final
flush, which ends the command (41_bitsink.md R240). An input that has ended gives End again (20_memory.md R94), so
that the block after a short one is the terminator (R335). Where the search leaves `SP` is assumption 22. -/
def Obligations.Lz77EncoderCodesTheBlock : Prop :=
  ∀ (s : State) (cnt : Nat),
    let z := s.origin.lz77
    let le := if cnt = 0 then z.ls else z.le
    (∀ item, s.encodes (.lz77Read cnt) → cnt < z.lookaheadSize → s.origin.offers item →
      let u := s.origin.took item
      step s = .next (match item with
        | .byte b => s.turned.goesOn (.lz77Read (cnt + 1)) { u with lz77 := { z with
            win := Memory.write z.win (le % z.windowSize) b
            le := (le + 1) % z.windowSize } }
        | .stop .ended => s.turned.goesOn (.lz77Flag cnt) { u with lz77 := { z with le := le } }
        | .stop .failed => s.turned.failed .streamError { u with lz77 := { z with le := le } })) ∧
    (s.encodes (.lz77Read cnt) → z.lookaheadSize ≤ cnt →
      step s = .next (s.turned.goesOn (.lz77Flag cnt) { s.origin with lz77 := { z with le := le } })) ∧
    (s.encodes (.lz77Flag cnt) → s.origin.writable →
      step s = .next (s.turned.goesOn (if cnt = 0 then .encFlush else .lz77Emit)
        { s.origin.wrote (if cnt = z.lookaheadSize then [false] else true :: bitsOf z.lb.toNat cnt) with
          lz77 := { z with rem := cnt } })) ∧
    (s.encodes .lz77Emit → z.rem = 0 → step s = .next (s.turned.goesOn (.lz77Read 0) s.origin)) ∧
    (s.encodes .lz77Emit → z.rem ≠ 0 → s.origin.writable →
      let m := z.reducedMatch
      let c := z.winAt (z.ls + m.1)
      let ls := (z.ls + m.1 + 1) % z.windowSize
      let csize := min (z.csize + m.1 + 1) z.searchSize
      step s = .next (s.turned.goesOn .lz77Emit
        { s.origin.wrote (if m.1 = 0 then false :: byteBits c
            else true :: (bitsOf z.lb.toNat m.1 ++ bitsOf z.sb.toNat m.2 ++ byteBits c)) with
          lz77 := { z with
            sp := if z.csize = 0 then z.sp else (z.ss + (z.csize - 1)) % z.windowSize
            ls := ls
            rem := z.rem - (m.1 + 1)
            csize := csize
            ss := (ls + z.windowSize - csize) % z.windowSize } })) ∧
    (s.encodes .encFlush → s.origin.writable → step s = .next (s.turned.completed s.origin.flushedBits))

/-! ## LZ78 and LZW -/

/-- The phrase of an entry is its parent's phrase and its byte; NONE and the reserved entry have the empty phrase
(20_memory.md R100). -/
def Obligations.PhrasesFollowTheirParents : Prop :=
  ∀ (dict : List Entry) (w : Nat), parentsBelow dict →
    phraseOf dict none = [] ∧
    (dict[w]? = some .emptyPhrase → phraseOf dict (some w) = []) ∧
    (∀ p b, dict[w]? = some (.pair p b) → phraseOf dict (some w) = phraseOf dict p ++ [b])

/-- LZ78_LITERAL and LZ78_PHRASE (44_lz78.md R383, R377): an index at or beyond the size is a DictionaryIndex, a
phrase longer than what the block has left a HeaderInvalid. Else the phrase and the byte go out, and the dictionary
gets them as its next entry where it has room and the block goes on. -/
def Obligations.Lz78RecordsDecode : Prop :=
  ∀ (s : State) (w : Option Nat) (c : Byte) (i : Instr), s.phase = .record .lz78 →
    ((w = none ∧ i = .lz78Literal c) ∨ ∃ index, w = some index ∧ i = .lz78Phrase index c) →
    let u := s.units
    let phrase := phraseOf u.dict w ++ [c]
    let done := u.dz.i + phrase.length
    ((∃ index, w = some index ∧ u.dict.length ≤ index) → exec i s = .next (s.failed .dictionaryIndex u)) ∧
    ((∀ index, w = some index → index < u.dict.length) → u.dz.cnt < done →
      exec i s = .next (s.failed .headerInvalid u)) ∧
    ((∀ index, w = some index → index < u.dict.length) → done ≤ u.dz.cnt → u.out.accepts →
      exec i s = .next (s.goesOn (if done < u.dz.cnt then .record .lz78 else .block .lz78)
        { u.emitted phrase with
          dz := { u.dz with i := done }
          dict := if done < u.dz.cnt ∧ u.dict.length < 2 ^ u.dz.db.toNat then u.dict ++ [.pair w c] else u.dict }))

/-- LZW_INDEX (45_lzw.md R407, R408): the first index of a block names an existing entry, or, by the strict policy,
one below 256, else HeaderInvalid; a later one names an existing entry or the next one, whose phrase is the previous
phrase and its own first byte, else DictionaryIndex. A phrase longer than what the block has left is a HeaderInvalid.
The phrase goes out; after a later index the dictionary gets the previous phrase with the phrase's first byte where it
has room. -/
def Obligations.LzwIndicesDecode : Prop :=
  ∀ (s : State) (p : Nat), s.phase = .record .lzw →
    let u := s.units
    let legal : Prop := match u.lzw.prev with
      | none => if s.cfg.lzwPolicy = .dictSize then p < u.dict.length else p < 256
      | some _ => p ≤ u.dict.length
    (¬ legal → exec (.lzwIndex p) s = .next
      (s.failed (if u.lzw.prev = none then .headerInvalid else .dictionaryIndex) u)) ∧
    (legal → ∀ (f : Byte) (rest : List Byte),
      f :: rest = (match u.lzw.prev with
        | some q =>
          if p = u.dict.length then phraseOf u.dict (some q) ++ (phraseOf u.dict (some q)).take 1
          else phraseOf u.dict (some p)
        | none => phraseOf u.dict (some p)) →
      let done := u.dz.i + (f :: rest).length
      (u.dz.cnt < done → exec (.lzwIndex p) s = .next (s.failed .headerInvalid u)) ∧
      (done ≤ u.dz.cnt → u.out.accepts →
        exec (.lzwIndex p) s = .next (s.goesOn (if done < u.dz.cnt then .record .lzw else .block .lzw)
          { u.emitted (f :: rest) with
            dz := { u.dz with i := done }
            dict := match u.lzw.prev with
              | some q => if u.dict.length < 2 ^ u.dz.db.toNat then u.dict ++ [.pair (some q) f] else u.dict
              | none => u.dict
            lzw := { u.lzw with prev := some p } })))

/-- Within a stream the dictionary only grows, by one entry a step at most: no entry changes or goes until the next
stream start (10_state.md R66, R68). -/
def Obligations.DictionaryOnlyGrows : Prop :=
  ∀ s t : State, s.seqInv → s.coreTurn → s.phase.inLz78 = true ∨ s.phase.inLzw = true → step s = .next t →
    s.origin.dict <+: t.units.dict ∧ t.units.dict.length ≤ s.origin.dict.length + 1

/-- The LZ78 and LZW encoders read a block and write its flag, and where LZ78 has coded the whole block it begins the
next (44_lz78.md R374, R378, 45_lzw.md R402). An input that has ended gives End again (20_memory.md R94), so that the
block after a short one is the terminator. -/
def Obligations.DictionaryEncodersReadBlocks : Prop :=
  ∀ (s : State) (a : DictAlg),
    let z := s.origin.dz
    (∀ item, s.encodes (.dictRead a) → z.cnt < z.blockSize → s.origin.offers item →
      let u := s.origin.took item
      step s = .next (match item with
        | .byte b => s.turned.goesOn (.dictRead a)
            { u with dz := { z with blk := Memory.write z.blk z.cnt b, cnt := z.cnt + 1 } }
        | .stop .ended => s.turned.goesOn (.dictFlag a) u
        | .stop .failed => s.turned.failed .streamError u)) ∧
    (s.encodes (.dictRead a) → z.blockSize ≤ z.cnt → step s = .next (s.turned.goesOn (.dictFlag a) s.origin)) ∧
    (s.encodes (.dictFlag a) → s.origin.writable →
      step s = .next (s.turned.goesOn (if z.cnt = 0 then .encFlush else .dictEmit a)
        { s.origin.wrote (if z.cnt = z.blockSize then [false] else true :: bitsOf z.bb.toNat z.cnt) with
          dz := { z with i := 0 }
          lzw := if a = .lzw then { s.origin.lzw with w := none } else s.origin.lzw })) ∧
    (s.encodes (.dictEmit .lz78) → z.cnt ≤ z.i →
      step s = .next (s.turned.goesOn (.dictRead .lz78) { s.origin with dz := { z with cnt := 0 } }))

/-- The LZW encoder's records (45_lzw.md R402): a byte extends the current phrase where the dictionary has the longer
one; else the phrase's index is written, the longer phrase becomes the next entry where there is room, and the byte
starts a phrase. The end of the block, where `DZ.I` has reached `DZ.CNT`, writes the index of what is left, and `W`
stays until the next block begins (assumption 19). -/
def Obligations.LzwEncoderWritesIndices : Prop :=
  ∀ s : State, s.encodes (.dictEmit .lzw) →
    let u := s.origin
    let z := u.dz
    let c := z.blockAt z.i
    (z.i < z.cnt →
      (u.lzw.w = none → step s = .next (s.turned.goesOn (.dictEmit .lzw)
        { u with dz := { z with i := z.i + 1 }, lzw := { u.lzw with w := some c.toNat } })) ∧
      (∀ k, u.lzw.w = some k →
        ((∃ j : Nat, u.dict[j]? = some (.pair (some k) c)) →
          ∃ j : Nat, u.dict[j]? = some (.pair (some k) c) ∧
            step s = .next (s.turned.goesOn (.dictEmit .lzw)
              { u with dz := { z with i := z.i + 1 }, lzw := { u.lzw with w := some j } })) ∧
        ((∀ j : Nat, u.dict[j]? ≠ some (.pair (some k) c)) → u.writable →
          step s = .next (s.turned.goesOn (.dictEmit .lzw)
            { u.wrote (bitsOf z.db.toNat k) with
              dict := if u.dict.length < z.cap then u.dict ++ [.pair (some k) c] else u.dict
              dz := { z with i := z.i + 1 }
              lzw := { u.lzw with w := some c.toNat } })))) ∧
    (z.cnt ≤ z.i →
      (u.lzw.w = none →
        step s = .next (s.turned.goesOn (.dictRead .lzw) { u with dz := { z with cnt := 0 } })) ∧
      (∀ k, u.lzw.w = some k → u.writable →
        step s = .next (s.turned.goesOn (.dictRead .lzw)
          { u.wrote (bitsOf z.db.toNat k) with dz := { z with cnt := 0 } })))

/-- The LZ78 mirror law (44_lz78.md R375 to R377, R383, R385): from the same dictionary and counters, the record an
encoder's step writes is a token of the format, and a decoder that executes it emits exactly the bytes of the block it
stands for and has the encoder's dictionary and count after it. The record carries the longest phrase that the block
goes on with and that leaves a byte of the block for the record's own: every entry whose phrase the block goes on
with, and which leaves one, is shorter than the record, and the reserved entry is never chosen (R375). -/
def Obligations.Lz78EncoderAndDecoderMirror : Prop :=
  ∀ s d : State, s.encodes (.dictEmit .lz78) → s.origin.writable →
    parentsBelow s.origin.dict → distinctPhrases s.origin.dict →
    s.origin.dict.length ≤ s.origin.dz.cap → s.origin.dz.i < s.origin.dz.cnt →
    d.phase = .record .lz78 → d.units.out.accepts → d.units.dict = s.origin.dict →
    d.units.dz.db = s.origin.dz.db → d.units.dz.cnt = s.origin.dz.cnt → d.units.dz.i = s.origin.dz.i →
      ∃ (token : Instr) (bytes : List Byte) (s' d' : State),
        step s = .next s' ∧ exec token d = .next d' ∧
        token.wf (.lz78Record s.origin.dz.db.toNat) = true ∧
        (∀ index c, token = .lz78Phrase index c →
          index < d.units.dict.length ∧ d.units.dict[index]? ≠ some .emptyPhrase) ∧
        s'.phase = .dictEmit .lz78 ∧
        s'.units = { s.origin.wrote (encode (.lz78Record s.origin.dz.db.toNat) token) with
          dz := s'.units.dz
          dict := s'.units.dict } ∧
        d'.units.out.events = d.units.out.events ++ bytes.map OutEvent.byte ∧
        bytes ≠ [] ∧
        bytes = (List.range bytes.length).map (fun k => s.origin.dz.blockAt (s.origin.dz.i + k)) ∧
        (∀ j < s.origin.dict.length, ∀ phrase, phrase = phraseOf s.origin.dict (some j) →
          s.origin.dz.i + phrase.length + 1 ≤ s.origin.dz.cnt →
          phrase = (List.range phrase.length).map (fun k => s.origin.dz.blockAt (s.origin.dz.i + k)) →
            phrase.length < bytes.length) ∧
        s'.units.dz.i = s.origin.dz.i + bytes.length ∧ s'.units.dz.i ≤ s.origin.dz.cnt ∧
        d'.units.dz.i = s'.units.dz.i ∧ d'.units.dict = s'.units.dict

/-! ## The envelope -/

/-- ENV_PUT_MAGIC writes the sixteen bits of a magic (46_envelope.md R430, R431). A magic token ends ENV_GET_MAGIC
with the value, bit 18 and the algorithm code in RESULT (R434), and takes DEC to the header; both put the algorithm
and VALID into DETECT (R434, R437). -/
def Obligations.MagicCommandsAndTokens : Prop :=
  ∀ (s : State) (a : Alg) (m : BitVec 16) (token : Instr) (code : Nat),
    (a, m, token, code) ∈ [(Alg.huf, (0x27AB : BitVec 16), Instr.magicHuf, 0), (.lz77, 0xA5E8, .magicLz77, 1),
      (.lz78, 0x7869, .magicLz78, 2), (.lzw, 0x8E83, .magicLzw, 3)] →
    (s.units.writable → exec (.envPutMagic a) s = .next (s.completed (s.units.wrote (bitsOf 16 m.toNat)))) ∧
    (s.phase = .magic .identify →
      exec token s = .next (s.completed { s.units with
        result := BitVec.ofNat 32 (2 ^ 18 + code * 2 ^ 16 + m.toNat)
        detect := { s.units.detect with alg := a, valid := true } })) ∧
    (s.phase = .magic .decode →
      exec token s = .next (s.goesOn (.header a)
        { s.units with detect := { s.units.detect with alg := a, valid := true } }))

/-- The start of ENC and ENC_BODY (46_envelope.md R435, R436): the parameters are checked before anything else, the
format's range first (BadParameter), then the instance's limits (CapacityExceeded) (10_state.md R45); ENC then clears
the BitSource and the BitSink and writes the magic. Huffman refuses a stream it cannot read twice (42_huffman.md R313)
and begins its first pass; the others write their header and start their stream (43_lz77.md R339, 44_lz78.md R378,
45_lzw.md R402). -/
def Obligations.EncodersBegin : Prop :=
  ∀ (s : State) (i : Instr) (a : Alg) (u : Units) (magic : List Bool),
    ((i = .encBody a ∧ u = s.units ∧ magic = []) ∨
      (i = .enc ∧ a = s.config.alg ∧ magic = bitsOf 16 a.magic.toNat ∧
        u = { s.units with
          src := { s.units.src with pos := 8, eof := false, err := false }
          snk := { acc := 0, pos := 7, good := true } })) →
    let p1 := s.config.p1
    let p2 := s.config.p2
    let header := magic ++ bitsOf 8 0x01 ++ bitsOf 5 p1.toNat ++ bitsOf 5 p2.toNat
    match a with
    | .huf =>
      (u.inp.seekable = true →
        exec i s = .next (s.started (.hufCount (decide (i = .enc)))
          { u with huf := { u.huf with freq := [], total := 0 } })) ∧
      (u.inp.seekable = false → exec i s = .next (s.failed .streamError u))
    | .lz77 =>
      let format := 1 ≤ p1.toNat ∧ p1.toNat ≤ 29 ∧ 1 ≤ p2.toNat ∧ p2.toNat + 1 ≤ p1.toNat
      let limits := p1.toNat ≤ s.cfg.maxSearchBits.toNat
      (¬ format → exec i s = .next (s.failed .badParameter s.units)) ∧
      (format → ¬ limits → exec i s = .next (s.failed .capacityExceeded s.units)) ∧
      (format → limits → u.writable →
        exec i s = .next (s.started (.lz77Read 0) { u.wrote header with lz77 := { u.lz77 with
          sb := p1, lb := p2, ss := 0, sp := 0, ls := 0, le := 0, csize := 0, rem := 0 } }))
    | .lz78 =>
      let format := 1 ≤ p1.toNat ∧ 1 ≤ p2.toNat
      let limits := p1.toNat ≤ s.cfg.maxDictBits.toNat ∧ p2.toNat ≤ s.cfg.maxBlockBits.toNat
      (¬ format → exec i s = .next (s.failed .badParameter s.units)) ∧
      (format → ¬ limits → exec i s = .next (s.failed .capacityExceeded s.units)) ∧
      (format → limits → u.writable →
        exec i s = .next (s.started (.dictRead .lz78) { u.wrote header with
          dz := { u.dz with db := p1, bb := p2, cnt := 0 }
          dict := if s.cfg.lz78First = 1 then [.emptyPhrase] else [] }))
    | .lzw =>
      let format := 8 ≤ p1.toNat ∧ 1 ≤ p2.toNat
      let limits := p1.toNat ≤ s.cfg.maxDictBits.toNat ∧ p2.toNat ≤ s.cfg.maxBlockBits.toNat
      (¬ format → exec i s = .next (s.failed .badParameter s.units)) ∧
      (format → ¬ limits → exec i s = .next (s.failed .capacityExceeded s.units)) ∧
      (format → limits → u.writable →
        exec i s = .next (s.started (.dictRead .lzw) { u.wrote header with
          dz := { u.dz with db := p1, bb := p2, cnt := 0 }
          dict := (List.range 256).map fun i => .pair none (BitVec.ofNat 8 i)
          lzw := { w := none, prev := none } }))
end

