-- ==== Sys2Proof/Laws/State.lean ====
section
/-! SUPPORT. One lemma for each field of each named update of the state and of the units, so that no proof unfolds a
record update. -/

namespace Sys2Proof.Machine

/-! `State.begin` -/

@[simp] theorem State.begin_cfg (s : State) :
    (s.begin).cfg = s.cfg := rfl
@[simp] theorem State.begin_busy (s : State) :
    (s.begin).busy = true := rfl
@[simp] theorem State.begin_cmd (s : State) :
    (s.begin).cmd = s.cmd := rfl
@[simp] theorem State.begin_phase (s : State) :
    (s.begin).phase = .command := rfl
@[simp] theorem State.begin_current (s : State) :
    (s.begin).current = none := rfl
@[simp] theorem State.begin_arg (s : State) :
    (s.begin).arg = s.arg := rfl
@[simp] theorem State.begin_config (s : State) :
    (s.begin).config = s.config := rfl
@[simp] theorem State.begin_ie (s : State) :
    (s.begin).ie = s.ie := rfl
@[simp] theorem State.begin_done (s : State) :
    (s.begin).done = false := rfl
@[simp] theorem State.begin_err (s : State) :
    (s.begin).err = false := rfl
@[simp] theorem State.begin_ecode (s : State) :
    (s.begin).ecode = 0 := rfl
@[simp] theorem State.begin_irqPend (s : State) :
    (s.begin).irqPend = false := rfl
@[simp] theorem State.begin_ovr (s : State) :
    (s.begin).ovr = s.ovr := rfl
@[simp] theorem State.begin_units (s : State) :
    (s.begin).units = s.units := rfl
@[simp] theorem State.begin_begun (s : State) :
    (s.begin).begun = none := rfl
@[simp] theorem State.begin_script (s : State) :
    (s.begin).script = s.script := rfl
@[simp] theorem State.begin_rdata (s : State) :
    (s.begin).rdata = s.rdata := rfl
@[simp] theorem State.begin_draws (s : State) :
    (s.begin).draws = s.draws := rfl

/-! `State.atRest` -/

@[simp] theorem State.atRest_cfg (s : State) :
    (s.atRest).cfg = s.cfg := rfl
@[simp] theorem State.atRest_busy (s : State) :
    (s.atRest).busy = false := rfl
@[simp] theorem State.atRest_cmd (s : State) :
    (s.atRest).cmd = s.cmd := rfl
@[simp] theorem State.atRest_phase (s : State) :
    (s.atRest).phase = .idle := rfl
@[simp] theorem State.atRest_current (s : State) :
    (s.atRest).current = none := rfl
@[simp] theorem State.atRest_arg (s : State) :
    (s.atRest).arg = s.arg := rfl
@[simp] theorem State.atRest_config (s : State) :
    (s.atRest).config = s.config := rfl
@[simp] theorem State.atRest_ie (s : State) :
    (s.atRest).ie = s.ie := rfl
@[simp] theorem State.atRest_done (s : State) :
    (s.atRest).done = s.done := rfl
@[simp] theorem State.atRest_err (s : State) :
    (s.atRest).err = s.err := rfl
@[simp] theorem State.atRest_ecode (s : State) :
    (s.atRest).ecode = s.ecode := rfl
@[simp] theorem State.atRest_irqPend (s : State) :
    (s.atRest).irqPend = s.irqPend := rfl
@[simp] theorem State.atRest_ovr (s : State) :
    (s.atRest).ovr = s.ovr := rfl
@[simp] theorem State.atRest_units (s : State) :
    (s.atRest).units = s.units := rfl
@[simp] theorem State.atRest_begun (s : State) :
    (s.atRest).begun = none := rfl
@[simp] theorem State.atRest_script (s : State) :
    (s.atRest).script = s.script := rfl
@[simp] theorem State.atRest_rdata (s : State) :
    (s.atRest).rdata = s.rdata := rfl
@[simp] theorem State.atRest_draws (s : State) :
    (s.atRest).draws = s.draws := rfl

/-! `State.complete` -/

@[simp] theorem State.complete_cfg (s : State) :
    (s.complete).cfg = s.cfg := rfl
@[simp] theorem State.complete_busy (s : State) :
    (s.complete).busy = false := rfl
@[simp] theorem State.complete_cmd (s : State) :
    (s.complete).cmd = s.cmd := rfl
@[simp] theorem State.complete_phase (s : State) :
    (s.complete).phase = .idle := rfl
@[simp] theorem State.complete_current (s : State) :
    (s.complete).current = none := rfl
@[simp] theorem State.complete_arg (s : State) :
    (s.complete).arg = s.arg := rfl
@[simp] theorem State.complete_config (s : State) :
    (s.complete).config = s.config := rfl
@[simp] theorem State.complete_ie (s : State) :
    (s.complete).ie = s.ie := rfl
@[simp] theorem State.complete_done (s : State) :
    (s.complete).done = true := rfl
@[simp] theorem State.complete_err (s : State) :
    (s.complete).err = false := rfl
@[simp] theorem State.complete_ecode (s : State) :
    (s.complete).ecode = 0 := rfl
@[simp] theorem State.complete_irqPend (s : State) :
    (s.complete).irqPend = true := rfl
@[simp] theorem State.complete_ovr (s : State) :
    (s.complete).ovr = s.ovr := rfl
@[simp] theorem State.complete_units (s : State) :
    (s.complete).units = s.units := rfl
@[simp] theorem State.complete_begun (s : State) :
    (s.complete).begun = none := rfl
@[simp] theorem State.complete_script (s : State) :
    (s.complete).script = s.script := rfl
@[simp] theorem State.complete_rdata (s : State) :
    (s.complete).rdata = s.rdata := rfl
@[simp] theorem State.complete_draws (s : State) :
    (s.complete).draws = s.draws := rfl

/-! `State.raised` -/

@[simp] theorem State.raised_cfg (s : State) (e : ErrorCode) :
    (s.raised e).cfg = s.cfg := rfl
@[simp] theorem State.raised_busy (s : State) (e : ErrorCode) :
    (s.raised e).busy = false := rfl
@[simp] theorem State.raised_cmd (s : State) (e : ErrorCode) :
    (s.raised e).cmd = s.cmd := rfl
@[simp] theorem State.raised_phase (s : State) (e : ErrorCode) :
    (s.raised e).phase = .idle := rfl
@[simp] theorem State.raised_current (s : State) (e : ErrorCode) :
    (s.raised e).current = none := rfl
@[simp] theorem State.raised_arg (s : State) (e : ErrorCode) :
    (s.raised e).arg = s.arg := rfl
@[simp] theorem State.raised_config (s : State) (e : ErrorCode) :
    (s.raised e).config = s.config := rfl
@[simp] theorem State.raised_ie (s : State) (e : ErrorCode) :
    (s.raised e).ie = s.ie := rfl
@[simp] theorem State.raised_done (s : State) (e : ErrorCode) :
    (s.raised e).done = false := rfl
@[simp] theorem State.raised_err (s : State) (e : ErrorCode) :
    (s.raised e).err = true := rfl
@[simp] theorem State.raised_ecode (s : State) (e : ErrorCode) :
    (s.raised e).ecode = e.code := rfl
@[simp] theorem State.raised_irqPend (s : State) (e : ErrorCode) :
    (s.raised e).irqPend = true := rfl
@[simp] theorem State.raised_ovr (s : State) (e : ErrorCode) :
    (s.raised e).ovr = s.ovr := rfl
@[simp] theorem State.raised_units (s : State) (e : ErrorCode) :
    (s.raised e).units = s.units := rfl
@[simp] theorem State.raised_begun (s : State) (e : ErrorCode) :
    (s.raised e).begun = none := rfl
@[simp] theorem State.raised_script (s : State) (e : ErrorCode) :
    (s.raised e).script = s.script := rfl
@[simp] theorem State.raised_rdata (s : State) (e : ErrorCode) :
    (s.raised e).rdata = s.rdata := rfl
@[simp] theorem State.raised_draws (s : State) (e : ErrorCode) :
    (s.raised e).draws = s.draws := rfl

/-! `State.amid` -/

@[simp] theorem State.amid_cfg (s : State) (u : Units) (n : Nat) :
    (s.amid u n).cfg = s.cfg := rfl
@[simp] theorem State.amid_busy (s : State) (u : Units) (n : Nat) :
    (s.amid u n).busy = s.busy := rfl
@[simp] theorem State.amid_cmd (s : State) (u : Units) (n : Nat) :
    (s.amid u n).cmd = s.cmd := rfl
@[simp] theorem State.amid_phase (s : State) (u : Units) (n : Nat) :
    (s.amid u n).phase = s.phase := rfl
@[simp] theorem State.amid_current (s : State) (u : Units) (n : Nat) :
    (s.amid u n).current = s.current := rfl
@[simp] theorem State.amid_arg (s : State) (u : Units) (n : Nat) :
    (s.amid u n).arg = s.arg := rfl
@[simp] theorem State.amid_config (s : State) (u : Units) (n : Nat) :
    (s.amid u n).config = s.config := rfl
@[simp] theorem State.amid_ie (s : State) (u : Units) (n : Nat) :
    (s.amid u n).ie = s.ie := rfl
@[simp] theorem State.amid_done (s : State) (u : Units) (n : Nat) :
    (s.amid u n).done = s.done := rfl
@[simp] theorem State.amid_err (s : State) (u : Units) (n : Nat) :
    (s.amid u n).err = s.err := rfl
@[simp] theorem State.amid_ecode (s : State) (u : Units) (n : Nat) :
    (s.amid u n).ecode = s.ecode := rfl
@[simp] theorem State.amid_irqPend (s : State) (u : Units) (n : Nat) :
    (s.amid u n).irqPend = s.irqPend := rfl
@[simp] theorem State.amid_ovr (s : State) (u : Units) (n : Nat) :
    (s.amid u n).ovr = s.ovr := rfl
@[simp] theorem State.amid_units (s : State) (u : Units) (n : Nat) :
    (s.amid u n).units = u := rfl
@[simp] theorem State.amid_begun (s : State) (u : Units) (n : Nat) :
    (s.amid u n).begun = some ⟨s.units, n⟩ := rfl
@[simp] theorem State.amid_script (s : State) (u : Units) (n : Nat) :
    (s.amid u n).script = s.script := rfl
@[simp] theorem State.amid_rdata (s : State) (u : Units) (n : Nat) :
    (s.amid u n).rdata = s.rdata := rfl
@[simp] theorem State.amid_draws (s : State) (u : Units) (n : Nat) :
    (s.amid u n).draws = s.draws := rfl

/-! `State.resumed` -/

@[simp] theorem State.resumed_cfg (s : State) :
    (s.resumed).cfg = s.cfg := rfl
@[simp] theorem State.resumed_busy (s : State) :
    (s.resumed).busy = s.busy := rfl
@[simp] theorem State.resumed_cmd (s : State) :
    (s.resumed).cmd = s.cmd := rfl
@[simp] theorem State.resumed_phase (s : State) :
    (s.resumed).phase = s.phase := rfl
@[simp] theorem State.resumed_current (s : State) :
    (s.resumed).current = s.current := rfl
@[simp] theorem State.resumed_arg (s : State) :
    (s.resumed).arg = s.arg := rfl
@[simp] theorem State.resumed_config (s : State) :
    (s.resumed).config = s.config := rfl
@[simp] theorem State.resumed_ie (s : State) :
    (s.resumed).ie = s.ie := rfl
@[simp] theorem State.resumed_done (s : State) :
    (s.resumed).done = s.done := rfl
@[simp] theorem State.resumed_err (s : State) :
    (s.resumed).err = s.err := rfl
@[simp] theorem State.resumed_ecode (s : State) :
    (s.resumed).ecode = s.ecode := rfl
@[simp] theorem State.resumed_irqPend (s : State) :
    (s.resumed).irqPend = s.irqPend := rfl
@[simp] theorem State.resumed_ovr (s : State) :
    (s.resumed).ovr = s.ovr := rfl
@[simp] theorem State.resumed_units (s : State) :
    (s.resumed).units = s.origin := rfl
@[simp] theorem State.resumed_begun (s : State) :
    (s.resumed).begun = none := rfl
@[simp] theorem State.resumed_script (s : State) :
    (s.resumed).script = s.script := rfl
@[simp] theorem State.resumed_rdata (s : State) :
    (s.resumed).rdata = s.rdata := rfl
@[simp] theorem State.resumed_draws (s : State) :
    (s.resumed).draws = s.draws := rfl

/-! `State.mapPorts` -/

@[simp] theorem State.mapPorts_cfg (s : State) (f : Units → Units) :
    (s.mapPorts f).cfg = s.cfg := rfl
@[simp] theorem State.mapPorts_busy (s : State) (f : Units → Units) :
    (s.mapPorts f).busy = s.busy := rfl
@[simp] theorem State.mapPorts_cmd (s : State) (f : Units → Units) :
    (s.mapPorts f).cmd = s.cmd := rfl
@[simp] theorem State.mapPorts_phase (s : State) (f : Units → Units) :
    (s.mapPorts f).phase = s.phase := rfl
@[simp] theorem State.mapPorts_current (s : State) (f : Units → Units) :
    (s.mapPorts f).current = s.current := rfl
@[simp] theorem State.mapPorts_arg (s : State) (f : Units → Units) :
    (s.mapPorts f).arg = s.arg := rfl
@[simp] theorem State.mapPorts_config (s : State) (f : Units → Units) :
    (s.mapPorts f).config = s.config := rfl
@[simp] theorem State.mapPorts_ie (s : State) (f : Units → Units) :
    (s.mapPorts f).ie = s.ie := rfl
@[simp] theorem State.mapPorts_done (s : State) (f : Units → Units) :
    (s.mapPorts f).done = s.done := rfl
@[simp] theorem State.mapPorts_err (s : State) (f : Units → Units) :
    (s.mapPorts f).err = s.err := rfl
@[simp] theorem State.mapPorts_ecode (s : State) (f : Units → Units) :
    (s.mapPorts f).ecode = s.ecode := rfl
@[simp] theorem State.mapPorts_irqPend (s : State) (f : Units → Units) :
    (s.mapPorts f).irqPend = s.irqPend := rfl
@[simp] theorem State.mapPorts_ovr (s : State) (f : Units → Units) :
    (s.mapPorts f).ovr = s.ovr := rfl
@[simp] theorem State.mapPorts_units (s : State) (f : Units → Units) :
    (s.mapPorts f).units = f s.units := rfl
@[simp] theorem State.mapPorts_begun (s : State) (f : Units → Units) :
    (s.mapPorts f).begun = s.begun.map fun b => { b with units := f b.units } := rfl
@[simp] theorem State.mapPorts_script (s : State) (f : Units → Units) :
    (s.mapPorts f).script = s.script := rfl
@[simp] theorem State.mapPorts_rdata (s : State) (f : Units → Units) :
    (s.mapPorts f).rdata = s.rdata := rfl
@[simp] theorem State.mapPorts_draws (s : State) (f : Units → Units) :
    (s.mapPorts f).draws = s.draws := rfl

/-! `State.turned` -/

@[simp] theorem State.turned_cfg (s : State) :
    (s.turned).cfg = s.cfg := rfl
@[simp] theorem State.turned_busy (s : State) :
    (s.turned).busy = s.busy := rfl
@[simp] theorem State.turned_cmd (s : State) :
    (s.turned).cmd = s.cmd := rfl
@[simp] theorem State.turned_phase (s : State) :
    (s.turned).phase = s.phase := rfl
@[simp] theorem State.turned_current (s : State) :
    (s.turned).current = s.current := rfl
@[simp] theorem State.turned_arg (s : State) :
    (s.turned).arg = s.arg := rfl
@[simp] theorem State.turned_config (s : State) :
    (s.turned).config = s.config := rfl
@[simp] theorem State.turned_ie (s : State) :
    (s.turned).ie = s.ie := rfl
@[simp] theorem State.turned_done (s : State) :
    (s.turned).done = s.done := rfl
@[simp] theorem State.turned_err (s : State) :
    (s.turned).err = s.err := rfl
@[simp] theorem State.turned_ecode (s : State) :
    (s.turned).ecode = s.ecode := rfl
@[simp] theorem State.turned_irqPend (s : State) :
    (s.turned).irqPend = s.irqPend := rfl
@[simp] theorem State.turned_ovr (s : State) :
    (s.turned).ovr = s.ovr := rfl
@[simp] theorem State.turned_units (s : State) :
    (s.turned).units = s.units := rfl
@[simp] theorem State.turned_begun (s : State) :
    (s.turned).begun = s.begun := rfl
@[simp] theorem State.turned_script (s : State) :
    (s.turned).script = s.script.tail := rfl
@[simp] theorem State.turned_rdata (s : State) :
    (s.turned).rdata = s.rdata := rfl
@[simp] theorem State.turned_draws (s : State) :
    (s.turned).draws = s.draws := rfl

/-! `State.resuming` -/

@[simp] theorem State.resuming_cfg (s : State) (u : Units) :
    (s.resuming u).cfg = s.cfg := rfl
@[simp] theorem State.resuming_busy (s : State) (u : Units) :
    (s.resuming u).busy = s.busy := rfl
@[simp] theorem State.resuming_cmd (s : State) (u : Units) :
    (s.resuming u).cmd = s.cmd := rfl
@[simp] theorem State.resuming_phase (s : State) (u : Units) :
    (s.resuming u).phase = s.phase := rfl
@[simp] theorem State.resuming_current (s : State) (u : Units) :
    (s.resuming u).current = s.current := rfl
@[simp] theorem State.resuming_arg (s : State) (u : Units) :
    (s.resuming u).arg = s.arg := rfl
@[simp] theorem State.resuming_config (s : State) (u : Units) :
    (s.resuming u).config = s.config := rfl
@[simp] theorem State.resuming_ie (s : State) (u : Units) :
    (s.resuming u).ie = s.ie := rfl
@[simp] theorem State.resuming_done (s : State) (u : Units) :
    (s.resuming u).done = s.done := rfl
@[simp] theorem State.resuming_err (s : State) (u : Units) :
    (s.resuming u).err = s.err := rfl
@[simp] theorem State.resuming_ecode (s : State) (u : Units) :
    (s.resuming u).ecode = s.ecode := rfl
@[simp] theorem State.resuming_irqPend (s : State) (u : Units) :
    (s.resuming u).irqPend = s.irqPend := rfl
@[simp] theorem State.resuming_ovr (s : State) (u : Units) :
    (s.resuming u).ovr = s.ovr := rfl
@[simp] theorem State.resuming_units (s : State) (u : Units) :
    (s.resuming u).units = u := rfl
@[simp] theorem State.resuming_begun (s : State) (u : Units) :
    (s.resuming u).begun = none := rfl
@[simp] theorem State.resuming_script (s : State) (u : Units) :
    (s.resuming u).script = s.script.tail := rfl
@[simp] theorem State.resuming_rdata (s : State) (u : Units) :
    (s.resuming u).rdata = s.rdata := rfl
@[simp] theorem State.resuming_draws (s : State) (u : Units) :
    (s.resuming u).draws = s.draws := rfl

/-! `State.completed` -/

@[simp] theorem State.completed_cfg (s : State) (u : Units) :
    (s.completed u).cfg = s.cfg := rfl
@[simp] theorem State.completed_busy (s : State) (u : Units) :
    (s.completed u).busy = false := rfl
@[simp] theorem State.completed_cmd (s : State) (u : Units) :
    (s.completed u).cmd = s.cmd := rfl
@[simp] theorem State.completed_phase (s : State) (u : Units) :
    (s.completed u).phase = .idle := rfl
@[simp] theorem State.completed_current (s : State) (u : Units) :
    (s.completed u).current = none := rfl
@[simp] theorem State.completed_arg (s : State) (u : Units) :
    (s.completed u).arg = s.arg := rfl
@[simp] theorem State.completed_config (s : State) (u : Units) :
    (s.completed u).config = s.config := rfl
@[simp] theorem State.completed_ie (s : State) (u : Units) :
    (s.completed u).ie = s.ie := rfl
@[simp] theorem State.completed_done (s : State) (u : Units) :
    (s.completed u).done = true := rfl
@[simp] theorem State.completed_err (s : State) (u : Units) :
    (s.completed u).err = false := rfl
@[simp] theorem State.completed_ecode (s : State) (u : Units) :
    (s.completed u).ecode = 0 := rfl
@[simp] theorem State.completed_irqPend (s : State) (u : Units) :
    (s.completed u).irqPend = true := rfl
@[simp] theorem State.completed_ovr (s : State) (u : Units) :
    (s.completed u).ovr = s.ovr := rfl
@[simp] theorem State.completed_units (s : State) (u : Units) :
    (s.completed u).units = u := rfl
@[simp] theorem State.completed_begun (s : State) (u : Units) :
    (s.completed u).begun = none := rfl
@[simp] theorem State.completed_script (s : State) (u : Units) :
    (s.completed u).script = s.script := rfl
@[simp] theorem State.completed_rdata (s : State) (u : Units) :
    (s.completed u).rdata = s.rdata := rfl
@[simp] theorem State.completed_draws (s : State) (u : Units) :
    (s.completed u).draws = s.draws := rfl

/-! `State.failed` -/

@[simp] theorem State.failed_cfg (s : State) (e : ErrorCode) (u : Units) :
    (s.failed e u).cfg = s.cfg := rfl
@[simp] theorem State.failed_busy (s : State) (e : ErrorCode) (u : Units) :
    (s.failed e u).busy = false := rfl
@[simp] theorem State.failed_cmd (s : State) (e : ErrorCode) (u : Units) :
    (s.failed e u).cmd = s.cmd := rfl
@[simp] theorem State.failed_phase (s : State) (e : ErrorCode) (u : Units) :
    (s.failed e u).phase = .idle := rfl
@[simp] theorem State.failed_current (s : State) (e : ErrorCode) (u : Units) :
    (s.failed e u).current = none := rfl
@[simp] theorem State.failed_arg (s : State) (e : ErrorCode) (u : Units) :
    (s.failed e u).arg = s.arg := rfl
@[simp] theorem State.failed_config (s : State) (e : ErrorCode) (u : Units) :
    (s.failed e u).config = s.config := rfl
@[simp] theorem State.failed_ie (s : State) (e : ErrorCode) (u : Units) :
    (s.failed e u).ie = s.ie := rfl
@[simp] theorem State.failed_done (s : State) (e : ErrorCode) (u : Units) :
    (s.failed e u).done = false := rfl
@[simp] theorem State.failed_err (s : State) (e : ErrorCode) (u : Units) :
    (s.failed e u).err = true := rfl
@[simp] theorem State.failed_ecode (s : State) (e : ErrorCode) (u : Units) :
    (s.failed e u).ecode = e.code := rfl
@[simp] theorem State.failed_irqPend (s : State) (e : ErrorCode) (u : Units) :
    (s.failed e u).irqPend = true := rfl
@[simp] theorem State.failed_ovr (s : State) (e : ErrorCode) (u : Units) :
    (s.failed e u).ovr = s.ovr := rfl
@[simp] theorem State.failed_units (s : State) (e : ErrorCode) (u : Units) :
    (s.failed e u).units = u := rfl
@[simp] theorem State.failed_begun (s : State) (e : ErrorCode) (u : Units) :
    (s.failed e u).begun = none := rfl
@[simp] theorem State.failed_script (s : State) (e : ErrorCode) (u : Units) :
    (s.failed e u).script = s.script := rfl
@[simp] theorem State.failed_rdata (s : State) (e : ErrorCode) (u : Units) :
    (s.failed e u).rdata = s.rdata := rfl
@[simp] theorem State.failed_draws (s : State) (e : ErrorCode) (u : Units) :
    (s.failed e u).draws = s.draws := rfl

/-! `State.started` -/

@[simp] theorem State.started_cfg (s : State) (p : Phase) (u : Units) :
    (s.started p u).cfg = s.cfg := rfl
@[simp] theorem State.started_busy (s : State) (p : Phase) (u : Units) :
    (s.started p u).busy = true := rfl
@[simp] theorem State.started_cmd (s : State) (p : Phase) (u : Units) :
    (s.started p u).cmd = s.cmd := rfl
@[simp] theorem State.started_phase (s : State) (p : Phase) (u : Units) :
    (s.started p u).phase = p := rfl
@[simp] theorem State.started_current (s : State) (p : Phase) (u : Units) :
    (s.started p u).current = none := rfl
@[simp] theorem State.started_arg (s : State) (p : Phase) (u : Units) :
    (s.started p u).arg = s.arg := rfl
@[simp] theorem State.started_config (s : State) (p : Phase) (u : Units) :
    (s.started p u).config = s.config := rfl
@[simp] theorem State.started_ie (s : State) (p : Phase) (u : Units) :
    (s.started p u).ie = s.ie := rfl
@[simp] theorem State.started_done (s : State) (p : Phase) (u : Units) :
    (s.started p u).done = false := rfl
@[simp] theorem State.started_err (s : State) (p : Phase) (u : Units) :
    (s.started p u).err = false := rfl
@[simp] theorem State.started_ecode (s : State) (p : Phase) (u : Units) :
    (s.started p u).ecode = 0 := rfl
@[simp] theorem State.started_irqPend (s : State) (p : Phase) (u : Units) :
    (s.started p u).irqPend = false := rfl
@[simp] theorem State.started_ovr (s : State) (p : Phase) (u : Units) :
    (s.started p u).ovr = s.ovr := rfl
@[simp] theorem State.started_units (s : State) (p : Phase) (u : Units) :
    (s.started p u).units = u := rfl
@[simp] theorem State.started_begun (s : State) (p : Phase) (u : Units) :
    (s.started p u).begun = none := rfl
@[simp] theorem State.started_script (s : State) (p : Phase) (u : Units) :
    (s.started p u).script = s.script := rfl
@[simp] theorem State.started_rdata (s : State) (p : Phase) (u : Units) :
    (s.started p u).rdata = s.rdata := rfl
@[simp] theorem State.started_draws (s : State) (p : Phase) (u : Units) :
    (s.started p u).draws = s.draws := rfl

/-! `State.goesOn` -/

@[simp] theorem State.goesOn_cfg (s : State) (p : Phase) (u : Units) :
    (s.goesOn p u).cfg = s.cfg := rfl
@[simp] theorem State.goesOn_busy (s : State) (p : Phase) (u : Units) :
    (s.goesOn p u).busy = s.busy := rfl
@[simp] theorem State.goesOn_cmd (s : State) (p : Phase) (u : Units) :
    (s.goesOn p u).cmd = s.cmd := rfl
@[simp] theorem State.goesOn_phase (s : State) (p : Phase) (u : Units) :
    (s.goesOn p u).phase = p := rfl
@[simp] theorem State.goesOn_current (s : State) (p : Phase) (u : Units) :
    (s.goesOn p u).current = none := rfl
@[simp] theorem State.goesOn_arg (s : State) (p : Phase) (u : Units) :
    (s.goesOn p u).arg = s.arg := rfl
@[simp] theorem State.goesOn_config (s : State) (p : Phase) (u : Units) :
    (s.goesOn p u).config = s.config := rfl
@[simp] theorem State.goesOn_ie (s : State) (p : Phase) (u : Units) :
    (s.goesOn p u).ie = s.ie := rfl
@[simp] theorem State.goesOn_done (s : State) (p : Phase) (u : Units) :
    (s.goesOn p u).done = s.done := rfl
@[simp] theorem State.goesOn_err (s : State) (p : Phase) (u : Units) :
    (s.goesOn p u).err = s.err := rfl
@[simp] theorem State.goesOn_ecode (s : State) (p : Phase) (u : Units) :
    (s.goesOn p u).ecode = s.ecode := rfl
@[simp] theorem State.goesOn_irqPend (s : State) (p : Phase) (u : Units) :
    (s.goesOn p u).irqPend = s.irqPend := rfl
@[simp] theorem State.goesOn_ovr (s : State) (p : Phase) (u : Units) :
    (s.goesOn p u).ovr = s.ovr := rfl
@[simp] theorem State.goesOn_units (s : State) (p : Phase) (u : Units) :
    (s.goesOn p u).units = u := rfl
@[simp] theorem State.goesOn_begun (s : State) (p : Phase) (u : Units) :
    (s.goesOn p u).begun = none := rfl
@[simp] theorem State.goesOn_script (s : State) (p : Phase) (u : Units) :
    (s.goesOn p u).script = s.script := rfl
@[simp] theorem State.goesOn_rdata (s : State) (p : Phase) (u : Units) :
    (s.goesOn p u).rdata = s.rdata := rfl
@[simp] theorem State.goesOn_draws (s : State) (p : Phase) (u : Units) :
    (s.goesOn p u).draws = s.draws := rfl

/-! `State.waiting` -/

@[simp] theorem State.waiting_cfg (s : State) (i : Instr) (u : Units) (n : Nat) :
    (s.waiting i u n).cfg = s.cfg := rfl
@[simp] theorem State.waiting_busy (s : State) (i : Instr) (u : Units) (n : Nat) :
    (s.waiting i u n).busy = true := rfl
@[simp] theorem State.waiting_cmd (s : State) (i : Instr) (u : Units) (n : Nat) :
    (s.waiting i u n).cmd = s.cmd := rfl
@[simp] theorem State.waiting_phase (s : State) (i : Instr) (u : Units) (n : Nat) :
    (s.waiting i u n).phase = .command := rfl
@[simp] theorem State.waiting_current (s : State) (i : Instr) (u : Units) (n : Nat) :
    (s.waiting i u n).current = some i := rfl
@[simp] theorem State.waiting_arg (s : State) (i : Instr) (u : Units) (n : Nat) :
    (s.waiting i u n).arg = s.arg := rfl
@[simp] theorem State.waiting_config (s : State) (i : Instr) (u : Units) (n : Nat) :
    (s.waiting i u n).config = s.config := rfl
@[simp] theorem State.waiting_ie (s : State) (i : Instr) (u : Units) (n : Nat) :
    (s.waiting i u n).ie = s.ie := rfl
@[simp] theorem State.waiting_done (s : State) (i : Instr) (u : Units) (n : Nat) :
    (s.waiting i u n).done = false := rfl
@[simp] theorem State.waiting_err (s : State) (i : Instr) (u : Units) (n : Nat) :
    (s.waiting i u n).err = false := rfl
@[simp] theorem State.waiting_ecode (s : State) (i : Instr) (u : Units) (n : Nat) :
    (s.waiting i u n).ecode = 0 := rfl
@[simp] theorem State.waiting_irqPend (s : State) (i : Instr) (u : Units) (n : Nat) :
    (s.waiting i u n).irqPend = false := rfl
@[simp] theorem State.waiting_ovr (s : State) (i : Instr) (u : Units) (n : Nat) :
    (s.waiting i u n).ovr = s.ovr := rfl
@[simp] theorem State.waiting_units (s : State) (i : Instr) (u : Units) (n : Nat) :
    (s.waiting i u n).units = u := rfl
@[simp] theorem State.waiting_begun (s : State) (i : Instr) (u : Units) (n : Nat) :
    (s.waiting i u n).begun = some ⟨s.units, n⟩ := rfl
@[simp] theorem State.waiting_script (s : State) (i : Instr) (u : Units) (n : Nat) :
    (s.waiting i u n).script = s.script := rfl
@[simp] theorem State.waiting_rdata (s : State) (i : Instr) (u : Units) (n : Nat) :
    (s.waiting i u n).rdata = s.rdata := rfl
@[simp] theorem State.waiting_draws (s : State) (i : Instr) (u : Units) (n : Nat) :
    (s.waiting i u n).draws = s.draws := rfl

/-! `softResetStart` -/

@[simp] theorem softResetStart_cfg (s : State) :
    (softResetStart s).cfg = s.cfg := rfl
@[simp] theorem softResetStart_busy (s : State) :
    (softResetStart s).busy = s.busy := rfl
@[simp] theorem softResetStart_cmd (s : State) :
    (softResetStart s).cmd = 0 := rfl
@[simp] theorem softResetStart_phase (s : State) :
    (softResetStart s).phase = s.phase := rfl
@[simp] theorem softResetStart_current (s : State) :
    (softResetStart s).current = s.current := rfl
@[simp] theorem softResetStart_arg (s : State) :
    (softResetStart s).arg = 0 := rfl
@[simp] theorem softResetStart_config (s : State) :
    (softResetStart s).config = ConfigReg.reset := rfl
@[simp] theorem softResetStart_ie (s : State) :
    (softResetStart s).ie = s.ie := rfl
@[simp] theorem softResetStart_done (s : State) :
    (softResetStart s).done = s.done := rfl
@[simp] theorem softResetStart_err (s : State) :
    (softResetStart s).err = s.err := rfl
@[simp] theorem softResetStart_ecode (s : State) :
    (softResetStart s).ecode = s.ecode := rfl
@[simp] theorem softResetStart_irqPend (s : State) :
    (softResetStart s).irqPend = s.irqPend := rfl
@[simp] theorem softResetStart_ovr (s : State) :
    (softResetStart s).ovr = s.ovr := rfl
@[simp] theorem softResetStart_units (s : State) :
    (softResetStart s).units = s.units := rfl
@[simp] theorem softResetStart_begun (s : State) :
    (softResetStart s).begun = s.begun := rfl
@[simp] theorem softResetStart_script (s : State) :
    (softResetStart s).script = s.script := rfl
@[simp] theorem softResetStart_rdata (s : State) :
    (softResetStart s).rdata = s.rdata := rfl
@[simp] theorem softResetStart_draws (s : State) :
    (softResetStart s).draws = s.draws := rfl

/-! `Units.emitted` -/

@[simp] theorem Units.emitted_src (u : Units) (bytes : List Byte) :
    (u.emitted bytes).src = u.src := rfl
@[simp] theorem Units.emitted_snk (u : Units) (bytes : List Byte) :
    (u.emitted bytes).snk = u.snk := rfl
@[simp] theorem Units.emitted_huf (u : Units) (bytes : List Byte) :
    (u.emitted bytes).huf = u.huf := rfl
@[simp] theorem Units.emitted_lz77 (u : Units) (bytes : List Byte) :
    (u.emitted bytes).lz77 = u.lz77 := rfl
@[simp] theorem Units.emitted_dict (u : Units) (bytes : List Byte) :
    (u.emitted bytes).dict = u.dict := rfl
@[simp] theorem Units.emitted_dz (u : Units) (bytes : List Byte) :
    (u.emitted bytes).dz = u.dz := rfl
@[simp] theorem Units.emitted_lzw (u : Units) (bytes : List Byte) :
    (u.emitted bytes).lzw = u.lzw := rfl
@[simp] theorem Units.emitted_detect (u : Units) (bytes : List Byte) :
    (u.emitted bytes).detect = u.detect := rfl
@[simp] theorem Units.emitted_result (u : Units) (bytes : List Byte) :
    (u.emitted bytes).result = u.result := rfl
@[simp] theorem Units.emitted_inp (u : Units) (bytes : List Byte) :
    (u.emitted bytes).inp = u.inp := rfl
@[simp] theorem Units.emitted_out (u : Units) (bytes : List Byte) :
    (u.emitted bytes).out = { u.out with
      events := u.out.events ++ bytes.map OutEvent.byte
      answers := u.out.answers.drop bytes.length } := rfl

/-! `Units.flushed` -/

@[simp] theorem Units.flushed_src (u : Units) :
    (u.flushed).src = u.src := rfl
@[simp] theorem Units.flushed_snk (u : Units) :
    (u.flushed).snk = u.snk := rfl
@[simp] theorem Units.flushed_huf (u : Units) :
    (u.flushed).huf = u.huf := rfl
@[simp] theorem Units.flushed_lz77 (u : Units) :
    (u.flushed).lz77 = u.lz77 := rfl
@[simp] theorem Units.flushed_dict (u : Units) :
    (u.flushed).dict = u.dict := rfl
@[simp] theorem Units.flushed_dz (u : Units) :
    (u.flushed).dz = u.dz := rfl
@[simp] theorem Units.flushed_lzw (u : Units) :
    (u.flushed).lzw = u.lzw := rfl
@[simp] theorem Units.flushed_detect (u : Units) :
    (u.flushed).detect = u.detect := rfl
@[simp] theorem Units.flushed_result (u : Units) :
    (u.flushed).result = u.result := rfl
@[simp] theorem Units.flushed_inp (u : Units) :
    (u.flushed).inp = u.inp := rfl
@[simp] theorem Units.flushed_out (u : Units) :
    (u.flushed).out = u.out.happens .flush := rfl

/-! `Units.took` -/

@[simp] theorem Units.took_src (u : Units) (item : InItem) :
    (u.took item).src = u.src := rfl
@[simp] theorem Units.took_snk (u : Units) (item : InItem) :
    (u.took item).snk = u.snk := rfl
@[simp] theorem Units.took_huf (u : Units) (item : InItem) :
    (u.took item).huf = u.huf := rfl
@[simp] theorem Units.took_lz77 (u : Units) (item : InItem) :
    (u.took item).lz77 = u.lz77 := rfl
@[simp] theorem Units.took_dict (u : Units) (item : InItem) :
    (u.took item).dict = u.dict := rfl
@[simp] theorem Units.took_dz (u : Units) (item : InItem) :
    (u.took item).dz = u.dz := rfl
@[simp] theorem Units.took_lzw (u : Units) (item : InItem) :
    (u.took item).lzw = u.lzw := rfl
@[simp] theorem Units.took_detect (u : Units) (item : InItem) :
    (u.took item).detect = u.detect := rfl
@[simp] theorem Units.took_result (u : Units) (item : InItem) :
    (u.took item).result = u.result := rfl
@[simp] theorem Units.took_inp (u : Units) (item : InItem) :
    (u.took item).inp = u.inp.took item := rfl
@[simp] theorem Units.took_out (u : Units) (item : InItem) :
    (u.took item).out = u.out := rfl

/-! `Units.offered` -/

@[simp] theorem Units.offered_src (u : Units) (item : InItem) :
    (u.offered item).src = u.src := rfl
@[simp] theorem Units.offered_snk (u : Units) (item : InItem) :
    (u.offered item).snk = u.snk := rfl
@[simp] theorem Units.offered_huf (u : Units) (item : InItem) :
    (u.offered item).huf = u.huf := rfl
@[simp] theorem Units.offered_lz77 (u : Units) (item : InItem) :
    (u.offered item).lz77 = u.lz77 := rfl
@[simp] theorem Units.offered_dict (u : Units) (item : InItem) :
    (u.offered item).dict = u.dict := rfl
@[simp] theorem Units.offered_dz (u : Units) (item : InItem) :
    (u.offered item).dz = u.dz := rfl
@[simp] theorem Units.offered_lzw (u : Units) (item : InItem) :
    (u.offered item).lzw = u.lzw := rfl
@[simp] theorem Units.offered_detect (u : Units) (item : InItem) :
    (u.offered item).detect = u.detect := rfl
@[simp] theorem Units.offered_result (u : Units) (item : InItem) :
    (u.offered item).result = u.result := rfl
@[simp] theorem Units.offered_inp (u : Units) (item : InItem) :
    (u.offered item).inp = { u.inp with offer := u.inp.offer ++ [item] } := rfl
@[simp] theorem Units.offered_out (u : Units) (item : InItem) :
    (u.offered item).out = u.out := rfl

/-! `Units.answered` -/

@[simp] theorem Units.answered_src (u : Units) (a : Answer) :
    (u.answered a).src = u.src := rfl
@[simp] theorem Units.answered_snk (u : Units) (a : Answer) :
    (u.answered a).snk = u.snk := rfl
@[simp] theorem Units.answered_huf (u : Units) (a : Answer) :
    (u.answered a).huf = u.huf := rfl
@[simp] theorem Units.answered_lz77 (u : Units) (a : Answer) :
    (u.answered a).lz77 = u.lz77 := rfl
@[simp] theorem Units.answered_dict (u : Units) (a : Answer) :
    (u.answered a).dict = u.dict := rfl
@[simp] theorem Units.answered_dz (u : Units) (a : Answer) :
    (u.answered a).dz = u.dz := rfl
@[simp] theorem Units.answered_lzw (u : Units) (a : Answer) :
    (u.answered a).lzw = u.lzw := rfl
@[simp] theorem Units.answered_detect (u : Units) (a : Answer) :
    (u.answered a).detect = u.detect := rfl
@[simp] theorem Units.answered_result (u : Units) (a : Answer) :
    (u.answered a).result = u.result := rfl
@[simp] theorem Units.answered_inp (u : Units) (a : Answer) :
    (u.answered a).inp = u.inp := rfl
@[simp] theorem Units.answered_out (u : Units) (a : Answer) :
    (u.answered a).out = u.out.answered a := rfl

/-! Where a stretch begins -/

@[simp] theorem State.origin_fresh {s : State} (h : s.begun = none) : s.origin = s.units := by
  simp [State.origin, h]

@[simp] theorem State.origin_amid (s : State) (u : Units) (n : Nat) : (s.amid u n).origin = s.units := rfl
@[simp] theorem State.origin_turned (s : State) : s.turned.origin = s.origin := rfl
@[simp] theorem State.made_amid (s : State) (u : Units) (n : Nat) : (s.amid u n).made = n := rfl
@[simp] theorem State.made_fresh {s : State} (h : s.begun = none) : s.made = 0 := by simp [State.made, h]

/-- Where the stretch resumes, the move taken. -/
theorem State.resumed_turned (s : State) : s.turned.resumed = s.resuming s.origin := rfl

end Sys2Proof.Machine
end

