-- ==== Sys2Proof/Laws/Run.lean ====
section
/-! SUPPORT. Running a stretch of a rule: what each step of a `do` block does to the units and which steps it makes,
and what the sequencer's frames (`runCommand`, `runStretch`, `runToken`) make of each of its four ends. -/

namespace Sys2Proof.Machine

/-! ## The steps of a rule -/

@[simp] theorem M.run_pure {α : Type} (a : α) (u : Units) : (pure a : M α).on u = .ok a u := rfl

@[simp] theorem run_look {α : Type} (g : Units → α) (u : Units) : (look g).on u = .ok (g u) u := rfl

@[simp] theorem run_upd (g : Units → Units) (u : Units) : (upd g).on u = .ok () (g u) := rfl

@[simp] theorem run_raise {α : Type} (e : ErrorCode) (u : Units) :
    (raise e : M α).on u = .error (.raise e) u := rfl

@[simp] theorem run_await {α : Type} (u : Units) : (await : M α).on u = .error .wait u := rfl

@[simp] theorem run_act {α : Type} (f : Units → EStateM.Result Stop Units α) (u : Units) : (act f).on u = f u := by
  unfold M.on M.run act
  cases h : f u <;> simp [h, ExceptT.run, ExceptT.mk, WriterT.run, WriterT.mk, StateT.run]

/-- A sequence runs its first part, and its second where the first ends well. -/
theorem M.run_bind_eq {α β : Type} (x : M α) (f : α → M β) (u : Units) :
    M.run (x >>= f) u = match M.run x u with
      | ((.ok a, w), v) => (((M.run (f a) v).1.1, w ++ (M.run (f a) v).1.2), (M.run (f a) v).2)
      | ((.error e, w), v) => ((.error e, w ++ []), v) := by
  rcases h : M.run x u with ⟨⟨e | a, w⟩, v⟩ <;>
  · unfold M.run at *
    simp only [bind, ExceptT.bind, ExceptT.mk, ExceptT.run, WriterT.run, WriterT.mk, StateT.run, StateT.bind,
      Functor.map, StateT.map] at *
    rw [h]
    rfl

theorem M.run_bind {α β : Type} (x : M α) (f : α → M β) (u : Units) :
    (x >>= f).on u = match x.on u with
      | .ok a v => (f a).on v
      | .error e v => .error e v := by
  unfold M.on
  rw [M.run_bind_eq]
  rcases M.run x u with ⟨⟨e | a, w⟩, v⟩
  · rfl
  · simp only
    rcases M.run (f a) v with ⟨⟨e | b, w'⟩, v'⟩ <;> rfl

/-- The steps of a sequence are the steps of its first part, then those of the second. -/
theorem M.past_bind {α β : Type} (x : M α) (f : α → M β) (u : Units) :
    (x >>= f).past u = x.past u ++ match x.on u with
      | .ok a v => (f a).past v
      | .error _ _ => [] := by
  unfold M.past M.on
  rw [M.run_bind_eq]
  rcases M.run x u with ⟨⟨e | a, w⟩, v⟩ <;> rfl

@[simp] theorem M.past_pure {α : Type} (a : α) (u : Units) : (pure a : M α).past u = [] := rfl

@[simp] theorem past_look {α : Type} (g : Units → α) (u : Units) : (look g).past u = [] := rfl

@[simp] theorem past_upd (g : Units → Units) (u : Units) : (upd g).past u = [g u] := rfl

@[simp] theorem past_raise {α : Type} (e : ErrorCode) (u : Units) : (raise e : M α).past u = [] := rfl

@[simp] theorem past_await {α : Type} (u : Units) : (await : M α).past u = [] := rfl

/-- A step leaves one state behind, unless it could not be made. -/
theorem past_act {α : Type} (f : Units → EStateM.Result Stop Units α) (u : Units) :
    (act f).past u = match f u with
      | .ok _ v => [v]
      | .error _ _ => [] := by
  unfold M.past M.run act
  cases h : f u <;> simp [h, ExceptT.run, ExceptT.mk, WriterT.run, WriterT.mk, StateT.run]

/-- A part that ends well hands its value and its units on. -/
theorem M.run_bind_ok {α β : Type} {x : M α} {f : α → M β} {u v : Units} {a : α} (h : x.on u = .ok a v) :
    (x >>= f).on u = (f a).on v := by rw [M.run_bind, h]

/-- A part that stops stops the rule. -/
theorem M.run_bind_error {α β : Type} {x : M α} {f : α → M β} {u v : Units} {e : Stop} (h : x.on u = .error e v) :
    (x >>= f).on u = .error e v := by rw [M.run_bind, h]

@[simp] theorem M.run_look_bind {α β : Type} (g : Units → α) (f : α → M β) (u : Units) :
    (look g >>= f).on u = (f (g u)).on u := M.run_bind_ok (run_look g u)

@[simp] theorem M.run_upd_bind {β : Type} (g : Units → Units) (f : Unit → M β) (u : Units) :
    (upd g >>= f).on u = (f ()).on (g u) := M.run_bind_ok (run_upd g u)

@[simp] theorem M.run_pure_bind {α β : Type} (a : α) (f : α → M β) (u : Units) :
    ((pure a : M α) >>= f).on u = (f a).on u := M.run_bind_ok (M.run_pure a u)

@[simp] theorem M.run_raise_bind {α β : Type} (e : ErrorCode) (f : α → M β) (u : Units) :
    ((raise e : M α) >>= f).on u = .error (.raise e) u := M.run_bind_error (run_raise e u)

theorem M.run_ite {α : Type} (c : Prop) [Decidable c] (x y : M α) (u : Units) :
    (if c then x else y).on u = if c then x.on u else y.on u := by split <;> rfl

@[simp] theorem run_setResult (w : Word) (u : Units) : (setResult w).on u = .ok () { u with result := w } := rfl

@[simp] theorem run_completeWith (w : Word) (u : Units) :
    (completeWith w).on u = .ok .complete { u with result := w } := rfl

@[simp] theorem run_finishDecode (u : Units) : finishDecode.on u = .ok .complete u.flushed := rfl

@[simp] theorem run_outFlush (u : Units) : outFlush.on u = .ok () u.flushed := rfl

@[simp] theorem run_updHuf (g : Huf → Huf) (u : Units) : (updHuf g).on u = .ok () { u with huf := g u.huf } := rfl

@[simp] theorem run_updLz77 (g : Lz77 → Lz77) (u : Units) :
    (updLz77 g).on u = .ok () { u with lz77 := g u.lz77 } := rfl

@[simp] theorem run_updDz (g : Dz → Dz) (u : Units) : (updDz g).on u = .ok () { u with dz := g u.dz } := rfl

@[simp] theorem run_updLzw (g : Lzw → Lzw) (u : Units) : (updLzw g).on u = .ok () { u with lzw := g u.lzw } := rfl

@[simp] theorem run_hufBuild (u : Units) : hufBuild.on u = .ok () { u with huf := u.huf.built } := rfl

/-! ## The frames of the sequencer -/

/-- The state in which a command's end finds the machine, `n` being the steps made where it waits. -/
def State.after (s : State) (i : Instr) (n : Nat) : EStateM.Result Stop Units Next → State
  | .ok .complete u => s.completed u
  | .ok (.goto p) u => s.started p u
  | .error (.raise e) u => s.failed e u
  | .error .wait u => s.waiting i u n

/-- A command always answers a next state: completed, gone on, failed or waiting (47_control.md R461). -/
theorem runCommand_eq (i : Instr) (p : M Next) (s : State) :
    runCommand i p s = .next (s.after i (p.past s.units).length (p.on s.units)) := by
  unfold runCommand Stretch.run State.settle State.after commandStretch
  simp only [State.begin_units]
  rcases p.on s.units with ⟨_ | q, u⟩ | ⟨e | _, u⟩ <;> rfl

theorem runCommand_complete {i : Instr} {p : M Next} {s : State} {u : Units} (h : p.on s.units = .ok .complete u) :
    runCommand i p s = .next (s.completed u) := by rw [runCommand_eq, h]; rfl

theorem runCommand_goto {i : Instr} {p : M Next} {s : State} {u : Units} {q : Phase}
    (h : p.on s.units = .ok (.goto q) u) : runCommand i p s = .next (s.started q u) := by rw [runCommand_eq, h]; rfl

theorem runCommand_raise {i : Instr} {p : M Next} {s : State} {u : Units} {e : ErrorCode}
    (h : p.on s.units = .error (.raise e) u) : runCommand i p s = .next (s.failed e u) := by
  rw [runCommand_eq, h]; rfl

theorem runCommand_wait {i : Instr} {p : M Next} {s : State} {u : Units} (h : p.on s.units = .error .wait u) :
    runCommand i p s = .next (s.waiting i u (p.past s.units).length) := by rw [runCommand_eq, h]; rfl

/-- The state in which the end of a token or stretch finds the machine; `i` is the instruction that waits, if the
stretch is one, after `n` steps. -/
def State.afterStretch (s : State) (i : Option Instr) (n : Nat) : EStateM.Result Stop Units Next → State
  | .ok .complete u => s.completed u
  | .ok (.goto p) u => s.goesOn p u
  | .error (.raise e) u => s.failed e u
  | .error .wait u => { s.amid u n with current := i }

/-- A stretch always answers a next state. -/
theorem runStretch_eq (p : M Next) (s : State) :
    runStretch p s = .next (s.afterStretch s.current (p.past s.units).length (p.on s.units)) := by
  unfold runStretch Stretch.run State.settle State.afterStretch
  rcases p.on s.units with ⟨_ | q, u⟩ | ⟨e | _, u⟩ <;> rfl

/-- A token in a phase that reads such tokens always answers a next state. -/
theorem runToken_eq {i : Instr} {f : Phase → Option (M Next)} {p : M Next} {s : State} (h : f s.phase = some p) :
    runToken i f s = .next (s.afterStretch (some i) (p.past s.units).length (p.on s.units)) := by
  simp only [runToken, tokenStretch, h, Option.map_some, Stretch.run]
  unfold State.settle State.afterStretch
  simp only
  rcases p.on s.units with ⟨_ | q, u⟩ | ⟨e | _, u⟩ <;> rfl

/-- A token anywhere else has no meaning (assumption 12). -/
theorem runToken_refused {i : Instr} {f : Phase → Option (M Next)} {s : State} (h : f s.phase = none) :
    runToken i f s = .refused .tokenOutOfPlace := by
  simp only [runToken, tokenStretch, h, Option.map_none]

theorem runToken_complete {i : Instr} {f : Phase → Option (M Next)} {p : M Next} {s : State} {u : Units}
    (h : f s.phase = some p) (hp : p.on s.units = .ok .complete u) : runToken i f s = .next (s.completed u) := by
  rw [runToken_eq h, hp]; rfl

theorem runToken_goto {i : Instr} {f : Phase → Option (M Next)} {p : M Next} {s : State} {u : Units} {q : Phase}
    (h : f s.phase = some p) (hp : p.on s.units = .ok (.goto q) u) : runToken i f s = .next (s.goesOn q u) := by
  rw [runToken_eq h, hp]; rfl

theorem runToken_raise {i : Instr} {f : Phase → Option (M Next)} {p : M Next} {s : State} {u : Units}
    {e : ErrorCode} (h : f s.phase = some p) (hp : p.on s.units = .error (.raise e) u) :
    runToken i f s = .next (s.failed e u) := by rw [runToken_eq h, hp]; rfl

/-- Everything `settle` can make of a state (60_exceptions.md R510, R511, 20_memory.md R95). -/
theorem State.settle_cases (s : State) (p : M Next) :
    (∃ u, p.on s.units = .ok .complete u ∧ s.settle p = s.completed u) ∨
      (∃ q u, p.on s.units = .ok (.goto q) u ∧ s.settle p = s.goesOn q u) ∨
      (∃ e u, p.on s.units = .error (.raise e) u ∧ s.settle p = s.failed e u) ∨
      (∃ u, p.on s.units = .error .wait u ∧ s.settle p = s.amid u (p.past s.units).length) := by
  unfold State.settle
  rcases p.on s.units with ⟨_ | q, u⟩ | ⟨e | _, u⟩
  · exact .inl ⟨u, rfl, rfl⟩
  · exact .inr (.inl ⟨q, u, rfl, rfl⟩)
  · exact .inr (.inr (.inl ⟨e, u, rfl, rfl⟩))
  · exact .inr (.inr (.inr ⟨u, rfl, rfl⟩))

/-! ## Steps of a stretch (70_reset_and_hazards.md R615) -/

/-- The units after some steps are those the stretch began with or those after one of its steps. -/
theorem unitsAt_mem (u : Units) (past : List Units) (n : Nat) :
    unitsAt u past n = u ∨ unitsAt u past n ∈ past := by
  unfold unitsAt
  cases h : (u :: past)[n]? with
  | none => exact .inl rfl
  | some v => exact (List.mem_cons.1 (List.mem_of_getElem? h)).imp id id

@[simp] theorem unitsAt_zero (u : Units) (past : List Units) : unitsAt u past 0 = u := rfl

theorem State.partly_amid {s : State} {n : Nat} {p : M Next} (h : n < p.steps s.units) :
    s.partly n p = s.amid (unitsAt s.units (p.past s.units) n) n := if_pos h

theorem State.partly_settle {s : State} {n : Nat} {p : M Next} (h : p.steps s.units ≤ n) :
    s.partly n p = s.settle p := if_neg (by omega)

/-- Everything some steps of a stretch can do: they stay inside it, at one of the units it runs through, or end it. -/
theorem State.partly_cases (s : State) (n : Nat) (p : M Next) :
    (∃ u, (u = s.units ∨ u ∈ p.past s.units) ∧ s.partly n p = s.amid u n) ∨ s.partly n p = s.settle p := by
  by_cases h : n < p.steps s.units
  · exact .inl ⟨_, unitsAt_mem _ _ _, State.partly_amid h⟩
  · exact .inr (State.partly_settle (by omega))

end Sys2Proof.Machine
end

