-- ==== Sys2Proof/Laws/Memory.lean ====
section
/-! SUPPORT. Tables and byte memories: reading after a write, and that every operation keeps the canonical form
(keys strictly rising). -/

namespace Sys2Proof.Machine

/-! ## The canonical form -/

theorem Sparse.wf_nil {α : Type} : Sparse.wf ([] : Sparse α) := List.Pairwise.nil

theorem Sparse.wf_cons {α : Type} {e : Nat × α} {m : Sparse α} :
    Sparse.wf (e :: m) ↔ (∀ x ∈ m, e.1 < x.1) ∧ Sparse.wf m := by
  simp only [Sparse.wf, List.map_cons, List.pairwise_cons, List.mem_map, forall_exists_index, and_imp,
    forall_apply_eq_imp_iff₂]

/-- A key that is listed after a write was listed before or is the one written. -/
theorem Sparse.mem_set {α : Type} {m : Sparse α} {k : Nat} {v : α} {x : Nat × α} (h : x ∈ m.set k v) :
    x ∈ m ∨ x = (k, v) := by
  induction m with
  | nil => simpa [Sparse.set] using h
  | cons e m ih =>
    obtain ⟨a, w⟩ := e
    unfold Sparse.set at h
    split at h
    · simp only [List.mem_cons] at h ⊢; tauto
    · split at h
      · simp only [List.mem_cons] at h ⊢; tauto
      · simp only [List.mem_cons] at h ⊢; tauto

theorem Sparse.set_wf {α : Type} {m : Sparse α} (h : m.wf) (k : Nat) (v : α) : (m.set k v).wf := by
  induction m with
  | nil => exact Sparse.wf_cons.2 ⟨by simp, Sparse.wf_nil⟩
  | cons e m ih =>
    obtain ⟨a, w⟩ := e
    obtain ⟨h1, h2⟩ := Sparse.wf_cons.1 h
    simp only at h1
    unfold Sparse.set
    split
    · refine Sparse.wf_cons.2 ⟨fun x hx => ?_, h⟩
      rcases List.mem_cons.1 hx with rfl | hx
      · assumption
      · have := h1 x hx
        simp only
        omega
    · split
      · rename_i hk
        subst hk
        exact Sparse.wf_cons.2 ⟨h1, h2⟩
      · refine Sparse.wf_cons.2 ⟨fun x hx => ?_, ih h2⟩
        rcases Sparse.mem_set hx with hx | rfl
        · exact h1 x hx
        · simp only; omega

theorem Sparse.erase_wf {α : Type} {m : Sparse α} (h : m.wf) (k : Nat) : (m.erase k).wf :=
  List.Pairwise.sublist (List.Sublist.map _ List.filter_sublist) h

theorem Sparse.write_wf {α : Type} [DecidableEq α] {m : Sparse α} (h : m.wf) (d : α) (k : Nat) (v : α) :
    (m.write d k v).wf := by
  unfold Sparse.write
  split
  · exact Sparse.erase_wf h k
  · exact Sparse.set_wf h k v

/-- What a table lists after a write: entries it listed before, or the new one, which is not the default. -/
theorem Sparse.mem_write {α : Type} [DecidableEq α] {m : Sparse α} {d : α} {k : Nat} {v : α} {x : Nat × α}
    (h : x ∈ m.write d k v) : x ∈ m ∨ (x = (k, v) ∧ v ≠ d) := by
  unfold Sparse.write at h
  split at h
  · exact .inl (List.mem_filter.1 h).1
  · rcases Sparse.mem_set h with h | h
    · exact .inl h
    · exact .inr ⟨h, by assumption⟩

/-- A byte memory stays canonical under a write (20_memory.md R102). -/
theorem Memory.write_wf {m : Memory} (h : m.wf) (a : Nat) (b : Byte) : (Memory.write m a b).wf :=
  Sparse.set_wf h a b

/-! ## Reading -/

theorem Sparse.get_set_same {α : Type} (m : Sparse α) (k : Nat) (v : α) : (m.set k v).get k = some v := by
  induction m with
  | nil => simp [Sparse.set, Sparse.get]
  | cons e m ih =>
    obtain ⟨a, w⟩ := e
    unfold Sparse.set
    split
    · simp [Sparse.get]
    · split
      · simp [Sparse.get]
      · rename_i h1 h2
        have : ¬ a = k := fun h => h2 h.symm
        simpa [Sparse.get, this] using ih

theorem Sparse.get_set_other {α : Type} (m : Sparse α) {k j : Nat} (v : α) (h : j ≠ k) :
    (m.set k v).get j = m.get j := by
  induction m with
  | nil => simp [Sparse.set, Sparse.get, h.symm]
  | cons e m ih =>
    obtain ⟨a, w⟩ := e
    unfold Sparse.set
    split
    · simp [Sparse.get, h.symm]
    · split
      · rename_i h1 h2
        subst h2
        simp [Sparse.get, h.symm]
      · simp only [Sparse.get, ih]

theorem Sparse.get_erase_same {α : Type} (m : Sparse α) (k : Nat) : (m.erase k).get k = none := by
  induction m with
  | nil => rfl
  | cons e m ih =>
    unfold Sparse.erase at ih ⊢
    rw [List.filter_cons]
    split
    · rename_i h
      have h : ¬ e.1 = k := by simpa using h
      simpa [Sparse.get, h] using ih
    · exact ih

theorem Sparse.get_erase_other {α : Type} (m : Sparse α) {k j : Nat} (h : j ≠ k) :
    (m.erase k).get j = m.get j := by
  induction m with
  | nil => rfl
  | cons e m ih =>
    unfold Sparse.erase at ih ⊢
    rw [List.filter_cons]
    split
    · simp only [Sparse.get, ih]
    · rename_i hk
      have hk : e.1 = k := by simpa using hk
      have : ¬ e.1 = j := by omega
      simpa [Sparse.get, this] using ih

/-- A table reads what was written last. -/
theorem Sparse.get_write_same {α : Type} [DecidableEq α] (m : Sparse α) (d : α) (k : Nat) (v : α) :
    ((m.write d k v).get k).getD d = v := by
  unfold Sparse.write
  split
  · rename_i h
    simp [Sparse.get_erase_same, h]
  · simp [Sparse.get_set_same]

/-- A write leaves every other key alone. -/
theorem Sparse.get_write_other {α : Type} [DecidableEq α] (m : Sparse α) (d : α) {k j : Nat} (v : α) (h : j ≠ k) :
    (m.write d k v).get j = m.get j := by
  unfold Sparse.write
  split
  · exact Sparse.get_erase_other m h
  · exact Sparse.get_set_other m v h

@[simp] theorem Memory.read_write_same (m : Memory) (free : Nat → Byte) (a : Nat) (b : Byte) :
    Memory.read (Memory.write m a b) free a = b := by
  simp [Memory.read, Memory.write, Sparse.get_set_same]

theorem Memory.read_write_other (m : Memory) (free : Nat → Byte) {a a' : Nat} (b : Byte) (h : a' ≠ a) :
    Memory.read (Memory.write m a b) free a' = Memory.read m free a' := by
  simp [Memory.read, Memory.write, Sparse.get_set_other m b h]

/-! ## The units that hold them -/

@[simp] theorem Lz77.winAt_winSet_same (z : Lz77) (i : Nat) (b : Byte) : (z.winSet i b).winAt i = b := by
  simp [Lz77.winAt, Lz77.winSet, Lz77.windowSize, Lz77.searchSize, Lz77.lookaheadSize]

/-- A window write leaves every other place of the window alone. -/
theorem Lz77.winAt_winSet_other (z : Lz77) {i j : Nat} (b : Byte) (h : j % z.windowSize ≠ i % z.windowSize) :
    (z.winSet i b).winAt j = z.winAt j :=
  Memory.read_write_other _ _ _ h

@[simp] theorem Huf.count_counted_same (h : Huf) (s : Byte) : (h.counted s).count s = countUp s (h.count s) :=
  Sparse.get_write_same _ _ _ _

/-- Counting one byte leaves every other counter alone (42_huffman.md R262). -/
theorem Huf.count_counted_other (h : Huf) {s s' : Byte} (hs : s' ≠ s) : (h.counted s).count s' = h.count s' := by
  unfold Huf.count Huf.counted
  rw [Sparse.get_write_other]
  intro e
  exact hs (BitVec.eq_of_toNat_eq e)

@[simp] theorem Huf.count_cleared (h : Huf) (s : Byte) : h.freqCleared.count s = 0 := rfl

/-- The memories right after reset are canonical (10_state.md R72). -/
theorem State.reset_memInv : State.reset.memInv := by decide

end Sys2Proof.Machine
end

