-- ==== Sys2Proof/Laws/Frames.lean ====
section
/-! SUPPORT. What a rule leaves alone. `Keeps R m` says that `m`, however it ends and at each of its steps, relates the
units before to the units after by `R`; `Frame fs m` says that it changes none but the fields `fs`. Each shared
operation and each rule has its frame here. -/

namespace Sys2Proof.Machine

/-- The units a rule ends with, however it ends. -/
def unitsAfter {α : Type} : EStateM.Result Stop Units α → Units
  | .ok _ u => u
  | .error _ u => u

/-- `m` relates the units before it to those after it, and to those after each of its steps, by `R`. -/
structure Keeps {α : Type} (R : Units → Units → Prop) (m : M α) : Prop where
  on : ∀ u, R u (unitsAfter (m.on u))
  past : ∀ u, ∀ v ∈ m.past u, R u v

/-- A relation that a sequence of rules keeps when each of them does. -/
structure Chains (R : Units → Units → Prop) : Prop where
  refl : ∀ u, R u u
  trans : ∀ {u v w}, R u v → R v w → R u w

theorem Keeps.pure {α : Type} {R : Units → Units → Prop} (hR : Chains R) (a : α) : Keeps R (pure a : M α) :=
  ⟨fun u => hR.refl u, by simp⟩

theorem Keeps.look {α : Type} {R : Units → Units → Prop} (hR : Chains R) (f : Units → α) : Keeps R (look f) :=
  ⟨fun u => hR.refl u, by simp⟩

theorem Keeps.raise {α : Type} {R : Units → Units → Prop} (hR : Chains R) (e : ErrorCode) :
    Keeps R (raise e : M α) := ⟨fun u => hR.refl u, by simp⟩

theorem Keeps.await {α : Type} {R : Units → Units → Prop} (hR : Chains R) : Keeps R (await : M α) :=
  ⟨fun u => hR.refl u, by simp⟩

theorem Keeps.act {α : Type} {R : Units → Units → Prop} {f : Units → EStateM.Result Stop Units α}
    (h : ∀ u, R u (unitsAfter (f u))) : Keeps R (act f) where
  on u := by rw [run_act]; exact h u
  past u v hv := by
    have hu := h u
    rw [past_act] at hv
    cases hf : f u with
    | ok a w =>
      rw [hf] at hu hv
      rw [List.mem_singleton.1 hv]
      exact hu
    | error e w =>
      rw [hf] at hv
      exact absurd hv List.not_mem_nil

theorem Keeps.upd {R : Units → Units → Prop} {f : Units → Units} (h : ∀ u, R u (f u)) : Keeps R (upd f) :=
  Keeps.act h

theorem Keeps.bind {α β : Type} {R : Units → Units → Prop} (hR : Chains R) {x : M α} {f : α → M β}
    (hx : Keeps R x) (hf : ∀ a, Keeps R (f a)) : Keeps R (x >>= f) where
  on u := by
    rw [M.run_bind]
    have h := hx.on u
    cases hxu : x.on u with
    | ok a v =>
      rw [hxu] at h
      exact hR.trans h ((hf a).on v)
    | error e v =>
      rw [hxu] at h
      exact h
  past u w hw := by
    rw [M.past_bind] at hw
    rcases List.mem_append.1 hw with hw | hw
    · exact hx.past u w hw
    · have h := hx.on u
      cases hxu : x.on u with
      | ok a v =>
        rw [hxu] at h hw
        exact hR.trans h ((hf a).past v w hw)
      | error e v =>
        rw [hxu] at hw
        exact absurd hw List.not_mem_nil

theorem Keeps.ite {α : Type} {R : Units → Units → Prop} {c : Prop} [Decidable c] {x y : M α} (hx : Keeps R x)
    (hy : Keeps R y) : Keeps R (if c then x else y) := by
  split
  · exact hx
  · exact hy

theorem Keeps.mono {α : Type} {R S : Units → Units → Prop} {m : M α} (h : Keeps R m) (hRS : ∀ u v, R u v → S u v) :
    Keeps S m := ⟨fun u => hRS _ _ (h.on u), fun u v hv => hRS _ _ (h.past u v hv)⟩

/-! ## Frames -/

theorem SameBut.chains (fs : List Field) : Chains (SameBut fs) where
  refl u f _ := by cases f <;> rfl
  trans h1 h2 f hf := by
    have h1 := h1 f hf
    have h2 := h2 f hf
    cases f <;> simp only [Field.same] at * <;> rw [h2, h1]

/-- `m` changes none but the fields `fs`. -/
abbrev Frame {α : Type} (fs : List Field) (m : M α) : Prop := Keeps (SameBut fs) m

theorem Frame.mono {α : Type} {fs gs : List Field} {m : M α} (h : Frame fs m) (hs : ∀ f ∈ fs, f ∈ gs) : Frame gs m :=
  Keeps.mono h fun _ _ h f hf => h f fun hf' => hf (hs f hf')

theorem Frame.pure {α : Type} {fs : List Field} (a : α) : Frame fs (Pure.pure a : M α) :=
  Keeps.pure (SameBut.chains fs) a

theorem Frame.look {α : Type} {fs : List Field} (f : Units → α) : Frame fs (look f) := Keeps.look (SameBut.chains fs) f

theorem Frame.raise {α : Type} {fs : List Field} (e : ErrorCode) : Frame fs (Machine.raise e : M α) :=
  Keeps.raise (SameBut.chains fs) e

theorem Frame.await {α : Type} {fs : List Field} : Frame fs (Machine.await : M α) := Keeps.await (SameBut.chains fs)

theorem Frame.bind {α β : Type} {fs : List Field} {x : M α} {f : α → M β} (hx : Frame fs x)
    (hf : ∀ a, Frame fs (f a)) : Frame fs (x >>= f) := Keeps.bind (SameBut.chains fs) hx hf

/-- What a frame says of one field. -/
theorem Frame.apply {α : Type} {fs : List Field} {m : M α} (h : Frame fs m) (f : Field) (hf : f ∉ fs) (u : Units) :
    f.same u (unitsAfter (m.on u)) := h.on u f hf

/-- What a frame says of one field, at each step. -/
theorem Frame.apply_past {α : Type} {fs : List Field} {m : M α} (h : Frame fs m) (f : Field) (hf : f ∉ fs)
    {u v : Units} (hv : v ∈ m.past u) : f.same u v := h.past u v hv f hf

/-! ## The ports -/

theorem inRead_frame : Frame [.inp] inRead := by
  refine Keeps.act fun u f hf => ?_
  split
  · cases f <;> simp_all [Field.same, unitsAfter]
  · split <;> cases f <;> simp_all [Field.same, unitsAfter]

theorem outWrite_frame (b : Byte) : Frame [.out] (outWrite b) := by
  refine Keeps.act fun u f hf => ?_
  split <;> cases f <;> simp_all [Field.same, unitsAfter]

theorem inRewind_frame : Frame [.inp] (inRewind) := by
  refine Keeps.upd fun u f hf => ?_
  cases f <;> simp_all [Field.same]

theorem outFlush_frame : Frame [.out] (outFlush) := by
  refine Keeps.upd fun u f hf => ?_
  cases f <;> simp_all [Field.same]

theorem setResult_frame (w : Word) : Frame [.result] (setResult w) := by
  refine Keeps.upd fun u f hf => ?_
  cases f <;> simp_all [Field.same]

theorem updHuf_frame (g : Huf → Huf) : Frame [.huf] (updHuf g) := by
  refine Keeps.upd fun u f hf => ?_
  cases f <;> simp_all [Field.same]

theorem updLz77_frame (g : Lz77 → Lz77) : Frame [.lz77] (updLz77 g) := by
  refine Keeps.upd fun u f hf => ?_
  cases f <;> simp_all [Field.same]

theorem updDz_frame (g : Dz → Dz) : Frame [.dz] (updDz g) := by
  refine Keeps.upd fun u f hf => ?_
  cases f <;> simp_all [Field.same]

theorem updLzw_frame (g : Lzw → Lzw) : Frame [.lzw] (updLzw g) := by
  refine Keeps.upd fun u f hf => ?_
  cases f <;> simp_all [Field.same]

theorem dictStart_frame (cfg : Params) (a : DictAlg) (db bb : BitVec 5) : Frame [.dz, .dict, .lzw] (dictStart cfg a db bb) := by
  refine Keeps.upd fun u f hf => ?_
  cases f <;> simp_all [Field.same]

theorem insertIfRoom_frame (p : Option Nat) (c : Byte) : Frame [.dict] (insertIfRoom p c) := by
  refine Keeps.upd fun u f hf => ?_
  split <;> cases f <;> simp_all [Field.same]

/-! ## The checked port forms and the BitSource -/

theorem takeByte_frame : Frame [.inp] takeByte := by
  unfold takeByte
  repeat' first
    | with_reducible exact Frame.pure _
    | with_reducible exact Frame.raise _
    | with_reducible exact Frame.look _
    | with_reducible exact Frame.await
    | ((with_reducible refine Frame.mono (inRead_frame) ?_); decide)
    | with_reducible refine Frame.bind ?_ fun _ => ?_
    | split

theorem emitByte_frame (b : Byte) : Frame [.out] (emitByte b) := by
  unfold emitByte
  repeat' first
    | with_reducible exact Frame.pure _
    | with_reducible exact Frame.raise _
    | with_reducible exact Frame.look _
    | with_reducible exact Frame.await
    | ((with_reducible refine Frame.mono (outWrite_frame _) ?_); decide)
    | with_reducible refine Frame.bind ?_ fun _ => ?_
    | split

theorem emitBytes_frame (bs : List Byte) : Frame [.out] (emitBytes bs) := by
  induction bs with
  | nil => exact Frame.pure _
  | cons b bs ih => exact Frame.bind (emitByte_frame b) fun _ => ih

theorem refill_frame : Frame [.src, .inp] refill := by
  unfold refill
  repeat' first
    | with_reducible exact Frame.pure _
    | with_reducible exact Frame.raise _
    | with_reducible exact Frame.look _
    | with_reducible exact Frame.await
    | ((with_reducible refine Frame.mono (inRead_frame) ?_); decide)
    | with_reducible refine Frame.bind ?_ fun _ => ?_
    | ((with_reducible refine Keeps.upd ?_); intro u f hf; cases f <;> simp_all [Field.same])
    | split

theorem heldBit_frame : Frame [.src] heldBit := by
  unfold heldBit
  repeat' first
    | with_reducible exact Frame.pure _
    | with_reducible exact Frame.raise _
    | with_reducible exact Frame.look _
    | with_reducible exact Frame.await
    | with_reducible refine Frame.bind ?_ fun _ => ?_
    | ((with_reducible refine Keeps.upd ?_); intro u f hf; cases f <;> simp_all [Field.same])

theorem srcGetBit_frame : Frame [.src, .inp] srcGetBit := by
  unfold srcGetBit
  repeat' first
    | with_reducible exact Frame.pure _
    | with_reducible exact Frame.raise _
    | with_reducible exact Frame.look _
    | with_reducible exact Frame.await
    | ((with_reducible refine Frame.mono (refill_frame) ?_); decide)
    | ((with_reducible refine Frame.mono (heldBit_frame) ?_); decide)
    | with_reducible refine Frame.bind ?_ fun _ => ?_
    | split

theorem srcGetBits_frame (n acc : Nat) : Frame [.src, .inp] (srcGetBits n acc) := by
  induction n generalizing acc with
  | zero => exact Frame.pure _
  | succ n ih => exact Frame.bind srcGetBit_frame fun b => ih _

theorem readBit_frame (e : ErrorCode) : Frame [.src, .inp] (readBit e) := by
  unfold readBit
  repeat' first
    | with_reducible exact Frame.pure _
    | with_reducible exact Frame.raise _
    | with_reducible exact Frame.look _
    | with_reducible exact Frame.await
    | ((with_reducible refine Frame.mono (srcGetBit_frame) ?_); decide)
    | with_reducible refine Frame.bind ?_ fun _ => ?_
    | split


/-! ## The BitSink -/

theorem snkEmit_frame : Frame [.snk, .out] snkEmit := by
  unfold snkEmit
  repeat' first
    | with_reducible exact Frame.pure _
    | with_reducible exact Frame.raise _
    | with_reducible exact Frame.look _
    | with_reducible exact Frame.await
    | ((with_reducible refine Frame.mono (outWrite_frame _) ?_); decide)
    | with_reducible refine Frame.bind ?_ fun _ => ?_
    | ((with_reducible refine Keeps.upd ?_); intro u f hf; cases f <;> simp_all [Field.same])
    | split

theorem snkPutBit_frame (b : Bool) : Frame [.snk, .out] (snkPutBit b) := by
  unfold snkPutBit
  repeat' first
    | with_reducible exact Frame.pure _
    | with_reducible exact Frame.raise _
    | with_reducible exact Frame.look _
    | with_reducible exact Frame.await
    | ((with_reducible refine Frame.mono (snkEmit_frame) ?_); decide)
    | with_reducible refine Frame.bind ?_ fun _ => ?_
    | ((with_reducible refine Keeps.upd ?_); intro u f hf; cases f <;> simp_all [Field.same])
    | split

theorem snkPutBits_frame (bs : List Bool) : Frame [.snk, .out] (snkPutBits bs) := by
  induction bs with
  | nil => exact Frame.pure _
  | cons b bs ih => exact Frame.bind (snkPutBit_frame b) fun _ => ih

theorem snkFlush_frame : Frame [.snk, .out] snkFlush := by
  unfold snkFlush
  repeat' first
    | with_reducible exact Frame.pure _
    | with_reducible exact Frame.raise _
    | with_reducible exact Frame.look _
    | with_reducible exact Frame.await
    | ((with_reducible refine Frame.mono (snkEmit_frame) ?_); decide)
    | ((with_reducible refine Frame.mono (outFlush_frame) ?_); decide)
    | with_reducible refine Frame.bind ?_ fun _ => ?_
    | split

theorem writeBits_frame (bs : List Bool) : Frame [.snk, .out] (writeBits bs) := by
  unfold writeBits
  repeat' first
    | with_reducible exact Frame.pure _
    | with_reducible exact Frame.raise _
    | with_reducible exact Frame.look _
    | with_reducible exact Frame.await
    | ((with_reducible refine Frame.mono (snkPutBits_frame _) ?_); decide)
    | with_reducible refine Frame.bind ?_ fun _ => ?_
    | split

theorem writeToken_frame (c : Ctx) (i : Instr) : Frame [.snk, .out] (writeToken c i) := writeBits_frame _


/-! ## The ends and the parameter checks -/

theorem completeWith_frame (w : Word) : Frame [.result] (completeWith w) :=
  Frame.bind (setResult_frame w) fun _ => Frame.pure _

theorem finishDecode_frame : Frame [.out] finishDecode := Frame.bind outFlush_frame fun _ => Frame.pure _

theorem finishEncode_frame : Frame [.snk, .out] finishEncode := by
  unfold finishEncode
  repeat' first
    | with_reducible exact Frame.pure _
    | with_reducible exact Frame.raise _
    | with_reducible exact Frame.look _
    | with_reducible exact Frame.await
    | ((with_reducible refine Frame.mono (snkFlush_frame) ?_); decide)
    | with_reducible refine Frame.bind ?_ fun _ => ?_
    | split

theorem checkEncParams_frame (cfg : Params) (a : Alg) (p1 p2 : BitVec 5) : Frame [] (checkEncParams cfg a p1 p2) := by
  unfold checkEncParams
  repeat' first
    | with_reducible exact Frame.pure _
    | with_reducible exact Frame.raise _
    | with_reducible exact Frame.look _
    | with_reducible exact Frame.await
    | with_reducible refine Frame.bind ?_ fun _ => ?_
    | split

theorem checkHeader_frame (cfg : Params) (a : Alg) (p1 p2 : BitVec 5) : Frame [.detect] (checkHeader cfg a p1 p2) := by
  unfold checkHeader
  repeat' first
    | with_reducible exact Frame.pure _
    | with_reducible exact Frame.raise _
    | with_reducible exact Frame.look _
    | with_reducible exact Frame.await
    | with_reducible refine Frame.bind ?_ fun _ => ?_
    | ((with_reducible refine Keeps.upd ?_); intro u f hf; cases f <;> simp_all [Field.same])
    | split


/-! ## The rules of the Huffman units -/

theorem hufBuild_frame : Frame [.huf] hufBuild := by
  unfold hufBuild
  repeat' first
    | with_reducible exact updHuf_frame _
    | with_reducible refine Frame.bind ?_ fun _ => ?_

theorem freqAdd_frame (s : Byte) : Frame [.huf] (freqAdd s) := by
  unfold freqAdd
  repeat' first
    | with_reducible exact Frame.pure _
    | with_reducible exact Frame.raise _
    | with_reducible exact Frame.look _
    | with_reducible exact Frame.await
    | ((with_reducible refine Frame.mono (updHuf_frame _) ?_); decide)
    | with_reducible refine Frame.bind ?_ fun _ => ?_
    | split

theorem putCode_frame (s : Byte) : Frame [.snk, .out] (putCode s) := by
  unfold putCode
  repeat' first
    | with_reducible exact Frame.pure _
    | with_reducible exact Frame.raise _
    | with_reducible exact Frame.look _
    | with_reducible exact Frame.await
    | ((with_reducible refine Frame.mono (writeToken_frame _ _) ?_); decide)
    | with_reducible refine Frame.bind ?_ fun _ => ?_

theorem serialize_frame : Frame [.snk, .out] serialize := by
  unfold serialize
  repeat' first
    | with_reducible exact Frame.pure _
    | with_reducible exact Frame.raise _
    | with_reducible exact Frame.look _
    | with_reducible exact Frame.await
    | ((with_reducible refine Frame.mono (writeBits_frame _) ?_); decide)
    | with_reducible refine Frame.bind ?_ fun _ => ?_

theorem addTreeNode_frame (n : Node) (opens : Bool) (stack : List Nat) (use : TreeUse) : Frame [.huf] (addTreeNode n opens stack use) := by
  unfold addTreeNode
  repeat' first
    | with_reducible exact Frame.pure _
    | with_reducible exact Frame.raise _
    | with_reducible exact Frame.look _
    | with_reducible exact Frame.await
    | ((with_reducible refine Frame.mono (updHuf_frame _) ?_); decide)
    | with_reducible refine Frame.bind ?_ fun _ => ?_
    | split

theorem ruleTreeInternal_frame (stack : List Nat) (use : TreeUse) : Frame [.huf] (ruleTreeInternal stack use) := by
  unfold ruleTreeInternal
  repeat' first
    | with_reducible exact Frame.pure _
    | with_reducible exact Frame.raise _
    | with_reducible exact Frame.look _
    | with_reducible exact Frame.await
    | ((with_reducible refine Frame.mono (addTreeNode_frame _ _ _ _) ?_); decide)
    | with_reducible refine Frame.bind ?_ fun _ => ?_
    | split

theorem ruleTreeLeaf_frame (sym : Byte) (stack : List Nat) (use : TreeUse) : Frame [.huf] (ruleTreeLeaf sym stack use) := by
  unfold ruleTreeLeaf
  repeat' first
    | with_reducible exact Frame.pure _
    | with_reducible exact Frame.raise _
    | with_reducible exact Frame.look _
    | with_reducible exact Frame.await
    | ((with_reducible refine Frame.mono (addTreeNode_frame _ _ _ _) ?_); decide)
    | with_reducible refine Frame.bind ?_ fun _ => ?_
    | split

theorem addBit_frame (b : Bool) : Frame [.huf] (addBit b) := by
  unfold addBit
  repeat' first
    | with_reducible exact Frame.pure _
    | with_reducible exact Frame.raise _
    | with_reducible exact Frame.look _
    | with_reducible exact Frame.await
    | ((with_reducible refine Frame.mono (updHuf_frame _) ?_); decide)
    | with_reducible refine Frame.bind ?_ fun _ => ?_
    | split

theorem ruleHufHeader_frame (n : Word) : Frame [.huf, .out] (ruleHufHeader n) := by
  unfold ruleHufHeader
  repeat' first
    | with_reducible exact Frame.pure _
    | with_reducible exact Frame.raise _
    | with_reducible exact Frame.look _
    | with_reducible exact Frame.await
    | ((with_reducible refine Frame.mono (updHuf_frame _) ?_); decide)
    | ((with_reducible refine Frame.mono (finishDecode_frame) ?_); decide)
    | with_reducible refine Frame.bind ?_ fun _ => ?_
    | split

theorem ruleHufCode_frame (bits : List Bool) (n : Nat) : Frame [.huf, .out] (ruleHufCode bits n) := by
  induction bits generalizing n with
  | nil => exact Frame.pure _
  | cons b bits ih =>
    unfold ruleHufCode
    repeat' first
      | with_reducible exact Frame.look _
      | with_reducible exact ih _
      | ((with_reducible refine Frame.mono (addBit_frame _) ?_); decide)
      | ((with_reducible refine Frame.mono (emitByte_frame _) ?_); decide)
      | ((with_reducible refine Frame.mono finishDecode_frame ?_); decide)
      | with_reducible refine Frame.bind ?_ fun _ => ?_
      | split

theorem leafRun_frame (n : Nat) : Frame [.out] (leafRun n) := by
  cases n with
  | zero => exact finishDecode_frame
  | succ n =>
    unfold leafRun
    repeat' first
      | with_reducible exact Frame.look _
      | with_reducible exact Frame.pure _
      | with_reducible exact Frame.raise _
      | ((with_reducible refine Frame.mono (emitByte_frame _) ?_); decide)
      | with_reducible refine Frame.bind ?_ fun _ => ?_
      | split

theorem hufEncode_frame (magic : Bool) : Frame [.huf] (hufEncode magic) := by
  unfold hufEncode
  repeat' first
    | with_reducible exact Frame.pure _
    | with_reducible exact Frame.raise _
    | with_reducible exact Frame.look _
    | with_reducible exact Frame.await
    | ((with_reducible refine Frame.mono (updHuf_frame _) ?_); decide)
    | with_reducible refine Frame.bind ?_ fun _ => ?_
    | split

theorem hufCount_frame (magic : Bool) : Frame [.huf, .inp] (hufCount magic) := by
  unfold hufCount
  repeat' first
    | with_reducible exact Frame.pure _
    | with_reducible exact Frame.raise _
    | with_reducible exact Frame.look _
    | with_reducible exact Frame.await
    | ((with_reducible refine Frame.mono (takeByte_frame) ?_); decide)
    | ((with_reducible refine Frame.mono (freqAdd_frame _) ?_); decide)
    | with_reducible refine Frame.bind ?_ fun _ => ?_
    | split

theorem hufHead_frame (cfg : Params) (magic : Bool) : Frame [.huf, .snk, .out, .inp] (hufHead cfg magic) := by
  unfold hufHead
  repeat' first
    | with_reducible exact Frame.pure _
    | with_reducible exact Frame.raise _
    | with_reducible exact Frame.look _
    | with_reducible exact Frame.await
    | ((with_reducible refine Frame.mono (hufBuild_frame) ?_); decide)
    | ((with_reducible refine Frame.mono (writeToken_frame _ _) ?_); decide)
    | ((with_reducible refine Frame.mono (serialize_frame) ?_); decide)
    | ((with_reducible refine Frame.mono (inRewind_frame) ?_); decide)
    | with_reducible refine Frame.bind ?_ fun _ => ?_
    | split

theorem hufPass_frame (n : Nat) : Frame [.snk, .out, .inp] (hufPass n) := by
  unfold hufPass
  repeat' first
    | with_reducible exact Frame.pure _
    | with_reducible exact Frame.raise _
    | with_reducible exact Frame.look _
    | with_reducible exact Frame.await
    | ((with_reducible refine Frame.mono (takeByte_frame) ?_); decide)
    | ((with_reducible refine Frame.mono (putCode_frame _) ?_); decide)
    | with_reducible refine Frame.bind ?_ fun _ => ?_
    | split


/-! ## The rules of the LZ77 unit -/

theorem lz77Encode_frame (p1 p2 : BitVec 5) : Frame [.lz77, .snk, .out] (lz77Encode p1 p2) := by
  unfold lz77Encode
  repeat' first
    | with_reducible exact Frame.pure _
    | with_reducible exact Frame.raise _
    | with_reducible exact Frame.look _
    | with_reducible exact Frame.await
    | ((with_reducible refine Frame.mono (updLz77_frame _) ?_); decide)
    | ((with_reducible refine Frame.mono (writeToken_frame _ _) ?_); decide)
    | with_reducible refine Frame.bind ?_ fun _ => ?_

theorem lz77Read_frame (n : Nat) : Frame [.lz77, .inp] (lz77Read n) := by
  unfold lz77Read
  repeat' first
    | with_reducible exact Frame.pure _
    | with_reducible exact Frame.raise _
    | with_reducible exact Frame.look _
    | with_reducible exact Frame.await
    | ((with_reducible refine Frame.mono (updLz77_frame _) ?_); decide)
    | ((with_reducible refine Frame.mono (takeByte_frame) ?_); decide)
    | with_reducible refine Frame.bind ?_ fun _ => ?_
    | split

theorem lz77Flag_frame (n : Nat) : Frame [.lz77, .snk, .out] (lz77Flag n) := by
  unfold lz77Flag
  repeat' first
    | with_reducible exact Frame.pure _
    | with_reducible exact Frame.raise _
    | with_reducible exact Frame.look _
    | with_reducible exact Frame.await
    | ((with_reducible refine Frame.mono (updLz77_frame _) ?_); decide)
    | ((with_reducible refine Frame.mono (writeToken_frame _ _) ?_); decide)
    | with_reducible refine Frame.bind ?_ fun _ => ?_
    | split

theorem lz77Emit_frame : Frame [.lz77, .snk, .out] lz77Emit := by
  unfold lz77Emit
  repeat' first
    | with_reducible exact Frame.pure _
    | with_reducible exact Frame.raise _
    | with_reducible exact Frame.look _
    | with_reducible exact Frame.await
    | ((with_reducible refine Frame.mono (updLz77_frame _) ?_); decide)
    | ((with_reducible refine Frame.mono (writeToken_frame _ _) ?_); decide)
    | with_reducible refine Frame.bind ?_ fun _ => ?_
    | split

theorem ruleLz77Header_frame (cfg : Params) (p1 p2 : BitVec 5) : Frame [.detect, .lz77] (ruleLz77Header cfg p1 p2) := by
  unfold ruleLz77Header
  repeat' first
    | with_reducible exact Frame.pure _
    | with_reducible exact Frame.raise _
    | with_reducible exact Frame.look _
    | with_reducible exact Frame.await
    | ((with_reducible refine Frame.mono (updLz77_frame _) ?_); decide)
    | ((with_reducible refine Frame.mono (checkHeader_frame _ _ _ _) ?_); decide)
    | with_reducible refine Frame.bind ?_ fun _ => ?_

theorem lz77Block_frame (n : Nat) : Frame [.lz77, .out] (lz77Block n) := by
  unfold lz77Block
  repeat' first
    | with_reducible exact Frame.pure _
    | with_reducible exact Frame.raise _
    | with_reducible exact Frame.look _
    | with_reducible exact Frame.await
    | ((with_reducible refine Frame.mono (updLz77_frame _) ?_); decide)
    | ((with_reducible refine Frame.mono (finishDecode_frame) ?_); decide)
    | with_reducible refine Frame.bind ?_ fun _ => ?_
    | split

theorem lz77Copy_frame (pos n i : Nat) : Frame [.lz77, .out] (lz77Copy pos n i) := by
  induction n generalizing i with
  | zero => exact Frame.pure _
  | succ n ih =>
    unfold lz77Copy
    repeat' first
      | with_reducible exact Frame.look _
      | with_reducible exact ih _
      | ((with_reducible refine Frame.mono (updLz77_frame _) ?_); decide)
      | ((with_reducible refine Frame.mono (emitByte_frame _) ?_); decide)
      | with_reducible refine Frame.bind ?_ fun _ => ?_

theorem lz77Record_frame (len pos : Nat) (b : Byte) : Frame [.lz77, .out] (lz77Record len pos b) := by
  unfold lz77Record
  repeat' first
    | with_reducible exact Frame.pure _
    | with_reducible exact Frame.raise _
    | with_reducible exact Frame.look _
    | with_reducible exact Frame.await
    | ((with_reducible refine Frame.mono (lz77Copy_frame _ _ _) ?_); decide)
    | ((with_reducible refine Frame.mono (updLz77_frame _) ?_); decide)
    | ((with_reducible refine Frame.mono (emitByte_frame _) ?_); decide)
    | with_reducible refine Frame.bind ?_ fun _ => ?_
    | split

theorem ruleLz77Match_frame (len pos : Nat) (b : Byte) : Frame [.lz77, .out] (ruleLz77Match len pos b) := by
  unfold ruleLz77Match
  repeat' first
    | with_reducible exact Frame.pure _
    | with_reducible exact Frame.raise _
    | with_reducible exact Frame.look _
    | with_reducible exact Frame.await
    | ((with_reducible refine Frame.mono (lz77Record_frame _ _ _) ?_); decide)
    | with_reducible refine Frame.bind ?_ fun _ => ?_
    | split


/-! ## The rules of the LZ78 and LZW units -/

theorem dictBlockStart_frame (a : DictAlg) : Frame [.dz] (dictBlockStart a) := by
  unfold dictBlockStart
  repeat' first
    | with_reducible exact Frame.pure _
    | with_reducible exact Frame.raise _
    | with_reducible exact Frame.look _
    | with_reducible exact Frame.await
    | ((with_reducible refine Frame.mono (updDz_frame _) ?_); decide)
    | with_reducible refine Frame.bind ?_ fun _ => ?_

theorem dictEncode_frame (cfg : Params) (a : DictAlg) (p1 p2 : BitVec 5) : Frame [.dz, .dict, .lzw, .snk, .out] (dictEncode cfg a p1 p2) := by
  unfold dictEncode
  repeat' first
    | with_reducible exact Frame.pure _
    | with_reducible exact Frame.raise _
    | with_reducible exact Frame.look _
    | with_reducible exact Frame.await
    | ((with_reducible refine Frame.mono (updDz_frame _) ?_); decide)
    | ((with_reducible refine Frame.mono (writeToken_frame _ _) ?_); decide)
    | ((with_reducible refine Frame.mono (dictStart_frame _ _ _ _) ?_); decide)
    | ((with_reducible refine Frame.mono (dictBlockStart_frame _) ?_); decide)
    | with_reducible refine Frame.bind ?_ fun _ => ?_

theorem dictRead_frame (a : DictAlg) : Frame [.dz, .inp] (dictRead a) := by
  unfold dictRead
  repeat' first
    | with_reducible exact Frame.pure _
    | with_reducible exact Frame.raise _
    | with_reducible exact Frame.look _
    | with_reducible exact Frame.await
    | ((with_reducible refine Frame.mono (updDz_frame _) ?_); decide)
    | ((with_reducible refine Frame.mono (takeByte_frame) ?_); decide)
    | with_reducible refine Frame.bind ?_ fun _ => ?_
    | split

theorem dictFlag_frame (a : DictAlg) : Frame [.dz, .lzw, .snk, .out] (dictFlag a) := by
  unfold dictFlag
  repeat' first
    | with_reducible exact Frame.pure _
    | with_reducible exact Frame.raise _
    | with_reducible exact Frame.look _
    | with_reducible exact Frame.await
    | ((with_reducible refine Frame.mono (writeToken_frame _ _) ?_); decide)
    | with_reducible refine Frame.bind ?_ fun _ => ?_
    | ((with_reducible refine Keeps.upd ?_); intro u f hf; cases f <;> simp_all [Field.same])
    | split

theorem dictBlock_frame (a : DictAlg) (n : Nat) : Frame [.dz, .lzw, .out] (dictBlock a n) := by
  unfold dictBlock
  repeat' first
    | with_reducible exact Frame.pure _
    | with_reducible exact Frame.raise _
    | with_reducible exact Frame.look _
    | with_reducible exact Frame.await
    | ((with_reducible refine Frame.mono (updDz_frame _) ?_); decide)
    | ((with_reducible refine Frame.mono (finishDecode_frame) ?_); decide)
    | with_reducible refine Frame.bind ?_ fun _ => ?_
    | ((with_reducible refine Keeps.upd ?_); intro u f hf; cases f <;> simp_all [Field.same])
    | split

theorem ruleDictHeader_frame (cfg : Params) (a : DictAlg) (p1 p2 : BitVec 5) : Frame [.detect, .dz, .dict, .lzw] (ruleDictHeader cfg a p1 p2) := by
  unfold ruleDictHeader
  repeat' first
    | with_reducible exact Frame.pure _
    | with_reducible exact Frame.raise _
    | with_reducible exact Frame.look _
    | with_reducible exact Frame.await
    | ((with_reducible refine Frame.mono (checkHeader_frame _ _ _ _) ?_); decide)
    | ((with_reducible refine Frame.mono (dictStart_frame _ _ _ _) ?_); decide)
    | with_reducible refine Frame.bind ?_ fun _ => ?_

theorem nextRecord_frame (a : Lz) : Frame [] (nextRecord a) := by
  unfold nextRecord
  repeat' first
    | with_reducible exact Frame.pure _
    | with_reducible exact Frame.raise _
    | with_reducible exact Frame.look _
    | with_reducible exact Frame.await
    | with_reducible refine Frame.bind ?_ fun _ => ?_
    | split

theorem insertInBlock_frame (w : Option Nat) (c : Byte) : Frame [.dict] (insertInBlock w c) := by
  unfold insertInBlock
  repeat' first
    | with_reducible exact Frame.pure _
    | with_reducible exact Frame.raise _
    | with_reducible exact Frame.look _
    | with_reducible exact Frame.await
    | ((with_reducible refine Frame.mono (insertIfRoom_frame _ _) ?_); decide)
    | with_reducible refine Frame.bind ?_ fun _ => ?_
    | split

theorem lz78Emit_frame : Frame [.dz, .dict, .snk, .out] lz78Emit := by
  unfold lz78Emit
  repeat' first
    | with_reducible exact Frame.pure _
    | with_reducible exact Frame.raise _
    | with_reducible exact Frame.look _
    | with_reducible exact Frame.await
    | ((with_reducible refine Frame.mono (writeToken_frame _ _) ?_); decide)
    | ((with_reducible refine Frame.mono (updDz_frame _) ?_); decide)
    | ((with_reducible refine Frame.mono (insertInBlock_frame _ _) ?_); decide)
    | ((with_reducible refine Frame.mono (dictBlockStart_frame _) ?_); decide)
    | with_reducible refine Frame.bind ?_ fun _ => ?_
    | split

theorem lz78Record_frame (w : Option Nat) (c : Byte) : Frame [.dz, .dict, .out] (lz78Record w c) := by
  unfold lz78Record
  repeat' first
    | with_reducible exact Frame.pure _
    | with_reducible exact Frame.raise _
    | with_reducible exact Frame.look _
    | with_reducible exact Frame.await
    | ((with_reducible refine Frame.mono (emitBytes_frame _) ?_); decide)
    | ((with_reducible refine Frame.mono (updDz_frame _) ?_); decide)
    | ((with_reducible refine Frame.mono (insertInBlock_frame _ _) ?_); decide)
    | ((with_reducible refine Frame.mono (nextRecord_frame _) ?_); decide)
    | with_reducible refine Frame.bind ?_ fun _ => ?_
    | split

theorem ruleLz78Phrase_frame (w : Nat) (c : Byte) : Frame [.dz, .dict, .out] (ruleLz78Phrase w c) := by
  unfold ruleLz78Phrase
  repeat' first
    | with_reducible exact Frame.pure _
    | with_reducible exact Frame.raise _
    | with_reducible exact Frame.look _
    | with_reducible exact Frame.await
    | ((with_reducible refine Frame.mono (lz78Record_frame _ _) ?_); decide)
    | with_reducible refine Frame.bind ?_ fun _ => ?_
    | split

theorem lzwByte_frame (c : Byte) : Frame [.lzw, .dict, .snk, .out] (lzwByte c) := by
  unfold lzwByte
  repeat' first
    | with_reducible exact Frame.pure _
    | with_reducible exact Frame.raise _
    | with_reducible exact Frame.look _
    | with_reducible exact Frame.await
    | ((with_reducible refine Frame.mono (updLzw_frame _) ?_); decide)
    | ((with_reducible refine Frame.mono (writeToken_frame _ _) ?_); decide)
    | ((with_reducible refine Frame.mono (insertIfRoom_frame _ _) ?_); decide)
    | with_reducible refine Frame.bind ?_ fun _ => ?_
    | split

theorem lzwBlockEnd_frame : Frame [.snk, .out] lzwBlockEnd := by
  unfold lzwBlockEnd
  repeat' first
    | with_reducible exact Frame.pure _
    | with_reducible exact Frame.raise _
    | with_reducible exact Frame.look _
    | with_reducible exact Frame.await
    | ((with_reducible refine Frame.mono (writeToken_frame _ _) ?_); decide)
    | with_reducible refine Frame.bind ?_ fun _ => ?_
    | split

theorem lzwEmit_frame : Frame [.lzw, .dz, .dict, .snk, .out] lzwEmit := by
  unfold lzwEmit
  repeat' first
    | with_reducible exact Frame.pure _
    | with_reducible exact Frame.raise _
    | with_reducible exact Frame.look _
    | with_reducible exact Frame.await
    | ((with_reducible refine Frame.mono (lzwByte_frame _) ?_); decide)
    | ((with_reducible refine Frame.mono (updDz_frame _) ?_); decide)
    | ((with_reducible refine Frame.mono (lzwBlockEnd_frame) ?_); decide)
    | ((with_reducible refine Frame.mono (dictBlockStart_frame _) ?_); decide)
    | with_reducible refine Frame.bind ?_ fun _ => ?_
    | split

theorem lzwInsert_frame (w : Option Nat) (ph : List Byte) : Frame [.dict] (lzwInsert w ph) := by
  unfold lzwInsert
  repeat' first
    | with_reducible exact Frame.pure _
    | with_reducible exact Frame.raise _
    | with_reducible exact Frame.look _
    | with_reducible exact Frame.await
    | ((with_reducible refine Frame.mono (insertIfRoom_frame _ _) ?_); decide)
    | with_reducible refine Frame.bind ?_ fun _ => ?_
    | split

theorem ruleLzwIndex_frame (cfg : Params) (p : Nat) : Frame [.lzw, .dz, .dict, .out] (ruleLzwIndex cfg p) := by
  unfold ruleLzwIndex
  repeat' first
    | with_reducible exact Frame.pure _
    | with_reducible exact Frame.raise _
    | with_reducible exact Frame.look _
    | with_reducible exact Frame.await
    | ((with_reducible refine Frame.mono (emitBytes_frame _) ?_); decide)
    | ((with_reducible refine Frame.mono (updDz_frame _) ?_); decide)
    | ((with_reducible refine Frame.mono (lzwInsert_frame _ _) ?_); decide)
    | ((with_reducible refine Frame.mono (updLzw_frame _) ?_); decide)
    | ((with_reducible refine Frame.mono (nextRecord_frame _) ?_); decide)
    | with_reducible refine Frame.bind ?_ fun _ => ?_
    | split


/-! ## The envelope and the fetch -/

theorem ruleMagic_frame (a : Alg) (use : MagicUse) : Frame [.result, .detect] (ruleMagic a use) := by
  unfold ruleMagic
  repeat' first
    | with_reducible exact Frame.pure _
    | with_reducible exact Frame.raise _
    | with_reducible exact Frame.look _
    | with_reducible exact Frame.await
    | ((with_reducible refine Frame.mono (setResult_frame _) ?_); decide)
    | with_reducible refine Frame.bind ?_ fun _ => ?_
    | ((with_reducible refine Keeps.upd ?_); intro u f hf; cases f <;> simp_all [Field.same])
    | split

theorem unknownMagic_frame (m : BitVec 16) (use : MagicUse) : Frame [.result, .detect] (unknownMagic m use) := by
  unfold unknownMagic
  repeat' first
    | with_reducible exact Frame.pure _
    | with_reducible exact Frame.raise _
    | with_reducible exact Frame.look _
    | with_reducible exact Frame.await
    | ((with_reducible refine Frame.mono (setResult_frame _) ?_); decide)
    | with_reducible refine Frame.bind ?_ fun _ => ?_
    | ((with_reducible refine Keeps.upd ?_); intro u f hf; cases f <;> simp_all [Field.same])
    | split

theorem encodeWith_frame (cfg : Params) (a : Alg) (p1 p2 : BitVec 5) (magic : Bool) :
    Frame [.huf, .lz77, .dz, .dict, .lzw, .snk, .out] (encodeWith cfg a p1 p2 magic) := by
  have hw : ∀ i, Frame [.huf, .lz77, .dz, .dict, .lzw, .snk, .out] (writeToken .envelope i) := fun i =>
    Frame.mono (writeToken_frame _ i) (by decide)
  cases a
  · exact Frame.mono (hufEncode_frame magic) (by decide)
  · cases magic
    · exact Frame.mono (lz77Encode_frame p1 p2) (by decide)
    · exact Frame.bind (hw _) fun _ => Frame.mono (lz77Encode_frame p1 p2) (by decide)
  · cases magic
    · exact Frame.mono (dictEncode_frame cfg .lz78 p1 p2) (by decide)
    · exact Frame.bind (hw _) fun _ => Frame.mono (dictEncode_frame cfg .lz78 p1 p2) (by decide)
  · cases magic
    · exact Frame.mono (dictEncode_frame cfg .lzw p1 p2) (by decide)
    · exact Frame.bind (hw _) fun _ => Frame.mono (dictEncode_frame cfg .lzw p1 p2) (by decide)

theorem blockOf_frame (a : Lz) (n : Nat) : Frame [.lz77, .dz, .lzw, .out] (blockOf a n) := by
  unfold blockOf
  repeat' first
    | with_reducible exact Frame.pure _
    | with_reducible exact Frame.raise _
    | with_reducible exact Frame.look _
    | with_reducible exact Frame.await
    | ((with_reducible refine Frame.mono (lz77Block_frame _) ?_); decide)
    | ((with_reducible refine Frame.mono (dictBlock_frame _ _) ?_); decide)
    | with_reducible refine Frame.bind ?_ fun _ => ?_
    | split

theorem ruleBlockFull_frame (a : Lz) : Frame [.lz77, .dz, .lzw, .out] (ruleBlockFull a) := by
  unfold ruleBlockFull
  repeat' first
    | with_reducible exact Frame.pure _
    | with_reducible exact Frame.raise _
    | with_reducible exact Frame.look _
    | with_reducible exact Frame.await
    | ((with_reducible refine Frame.mono (blockOf_frame _ _) ?_); decide)
    | with_reducible refine Frame.bind ?_ fun _ => ?_
    | split

theorem rejectToken_frame (p : Phase) (r : Reject) : Frame [.result, .detect] (rejectToken p r) := by
  unfold rejectToken
  repeat' first
    | with_reducible exact Frame.pure _
    | with_reducible exact Frame.raise _
    | with_reducible exact Frame.look _
    | with_reducible exact Frame.await
    | ((with_reducible refine Frame.mono (unknownMagic_frame _ _) ?_); decide)
    | with_reducible refine Frame.bind ?_ fun _ => ?_
    | split

theorem fetchBits_frame (p : Phase) (c : Ctx) (n : Nat) (bits : List Bool) :
    Frame [.src, .inp, .result, .detect] (fetchBits p c n bits) := by
  induction n generalizing bits with
  | zero => exact Frame.await
  | succ n ih =>
    unfold fetchBits
    repeat' first
      | with_reducible exact Frame.pure _
      | with_reducible exact ih _
      | ((with_reducible refine Frame.mono (readBit_frame _) ?_); decide)
      | ((with_reducible refine Frame.mono (rejectToken_frame _ _) ?_); decide)
      | with_reducible refine Frame.bind ?_ fun _ => ?_
      | split

/-- Fetching a token changes the BitSource and its port; bits that are no magic also leave their mark in RESULT and
DETECT (46_envelope.md R434). -/
theorem fetchToken_frame (p : Phase) (c : Ctx) : Frame [.src, .inp, .result, .detect] (fetchToken p c) := by
  unfold fetchToken
  exact fetchBits_frame p c c.maxBits []

end Sys2Proof.Machine
end

