-- ==== Sys2Proof/Laws/Source.lean ====
section
/-! SUPPORT. The BitSource: what a read of a bit does in each state of the source and its port, and that a read of
bits that are ahead delivers exactly those (40_bitsource.md R203, R205, R208). -/

namespace Sys2Proof.Machine

/-! ## Bit strings -/

@[simp] theorem bitsOf_zero (v : Nat) : bitsOf 0 v = [] := rfl

theorem bitsOf_succ (n v : Nat) : bitsOf (n + 1) v = v.testBit n :: bitsOf n v := rfl

@[simp] theorem bitsOf_length (n v : Nat) : (bitsOf n v).length = n := by
  induction n with
  | zero => rfl
  | succ n ih => simp [bitsOf_succ, ih]

theorem bitsValue_append (acc : Nat) (a b : List Bool) : bitsValue acc (a ++ b) = bitsValue (bitsValue acc a) b := by
  induction a generalizing acc with
  | nil => rfl
  | cons x a ih => exact ih _

theorem bitsValue_eq (acc : Nat) (bits : List Bool) :
    bitsValue acc bits = acc * 2 ^ bits.length + bitsValue 0 bits := by
  induction bits generalizing acc with
  | nil => simp [bitsValue]
  | cons b bits ih =>
    simp only [bitsValue, List.length_cons]
    rw [ih (2 * acc + b.toNat), ih (2 * 0 + b.toNat), pow_succ]
    ring

theorem bitsValue_lt (bits : List Bool) : bitsValue 0 bits < 2 ^ bits.length := by
  induction bits with
  | nil => simp [bitsValue]
  | cons b bits ih =>
    simp only [bitsValue, List.length_cons]
    rw [bitsValue_eq, pow_succ]
    cases b <;> simp <;> omega

/-- A field reads back as the low bits of the value it was written from. -/
theorem bitsValue_bitsOf (n v : Nat) : bitsValue 0 (bitsOf n v) = v % 2 ^ n := by
  induction n with
  | zero => simp [bitsValue, Nat.mod_one]
  | succ n ih =>
    rw [bitsOf_succ, bitsValue, bitsValue_eq, ih, bitsOf_length, Nat.mod_pow_succ, Nat.testBit_eq_decide_div_mod_eq]
    rcases Nat.mod_two_eq_zero_or_one (v / 2 ^ n) with h | h <;> simp [h]; ring

/-- Reading the field that stands first. -/
theorem takeField_bitsOf (n v : Nat) (rest : List Bool) (hv : v < 2 ^ n) :
    takeField n (bitsOf n v ++ rest) = some (v, rest) := by
  unfold takeField
  rw [if_pos (by simp)]
  rw [List.take_left' (bitsOf_length n v), List.drop_left' (bitsOf_length n v), bitsValue_bitsOf, Nat.mod_eq_of_lt hv]

/-- A field of which bits are missing. -/
theorem takeField_short {n : Nat} {bits : List Bool} (h : bits.length < n) : takeField n bits = none := by
  unfold takeField
  rw [if_neg (by omega)]

/-! ## The bits ahead -/

@[simp] theorem byteBits_length (b : Byte) : (byteBits b).length = 8 := bitsOf_length 8 _

theorem heldBits_empty {s : Src} (h : s.pos = 8) : s.heldBits = [] := by simp [Src.heldBits, h]

theorem heldBits_cons {s : Src} (h : s.pos ≠ 8) :
    s.heldBits = s.holder.getLsbD s.pos.val :: ({ s with pos := nextPos s.pos } : Src).heldBits := by
  have hlt : s.pos.val < 8 := by
    have := s.pos.isLt
    have : s.pos.val ≠ 8 := fun e => h (Fin.ext e)
    omega
  unfold Src.heldBits
  rw [if_neg h, bitsOf_succ]
  congr 1
  by_cases h0 : s.pos = 0
  · simp [nextPos, h0]
  · have hv : s.pos.val ≠ 0 := fun e => h0 (Fin.ext e)
    have hp : (nextPos s.pos).val = s.pos.val - 1 := by
      simp only [nextPos, if_neg h0]
      rw [Fin.sub_val_of_le]
      · rfl
      · exact Fin.le_def.2 (by simp; omega)
    have h8 : nextPos s.pos ≠ 8 := fun e => by
      have := congrArg Fin.val e
      rw [hp] at this
      simp at this
      omega
    rw [if_neg h8, hp]
    congr 1
    omega

theorem Units.readTo_refl {u : Units} (h : u.readable) : u.readTo u := ⟨rfl, h, rfl, rfl, rfl, rfl, rfl⟩

theorem Units.readTo_trans {u v w : Units} (h1 : u.readTo v) (h2 : v.readTo w) : u.readTo w := by
  obtain ⟨e1, _, c1, g1, t1, s1, r1⟩ := h1
  obtain ⟨e2, k2, c2, g2, t2, s2, r2⟩ := h2
  refine ⟨?_, k2, c2.trans c1, g2.trans g1, by omega, s2.trans s1, r2.trans r1⟩
  rw [e2, e1]

/-- A byte that is ahead is the next one offered. -/
theorem ahead_cons {p : InPort} {x : Byte} {l : List Byte} (h : p.ahead = x :: l) :
    p.closed = none ∧ ∃ o, p.offer = .byte x :: o ∧ bytesAhead o = l := by
  unfold InPort.ahead at h
  split at h
  · rename_i hc
    refine ⟨hc, ?_⟩
    rcases ho : p.offer with _ | ⟨y | t, o⟩
    · simp [ho, bytesAhead] at h
    · rw [ho] at h
      obtain ⟨rfl, hl⟩ := List.cons.inj h
      exact ⟨o, rfl, hl⟩
    · simp [ho, bytesAhead] at h
  · exact absurd h (by simp)

/-- A bit that is ahead is read: from the holder, or from the next byte offered (R203). -/
theorem srcGetBit_pending {u : Units} {b : Bool} {rest : List Bool} (hg : u.readable)
    (hb : u.pendingBits = b :: rest) :
    ∃ v, srcGetBit.on u = .ok b v ∧ u.readTo v ∧ v.pendingBits = rest ∧ v.src.heldBits.length < 8 := by
  by_cases hp : u.src.pos = 8
  · rcases ha : u.inp.ahead with _ | ⟨x, l⟩
    · simp [Units.pendingBits, heldBits_empty hp, ha] at hb
    · obtain ⟨hc, o, ho, hl⟩ := ahead_cons ha
      let s1 : Src := { u.src with holder := x, pos := 7 }
      let i1 : InPort := { u.inp with offer := o, given := u.inp.given ++ [.byte x], taken := u.inp.taken + 1 }
      have hs : s1.heldBits = byteBits x := rfl
      have hne : s1.pos ≠ 8 := by simp only [s1]; decide
      have hcons := heldBits_cons hne
      have hi : i1.ahead = l := by simp [InPort.ahead, i1, hc, hl]
      simp only [Units.pendingBits, heldBits_empty hp, ha, List.flatMap_cons, List.nil_append] at hb
      rw [← hs, hcons, List.cons_append] at hb
      obtain ⟨hb1, hb2⟩ := List.cons.inj hb
      refine ⟨{ u with src := { s1 with pos := nextPos s1.pos }, inp := i1 }, ?_,
        ⟨rfl, hg, rfl, ?_, ?_, rfl, rfl⟩, ?_, ?_⟩
      · simp only [srcGetBit, run_look, M.run_bind, hg, if_true, hp, refill, inRead, run_act, hc, ho,
          M.run_pure, run_upd, heldBit]
        rw [← hb1]
        simp only [s1, i1, hc]
      · simp [i1, ho]
      · simp [i1]; omega
      · simp only [Units.pendingBits]
        rw [hi]
        exact hb2
      · have := congrArg List.length hcons
        rw [hs, byteBits_length, List.length_cons] at this
        simp only
        omega
  · have hcons := heldBits_cons hp
    unfold Units.pendingBits at hb
    rw [hcons, List.cons_append] at hb
    obtain ⟨hb1, hb2⟩ := List.cons.inj hb
    refine ⟨{ u with src := { u.src with pos := nextPos u.src.pos } }, ?_,
      ⟨rfl, hg, rfl, rfl, rfl, rfl, rfl⟩, hb2, ?_⟩
    · simp only [srcGetBit, run_look, hg, if_true, if_neg hp, heldBit, M.run_bind, run_upd,
        M.run_pure, hb1]
    · have hl : u.src.heldBits.length ≤ 8 := by
        simp only [Src.heldBits, if_neg hp, bitsOf_length]
        have := u.src.pos.isLt
        have : u.src.pos.val ≠ 8 := fun e => hp (Fin.ext e)
        omega
      rw [hcons, List.length_cons] at hl
      exact hl

/-- A source that is not good delivers 0 and changes nothing (R203). -/
theorem srcGetBit_not_good {u : Units} (h : u.src.good = false) : srcGetBit.on u = .ok false u := by
  simp [srcGetBit, M.run_look_bind, h]

/-- What `InRead` does where the port has an item (20_memory.md R94). -/
theorem inRead_offered {u : Units} {item : InItem} (h : u.offers item) : inRead.on u = .ok item (u.took item) := by
  rw [inRead, run_act]
  rcases h with ⟨hc, ho⟩ | h
  · rcases hoo : u.inp.offer with _ | ⟨x, rest⟩
    · simp [hoo] at ho
    · rw [hoo] at ho
      obtain rfl : x = item := by simpa using ho
      cases x <;> simp [hc, hoo, Units.took, InPort.took]
  · obtain ⟨t, hc, rfl⟩ := Option.map_eq_some_iff.1 h
    simp [hc, Units.took, InPort.took]

theorem took_closed {p : InPort} {t : Terminal}
    (h : (p.closed = none ∧ p.offer.head? = some (.stop t)) ∨ p.closed.map InItem.stop = some (.stop t)) :
    (p.took (.stop t)).closed = some t ∧ (p.took (.stop t)).taken = p.taken + 1 := by
  unfold InPort.took
  rcases h with ⟨hc, _⟩ | h
  · simp [hc]
  · obtain ⟨t', hc, he⟩ := Option.map_eq_some_iff.1 h
    obtain rfl : t' = t := by simpa using he
    simp [hc]

/-- At End the source delivers 0 and its flag EOF is set (R202, R203). -/
theorem srcGetBit_end {u : Units} (h : u.meets .ended) :
    srcGetBit.on u = .ok false { u.took (.stop .ended) with src := { u.src with eof := true } } := by
  obtain ⟨hg, hp, ho⟩ := h
  simp only [srcGetBit, run_look, M.run_bind, hg, if_true, hp, refill, inRead_offered ho, M.run_pure, run_upd]
  simp [hp]

/-- At an input failure the source delivers 0 and its flag ERR is set (R202, R203). -/
theorem srcGetBit_failed {u : Units} (h : u.meets .failed) :
    srcGetBit.on u = .ok false { u.took (.stop .failed) with src := { u.src with err := true } } := by
  obtain ⟨hg, hp, ho⟩ := h
  simp only [srcGetBit, run_look, M.run_bind, hg, if_true, hp, refill, inRead_offered ho, M.run_pure, run_upd]
  simp [hp]

/-- With an empty holder and nothing offered the source waits (20_memory.md R95). -/
theorem srcGetBit_wait {u : Units} (hg : u.readable) (hp : u.src.pos = 8) (hc : u.inp.closed = none)
    (ho : u.inp.offer = []) : srcGetBit.on u = .error .wait u := by
  simp only [srcGetBit, run_look, M.run_bind, hg, if_true, hp, refill, inRead, run_act, hc, ho]

/-- Bits that are ahead are read in order, the first one most significant (R205). -/
theorem srcGetBits_pending {u : Units} {bits rest : List Bool} (acc : Nat) (h : u.readable)
    (hb : u.pendingBits = bits ++ rest) :
    ∃ v, (srcGetBits bits.length acc).on u = .ok (bitsValue acc bits) v ∧ u.readTo v ∧ v.pendingBits = rest ∧
      (bits ≠ [] → v.src.heldBits.length < 8) := by
  induction bits generalizing u acc with
  | nil => exact ⟨u, rfl, Units.readTo_refl h, hb, fun h => absurd rfl h⟩
  | cons b bits ih =>
    obtain ⟨v, hv, hr, hp, hl⟩ := srcGetBit_pending h hb
    obtain ⟨w, hw, hr', hp', hl'⟩ := ih (2 * acc + b.toNat) hr.2.1 hp
    refine ⟨w, ?_, Units.readTo_trans hr hr', hp', fun _ => ?_⟩
    · simp only [List.length_cons, srcGetBits, M.run_bind, hv, hw, bitsValue]
    · cases bits with
      | nil =>
        have : w = v := by
          simp only [List.length_nil, srcGetBits, M.run_pure] at hw
          exact ((EStateM.Result.ok.inj hw).2).symm
        rw [this]; exact hl
      | cons c bits => exact hl' (by simp)

/-! ## Checked reads -/

/-- A checked read of a bit that is ahead delivers it (R208, R209). -/
theorem readBit_pending {u : Units} {b : Bool} {rest : List Bool} (e : ErrorCode) (h : u.readable)
    (hb : u.pendingBits = b :: rest) :
    ∃ v, (readBit e).on u = .ok b v ∧ u.readTo v ∧ v.pendingBits = rest ∧ v.src.heldBits.length < 8 := by
  obtain ⟨v, hv, hr, hp, hl⟩ := srcGetBit_pending h hb
  refine ⟨v, ?_, hr, hp, hl⟩
  have hg : v.src.good = true := hr.2.1
  have : v.src.err = false ∧ v.src.eof = false := by
    unfold Src.good at hg
    revert hg
    cases v.src.eof <;> cases v.src.err <;> simp
  simp [readBit, M.run_bind, hv, this.1, this.2]

/-- Bits of which no proper beginning is an instruction, but which are one, are fetched as that instruction. -/
theorem fetchBits_pending (p : Phase) (c : Ctx) (i : Instr) {more bits rest : List Bool} {fuel : Nat} {u : Units}
    (h : u.readable) (hb : u.pendingBits = more ++ rest) (hm : more ≠ []) (hf : more.length ≤ fuel)
    (hd : decodeBits c (bits ++ more) = .instr i [])
    (hs : ∀ k, 0 < k → k < more.length → decodeBits c (bits ++ more.take k) = .more) :
    ∃ v, (fetchBits p c fuel bits).on u = .ok i v ∧ u.readTo v ∧ v.pendingBits = rest := by
  induction more generalizing u bits fuel with
  | nil => exact absurd rfl hm
  | cons b more ih =>
    obtain ⟨fuel, rfl⟩ : ∃ n, fuel = n + 1 := ⟨fuel - 1, by simp at hf; omega⟩
    obtain ⟨v, hv, hr, hp, -⟩ := readBit_pending (eofError c bits) h hb
    cases more with
    | nil =>
      refine ⟨v, ?_, hr, hp⟩
      simp [fetchBits, M.run_bind, hv, hd]
    | cons b' more =>
      have hmore : decodeBits c (bits ++ [b]) = .more := by
        have := hs 1 (by omega) (by simp)
        simpa using this
      obtain ⟨w, hw, hr', hp'⟩ := ih (bits := bits ++ [b]) (fuel := fuel) hr.2.1 hp (by simp)
        (by simp at hf ⊢; omega) (by simpa using hd) (fun k h0 hk => by
          have := hs (k + 1) (by omega) (by simp at hk ⊢; omega)
          simpa using this)
      refine ⟨w, ?_, Units.readTo_trans hr hr', hp'⟩
      simp [fetchBits, M.run_bind, hv, hmore, hw]

end Sys2Proof.Machine
end

