-- ==== Sys2Proof/Laws/PerInstr.lean ====
section
/-! SUPPORT. The law that is stated of every instruction: how many bits it has in each context that admits it
(30_encoding.md R140). -/

namespace Sys2Proof.Laws.TokenLength

/-- The length column of R140; a command word has 32 bits (R120). -/
def bitLength (c : Ctx) (i : Instr) : Nat :=
  match c with
  | .command => 32
  | .envelope => 16
  | .hufHeader => 8 + 32
  | .tree =>
    match i with
    | .hufTreeInternal => 1
    | _ => 9
  | .code => 1
  | .lzHeader _ => 8 + 5 + 5
  | .block width =>
    match i with
    | .blockFull => 1
    | _ => 1 + width
  | .lz77Record lookaheadBits searchBits =>
    match i with
    | .lz77Literal _ => 9
    | _ => 9 + lookaheadBits + searchBits
  | .lz78Record dictBits =>
    match i with
    | .lz78Literal _ => 9
    | _ => 9 + dictBits
  | .lzwRecord dictBits => dictBits

/-- In every context that admits it, the instruction is written in as many bits as R140 gives it, and no context asks
for more bits than it says it may. -/
def Statement (i : Instr) : Prop :=
  ∀ c, i.wf c = true → (encode c i).length = bitLength c i ∧ bitLength c i ≤ c.maxBits

/-- The law of every instruction, context by context. -/
theorem every (i : Instr) : Statement i := by
  intro c h
  cases c with
  | command =>
    have h : i.wfCommand = true := h
    exact ⟨by rw [encode, if_pos h, Machine.bitsOf_length]; rfl, Nat.le_refl _⟩
  | envelope =>
    cases i <;> first
      | exact absurd (h : false = true) Bool.false_ne_true
      | exact ⟨rfl, Nat.le_refl _⟩
  | hufHeader =>
    cases i <;> first
      | exact absurd (h : false = true) Bool.false_ne_true
      | exact ⟨by simp [encode, bitLength], Nat.le_refl _⟩
  | tree =>
    cases i <;> first
      | exact absurd (h : false = true) Bool.false_ne_true
      | exact ⟨by simp [encode, bitLength], by simp [bitLength, Ctx.maxBits]⟩
  | code =>
    cases i <;> first
      | exact absurd (h : false = true) Bool.false_ne_true
      | exact ⟨by simpa [Instr.wf, encode, bitLength] using h, Nat.le_refl _⟩
  | lzHeader a =>
    cases a <;> cases i <;> first
      | exact absurd (h : false = true) Bool.false_ne_true
      | exact ⟨by simp [encode, encodeLzHeader, bitLength], Nat.le_refl _⟩
  | block width =>
    cases i <;> first
      | exact absurd (h : false = true) Bool.false_ne_true
      | exact ⟨by simp [encode, bitLength]; try omega, by simp [bitLength, Ctx.maxBits]⟩
  | lz77Record l s =>
    cases i <;> first
      | exact absurd (h : false = true) Bool.false_ne_true
      | exact ⟨by simp [encode, bitLength]; try omega, by simp only [bitLength, Ctx.maxBits]; omega⟩
  | lz78Record d =>
    cases i <;> first
      | exact absurd (h : false = true) Bool.false_ne_true
      | exact ⟨by simp [encode, bitLength]; try omega, by simp only [bitLength, Ctx.maxBits]; omega⟩
  | lzwRecord d =>
    cases i <;> first
      | exact absurd (h : false = true) Bool.false_ne_true
      | exact ⟨by simp [encode, bitLength], Nat.le_refl _⟩

theorem nop : Statement .nop := every _
theorem srcReset : Statement .srcReset := every _
theorem srcGetBit : Statement .srcGetBit := every _
theorem srcGetBits (n : Byte) : Statement (.srcGetBits n) := every _
theorem snkReset : Statement .snkReset := every _
theorem snkPutBit (bit : Bool) : Statement (.snkPutBit bit) := every _
theorem snkPutBits (n : Byte) : Statement (.snkPutBits n) := every _
theorem snkFlush : Statement .snkFlush := every _
theorem freqClear : Statement .freqClear := every _
theorem freqAdd (sym : Byte) : Statement (.freqAdd sym) := every _
theorem freqGet (sym : Byte) : Statement (.freqGet sym) := every _
theorem hufBuild : Statement .hufBuild := every _
theorem hufCodeLen (sym : Byte) : Statement (.hufCodeLen sym) := every _
theorem hufPutSym (sym : Byte) : Statement (.hufPutSym sym) := every _
theorem hufSerialize : Statement .hufSerialize := every _
theorem hufDeserialize : Statement .hufDeserialize := every _
theorem hufWalkReset : Statement .hufWalkReset := every _
theorem hufAddBit (bit : Bool) : Statement (.hufAddBit bit) := every _
theorem envPutMagic (alg : Alg) : Statement (.envPutMagic alg) := every _
theorem envGetMagic : Statement .envGetMagic := every _
theorem encBody (alg : Alg) : Statement (.encBody alg) := every _
theorem decBody (alg : Alg) : Statement (.decBody alg) := every _
theorem enc : Statement .enc := every _
theorem dec : Statement .dec := every _
theorem softReset : Statement .softReset := every _
theorem magicHuf : Statement .magicHuf := every _
theorem magicLz77 : Statement .magicLz77 := every _
theorem magicLz78 : Statement .magicLz78 := every _
theorem magicLzw : Statement .magicLzw := every _
theorem hufHeader (total : Word) : Statement (.hufHeader total) := every _
theorem hufTreeInternal : Statement .hufTreeInternal := every _
theorem hufTreeLeaf (sym : Byte) : Statement (.hufTreeLeaf sym) := every _
theorem hufCode (bits : List Bool) : Statement (.hufCode bits) := every _
theorem lz77Header (searchBits lookaheadBits : BitVec 5) : Statement (.lz77Header searchBits lookaheadBits) := every _
theorem lz78Header (dictBits blockBits : BitVec 5) : Statement (.lz78Header dictBits blockBits) := every _
theorem lzwHeader (dictBits blockBits : BitVec 5) : Statement (.lzwHeader dictBits blockBits) := every _
theorem blockFull : Statement .blockFull := every _
theorem blockShort (count : Nat) : Statement (.blockShort count) := every _
theorem lz77Literal (b : Byte) : Statement (.lz77Literal b) := every _
theorem lz77Match (len pos : Nat) (b : Byte) : Statement (.lz77Match len pos b) := every _
theorem lz78Literal (b : Byte) : Statement (.lz78Literal b) := every _
theorem lz78Phrase (index : Nat) (b : Byte) : Statement (.lz78Phrase index b) := every _
theorem lzwIndex (index : Nat) : Statement (.lzwIndex index) := every _

end Sys2Proof.Laws.TokenLength
end

