-- ==== Sys2Proof/Laws/Sink.lean ====
section
/-! SUPPORT. The BitSink and the output port: what a write does in each state of the sink and its consumer, and that
bits put through a good sink to a willing consumer come out packed (41_bitsink.md R233, R237, R241). -/

namespace Sys2Proof.Machine

/-! ## The output port -/

theorem outWrite_accepts {u : Units} (h : u.out.accepts) (b : Byte) :
    (outWrite b).on u = .ok true (u.emitted [b]) ∧ (u.emitted [b]).out.accepts := by
  obtain ⟨ha, hh⟩ := h
  rcases hans : u.out.answers with _ | ⟨a, rest⟩
  · refine ⟨?_, ?_, hh⟩
    · simp [outWrite, hans, hh, Units.emitted, OutPort.happens]
    · simp [Units.emitted, hans]
  · obtain rfl : a = .ok := ha a (by simp [hans])
    refine ⟨?_, ?_, hh⟩
    · simp [outWrite, hans, Units.emitted, OutPort.happens]
    · intro x hx
      exact ha x (by
        simp only [Units.emitted, hans, List.length_cons, List.length_nil, Nat.zero_add, List.drop_one,
          List.tail_cons] at hx
        simp [hans, hx])

/-- A refused byte changes nothing but the answers left (R97). -/
theorem outWrite_refuses {u : Units} (h : u.out.refuses) (b : Byte) :
    (outWrite b).on u = .ok false { u with out := { u.out with answers := u.out.answers.drop 1 } } := by
  rcases hans : u.out.answers with _ | ⟨a, rest⟩
  · have hh : u.out.habit = some .fail := by
      rcases h with h | h
      · simp [hans] at h
      · exact h.2
    obtain ⟨_, _, _, _, _, _, _, _, _, _, ⟨_, an, ha⟩⟩ := u
    simp only at hans hh
    subst hans hh
    rw [outWrite, run_act]
    rfl
  · obtain rfl : a = .fail := by
      rcases h with h | h
      · simpa [hans] using h
      · simp [hans] at h
    simp [outWrite, hans]

/-- A consumer that has not answered makes the block wait (R97). -/
theorem outWrite_wait {u : Units} (ha : u.out.answers = []) (hh : u.out.habit = none) (b : Byte) :
    (outWrite b).on u = .error .wait u := by simp [outWrite, ha, hh]

theorem Units.emitted_nil (u : Units) : u.emitted [] = u := by simp [Units.emitted]

theorem Units.emitted_emitted (u : Units) (a b : List Byte) : (u.emitted a).emitted b = u.emitted (a ++ b) := by
  simp [Units.emitted, List.append_assoc, List.drop_drop]

theorem Units.emitted_accepts {u : Units} (h : u.out.accepts) (bs : List Byte) : (u.emitted bs).out.accepts :=
  ⟨fun a ha => h.1 a (List.mem_of_mem_drop ha), h.2⟩

theorem emitByte_accepts {u : Units} (h : u.out.accepts) (b : Byte) : (emitByte b).on u = .ok () (u.emitted [b]) := by
  simp [emitByte, M.run_bind, (outWrite_accepts h b).1]

/-- A byte a decoder emits and the consumer refuses is a StreamError (20_memory.md R118). -/
theorem emitByte_refuses {u : Units} (h : u.out.refuses) (b : Byte) :
    (emitByte b).on u =
      .error (.raise .streamError) { u with out := { u.out with answers := u.out.answers.drop 1 } } := by
  simp [emitByte, M.run_bind, outWrite_refuses h b]

theorem emitBytes_accepts {u : Units} (h : u.out.accepts) (bs : List Byte) :
    (emitBytes bs).on u = .ok () (u.emitted bs) := by
  induction bs generalizing u with
  | nil => simp [emitBytes, Units.emitted_nil]
  | cons b bs ih =>
    have h' := Units.emitted_accepts h [b]
    simp [emitBytes, M.run_bind, emitByte_accepts h b, ih h', Units.emitted_emitted]

/-! ## Packing -/

theorem held_length (k : Snk) : k.held.length = 7 - k.pos.val := by
  simp [Snk.held]
  omega

theorem held_holding (bits : List Bool) (h : bits.length < 8) : (Snk.holding bits).held = bits := by
  match bits, h with
  | [], _ => rfl
  | [a], _ => revert a; decide
  | [a, b], _ => revert a b; decide
  | [a, b, c], _ => revert a b c; decide
  | [a, b, c, d], _ => revert a b c d; decide
  | [a, b, c, d, e], _ => revert a b c d e; decide
  | [a, b, c, d, e, f], _ => revert a b c d e f; decide
  | [a, b, c, d, e, f, g], _ => revert a b c d e f g; decide

theorem holding_wf (bits : List Bool) (h : bits.length < 8) : (Snk.holding bits).wf := by
  match bits, h with
  | [], _ => decide
  | [a], _ => revert a; decide
  | [a, b], _ => revert a b; decide
  | [a, b, c], _ => revert a b c; decide
  | [a, b, c, d], _ => revert a b c d; decide
  | [a, b, c, d, e], _ => revert a b c d e; decide
  | [a, b, c, d, e, f], _ => revert a b c d e f; decide
  | [a, b, c, d, e, f, g], _ => revert a b c d e f g; decide

/-- A byte is its bits, most significant first. -/
theorem packByte_byteBits (v : Byte) : packByte (byteBits v) = v := by
  unfold packByte byteBits
  rw [bitsValue_bitsOf, bitsOf_length, Nat.mod_eq_of_lt v.isLt]
  simp

theorem setBit_getLsbD (v : Byte) (i : Nat) (b : Bool) (j : Nat) (hj : j < 8) :
    (setBit v i b).getLsbD j = if i = j then b else v.getLsbD j := by
  cases b
  · simp only [setBit, Bool.false_eq_true, if_false, BitVec.getLsbD_and, BitVec.getLsbD_not,
      BitVec.getLsbD_shiftLeft, hj, decide_true, Bool.true_and]
    by_cases h : i = j
    · subst h; simp
    · rcases Nat.lt_or_ge j i with h' | h'
      · simp [h, h']
      · have : j - i ≠ 0 := by omega
        simp [h, this]
  · simp only [setBit, if_true, BitVec.getLsbD_or, BitVec.getLsbD_shiftLeft, hj, decide_true, Bool.true_and]
    by_cases h : i = j
    · subst h; simp
    · rcases Nat.lt_or_ge j i with h' | h'
      · simp [h, h']
      · have : j - i ≠ 0 := by omega
        simp [h, this]

/-- A good sink whose low bits are 0 is the one that holds its held bits. -/
theorem holding_held {k : Snk} (hg : k.good = true) (hw : k.wf) : Snk.holding k.held = k := by
  obtain ⟨acc, pos, good⟩ := k
  obtain rfl : good = true := hg
  have hp : (Snk.holding (Snk.held ⟨acc, pos, true⟩)).pos = pos := by
    apply Fin.ext
    simp only [Snk.holding, held_length]
    omega
  have ha : (Snk.holding (Snk.held ⟨acc, pos, true⟩)).acc = acc := by
    simp only [Snk.holding, packByte, held_length]
    apply BitVec.eq_of_getLsbD_eq
    intro j hj
    have key : bitsValue 0 (Snk.held ⟨acc, pos, true⟩) = acc.toNat / 2 ^ (pos.val + 1) := by
      have h1 : byteBits acc = Snk.held ⟨acc, pos, true⟩ ++ (byteBits acc).drop (7 - pos.val) :=
        (List.take_append_drop _ _).symm
      have h2 := congrArg (bitsValue 0) h1
      rw [bitsValue_append, bitsValue_eq (bitsValue 0 _)] at h2
      have h3 := bitsValue_lt ((byteBits acc).drop (7 - pos.val))
      have h4 : ((byteBits acc).drop (7 - pos.val)).length = pos.val + 1 := by simp; omega
      rw [h4] at h2 h3
      have h5 : bitsValue 0 (byteBits acc) = acc.toNat := by
        rw [byteBits, bitsValue_bitsOf, Nat.mod_eq_of_lt acc.isLt]
      rw [h5] at h2
      rw [h2, Nat.mul_comm, Nat.mul_add_div (Nat.two_pow_pos _), Nat.div_eq_of_lt h3, Nat.add_zero]
    rw [key]
    have h8 : 8 - (7 - pos.val) = pos.val + 1 := by omega
    rw [h8, BitVec.getLsbD_ofNat]
    by_cases hjp : j ≤ pos.val
    · have : acc.getLsbD j = false := hw ⟨j, hj⟩ (Fin.le_def.2 hjp)
      rw [this, Nat.testBit_shiftLeft]
      simp; omega
    · rw [Nat.testBit_shiftLeft, Nat.testBit_div_two_pow]
      have h1 : j ≥ pos.val + 1 := by omega
      simp [hj, h1, BitVec.getLsbD]
  have hgood : (Snk.holding (Snk.held ⟨acc, pos, true⟩)).good = true := rfl
  calc Snk.holding (Snk.held ⟨acc, pos, true⟩)
      = ⟨(Snk.holding (Snk.held ⟨acc, pos, true⟩)).acc, (Snk.holding (Snk.held ⟨acc, pos, true⟩)).pos, true⟩ := rfl
    _ = ⟨acc, pos, true⟩ := by rw [hp, ha]

theorem eight_or_more {α : Type} {a : List α} (h : 8 ≤ a.length) :
    ∃ x1 x2 x3 x4 x5 x6 x7 x8 r, a = x1 :: x2 :: x3 :: x4 :: x5 :: x6 :: x7 :: x8 :: r := by
  rcases a with _ | ⟨x1, _ | ⟨x2, _ | ⟨x3, _ | ⟨x4, _ | ⟨x5, _ | ⟨x6, _ | ⟨x7, _ | ⟨x8, r⟩⟩⟩⟩⟩⟩⟩⟩
  iterate 8 (simp at h)
  exact ⟨x1, x2, x3, x4, x5, x6, x7, x8, r, rfl⟩

theorem packFull_short {bits : List Bool} (h : bits.length < 8) : packFull bits = [] := by
  match bits, h with
  | [], _ => rfl
  | [_], _ => rfl
  | [_, _], _ => rfl
  | [_, _, _], _ => rfl
  | [_, _, _, _], _ => rfl
  | [_, _, _, _, _], _ => rfl
  | [_, _, _, _, _, _], _ => rfl
  | [_, _, _, _, _, _, _], _ => rfl

theorem packRest_short {bits : List Bool} (h : bits.length < 8) : packRest bits = bits := by
  match bits, h with
  | [], _ => rfl
  | [_], _ => rfl
  | [_, _], _ => rfl
  | [_, _, _], _ => rfl
  | [_, _, _, _], _ => rfl
  | [_, _, _, _, _], _ => rfl
  | [_, _, _, _, _, _], _ => rfl
  | [_, _, _, _, _, _, _], _ => rfl

theorem packRest_length (bits : List Bool) : (packRest bits).length < 8 := by
  induction bits using packRest.induct with
  | case1 a b c d e f g h rest ih => simpa [packRest] using ih
  | case2 a h =>
    by_contra hc
    by_cases hl : 8 ≤ a.length
    · obtain ⟨x1, x2, x3, x4, x5, x6, x7, x8, r, rfl⟩ := eight_or_more hl
      exact h _ _ _ _ _ _ _ _ _ rfl
    · exact hc (by rw [packRest_short (by omega)]; omega)

/-- Packing goes on from what is held. -/
theorem packFull_append (a b : List Bool) : packFull (a ++ b) = packFull a ++ packFull (packRest a ++ b) := by
  induction a using packRest.induct with
  | case1 x1 x2 x3 x4 x5 x6 x7 x8 rest ih =>
    change packByte [x1, x2, x3, x4, x5, x6, x7, x8] :: packFull (rest ++ b) =
      packByte [x1, x2, x3, x4, x5, x6, x7, x8] :: (packFull rest ++ packFull (packRest rest ++ b))
    rw [ih]
  | case2 a h =>
    have hl : a.length < 8 := by
      by_contra hc
      obtain ⟨x1, x2, x3, x4, x5, x6, x7, x8, r, rfl⟩ := eight_or_more (a := a) (by omega)
      exact h _ _ _ _ _ _ _ _ _ rfl
    rw [packFull_short hl, packRest_short hl, List.nil_append]

theorem packRest_append (a b : List Bool) : packRest (a ++ b) = packRest (packRest a ++ b) := by
  induction a using packRest.induct with
  | case1 x1 x2 x3 x4 x5 x6 x7 x8 rest ih =>
    change packRest (rest ++ b) = packRest (packRest rest ++ b)
    exact ih
  | case2 a h =>
    have hl : a.length < 8 := by
      by_contra hc
      obtain ⟨x1, x2, x3, x4, x5, x6, x7, x8, r, rfl⟩ := eight_or_more (a := a) (by omega)
      exact h _ _ _ _ _ _ _ _ _ rfl
    rw [packRest_short hl]

/-! ## Writing -/

theorem Units.wrote_writable {u : Units} (h : u.writable) (bits : List Bool) : (u.wrote bits).writable :=
  ⟨rfl, holding_wf _ (packRest_length _), Units.emitted_accepts h.2.2 _⟩

theorem Units.wrote_nil {u : Units} (h : u.writable) : u.wrote [] = u := by
  have hl : u.snk.held.length < 8 := by rw [held_length]; omega
  unfold Units.wrote
  rw [List.append_nil, packFull_short hl, packRest_short hl, Units.emitted_nil, holding_held h.1 h.2.1]

theorem Units.wrote_wrote (u : Units) (a b : List Bool) : (u.wrote a).wrote b = u.wrote (a ++ b) := by
  have hh : (u.wrote a).snk.held = packRest (u.snk.held ++ a) := held_holding _ (packRest_length _)
  have hf := packFull_append (u.snk.held ++ a) b
  have hr := packRest_append (u.snk.held ++ a) b
  rw [List.append_assoc] at hf hr
  unfold Units.wrote at hh ⊢
  rw [hh, hf, hr, ← Units.emitted_emitted]
  rfl

/-- The accumulator after one more bit (R233). -/
theorem setBit_holding (bits : List Bool) (b : Bool) (h : bits.length < 8) :
    setBit (Snk.holding bits).acc (Snk.holding bits).pos.val b = packByte (bits ++ [b]) := by
  match bits, h with
  | [], _ => revert b; decide
  | [a], _ => revert a b; decide
  | [a, c], _ => revert a b c; decide
  | [a, c, d], _ => revert a b c d; decide
  | [a, c, d, e], _ => revert a b c d e; decide
  | [a, c, d, e, f], _ => revert a b c d e f; decide
  | [a, c, d, e, f, g], _ => revert a b c d e f g; decide
  | [a, c, d, e, f, g, i], _ => revert a b c d e f g i; decide

/-- One bit through a good sink to a willing consumer (R233). -/
theorem snkPutBit_writable {u : Units} (h : u.writable) (b : Bool) : (snkPutBit b).on u = .ok () (u.wrote [b]) := by
  obtain ⟨hg, hw, ho⟩ := h
  have hk : Snk.holding u.snk.held = u.snk := holding_held hg hw
  have hl : u.snk.held.length < 8 := by rw [held_length]; omega
  have hset : setBit u.snk.acc u.snk.pos.val b = packByte (u.snk.held ++ [b]) := by
    conv_lhs => rw [← hk]
    exact setBit_holding _ b hl
  by_cases hp : u.snk.pos = 0
  · have h7 : u.snk.held.length = 7 := by rw [held_length, hp]; rfl
    obtain ⟨a, c, d, e, f, g, i, he⟩ : ∃ a c d e f g i, u.snk.held = [a, c, d, e, f, g, i] := by
      match u.snk.held, h7 with
      | [a, c, d, e, f, g, i], _ => exact ⟨a, c, d, e, f, g, i, rfl⟩
    rw [hp] at hset
    simp only [snkPutBit, M.run_bind, run_look, hg, if_true, run_upd, hp, snkEmit, hset]
    rw [show (outWrite (packByte (u.snk.held ++ [b]))).on _ = _ from (outWrite_accepts (u := { u with
      snk := { acc := packByte (u.snk.held ++ [b]), pos := 0, good := true } }) ho _).1]
    unfold Units.wrote
    rw [he]
    rfl
  · have hne : u.snk.pos.val ≠ 0 := fun e => hp (Fin.ext e)
    have hl1 : (u.snk.held ++ [b]).length < 8 := by
      rw [List.length_append, held_length]
      have := u.snk.pos.isLt
      simp; omega
    simp only [snkPutBit, M.run_bind, run_look, hg, if_true, run_upd, if_neg hp, hset]
    unfold Units.wrote
    rw [packFull_short hl1, packRest_short hl1, Units.emitted_nil]
    congr 1
    have : (⟨7 - (u.snk.held ++ [b]).length, by omega⟩ : Fin 8) = u.snk.pos - 1 := by
      apply Fin.ext
      rw [Fin.sub_val_of_le (Fin.le_def.2 (by simp; omega))]
      change 7 - (u.snk.held ++ [b]).length = u.snk.pos.val - 1
      rw [List.length_append, held_length]
      simp
      omega
    unfold Snk.holding
    rw [this]

/-- Bits through a good sink to a willing consumer (R235). -/
theorem snkPutBits_writable {u : Units} (h : u.writable) (bits : List Bool) :
    (snkPutBits bits).on u = .ok () (u.wrote bits) := by
  induction bits generalizing u with
  | nil => simp [snkPutBits, Units.wrote_nil h]
  | cons b bits ih =>
    simp only [snkPutBits, M.run_bind, snkPutBit_writable h b]
    rw [ih (Units.wrote_writable h [b]), Units.wrote_wrote]
    rfl

/-- A failed sink ignores every bit (R239). -/
theorem snkPutBits_failed {u : Units} (h : u.snk.good = false) (bits : List Bool) : (snkPutBits bits).on u = .ok () u := by
  induction bits with
  | nil => rfl
  | cons b bits ih => simp [snkPutBits, M.run_bind, snkPutBit, h, ih]

theorem writeBits_writable {u : Units} (h : u.writable) (bits : List Bool) :
    (writeBits bits).on u = .ok () (u.wrote bits) := by
  cases bits with
  | nil => simp [writeBits, Units.wrote_nil h]
  | cons b bits =>
    have := (Units.wrote_writable h (b :: bits)).1
    simp [writeBits, M.run_bind, snkPutBits_writable h, this]

/-- A checked write through a failed sink is a StreamError (41_bitsink.md R240). -/
theorem writeBits_failed {u : Units} (h : u.snk.good = false) {bits : List Bool} (hb : bits ≠ []) :
    (writeBits bits).on u = .error (.raise .streamError) u := by
  cases bits with
  | nil => exact absurd rfl hb
  | cons b bits => simp [writeBits, M.run_bind, snkPutBits_failed h, h]

theorem snkFlush_writable {u : Units} (h : u.writable) : snkFlush.on u = .ok () u.flushedBits := by
  obtain ⟨hg, hw, ho⟩ := h
  have hpos : u.snk.held = [] ↔ u.snk.pos = 7 := by
    rw [← List.length_eq_zero_iff, held_length]
    constructor
    · intro h; apply Fin.ext; have := u.snk.pos.isLt; simp; omega
    · intro h; rw [h]; rfl
  unfold Units.flushedBits
  by_cases hp : u.snk.pos = 7
  · rw [if_pos (hpos.2 hp)]
    simp [snkFlush, M.run_bind, hg, hp]
  · rw [if_neg fun h => hp (hpos.1 h)]
    simp only [snkFlush, M.run_bind, run_look, hg, if_true, if_neg hp, snkEmit]
    rw [(outWrite_accepts ho _).1]
    simp [hg]
    rfl

/-- A failed sink flushes nothing (R239). -/
theorem snkFlush_failed {u : Units} (h : u.snk.good = false) : snkFlush.on u = .ok () u := by
  simp [snkFlush, M.run_bind, h]

end Sys2Proof.Machine
end

