-- ==== Sys2Proof/Laws/Rules.lean ====
section
/-! SUPPORT. What the operations shared by several rules do, each case once: taking an item from the input port, the
parameter checks, the dictionary's insertion, a step of the trie walk, the queue's least element; and whose turn it is
in a step. -/

namespace Sys2Proof.Machine

/-! ## The input port (20_memory.md R94, R95, R117) -/

theorem inRead_closed {u : Units} {t : Terminal} (h : u.inp.closed = some t) :
    inRead.on u = .ok (.stop t) { u with inp := { u.inp with taken := u.inp.taken + 1 } } := by
  simp [inRead, h]

theorem inRead_wait {u : Units} (hc : u.inp.closed = none) (ho : u.inp.offer = []) : inRead.on u = .error .wait u := by
  simp [inRead, hc, ho]

theorem takeByte_byte {u : Units} {b : Byte} (h : u.offers (.byte b)) :
    takeByte.on u = .ok (some b) (u.took (.byte b)) := by
  simp [takeByte, M.run_bind, inRead_offered h]

theorem takeByte_ended {u : Units} (h : u.offers (.stop .ended)) :
    takeByte.on u = .ok none (u.took (.stop .ended)) := by
  simp [takeByte, M.run_bind, inRead_offered h]

theorem takeByte_failed {u : Units} (h : u.offers (.stop .failed)) :
    takeByte.on u = .error (.raise .streamError) (u.took (.stop .failed)) := by
  simp [takeByte, M.run_bind, inRead_offered h]

theorem takeByte_wait {u : Units} (hc : u.inp.closed = none) (ho : u.inp.offer = []) :
    takeByte.on u = .error .wait u := by
  simp [takeByte, M.run_bind, inRead_wait hc ho]

/-! ## The parameter checks (10_state.md R45, 43_lz77.md R351) -/

/-- Everything `CheckEncParams` can do: it changes nothing. -/
theorem checkEncParams_eq (cfg : Params) (a : Alg) (p1 p2 : BitVec 5) (u : Units) :
    (checkEncParams cfg a p1 p2).on u =
      if paramsInFormat a p1.toNat p2.toNat then
        if paramsInLimits cfg a p1.toNat p2.toNat then .ok () u else .error (.raise .capacityExceeded) u
      else .error (.raise .badParameter) u := by
  unfold checkEncParams
  split
  · split <;> rfl
  · rfl

/-- Everything a decoder's header check can do: DETECT is written in every case. -/
theorem checkHeader_eq (cfg : Params) (a : Alg) (p1 p2 : BitVec 5) (u : Units) :
    (checkHeader cfg a p1 p2).on u =
      if paramsInFormat a p1.toNat p2.toNat then
        if headerInLimits cfg a p1.toNat then .ok () { u with detect := { u.detect with p1 := p1, p2 := p2 } }
        else .error (.raise .capacityExceeded) { u with detect := { u.detect with p1 := p1, p2 := p2 } }
      else .error (.raise .headerInvalid) { u with detect := { u.detect with p1 := p1, p2 := p2 } } := by
  simp only [checkHeader, M.run_upd_bind]
  split
  · split <;> rfl
  · rfl

/-! ## The dictionary (10_state.md R68, 44_lz78.md R373) -/

/-- Everything an insertion can do. -/
theorem insertIfRoom_eq (parent : Option Nat) (c : Byte) (u : Units) :
    (insertIfRoom parent c).on u =
      .ok () { u with dict := if u.dict.length < u.dz.cap then u.dict ++ [.pair parent c] else u.dict } := by
  simp only [insertIfRoom, run_upd]
  split <;> rfl

/-- Everything the insertion after a record can do (44_lz78.md R377). -/
theorem insertInBlock_eq (w : Option Nat) (c : Byte) (u : Units) :
    (insertInBlock w c).on u =
      .ok () { u with
        dict := if u.dz.i < u.dz.cnt ∧ u.dict.length < u.dz.cap then u.dict ++ [.pair w c] else u.dict } := by
  simp only [insertInBlock, M.run_look_bind]
  by_cases h : u.dz.i < u.dz.cnt
  · simp [h, insertIfRoom_eq]
  · simp [h]

/-! ## The trie walk (42_huffman.md R281) -/

theorem addBit_leafRoot {u : Units} (b : Bool) (h : u.huf.tree = .leafRoot) :
    (addBit b).on u = .error (.raise .headerInvalid) u := by simp [addBit, M.run_bind, h]

theorem addBit_missing {u : Units} {b : Bool} (h : u.huf.child b = none) :
    (addBit b).on u = .error (.raise .headerInvalid) u := by
  by_cases hl : u.huf.tree = .leafRoot
  · exact addBit_leafRoot b hl
  · simp [addBit, M.run_bind, hl, h]

theorem addBit_leaf {u : Units} {b : Bool} {c : Nat} {sym : Byte} {w : Word} (h : u.huf.tree ≠ .leafRoot)
    (hc : u.huf.child b = some c) (hn : u.huf.nodes[c]? = some (.leaf sym w)) :
    (addBit b).on u = .ok (some sym) { u with huf := u.huf.walkReset } := by
  simp [addBit, M.run_bind, h, hc, hn]

theorem addBit_internal {u : Units} {b : Bool} {c : Nat} {l r : Option Nat} {w : Word} (h : u.huf.tree ≠ .leafRoot)
    (hc : u.huf.child b = some c) (hn : u.huf.nodes[c]? = some (.internal l r w)) :
    (addBit b).on u = .ok none { u with huf := { u.huf with cursor := c } } := by
  simp [addBit, M.run_bind, h, hc, hn]

/-! ## The queue of the tree construction (42_huffman.md R268) -/

theorem leastKey_mem (nodes : List Node) (best : Nat) (rest : List Nat) :
    leastKey nodes best rest ∈ best :: rest := by
  induction rest generalizing best with
  | nil => simp [leastKey]
  | cons i rest ih =>
    simp only [leastKey]
    split
    · exact List.mem_cons_of_mem _ (ih i)
    · rcases List.mem_cons.1 (ih best) with h | h
      · rw [h]; exact List.mem_cons_self
      · exact List.mem_cons_of_mem _ (List.mem_cons_of_mem _ h)

theorem leavesBefore_iff (nodes : List Node) (i j : Nat) :
    leavesBefore nodes i j = true ↔
      (weightAt nodes i).toNat < (weightAt nodes j).toNat ∨
        ((weightAt nodes i).toNat = (weightAt nodes j).toNat ∧ i < j) := by
  simp [leavesBefore]

theorem leavesBefore_trans {nodes : List Node} {i j k : Nat} (h : leavesBefore nodes i j = true)
    (h' : leavesBefore nodes j k = true) : leavesBefore nodes i k = true := by
  rw [leavesBefore_iff] at *
  omega

theorem leavesBefore_total {nodes : List Node} {i j : Nat} (h : i ≠ j) (h' : leavesBefore nodes i j = false) :
    leavesBefore nodes j i = true := by
  rw [← Bool.not_eq_true, leavesBefore_iff] at h'
  rw [leavesBefore_iff]
  omega

/-- The element found leaves the queue before every other one. -/
theorem leastKey_least (nodes : List Node) (best : Nat) (rest : List Nat) :
    ∀ i ∈ best :: rest, i ≠ leastKey nodes best rest → leavesBefore nodes (leastKey nodes best rest) i = true := by
  induction rest generalizing best with
  | nil => intro i hi h; simp [leastKey] at hi h; exact absurd hi h
  | cons x rest ih =>
    intro i hi h
    simp only [leastKey] at h ⊢
    split at h
    · rename_i hx
      rw [if_pos hx]
      rcases List.mem_cons.1 hi with rfl | hi
      · by_cases he : leastKey nodes x rest = x
        · rw [he]; exact hx
        · exact leavesBefore_trans (ih x x List.mem_cons_self (Ne.symm he)) hx
      · exact ih x i hi h
    · rename_i hx
      rw [if_neg hx]
      rcases List.mem_cons.1 hi with rfl | hi
      · exact ih i i List.mem_cons_self h
      · rcases List.mem_cons.1 hi with rfl | hi
        · by_cases hb : i = best
          · subst hb
            exact ih i i List.mem_cons_self h
          · have hbi : leavesBefore nodes best i = true := leavesBefore_total hb (by simpa using hx)
            by_cases he : leastKey nodes best rest = best
            · rw [he]; exact hbi
            · exact leavesBefore_trans (ih best best List.mem_cons_self (Ne.symm he)) hbi
        · exact ih best i (List.mem_cons_of_mem _ hi) h

/-! ## Whose turn it is (assumption 2) -/

/-- At the sequencer's turn a step is the sequencer's. -/
theorem stepWork_core {s : State} (h : s.coreTurn) : stepWork s = turnWork none s.turned := by
  rcases h with h | h
  · have hs : s.script = [] := by simpa using h
    have e : s.turned = s := by
      unfold State.turned
      rw [hs]
      cases s
      simp_all
    simp [stepWork, hs, e]
  · rcases hs : s.script with _ | ⟨m, r⟩
    · simp [hs] at h
    · rw [hs] at h
      obtain rfl : m = .core := by simpa using h
      simp [stepWork, hs, moveWork, State.turned]

/-- Any other move is the environment's. -/
theorem stepWork_move {s : State} {m : Move} {rest : List Move} (h : s.script = m :: rest) :
    stepWork s = moveWork { s with script := rest } m := by simp [stepWork, h]

/-- The turns of a sequencer that may make a limited number of steps. -/
theorem stepWork_coreFor {s : State} {n : Nat} {rest : List Move} (h : s.script = .coreFor n :: rest) :
    stepWork s = turnWork (some n) s.turned := by
  simp [stepWork, h, moveWork, State.turned]

/-! ## What an instruction runs (assumption 2) -/

/-- Executing an instruction runs its stretch to its end; a token out of its place has none. -/
theorem exec_eq (i : Instr) (s : State) :
    exec i s = match instrStretch i s with
      | some r => r.run
      | none => .refused .tokenOutOfPlace := by
  cases i <;> rfl

/-- Any number of steps of an instruction, or all of it, is an outcome of its stretch. -/
theorem instrWork_outcome (limit : Option Nat) (i : Instr) (s : State) :
    (instrWork limit i s).outcome = match limit, instrStretch i s with
      | some n, some r => .next (r.start.partly n r.rule)
      | _, _ => exec i s := by
  unfold instrWork
  cases limit <;> cases instrStretch i s <;> rfl

/-- Steps that reach the end of an instruction are the whole of it. -/
theorem instrWork_whole {n : Nat} {i : Instr} {s : State} {r : Stretch} (h : instrStretch i s = some r)
    (hn : r.rule.steps r.start.units ≤ n) : (instrWork (some n) i s).outcome = exec i s := by
  rw [instrWork_outcome, exec_eq, h]
  simp only [Stretch.run, State.partly_settle hn]

/-- The sequencer's turn while a command's rule has not begun. -/
theorem turnWork_command {s : State} {limit : Option Nat} (hb : s.busy = true) (hc : s.current = none)
    (hp : s.phase = .command) : turnWork limit s = commandWork (limit.map (s.made + ·)) s.resumed := by
  simp [turnWork, hb, hc, hp]

/-- An aligned access inside the window reaches a register (20_memory.md R103). -/
theorem accessOf_register (cfg : Params) {offset : Nat} (h : offset < 64) (h4 : offset % 4 = 0) :
    accessOf cfg 4 (cfg.base + offset) = .register offset := by
  unfold accessOf
  rw [if_neg (by omega), if_pos ⟨rfl, by omega⟩]
  congr 1
  omega

end Sys2Proof.Machine
end

