-- ==== Sys2Proof/Tests/Slice0.lean ====
section
/-! SUPPORT. Small tests. Expected values are the spec's own: the examples of the rules and the words of its encoding
tables; the rule is named where a test stands. The last part shows, for every statement with hypotheses, a state that
meets all of them, clause by clause. -/

open Sys2Proof Sys2Proof.Machine

namespace Sys2Proof.Tests

set_option Elab.async false

/-! ## States to test on -/

/-- Reset units with these bytes offered, then End. -/
def offering (bytes : List Byte) : Units :=
  { State.reset.units with inp := { State.reset.units.inp with
      offer := bytes.map InItem.byte ++ [.stop .ended] } }

/-- An idle block with these units. -/
def idle (u : Units) : State := { State.reset with units := u }

/-- A block whose running command stands in phase `p`. -/
def running (p : Phase) (u : Units) : State := { State.reset with busy := true, phase := p, units := u }

/-- The state after an outcome. -/
def next (o : Host.Outcome State Fault Refusal) : State :=
  match o with
  | .next t => t
  | _ => State.reset

/-- Whether an outcome is a next state. -/
def goes (o : Host.Outcome State Fault Refusal) : Bool :=
  match o with
  | .next _ => true
  | _ => false

theorem next_of_goes {o : Host.Outcome State Fault Refusal} (h : goes o = true) : o = .next (next o) := by
  cases o with
  | next _ => rfl
  | fault _ => exact absurd h Bool.false_ne_true
  | refused _ => exact absurd h Bool.false_ne_true

theorem exists_of_goes {o : Host.Outcome State Fault Refusal} (h : goes o = true) : ∃ t, o = .next t :=
  ⟨next o, next_of_goes h⟩

/-- The bytes at the output port. -/
def sent (s : State) : List OutEvent := s.units.out.events

/-- The Huffman state after the counts of `"abracadabra"` and HUF_BUILD (42_huffman.md R271). -/
def abracadabra : Huf :=
  Huf.built { State.reset.units.huf with
    freq := [(0x61, 5), (0x62, 2), (0x63, 1), (0x64, 1), (0x72, 2)], total := 11 }

/-- Reset units with that Huffman state. -/
def withTree : Units := { State.reset.units with huf := abracadabra }

/-- Reset units with CONFIG's parameters for LZ77, and the state that holds them (46_envelope.md R435). -/
def configured (a : Alg) (p1 p2 : BitVec 5) (u : Units) : State :=
  { idle u with config := { alg := a, p1 := p1, p2 := p2 } }

/-! ## Well-formedness refuses -/

theorem test_wf_bit_count_zero : Instr.wf .command (.srcGetBits 0) = false := by decide
theorem test_wf_bit_count_33 : Instr.wf .command (.snkPutBits 33) = false := by decide
theorem test_wf_token_is_no_command : Instr.wf .command .magicHuf = false := by decide
theorem test_wf_command_is_no_magic : Instr.wf .envelope .nop = false := by decide
theorem test_wf_huffman_header : Instr.wf .hufHeader .hufTreeInternal = false := by decide
theorem test_wf_tree : Instr.wf .tree (.hufHeader 1) = false := by decide
theorem test_wf_code_of_two_bits : Instr.wf .code (.hufCode [true, false]) = false := by decide
theorem test_wf_header_of_another_codec : Instr.wf (.lzHeader .lz78) (.lzwHeader 9 5) = false := by decide
theorem test_wf_block_count : Instr.wf (.block 3) (.blockShort 8) = false := by decide
theorem test_wf_lz77_length : Instr.wf (.lz77Record 2 3) (.lz77Match 4 0 0) = false := by decide
theorem test_wf_lz77_position : Instr.wf (.lz77Record 2 3) (.lz77Match 1 8 0) = false := by decide
theorem test_wf_lz78_index : Instr.wf (.lz78Record 4) (.lz78Phrase 16 0) = false := by decide
theorem test_wf_lzw_index : Instr.wf (.lzwRecord 9) (.lzwIndex 512) = false := by decide

/-! ## Decoding (30_encoding.md R123 for the commands) -/

theorem test_decode_nop : decodeCommand 0x00000000 = .ok .nop := rfl
theorem test_decode_src_reset : decodeCommand 0x01000000 = .ok .srcReset := rfl
theorem test_decode_src_get_bit : decodeCommand 0x02000000 = .ok .srcGetBit := rfl
theorem test_decode_src_get_bits : decodeCommand 0x03030000 = .ok (.srcGetBits 3) := rfl
theorem test_decode_snk_reset : decodeCommand 0x10000000 = .ok .snkReset := rfl
theorem test_decode_snk_put_bit : decodeCommand 0x11000001 = .ok (.snkPutBit true) := rfl
theorem test_decode_snk_put_bits : decodeCommand 0x120C0000 = .ok (.snkPutBits 12) := rfl
theorem test_decode_snk_flush : decodeCommand 0x13000000 = .ok .snkFlush := rfl
theorem test_decode_freq_clear : decodeCommand 0x20000000 = .ok .freqClear := rfl
theorem test_decode_freq_add : decodeCommand 0x21000061 = .ok (.freqAdd 0x61) := rfl
theorem test_decode_freq_get : decodeCommand 0x22000062 = .ok (.freqGet 0x62) := rfl
theorem test_decode_huf_build : decodeCommand 0x23000000 = .ok .hufBuild := rfl
theorem test_decode_huf_code_len : decodeCommand 0x24000072 = .ok (.hufCodeLen 0x72) := rfl
theorem test_decode_huf_put_sym : decodeCommand 0x25000072 = .ok (.hufPutSym 0x72) := rfl
theorem test_decode_huf_serialize : decodeCommand 0x26000000 = .ok .hufSerialize := rfl
theorem test_decode_huf_deserialize : decodeCommand 0x27000000 = .ok .hufDeserialize := rfl
theorem test_decode_huf_walk_reset : decodeCommand 0x28000000 = .ok .hufWalkReset := rfl
theorem test_decode_huf_add_bit : decodeCommand 0x29000001 = .ok (.hufAddBit true) := rfl
theorem test_decode_env_put_magic : decodeCommand 0x30020000 = .ok (.envPutMagic .lz78) := rfl
theorem test_decode_env_get_magic : decodeCommand 0x31000000 = .ok .envGetMagic := rfl
theorem test_decode_enc_body : decodeCommand 0x32030000 = .ok (.encBody .lzw) := rfl
theorem test_decode_dec_body : decodeCommand 0x33010000 = .ok (.decBody .lz77) := rfl
theorem test_decode_enc : decodeCommand 0x34000000 = .ok .enc := rfl
theorem test_decode_dec : decodeCommand 0x35000000 = .ok .dec := rfl
theorem test_decode_soft_reset : decodeCommand 0xFF000000 = .ok .softReset := rfl
theorem test_decode_unknown_opcode : decodeCommand 0x14000000 = .error .unknownOpcode := rfl
theorem test_decode_unused_bit : decodeCommand 0x00000001 = .error .unusedFieldBit := rfl
theorem test_decode_unused_high_bit : decodeCommand 0x11000002 = .error .unusedFieldBit := rfl
theorem test_decode_count_zero : decodeCommand 0x03000000 = .error .badBitCount := rfl

/-- The magics (46_envelope.md R430). -/
theorem test_decode_magics :
    decodeBits .envelope (bitsOf 16 0x27AB) = .instr .magicHuf [] ∧
      decodeBits .envelope (bitsOf 16 0xA5E8) = .instr .magicLz77 [] ∧
      decodeBits .envelope (bitsOf 16 0x7869) = .instr .magicLz78 [] ∧
      decodeBits .envelope (bitsOf 16 0x8E83) = .instr .magicLzw [] ∧
      decodeBits .envelope (bitsOf 16 0x786A) = .reject (.unknownMagic 0x786A) := by decide

/-- Version and count of a Huffman payload (30_encoding.md R133). -/
theorem test_decode_huffman_header :
    decodeBits .hufHeader (bitsOf 40 0x0100000006) = .instr (.hufHeader 6) [] ∧
      decodeBits .hufHeader (bitsOf 8 0x02) = .reject .badVersion := by decide

/-- The serialized tree of `"aab"` begins `0 1 01100010` (42_huffman.md R275). -/
theorem test_decode_tree :
    decodeBits .tree [false, true] = .instr .hufTreeInternal [true] ∧
      decodeBits .tree (bitsOf 9 0b101100010) = .instr (.hufTreeLeaf 0x62) [] := by decide

theorem test_decode_code : decodeBits .code [true, false] = .instr (.hufCode [true]) [false] := by decide

/-- The bytes `01 49 68` after the magic of 43_lz77.md R342: parameters 9 and 5, then the block flag. -/
theorem test_decode_lz77_header :
    decodeBits (.lzHeader .lz77) (bitsOf 24 0x014968) =
      .instr (.lz77Header 9 5) [true, false, true, false, false, false] := by decide

/-- The bytes `01 20 C6` after the magic of 44_lz78.md R381: parameters 4 and 3, then a full block. -/
theorem test_decode_lz78_header :
    decodeBits (.lzHeader .lz78) (bitsOf 24 0x0120C6) =
      .instr (.lz78Header 4 3) [false, false, false, true, true, false] := by decide

/-- The bytes `01 49 67` after the magic of 45_lzw.md R405: parameters 9 and 5, then a short block. -/
theorem test_decode_lzw_header :
    decodeBits (.lzHeader .lzw) (bitsOf 24 0x014967) =
      .instr (.lzwHeader 9 5) [true, false, false, true, true, true] := by decide

/-- Block flags (30_encoding.md R131): a full block, a short block of 8 in five bits, the terminator. -/
theorem test_decode_blocks :
    decodeBits (.block 5) [false] = .instr .blockFull [] ∧
      decodeBits (.block 5) [true, false, true, false, false, false] = .instr (.blockShort 8) [] ∧
      decodeBits (.block 3) [true, false, false, false] = .instr (.blockShort 0) [] := by decide

/-- The match `1 00101 000000000 01100010` of 43_lz77.md R342, and a literal. -/
theorem test_decode_lz77_records :
    decodeBits (.lz77Record 5 9) (true :: (bitsOf 5 0b00101 ++ bitsOf 9 0 ++ bitsOf 8 0b01100010)) =
        .instr (.lz77Match 5 0 0x62) [] ∧
      decodeBits (.lz77Record 5 9) (false :: bitsOf 8 0x61) = .instr (.lz77Literal 0x61) [] := by decide

/-- The records `a` and `(0, a)` of 44_lz78.md R381. -/
theorem test_decode_lz78_records :
    decodeBits (.lz78Record 4) (false :: bitsOf 8 0x61) = .instr (.lz78Literal 0x61) [] ∧
      decodeBits (.lz78Record 4) (true :: (bitsOf 4 0 ++ bitsOf 8 0x61)) = .instr (.lz78Phrase 0 0x61) [] := by
  decide

/-- The first two indices of 45_lzw.md R405, 97 and 256. -/
theorem test_decode_lzw_records :
    decodeBits (.lzwRecord 9) (bitsOf 9 0b001100001 ++ bitsOf 9 256) =
      .instr (.lzwIndex 97) (bitsOf 9 256) := by decide

/-- The opcode table's own numbering. -/
theorem test_decode_table_word :
    decodeTableWord 32 0x21000061 = some (.freqAdd 0x61) ∧ decodeTableWord 16 0x7869 = some .magicLz78 ∧
      decodeTableWord 40 0x0100000006 = some (.hufHeader 6) ∧ decodeTableWord 16 0 = none := by decide

/-! ## Placed instructions are the next step's -/

theorem test_fetch_command :
    (next (step (State.reset.withFetchWord 32 0x21000061))).units.huf.freq = [(0x61, 1)] := by decide +kernel
theorem test_fetch_magic :
    (next (step (State.reset.withFetchWord 16 0x7869))).phase = .header .lz78 := by decide +kernel
theorem test_fetch_huffman_header :
    (next (step (State.reset.withFetchWord 40 0x0100000006))).phase = .tree [] .payload := by decide +kernel

/-! ## Control (47_control.md) -/

/-- R460: STATUS `0x00780C24` becomes `0x00782C02`. -/
theorem test_nop :
    let s := { State.reset with err := true, ecode := 2 }
    statusWord s = 0x00780C24 ∧ statusWord (next (exec .nop s)) = 0x00782C02 := by decide +kernel

/-- R462: after a failed DEC, SOFT_RESET leaves STATUS `0x00782C02`, DETECT 0 and CONFIG `0x00000003`. -/
theorem test_soft_reset :
    let s := { configured .huf 9 5 { withTree with detect := { alg := .lz78, valid := true, p1 := 0, p2 := 0 } } with
      err := true, ecode := 1, cmd := 0xFF000000 }
    let t := next (exec .softReset s)
    s.units.detect.toWord = 0x00000006 ∧ statusWord t = 0x00782C02 ∧ t.units.detect.toWord = 0 ∧
      t.config.toWord = 0x00000003 ∧ t.cmd = 0 := by decide +kernel

/-! ## BitSource (40_bitsource.md R201 to R206) -/

/-- Input `B5 0F`, the holder having delivered three bits. -/
def halfRead : Units :=
  { offering [0x0F] with src := { holder := 0xB5, pos := 4, eof := false, err := false } }

theorem test_src_reset : (next (exec .srcReset (idle halfRead))).units.src.pos = 8 := by decide +kernel
theorem test_src_get_bit :
    (next (exec .srcGetBit (idle (offering [0xB5])))).units.result = 1 ∧
      (next (exec .srcGetBit (idle (offering [0xB5])))).units.src.pos = 6 := by decide +kernel
theorem test_src_get_bit_at_end :
    (next (exec .srcGetBit (idle (offering [])))).units.result = 0 ∧
      (next (exec .srcGetBit (idle (offering [])))).units.src.eof = true := by decide +kernel
theorem test_src_get_bits :
    (next (exec (.srcGetBits 3) (idle (offering [0xB5, 0x0F])))).units.result = 5 ∧
      (next (exec (.srcGetBits 3) (idle (offering [0xB5, 0x0F])))).units.src.pos = 4 := by decide +kernel
theorem test_src_get_bits_across_bytes :
    (next (exec (.srcGetBits 8) (idle halfRead))).units.result = 0xA8 ∧
      (next (exec (.srcGetBits 8) (idle halfRead))).units.src.pos = 4 := by decide +kernel

/-! ## BitSink (41_bitsink.md R231 to R238) -/

theorem test_snk_reset :
    (next (exec .snkReset (idle { State.reset.units with snk := { acc := 0xA0, pos := 4, good := true } }))).units.snk =
      { acc := 0, pos := 7, good := true } := by decide +kernel
theorem test_snk_put_bit :
    (next (exec (.snkPutBit true) (idle State.reset.units))).units.snk =
      { acc := 0x80, pos := 6, good := true } := by decide +kernel
theorem test_snk_put_bits :
    let t := next (exec (.snkPutBits 12) { State.reset with arg := 0xABC })
    sent t = [.byte 0xAB] ∧ t.units.snk = { acc := 0xC0, pos := 3, good := true } := by decide +kernel
theorem test_snk_flush :
    sent (next (exec .snkFlush (idle { State.reset.units with snk := { acc := 0xB0, pos := 3, good := true } }))) =
      [.byte 0xB0, .flush] := by decide +kernel
theorem test_snk_flush_empty : sent (next (exec .snkFlush State.reset)) = [.flush] := by decide +kernel

/-! ## Huffman (42_huffman.md) -/

/-- R261. -/
theorem test_freq_clear : (next (exec .freqClear (idle withTree))).units.huf.total = 0 := by decide +kernel
/-- R263: the third of three counts. -/
theorem test_freq_add :
    let h := (next (exec (.freqAdd 0x62)
      (idle { State.reset.units with huf := { State.reset.units.huf with freq := [(0x61, 2)], total := 2 } }))).units.huf
    h.count 0x61 = 2 ∧ h.count 0x62 = 1 ∧ h.total = 3 := by decide +kernel
theorem test_freq_add_full :
    (next (exec (.freqAdd 0x62) (idle { State.reset.units with huf :=
      { State.reset.units.huf with total := 0xFFFFFFFF } }))).ecode = 8 := by decide +kernel
/-- R264. -/
theorem test_freq_get : (next (exec (.freqGet 0x62) (idle withTree))).units.result = 2 := by decide +kernel
/-- R271: the root, its children and the codes of the example. -/
theorem test_huf_build :
    let s := idle { State.reset.units with huf := { State.reset.units.huf with
      freq := [(0x61, 5), (0x62, 2), (0x63, 1), (0x64, 1), (0x72, 2)], total := 11 } }
    let h := (next (exec .hufBuild s)).units.huf
    h.nodes.drop 5 = [.internal (some 2) (some 3) 2, .internal (some 1) (some 4) 4, .internal (some 5) (some 6) 6,
        .internal (some 0) (some 7) 11] ∧
      h.code = [(0x61, [false]), (0x62, [true, true, false]), (0x63, [true, false, false]),
        (0x64, [true, false, true]), (0x72, [true, true, true])] := by decide +kernel
/-- R266: a single symbol's code is the bit `1`. -/
theorem test_huf_build_one_symbol :
    let s := idle { State.reset.units with huf := { State.reset.units.huf with freq := [(0x61, 6)], total := 6 } }
    (next (exec .hufBuild s)).units.huf.code = [(0x61, [true])] := by decide +kernel
/-- R272. -/
theorem test_huf_code_len :
    (next (exec (.hufCodeLen 0x72) (idle withTree))).units.result = 3 ∧
      (next (exec (.hufCodeLen 0x7A) (idle withTree))).units.result = 0 := by decide +kernel
/-- R273. -/
theorem test_huf_put_sym :
    (next (exec (.hufPutSym 0x72) (idle withTree))).units.snk = { acc := 0xE0, pos := 4, good := true } := by
  decide +kernel
theorem test_huf_put_sym_without_code : (next (exec (.hufPutSym 0x7A) (idle withTree))).ecode = 7 := by decide +kernel
/-- R272, R273: no symbol has a code while TREE_VALID is 0, as after the decode of a payload without a symbol. -/
theorem test_no_code_without_tree :
    let t := next (exec (.hufHeader 0) (running (.header .huf) withTree))
    (next (exec (.hufCodeLen 0x72) t)).units.result = 0 ∧ (next (exec (.hufPutSym 0x72) t)).ecode = 7 := by
  decide +kernel
/-- R275: the tree of `"aab"` is `58 AC` and three bits more. -/
theorem test_huf_serialize :
    let h := Huf.built { State.reset.units.huf with freq := [(0x61, 2), (0x62, 1)], total := 3 }
    let t := next (exec .hufSerialize (idle { State.reset.units with huf := h }))
    sent t = [.byte 0x58, .byte 0xAC] ∧ t.units.snk = { acc := 0x20, pos := 4, good := true } := by decide +kernel
/-- R278: its three tokens read back as the nodes of the example. -/
theorem test_huf_deserialize :
    (next (exec .hufDeserialize (idle withTree))).phase = .tree [] .command := by decide +kernel
theorem test_huf_tree_internal :
    (next (exec .hufTreeInternal (running (.tree [] .command) State.reset.units))).units.huf.nodes =
      [.internal none none 0] := by decide +kernel
theorem test_huf_tree_leaf :
    let u := { State.reset.units with huf := { State.reset.units.huf with
      nodes := [.internal (some 1) none 0, .leaf 0x62 0] } }
    let t := next (exec (.hufTreeLeaf 0x61) (running (.tree [0] .command) u))
    t.done = true ∧ t.units.huf.nodes = [.internal (some 1) (some 2) 0, .leaf 0x62 0, .leaf 0x61 0] ∧
      t.units.huf.code = [(0x61, [true]), (0x62, [false])] := by decide +kernel
theorem test_huf_tree_repeated_leaf :
    let u := { State.reset.units with huf := { State.reset.units.huf with
      nodes := [.internal (some 1) none 0, .leaf 0x62 0] } }
    (next (exec (.hufTreeLeaf 0x62) (running (.tree [0] .command) u))).ecode = 1 := by decide +kernel
/-- R280: the walk stands at node 7 and goes back to node 8. -/
theorem test_huf_walk_reset :
    (next (exec .hufWalkReset (idle { withTree with huf := { abracadabra with cursor := 7 } }))).units.huf.cursor =
      8 := by decide +kernel
/-- R282. -/
theorem test_huf_add_bit :
    (next (exec (.hufAddBit true) (idle withTree))).units.huf.cursor = 7 ∧
      (next (exec (.hufAddBit false) (idle withTree))).units.result = 0x161 := by decide +kernel
theorem test_huf_add_bit_without_tree : (next (exec (.hufAddBit true) State.reset)).ecode = 6 := by decide +kernel
/-- R320: `N` goes to HUF.TOTAL; without a symbol the decode is over. -/
theorem test_huf_header :
    (next (exec (.hufHeader 6) (running (.header .huf) State.reset.units))).units.huf.total = 6 ∧
      sent (next (exec (.hufHeader 0) (running (.header .huf) State.reset.units))) = [.flush] := by decide +kernel
/-- R322: `111` is `r`. -/
theorem test_huf_code :
    let t := next (exec (.hufCode [true, true, true]) (running (.code 0) withTree))
    sent t = [.byte 0x72] ∧ t.phase = .code 1 ∧ t.units.huf.cursor = 8 := by decide +kernel

/-! ## Envelope (46_envelope.md) -/

/-- R431. -/
theorem test_env_put_magic :
    let t := next (exec (.envPutMagic .lz78) State.reset)
    sent t = [.byte 0x78, .byte 0x69] ∧ t.units.snk.pos = 7 := by decide +kernel
theorem test_env_get_magic : (next (exec .envGetMagic State.reset)).phase = .magic .identify := by decide +kernel
/-- R434: RESULT `0x00067869`, and for the LZW magic `0x00078E83` (R438). -/
theorem test_magic_lz78 :
    (next (exec .magicLz78 (running (.magic .identify) State.reset.units))).units.result = 0x00067869 := by
  decide +kernel
theorem test_magic_lzw :
    (next (exec .magicLzw (running (.magic .identify) State.reset.units))).units.result = 0x00078E83 := by
  decide +kernel
theorem test_magic_huf :
    (next (exec .magicHuf (running (.magic .decode) State.reset.units))).phase = .header .huf := by decide +kernel
theorem test_magic_lz77 :
    (next (exec .magicLz77 (running (.magic .decode) State.reset.units))).units.detect.toWord = 0x00000005 := by
  decide +kernel
/-- R434: `78 6A` ends with HeaderInvalid and leaves RESULT `0x0000786A`. -/
theorem test_unknown_magic :
    let t := next (step (running (.magic .identify) (offering [0x78, 0x6A])))
    t.units.result = 0x0000786A ∧ t.ecode = 1 := by decide +kernel
/-- R435: magic and header of CONFIG `0x00050901` are `A5 E8 01 49` and two bits `01`. -/
theorem test_enc :
    let t := next (exec .enc (configured .lz77 9 5 State.reset.units))
    sent t = [.byte 0xA5, .byte 0xE8, .byte 0x01, .byte 0x49] ∧ t.units.snk.acc = 0x40 ∧ t.phase = .lz77Read 0 := by
  decide +kernel
/-- 10_state.md R44, R45: parameters 0 are a BadParameter. -/
theorem test_enc_bad_parameter : (next (exec .enc State.reset)).ecode = 7 := by decide +kernel
/-- R436: the header of an LZW body is `01 49` and two bits `01`. -/
theorem test_enc_body :
    let t := next (exec (.encBody .lzw) (configured .huf 9 5 State.reset.units))
    sent t = [.byte 0x01, .byte 0x49] ∧ t.units.snk.acc = 0x40 ∧ t.units.dict.length = 256 := by decide +kernel
/-- 42_huffman.md R313. -/
theorem test_enc_body_not_seekable :
    (next (exec (.encBody .huf) (idle { State.reset.units with inp :=
      { State.reset.units.inp with seekable := false } }))).ecode = 3 := by decide +kernel
theorem test_dec : (next (exec .dec (idle halfRead))).units.src.pos = 8 := by decide +kernel
theorem test_dec_body : (next (exec (.decBody .lzw) (idle halfRead))).units.src.pos = 4 := by decide +kernel

/-! ## LZ77 (43_lz77.md) -/

/-- A stream of 9, 5 whose window holds `aa` and whose block has three bytes left. -/
def afterTwo : Lz77 where
  sb := 9
  lb := 5
  win := [(0, 0x61), (1, 0x62)]
  ss := 0
  sp := 0
  ls := 2
  le := 0
  csize := 2
  rem := 6

/-- R356: 9, 9 is a HeaderInvalid that DETECT shows; 9, 5 is legal. -/
theorem test_lz77_header :
    let t := next (exec (.lz77Header 9 9) (running (.header .lz77) State.reset.units))
    t.ecode = 1 ∧ t.units.detect.p1 = 9 ∧ t.units.detect.p2 = 9 ∧
      (next (exec (.lz77Header 9 5) (running (.header .lz77) State.reset.units))).phase = .block .lz77 := by
  decide +kernel
/-- R350: a full block of 9, 5 has 32 bytes. -/
theorem test_block_full :
    (next (exec .blockFull (running (.block .lz77) { State.reset.units with lz77 := afterTwo }))).units.lz77.rem =
      32 := by decide +kernel
theorem test_block_short :
    (next (exec (.blockShort 8) (running (.block .lz77) { State.reset.units with lz77 := afterTwo }))).units.lz77.rem =
      8 := by decide +kernel
theorem test_terminator :
    let t := next (exec (.blockShort 0) (running (.block .lz77) { State.reset.units with lz77 := afterTwo }))
    t.done = true ∧ sent t = [.flush] := by decide +kernel
theorem test_lz77_literal :
    let t := next (exec (.lz77Literal 0x61) (running (.record .lz77) { State.reset.units with lz77 := afterTwo }))
    sent t = [.byte 0x61] ∧ t.units.lz77.csize = 3 ∧ t.units.lz77.rem = 5 := by decide +kernel
/-- R342 and R356: after `ab`, the match of length 5 at 0 with next byte `b` gives `ababab`, overlapping itself. -/
theorem test_lz77_match :
    let t := next (exec (.lz77Match 5 0 0x62) (running (.record .lz77) { State.reset.units with lz77 := afterTwo }))
    sent t = [.byte 0x61, .byte 0x62, .byte 0x61, .byte 0x62, .byte 0x61, .byte 0x62] ∧ t.phase = .block .lz77 := by
  decide +kernel
/-- R353: both faults of a record, DictionaryIndex first. -/
theorem test_lz77_match_outside :
    (next (exec (.lz77Match 9 2 0x62) (running (.record .lz77) { State.reset.units with lz77 := afterTwo }))).ecode =
      4 := by decide +kernel
/-- R342: the encoder of `"abababab"` finds length 6 at offset 0 and takes one off. -/
theorem test_lz77_search :
    let z : Lz77 := { afterTwo with win := (List.range 8).map fun i => (i, if i % 2 = 0 then 0x61 else 0x62) }
    z.findMatch = (6, 0) ∧ z.reducedMatch = (5, 0) := by decide +kernel

/-! ## LZ78 (44_lz78.md) -/

/-- A stream of 4, 3 in a block of 8 bytes of which one has been decoded. -/
def lz78After : Units :=
  { State.reset.units with
    dict := [.pair none 0x61]
    dz := { db := 4, bb := 3, blk := [], cnt := 8, i := 1 } }

/-- R386: `dict_bits = 0` is a HeaderInvalid. -/
theorem test_lz78_header :
    (next (exec (.lz78Header 0 3) (running (.header .lz78) State.reset.units))).ecode = 1 ∧
      (next (exec (.lz78Header 4 3) (running (.header .lz78) State.reset.units))).units.dict = [] := by
  decide +kernel
theorem test_lz78_literal :
    let t := next (exec (.lz78Literal 0x62) (running (.record .lz78) lz78After))
    sent t = [.byte 0x62] ∧ t.units.dict = [.pair none 0x61, .pair none 0x62] := by decide +kernel
/-- R381: `(0, a)` is `aa` and becomes entry 1. -/
theorem test_lz78_phrase :
    let t := next (exec (.lz78Phrase 0 0x61) (running (.record .lz78) lz78After))
    sent t = [.byte 0x61, .byte 0x61] ∧ t.units.dict = [.pair none 0x61, .pair (some 0) 0x61] ∧ t.units.dz.i = 3 := by
  decide +kernel
/-- R386: an index equal to the size is a DictionaryIndex. -/
theorem test_lz78_phrase_beyond :
    (next (exec (.lz78Phrase 1 0x62) (running (.record .lz78) lz78After))).ecode = 4 := by decide +kernel

/-! ## LZW (45_lzw.md) -/

/-- A stream of 9, 5 in a block of 7 bytes whose first index was 97. -/
def lzwAfter : Units :=
  { State.reset.units with
    dict := lzwSeed
    dz := { db := 9, bb := 5, blk := [], cnt := 7, i := 1 }
    lzw := { w := none, prev := some 97 } }

/-- R412: `dict_bits = 7` is a HeaderInvalid. -/
theorem test_lzw_header :
    (next (exec (.lzwHeader 7 5) (running (.header .lzw) State.reset.units))).ecode = 1 ∧
      (next (exec (.lzwHeader 9 5) (running (.header .lzw) State.reset.units))).units.dict.length = 256 := by
  decide +kernel
/-- R405, R407: index 256 after 97 is the KwKwK case `aa`. -/
theorem test_lzw_index :
    let t := next (exec (.lzwIndex 256) (running (.record .lzw) lzwAfter))
    sent t = [.byte 0x61, .byte 0x61] ∧ t.units.dict.drop 256 = [.pair (some 97) 0x61] ∧
      t.units.lzw.prev = some 256 := by decide +kernel
/-- R412: 258 with 256 entries is a DictionaryIndex. -/
theorem test_lzw_index_beyond :
    (next (exec (.lzwIndex 258) (running (.record .lzw) lzwAfter))).ecode = 4 := by decide +kernel

/-! ## The host's registers (10_state.md) -/

/-- R36, R72. -/
theorem test_reset_status : (readRegister State.reset 0x0C).2 = 0x00780C00 := by decide +kernel
/-- R42: the CONFIG word of R435's example. -/
theorem test_config_word : (ConfigReg.ofWord 0x00050901) = { alg := .lz77, p1 := 9, p2 := 5 } := by decide +kernel
/-- R47: the DETECT word of R437's example. -/
theorem test_detect_word :
    Detect.toWord { alg := .lz78, valid := true, p1 := 4, p2 := 3 } = 0x00030406 := by decide +kernel
/-- R33, R40: a CMD write while a command runs. -/
theorem test_overrun :
    (next (step { running (.header .huf) State.reset.units with script := [.write 4 0 0x34000000] })).ovr = true := by
  decide +kernel

/-- R31, R39, R615: after the CMD write HUF_BUILD is busy, and a further CMD write is dropped; the sequencer's turn
builds the tree. -/
theorem test_command_write_then_turn :
    let s := next (step { State.reset with script := [.write 4 0 0x23000000] })
    statusWord s = 0x00780C01 ∧ (next (step { s with script := [.write 4 0 0] })).ovr = true ∧
      statusWord (next (step s)) = 0x00782C02 := by decide +kernel

/-- R600, R232, R237: SNK_FLUSH of three bits, stopped after its first step, has sent the byte and no flush marker; a
reset there leaves it so, and a turn instead of it ends the flush. -/
theorem test_reset_inside_a_flush :
    let s := { running .command { State.reset.units with snk := { acc := 0xB0, pos := 4, good := true } } with
      cmd := 0x13000000, script := [.coreFor 1] }
    let t := next (step s)
    t.busy = true ∧ sent t = [.byte 0xB0] ∧ sent (next (step { t with script := [.hardReset] })) = [.byte 0xB0] ∧
      (next (step { t with script := [.hardReset] })).busy = false ∧
      next (step t) = next (step { s with script := [] }) ∧ sent (next (step t)) = [.byte 0xB0, .flush] := by decide +kernel

/-! ## The hypotheses can be met

One theorem for each statement that has hypotheses, under the statement's name: states and operands that meet all of
them together, for each clause, at a bound of a range where a clause has one. -/

/-- An idle block about to receive this host write. -/
def writing (offset : Nat) (v : Word) : State := { State.reset with script := [.write 4 offset v] }

/-- What a state offers once its input is this. -/
def withInput (u : Units) (items : List InItem) : Units := { u with inp := { u.inp with offer := items } }

/-- The same with an input that gave this terminal item before (20_memory.md R94). -/
def withClosed (u : Units) (t : Terminal) : Units :=
  { u with inp := { u.inp with offer := [], given := [.stop t], closed := some t } }

/-- The same with a consumer that accepts `n` bytes and refuses the next one. -/
def withRefusal (u : Units) (n : Nat) : Units :=
  { u with out := { u.out with answers := List.replicate n .ok ++ [.fail] } }

/-- The same with a sink that has failed. -/
def withFailedSink (u : Units) : Units := { u with snk := { acc := 0, pos := 7, good := false } }

/-- The same with seven bits held. -/
def withSevenBits (u : Units) : Units := { u with snk := { acc := 0xFE, pos := 0, good := true } }

/-- Reset units with LZ77 state `afterTwo`. -/
def withWindow : Units := { State.reset.units with lz77 := afterTwo }

/-- Reset units in an LZ78 encoder's block `ab` of 4, 3. -/
def lz78Block : Units :=
  { State.reset.units with
    dict := [.pair none 0x61]
    dz := { db := 4, bb := 3, blk := [(0, 0x61), (1, 0x62)], cnt := 2, i := 0 } }

/-- Reset units in an LZW encoder's block `ab` of 9, 5, the current phrase being `a`. -/
def lzwBlock : Units :=
  { State.reset.units with
    dict := lzwSeed
    dz := { db := 9, bb := 5, blk := [(0, 0x61), (1, 0x62)], cnt := 2, i := 1 }
    lzw := { w := some 0x61, prev := none } }

/-- A tree of two leaves. -/
def pair : Shape := .node (.leaf 0x62) (.leaf 0x61)

/-- Its nodes, as HUF_DESERIALIZE numbers them (42_huffman.md R278). -/
def pairHuf : Huf :=
  { State.reset.units.huf with
    nodes := [.internal (some 1) (some 2) 0, .leaf 0x62 0, .leaf 0x61 0]
    root := 0
    tree := .internalRoot
    code := [(0x61, [true]), (0x62, [false])] }

/-- Reset units with that tree. -/
def withPair : Units := { State.reset.units with huf := pairHuf }

theorem pair_held : pair.heldAt pairHuf.nodes pairHuf.root := ⟨1, 2, 0, rfl, ⟨0, rfl⟩, ⟨0, rfl⟩⟩

/-- A block whose sequencer is about to run command word `w`. -/
def latched (w : Word) (u : Units) : State := { running .command u with cmd := w }

/-- Entries whose parents are seen to stand below them. -/
theorem parentsBelow_of (dict : List Entry)
    (h : ∀ i : Fin dict.length, (match dict[i] with
      | .pair (some p) _ => decide (p < i.val)
      | _ => true) = true) : parentsBelow dict := by
  intro i p b e
  have := h i
  rw [e] at this
  exact of_decide_eq_true this

/-- Entries seen to be distinct and not to continue the reserved one. -/
theorem distinctPhrases_of (dict : List Entry) (h : dict.Nodup)
    (h' : ∀ e ∈ dict, (match e with
      | .pair (some p) _ => decide (dict[p]? ≠ some .emptyPhrase)
      | _ => true) = true) : distinctPhrases dict :=
  ⟨h, fun _ _ e => of_decide_eq_true (h' _ e)⟩

/-- The running states used here are consistent. -/
theorem running_seqInv (p : Phase) (u : Units) (w : Word) (m : List Move) (h : p ≠ .idle) :
    ({ running p u with cmd := w, script := m } : State).seqInv :=
  ⟨fun e => absurd e (by simp [running]), fun _ => ⟨h, rfl, rfl, rfl⟩,
    fun e => absurd e (by simp [running, State.reset]), by simp [running, State.reset],
    by simp [running, State.reset], fun i e => absurd e (by simp [running, State.reset])⟩

theorem witness_StepRunsTheCommandWord :
    ((writing 0 0x21000061).script = .write 4 (writing 0 0x21000061).cfg.base 0x21000061 :: [] ∧
      (writing 0 0x21000061).busy = false) ∧
      (let s := latched 0x21000061 withTree
       s.coreTurn ∧ s.busy = true ∧ s.phase = .command ∧ s.current = none ∧
         decodeCommand s.cmd = .ok (.freqAdd 0x61)) ∧
      (let s := latched 0x40000000 withTree
       s.coreTurn ∧ s.busy = true ∧ s.phase = .command ∧ s.current = none ∧
         decodeCommand s.cmd = .error .unknownOpcode) := ⟨⟨rfl, rfl⟩, by decide, by decide⟩

theorem witness_StepRunsTheFetchedToken :
    (State.reset.coreTurn ∧ State.reset.busy = false) ∧
      (let s := { running .command (offering []) with current := some .srcGetBit, begun := some ⟨offering [], 0⟩ }
       s.coreTurn ∧ s.busy = true ∧ s.current = some .srcGetBit) ∧
      (let s := running (.magic .identify) (offering [0x78, 0x69])
       s.coreTurn ∧ s.current = none ∧ readCtx s.phase s.origin = some .envelope) ∧
      (let s := running .encFlush State.reset.units
       s.coreTurn ∧ s.current = none ∧ readCtx s.phase s.origin = none) := by decide +kernel

theorem witness_StepRunsTheFetchedToken_fetches :
    (match (fetchToken (.magic .identify) .envelope).on (offering [0x78, 0x69]) with
      | .ok i _ => some i
      | .error _ _ => none) = some Instr.magicLz78 := by decide +kernel

theorem witness_StepRunsTheFetchedToken_stretch :
    stretchOf State.reset.cfg .encFlush = some finishEncode := rfl

theorem witness_FetchDeliversTheTokenAhead :
    let s := running (.block .lz77) (withInput withWindow [.byte 0xFE])
    s.reads (.block 5) ∧ s.origin.readable ∧ Instr.wf (.block 5) (.blockShort 31) = true ∧
      encode (.block 5) (.blockShort 31) ≠ [] ∧
      s.origin.pendingBits = encode (.block 5) (.blockShort 31) ++ [true, false] := by decide +kernel

/-- A block flag, a header, an envelope and, after bits of a token, the end: offered, failed before, or taken before. -/
theorem witness_FetchFailsAtTheEndOfInput :
    (let s := running (.block .lz77) (withInput withWindow [.stop .ended])
     s.reads (.block 5) ∧ 0 < (Ctx.block 5).maxBits ∧ s.origin.meets .ended) ∧
      (let s := running (.header .huf) (withInput withWindow [.stop .failed])
       s.reads .hufHeader ∧ s.origin.meets .failed) ∧
      (let s := running (.block .lz77) (withClosed withWindow .ended)
       s.reads (.block 5) ∧ s.origin.meets .ended) ∧
      (let s := running (.header .huf) (withClosed withWindow .failed)
       s.reads .hufHeader ∧ s.origin.meets .failed) ∧
      (let s := running (.header .huf)
          { withWindow with src := { holder := 0, pos := 8, eof := false, err := true } }
       s.reads .hufHeader ∧ s.origin.src.err = true) ∧
      (let s := running (.header .huf)
          { withWindow with src := { holder := 0, pos := 8, eof := true, err := false } }
       s.reads .hufHeader ∧ s.origin.src.err = false ∧ s.origin.src.eof = true) := by decide +kernel

theorem witness_FetchFailsAtTheEndOfInput_inside :
    (let s := running (.magic .decode) (offering [0x78])
     s.reads .envelope ∧ s.origin.readable ∧ s.origin.pendingBits ≠ [] ∧
       decodeBits .envelope s.origin.pendingBits = .more ∧ s.origin.inp.stopsWith .ended) ∧
      (let s := running (.magic .decode)
          { withClosed withTree .failed with src := { holder := 0x78, pos := 7, eof := false, err := false } }
       s.reads .envelope ∧ s.origin.readable ∧ s.origin.pendingBits ≠ [] ∧
         decodeBits .envelope s.origin.pendingBits = .more ∧ s.origin.inp.stopsWith .failed) := by decide +kernel

theorem witness_BadVersionsAndMagicsEndTheCommand :
    (let s := running (.header .lz78) (offering [0x02])
     s.reads (.lzHeader .lz78) ∧ s.origin.readable ∧ s.origin.pendingBits = bitsOf 8 2 ++ []) ∧
      (let s := running (.header .huf) (offering [0x00])
       s.reads .hufHeader ∧ s.origin.readable ∧ s.origin.pendingBits = bitsOf 8 0 ++ []) ∧
      (let s := running (.magic .decode) (offering [0x78, 0x6A])
       s.reads .envelope ∧ s.origin.readable ∧ (0x786A : BitVec 16) ∉ [0x27AB, 0xA5E8, 0x7869, 0x8E83] ∧
         s.origin.pendingBits = bitsOf 16 (0x786A : BitVec 16).toNat ++ []) ∧
      (let s := running (.magic .identify) (offering [0x78, 0x6A])
       s.reads .envelope ∧ s.origin.readable ∧
         s.origin.pendingBits = bitsOf 16 (0x786A : BitVec 16).toNat ++ []) := by decide +kernel

theorem witness_InstructionsDecodeToThemselves :
    Instr.wf .command (.srcGetBits 32) = true ∧ Instr.wf .command (.snkPutBits 1) = true ∧
      Instr.wf .envelope .magicLzw = true ∧ Instr.wf .hufHeader (.hufHeader 0xFFFFFFFF) = true ∧
      Instr.wf .tree (.hufTreeLeaf 0xFF) = true ∧ Instr.wf .code (.hufCode [true]) = true ∧
      Instr.wf (.lzHeader .lz77) (.lz77Header 31 31) = true ∧ Instr.wf (.block 5) (.blockShort 31) = true ∧
      Instr.wf (.lz77Record 2 3) (.lz77Match 3 7 0xFF) = true ∧ Instr.wf (.lz78Record 4) (.lz78Phrase 15 0) = true ∧
      Instr.wf (.lzwRecord 9) (.lzwIndex 511) = true := by decide

theorem witness_HardResetAbandonsTheCommand :
    ({ running .encFlush withTree with script := [.hardReset] } : State).script = .hardReset :: [] := rfl

theorem witness_StepKeepsMemoriesCanonical :
    (running (.record .lz77) (withInput withWindow [.byte 0x30, .byte 0x80])).units.memWf ∧
      (running (.record .lz77) (withInput withWindow [.byte 0x30, .byte 0x80])).begun = none ∧
      ∃ t, step (running (.record .lz77) (withInput withWindow [.byte 0x30, .byte 0x80])) = .next t :=
  ⟨by decide +kernel, rfl, exists_of_goes (by decide +kernel)⟩

theorem witness_StepKeepsTheAccumulatorPadded :
    let u := { withTree with snk := { acc := 0xA0, pos := 4, good := true } }
    (running .encFlush u).seqInv ∧ (running .encFlush u).sinkInv ∧ ∃ t, step (running .encFlush u) = .next t :=
  ⟨running_seqInv _ _ 0 [] (by decide), by decide +kernel, exists_of_goes (by decide +kernel)⟩

theorem witness_StepKeepsTheWindowGeometry :
    (Phase.record .lz77).inWindow = true ∧ withWindow.lz77.geometry ∧
      ∃ t, step (running (.record .lz77) (withInput withWindow [.byte 0x30, .byte 0x80])) = .next t :=
  ⟨rfl, by decide +kernel, exists_of_goes (by decide +kernel)⟩

theorem lz78Block_wf : lz78Block.dictWf ∧ distinctPhrases lz78Block.dict :=
  ⟨⟨by decide +kernel, parentsBelow_of _ (by decide +kernel)⟩,
    distinctPhrases_of _ (by decide +kernel) (by decide +kernel)⟩

theorem lzwBlock_wf : lzwBlock.lzwWf :=
  ⟨⟨by decide +kernel, parentsBelow_of _ (by decide +kernel)⟩, by decide +kernel, by decide +kernel,
    by decide +kernel, by decide +kernel⟩

theorem witness_StepKeepsTheDictionaryInBounds :
    (let s := running (.dictEmit .lz78) lz78Block
     s.seqInv ∧ s.dictInv ∧ s.phase.inLz78 = true ∧ s.phase.encodesLz78 = true ∧ ∃ t, step s = .next t) ∧
      (let s := running (.dictEmit .lzw) lzwBlock
       s.seqInv ∧ s.dictInv ∧ s.phase.inLzw = true ∧ ∃ t, step s = .next t) :=
  ⟨⟨running_seqInv _ _ 0 [] (by decide),
      ⟨fun _ => ⟨lz78Block_wf.1, fun _ e => absurd e (by simp [running, State.reset])⟩,
        fun _ => ⟨lz78Block_wf.2, fun _ e => absurd e (by simp [running, State.reset])⟩,
        fun e => absurd e (by simp [running, Phase.inLzw])⟩, rfl, rfl, exists_of_goes (by decide +kernel)⟩,
    running_seqInv _ _ 0 [] (by decide),
    ⟨fun e => absurd e (by simp [running, Phase.inLz78]), fun e => absurd e (by simp [running, Phase.encodesLz78]),
      fun _ => ⟨lzwBlock_wf, fun _ e => absurd e (by simp [running, State.reset])⟩⟩,
    rfl, exists_of_goes (by decide +kernel)⟩

theorem witness_StepKeepsTheSequencerConsistent :
    (running .encFlush withTree).seqInv ∧ ∃ t, step (running .encFlush withTree) = .next t :=
  ⟨running_seqInv _ _ 0 [] (by decide), exists_of_goes (by decide +kernel)⟩

theorem witness_SequencerNeverRefuses :
    ((running (.record .lzw) lzwAfter).seqInv ∧ (running (.record .lzw) lzwAfter).coreTurn) ∧
      (let s := { latched 0x23000000 withTree with script := [.coreFor 0, .core] }
       s.seqInv ∧ s.script = .coreFor 0 :: .core :: []) ∧
      (let s := { latched 0x23000000 withTree with script := [.coreFor 2] }
       s.script = .coreFor 2 :: [] ∧ s.busy = true ∧ s.phase = .command ∧ s.current = none ∧ s.begun = none ∧
         decodeCommand s.cmd = .ok .hufBuild ∧
         instrStretch .hufBuild s.turned = some (commandStretch .hufBuild ruleHufBuild s.turned) ∧
         2 < ruleHufBuild.steps s.units ∧ ruleHufBuild.steps s.units ≤ 7) :=
  ⟨⟨running_seqInv _ _ 0 [] (by decide), by decide⟩, ⟨running_seqInv _ _ _ _ (by decide), rfl⟩, rfl, rfl, rfl, rfl,
    rfl, rfl, rfl, by decide +kernel, by decide +kernel⟩

theorem witness_RegisterReads :
    (let s := { running .encFlush withTree with script := [.read 4 0x1C] }
     s.script = .read 4 (s.cfg.base + 0x1C) :: [] ∧ 0x1C ∈ [0x08, 0x18, 0x1C] ∧ s.busy = true) ∧
      (let s := { running .encFlush withTree with script := [.read 4 0x3C] }
       s.script = .read 4 (s.cfg.base + 0x3C) :: [] ∧ (0x3C < 64 ∧ 0x3C % 4 = 0) ∧ 0x3C ∉ [0x08, 0x18, 0x1C]) ∧
      (let s := { State.reset with script := [.read 4 0x08] }
       s.script = .read 4 (s.cfg.base + 0x08) :: [] ∧ s.busy = false) := by decide +kernel

theorem witness_RegisterWrites :
    (let s := writing 0x04 5
     s.script = .write 4 (s.cfg.base + 0x04) 5 :: [] ∧ s.busy = false) ∧
      (let s := { running .encFlush withTree with script := [.write 4 0x10 5] }
       s.script = .write 4 (s.cfg.base + 0x10) 5 :: [] ∧ s.busy = true) ∧
      (let s := writing 0x3C 5
       s.script = .write 4 (s.cfg.base + 0x3C) 5 :: [] ∧ 0x3C < 64 ∧ 0x3C % 4 = 0 ∧ 0x3C ≠ 0x00 ∧ 0x3C ≠ 0x0C) := by
  decide +kernel

theorem witness_StatusWritesClearByOnes :
    (writing 0x0C 0x6000).script = .write 4 ((writing 0x0C 0x6000).cfg.base + 0x0C) 0x6000 :: [] := rfl

theorem witness_CommandWritesWhileBusyAreDropped :
    let s := { running .encFlush withTree with script := [.write 4 0 0] }
    s.script = .write 4 s.cfg.base 0 :: [] ∧ s.busy = true := by decide +kernel

theorem witness_AccessOutsideTheContract :
    (let s : State := { writing 0x3F 0 with cfg := { Params.reference with base := 0x40 } }
     s.script = .write 4 0x3F 0 :: [] ∧ 0x3F < s.cfg.base) ∧
      (let s := { State.reset with script := [.read 4 0x40] }
       s.script = .read 4 0x40 :: [] ∧ s.cfg.base + 64 ≤ 0x40) ∧
      (let s := { State.reset with script := [.read 1 0x3C] }
       s.script = .read 1 0x3C :: [] ∧ s.cfg.base ≤ 0x3C ∧ 0x3C < s.cfg.base + 64 ∧ 1 ≠ 4) ∧
      (let s := { State.reset with script := [.read 4 0x3D] }
       s.script = .read 4 0x3D :: [] ∧ 0x3D < s.cfg.base + 64 ∧ (0x3D - s.cfg.base) % 4 ≠ 0) := by decide +kernel

theorem witness_EndOfACommandRaisesTheInterrupt :
    (∃ t, step (running .encFlush withTree) = .next t ∧ t.busy = false) ∧ (running .encFlush withTree).busy = true ∧
      (running .encFlush withTree).script.head? ≠ some .hardReset ∧
      (∃ t, step (latched 0x14000000 withTree) = .next t ∧ t.busy = false) ∧ (latched 0x14000000 withTree).busy = true :=
  ⟨⟨_, next_of_goes (by decide +kernel), by decide +kernel⟩, rfl, by decide,
    ⟨_, next_of_goes (by decide +kernel), by decide +kernel⟩, rfl⟩

theorem witness_InstructionsLeaveHostRegistersAlone :
    (∃ t, exec .softReset (idle withTree) = .next t) ∧
      ∃ t, exec (.lzwIndex 256) (running (.record .lzw) lzwAfter) = .next t :=
  ⟨exists_of_goes (by decide +kernel), exists_of_goes (by decide +kernel)⟩

theorem witness_InstructionsChangeOnlyTheirUnits :
    (∃ t, exec (.hufPutSym 0x7A) (idle withTree) = .next t ∧ t.err = true) ∧
      (∃ t, exec (.lz77Literal 0x61) (running (.record .lz77) withWindow) = .next t ∧ t.busy = true) ∧
      (∃ t, exec (.lz77Match 5 0 0x62) (running (.record .lz77) withWindow) = .next t) ∧
      5 ≠ (withWindow.lz77.ls + 0) % withWindow.lz77.windowSize ∧
      (∀ k ≤ 5, 0 ≠ (withWindow.lz77.ls + k) % withWindow.lz77.windowSize) :=
  ⟨⟨_, next_of_goes (by decide +kernel), by decide +kernel⟩,
    ⟨_, next_of_goes (by decide +kernel), by decide +kernel⟩, exists_of_goes (by decide +kernel), by decide +kernel,
    by decide +kernel⟩

theorem witness_FailureFlagsAreSticky :
    (∃ t, exec .srcGetBit (idle { withTree with src := { holder := 0, pos := 8, eof := true, err := true } }) =
        .next t) ∧
      Instr.srcGetBit ∉ [.srcReset, .enc, .dec, .softReset] ∧
      (∃ t, exec .snkFlush (idle { withTree with snk := { acc := 0, pos := 7, good := false } }) = .next t) ∧
      Instr.snkFlush ∉ [.snkReset, .enc, .softReset] :=
  ⟨exists_of_goes (by decide +kernel), by decide, exists_of_goes (by decide +kernel), by decide⟩

theorem witness_SrcGetBitsReturnsTheBitsAhead :
    (let s := idle (offering [0x01, 0x02, 0x03, 0x04])
     s.units.readable ∧ s.units.pendingBits = bitsOf 32 0x01020304 ++ [] ∧ (bitsOf 32 0x01020304).length =
       (32 : Byte).toNat ∧ 1 ≤ (32 : Byte).toNat ∧ (32 : Byte).toNat ≤ 32) ∧
      (let s := idle (offering [0xB5])
       s.units.pendingBits = [true] ++ [false, true, true, false, true, false, true]) := by decide +kernel

theorem witness_SrcReadsReportTheEndByFlags :
    (¬ (1 ≤ (0 : Byte).toNat ∧ (0 : Byte).toNat ≤ 32) ∧ ¬ (1 ≤ (33 : Byte).toNat ∧ (33 : Byte).toNat ≤ 32)) ∧
      (1 ≤ (32 : Byte).toNat ∧ (32 : Byte).toNat ≤ 32) ∧
      (idle { withTree with src := { holder := 0, pos := 8, eof := true, err := false } }).units.src.good = false ∧
      (let s := idle (offering [0xB5])
       s.units.readable ∧ s.units.inp.stopsWith .ended ∧ s.units.pendingBits.length < (32 : Byte).toNat) ∧
      (let s := idle (withInput withTree [.stop .failed])
       s.units.readable ∧ s.units.inp.stopsWith .failed ∧ s.units.pendingBits = []) ∧
      (let s := idle (withClosed withTree .ended)
       s.units.readable ∧ s.units.inp.stopsWith .ended ∧ s.units.pendingBits = []) := by decide +kernel

theorem witness_SnkPutBitsPacksTheBits :
    (idle { withTree with snk := { acc := 0xFE, pos := 0, good := true } }).units.writable ∧
      (1 ≤ (32 : Byte).toNat ∧ (32 : Byte).toNat ≤ 32) ∧ ¬ (1 ≤ (33 : Byte).toNat ∧ (33 : Byte).toNat ≤ 32) := by
  decide +kernel

theorem witness_FailedSinkIgnoresAndIsReported :
    (let s := { idle (withFailedSink withPair) with config := { alg := .lz77, p1 := 24, p2 := 23 } }
     s.units.snk.good = false ∧ s.units.huf.codeOf 0x61 ≠ [] ∧ s.units.huf.tree ≠ .empty ∧
       (1 ≤ s.config.p1.toNat ∧ s.config.p1.toNat ≤ 29 ∧ 1 ≤ s.config.p2.toNat ∧
         s.config.p2.toNat + 1 ≤ s.config.p1.toNat ∧ s.config.p1.toNat ≤ s.cfg.maxSearchBits.toNat) ∧
       (8 ≤ s.config.p1.toNat ∧ s.config.p1.toNat ≤ s.cfg.maxDictBits.toNat ∧
         s.config.p2.toNat ≤ s.cfg.maxBlockBits.toNat)) ∧
      ((running (.hufHead true) (withFailedSink withTree)).origin.snk.good = false ∧
        (running (.hufHead true) (withFailedSink withTree)).encodes (.hufHead true) ∧
        (running .encFlush (withFailedSink withTree)).encodes .encFlush) ∧
      (let s := running .encFlush (withRefusal (withSevenBits withTree) 0)
       s.encodes .encFlush ∧ s.origin.snk.good = true ∧ s.origin.snk.pos ≠ 7 ∧ s.origin.out.refuses) ∧
      (let s := idle (withRefusal (withSevenBits withTree) 0)
       s.units.snk.good = true ∧ s.units.out.refuses ∧ s.units.snk.pos = 0) := by decide +kernel

theorem witness_FailedSinkIgnoresAndIsReported_middle :
    (let u := withRefusal (withSevenBits withTree) 0
     u.snk.good = true ∧ u.snk.wf ∧ u.out.refusesAt 0 ∧
       0 < (packFull (u.snk.held ++ u.huf.codeOf 0x72)).length) ∧
      (let u := withRefusal withPair 1
       u.snk.good = true ∧ u.snk.wf ∧ u.out.refusesAt 1 ∧
         1 < (packFull (u.snk.held ++ bitsOf 16 Alg.huf.magic.toNat)).length ∧ u.huf.tree ≠ .empty ∧
         pair.heldAt u.huf.nodes u.huf.root ∧ pair.size ≤ u.huf.nodes.length ∧
         1 < (packFull (u.snk.held ++ pair.bits)).length) :=
  ⟨by decide +kernel, by decide +kernel, by decide +kernel, by decide +kernel, by decide +kernel, by decide,
    pair_held, by decide, by decide +kernel⟩

/-- A record that the consumer refuses: the last byte of the longest match, of a phrase, of the KwKwK phrase. -/
theorem witness_FailedSinkIgnoresAndIsReported_tokens :
    (let s := running (.record .lz77) (withRefusal withWindow 0)
     s.phase = .record .lz77 ∧ s.units.out.refuses) ∧
      (let u := withRefusal withWindow 5
       1 < u.lz77.csize ∧ 5 + 1 ≤ u.lz77.rem ∧ u.out.refusesAt 5) ∧
      (let u := withRefusal lz78After 1
       0 < u.dict.length ∧ u.dz.i + (phraseOf u.dict (some 0) ++ [0x62]).length ≤ u.dz.cnt ∧ u.out.refusesAt 1 ∧
         1 < (phraseOf u.dict (some 0) ++ [0x62]).length) ∧
      (let u := withRefusal lzwAfter 1
       (lzwPhrase State.reset.cfg u.dict u.lzw.prev 256).toOption = some [0x61, 0x61] ∧
         u.dz.i + 2 ≤ u.dz.cnt ∧ u.out.refusesAt 1) := by decide +kernel

theorem witness_FailedSinkIgnoresAndIsReported_codes :
    (let s := running (.code 0) (withRefusal withPair 0)
     s.phase = .code 0 ∧ s.units.huf.tree = .internalRoot ∧
       s.units.huf.nodes[s.units.huf.cursor]? = some (.internal (some 1) (some 2) 0) ∧
       s.units.huf.nodes[2]? = some (.leaf 0x61 0) ∧ s.units.out.refuses) ∧
      (let s := running (.leafRun 1)
          (withRefusal { withPair with huf := { pairHuf with nodes := [.leaf 0x61 0], tree := .leafRoot } } 0)
       s.encodes (.leafRun (0 + 1)) ∧ s.origin.huf.nodes[s.origin.huf.root]? = some (.leaf 0x61 0) ∧
         s.origin.out.refuses) := by decide +kernel

theorem witness_MirrorLaw :
    (∀ f ∈ [(1, 1), (32, 0xDEADBEEF), (7, 300)], 1 ≤ f.1 ∧ f.1 ≤ 32) ∧ withTree.writable ∧ withTree.snk.pos = 7 ∧
      withTree.src.pos = 8 ∧ withTree.readable ∧ withTree.inp.closed = none := by decide +kernel

theorem witness_FrequencyCommandsCount :
    (Sparse.wf withTree.huf.freq ∧ withTree.huf.total ≠ 0xFFFFFFFF) ∧
      ({ withTree.huf with total := 0xFFFFFFFF } : Huf).total = 0xFFFFFFFF := by decide +kernel

theorem witness_BuildOfSmallTables :
    (State.reset.units.memWf ∧ ∀ b, State.reset.units.huf.count b = 0) ∧
      (let u := { State.reset.units with huf := { State.reset.units.huf with freq := [(0xFF, 6)], total := 6 } }
       u.memWf ∧ u.huf.count 0xFF ≠ 0 ∧ ∀ b, b ≠ 0xFF → u.huf.count b = 0) := by
  refine ⟨⟨by decide +kernel, fun _ => rfl⟩, by decide +kernel⟩

theorem witness_BuildMergesTheTwoLeast :
    withTree.memWf ∧
      5 = ((List.range 256).filter fun b => withTree.huf.count (BitVec.ofNat 8 b) ≠ 0).length ∧ 2 ≤ 5 := by
  decide +kernel

theorem witness_BuiltTreeCodesEverySymbol :
    withTree.memWf ∧ (0x61 : Byte) ≠ 0x62 ∧ withTree.huf.count 0x61 ≠ 0 ∧ withTree.huf.count 0x62 ≠ 0 := by
  decide +kernel

theorem witness_CodeCommandsUseTheCodeTable :
    withTree.huf.codeOf 0x7A = [] ∧ withTree.huf.tree ≠ .empty ∧ withTree.huf.codeOf 0x72 ≠ [] ∧ withTree.writable ∧
      ({ abracadabra with tree := .empty } : Huf).tree = .empty ∧
      ({ abracadabra with tree := .empty } : Huf).code ≠ [] := by decide +kernel

theorem witness_SerializeWritesTheTree :
    State.reset.units.huf.tree = .empty ∧ withPair.huf.tree ≠ .empty ∧
      pair.heldAt withPair.huf.nodes withPair.huf.root ∧ pair.size ≤ withPair.huf.nodes.length ∧ withPair.writable :=
  ⟨rfl, by decide, pair_held, by decide, by decide⟩

/-- Each way in which a node takes its place, and the two malformed trees. -/
theorem witness_TreeTokensBuildTheTree :
    ((running (.tree [] .command) State.reset.units).phase = .tree [] .command ∧
      State.reset.units.huf.nodes.countP Node.isInternal ≠ 255) ∧
      (running (.tree [0] .payload) { withPair with huf := { pairHuf with nodes := [.internal none none 0] } }).units.huf.nodes[0]? =
        some (.internal none none 0) ∧
      (let s := running (.tree [0] .payload)
          { withPair with huf := { pairHuf with nodes := [.internal (some 1) none 0, .leaf 0x62 0] } }
       s.units.huf.nodes[0]? = some (.internal (some 1) none 0) ∧ Node.leaf 0x62 0 ∈ s.units.huf.nodes ∧
         s.units.huf.nodes.any (Node.isLeafOf 0x61) = false) ∧
      (List.replicate 255 (Node.internal none none 0)).countP Node.isInternal = 255 := by decide +kernel

theorem witness_SerializedTreesReadBack :
    pair.leaves.Nodup ∧ (running (.tree [] .command) State.reset.units).phase = .tree [] .command ∧
      (running (.tree [] .command) State.reset.units).units.huf.nodes = [] := by decide +kernel

theorem witness_WalkCommandsFollowTheTree :
    State.reset.units.huf.tree = .empty ∧ pairHuf.tree = .internalRoot ∧
      pairHuf.nodes[pairHuf.cursor]? = some (.internal (some 1) (some 2) 0) ∧
      pairHuf.nodes[2]? = some (.leaf 0x61 0) ∧
      abracadabra.nodes[abracadabra.cursor]? = some (.internal (some 0) (some 7) 11) ∧
      abracadabra.nodes[7]? = some (.internal (some 5) (some 6) 6) ∧
      ({ pairHuf with tree := .leafRoot } : Huf).tree = .leafRoot ∧
      ({ pairHuf with nodes := [.internal none (some 1) 0] } : Huf).nodes[0]? = some (.internal none (some 1) 0) := by
  decide +kernel

theorem witness_HuffmanTokensDecode :
    (running (.header .huf) withTree).phase = .header .huf ∧ (1 : Word) ≠ 0 ∧
      (running (.code 10) withTree).phase = .code 10 ∧ withTree.huf.tree = .internalRoot ∧
      abracadabra.nodes[abracadabra.cursor]? = some (.internal (some 0) (some 7) 11) ∧
      abracadabra.nodes[7]? = some (.internal (some 5) (some 6) 6) ∧ abracadabra.nodes[0]? = some (.leaf 0x61 5) ∧
      withTree.out.accepts ∧ ¬ (10 + 1 < withTree.huf.total.toNat) ∧ 9 + 1 < withTree.huf.total.toNat ∧
      (let s := running (.leafRun 0) { withTree with huf := { pairHuf with nodes := [.leaf 0x61 0], tree := .leafRoot } }
       s.coreTurn ∧ s.busy = true ∧ s.current = none ∧
         s.origin.huf.nodes[s.origin.huf.root]? = some (.leaf 0x61 0) ∧ s.origin.out.accepts) := by decide +kernel

theorem witness_CodesDecodeToTheirSymbols :
    (running (.code 0) withPair).phase = .code 0 ∧ withPair.huf.tree = .internalRoot ∧
      withPair.huf.cursor = withPair.huf.root ∧ pair.heldAt withPair.huf.nodes withPair.huf.root ∧
      ((0x61 : Byte), [true]) ∈ pair.paths ∧ [true] ≠ [] ∧ withPair.out.accepts :=
  ⟨rfl, rfl, rfl, pair_held, by decide, by decide, by decide⟩

theorem witness_HuffmanEncoderMakesTwoPasses :
    (let s := running (.hufCount true) (offering [0x61])
     s.encodes (.hufCount true) ∧ s.origin.offers (.byte 0x61)) ∧
      (let s := running (.hufCount false) (offering [])
       s.encodes (.hufCount false) ∧ s.origin.offers (.stop .ended)) ∧
      (let s := running (.hufCount false) (withClosed withTree .ended)
       s.encodes (.hufCount false) ∧ s.origin.offers (.stop .ended)) ∧
      (let s := running (.hufHead true) withTree
       s.encodes (.hufHead true) ∧ s.origin.writable) := by decide +kernel

theorem witness_HuffmanEncoderMakesTwoPasses_second :
    (let s := running (.hufPass 11) (withInput withTree [.byte 0x61])
     s.encodes (.hufPass 11) ∧ s.origin.offers (.byte 0x61) ∧ s.origin.writable ∧
       11 = (s.origin.took (.byte 0x61)).huf.total.toNat) ∧
      (let s := running (.hufPass 0) (withInput withTree [.stop .failed])
       s.encodes (.hufPass 0) ∧ s.origin.offers (.stop .failed) ∧ s.origin.writable) := by decide +kernel

/-- The first parameter at, below and above each bound: 1, 2, 29, 30 for LZ77, 0, 1 for LZ78, 7, 8 for LZW, and one
above the reference instance's 24. -/
theorem witness_LzHeadersAreChecked :
    (running (.header .lz77) withTree).phase = .header .lz77 ∧ (running (.header .lz78) withTree).phase = .header .lz78 ∧
      (running (.header .lzw) withTree).phase = .header .lzw ∧
      (1 ≤ (29 : BitVec 5).toNat ∧ (29 : BitVec 5).toNat ≤ 29 ∧ (28 : BitVec 5).toNat + 1 ≤ (29 : BitVec 5).toNat) ∧
      ¬ ((30 : BitVec 5).toNat ≤ 29) ∧ ¬ (1 ≤ (0 : BitVec 5).toNat) ∧ ¬ (8 ≤ (7 : BitVec 5).toNat) ∧
      State.reset.cfg.maxDictBits.toNat < (25 : BitVec 5).toNat := by decide +kernel

theorem witness_BlockTokensFrameTheBlock :
    (running (.block .lz77) withWindow).phase = .block .lz77 ∧ (running (.block .lz78) lz78After).phase = .block .lz78 ∧
      (running (.block .lzw) lzwAfter).phase = .block .lzw := by decide +kernel

theorem witness_Lz77LiteralExtendsTheWindow :
    (running (.record .lz77) withWindow).phase = .record .lz77 ∧ withWindow.out.accepts := by decide +kernel

/-- With two bytes in the search region and six left in the block: length 1 at position 2 is outside, length 6 at
position 1 too long, length 5 at position 1 the longest legal match. -/
theorem witness_Lz77MatchCopiesFromTheWindow :
    (running (.record .lz77) withWindow).phase = .record .lz77 ∧
      (0 < 1 ∧ withWindow.lz77.csize ≤ 2) ∧
      ((6 = 0 ∨ 1 < withWindow.lz77.csize) ∧ withWindow.lz77.rem < 6 + 1) ∧
      ((5 = 0 ∨ 1 < withWindow.lz77.csize) ∧ 5 + 1 ≤ withWindow.lz77.rem ∧
        withWindow.lz77.rem ≤ withWindow.lz77.lookaheadSize ∧ withWindow.lz77.geometry ∧
        withWindow.out.accepts) := by decide +kernel

theorem witness_Lz77EncoderCodesTheBlock :
    (let s := running (.lz77Read 31) (withInput withWindow [.byte 0x61])
     s.encodes (.lz77Read 31) ∧ 31 < s.origin.lz77.lookaheadSize ∧ s.origin.offers (.byte 0x61)) ∧
      (let s := running (.lz77Read 0) (withInput withWindow [.stop .ended])
       s.encodes (.lz77Read 0) ∧ 0 < s.origin.lz77.lookaheadSize ∧ s.origin.offers (.stop .ended)) ∧
      (let s := running (.lz77Read 0) (withClosed withWindow .ended)
       s.encodes (.lz77Read 0) ∧ s.origin.offers (.stop .ended)) ∧
      (let s := running (.lz77Read 32) withWindow
       s.encodes (.lz77Read 32) ∧ s.origin.lz77.lookaheadSize ≤ 32) := by decide +kernel

theorem witness_Lz77EncoderCodesTheBlock_writes :
    (let s := running (.lz77Flag 0) withWindow
     s.encodes (.lz77Flag 0) ∧ s.origin.writable) ∧
      (let s := running .lz77Emit { withWindow with lz77 := { afterTwo with rem := 0 } }
       s.encodes .lz77Emit ∧ s.origin.lz77.rem = 0) ∧
      (let s := running .lz77Emit withWindow
       s.encodes .lz77Emit ∧ s.origin.lz77.rem ≠ 0 ∧ s.origin.writable) ∧
      (let s := running .encFlush withWindow
       s.encodes .encFlush ∧ s.origin.writable) := by decide +kernel

theorem witness_PhrasesFollowTheirParents :
    (let dict : List Entry := [.emptyPhrase, .pair none 0x61, .pair (some 1) 0x62]
     dict[0]? = some .emptyPhrase ∧ dict[2]? = some (.pair (some 1) 0x62)) ∧
      parentsBelow [.emptyPhrase, .pair none 0x61, .pair (some 1) 0x62] := by
  refine ⟨by decide, ?_⟩
  intro i p b h
  match i, h with
  | ⟨2, _⟩, h =>
    obtain ⟨rfl, -⟩ : 1 = p ∧ (0x62 : Byte) = b := by simpa using h
    exact Nat.lt_succ_self 1

/-- One entry, one byte decoded of eight: index 1 is beyond; seven bytes are left. -/
theorem witness_Lz78RecordsDecode :
    (running (.record .lz78) lz78After).phase = .record .lz78 ∧ lz78After.dict.length ≤ 1 ∧
      0 < lz78After.dict.length ∧ lz78After.out.accepts ∧
      lz78After.dz.i + (phraseOf lz78After.dict (some 0) ++ [0x62]).length ≤ lz78After.dz.cnt ∧
      (let u := { lz78After with dz := { lz78After.dz with i := 7 } }
       u.dz.cnt < u.dz.i + (phraseOf u.dict (some 0) ++ [0x62]).length) ∧
      (let u := { lz78After with dz := { lz78After.dz with i := 7 } }
       u.dz.i + (phraseOf u.dict none ++ [0x62]).length ≤ u.dz.cnt) := by decide +kernel

theorem witness_LzwIndicesDecode :
    (running (.record .lzw) lzwAfter).phase = .record .lzw ∧ lzwAfter.lzw.prev = some 97 ∧ 256 ≤ lzwAfter.dict.length ∧
      ¬ (257 ≤ lzwAfter.dict.length) ∧ lzwAfter.out.accepts ∧
      [0x61, 0x61] = phraseOf lzwAfter.dict (some 97) ++ (phraseOf lzwAfter.dict (some 97)).take 1 ∧
      lzwAfter.dz.i + 2 ≤ lzwAfter.dz.cnt ∧
      (let u := { lzwAfter with dz := { lzwAfter.dz with i := 6 } }
       u.dz.cnt < u.dz.i + 2) ∧
      (let u := { lzwAfter with lzw := { w := none, prev := none } }
       u.lzw.prev = none ∧ 255 < u.dict.length ∧ ¬ (256 < u.dict.length) ∧
         [0xFF] = phraseOf u.dict (some 255)) := by decide +kernel

theorem witness_DictionaryOnlyGrows :
    (running (.dictEmit .lzw) lzwBlock).seqInv ∧ (running (.dictEmit .lzw) lzwBlock).coreTurn ∧
      (Phase.dictEmit .lzw).inLzw = true ∧ (Phase.record .lz78).inLz78 = true ∧
      ∃ t, step (running (.dictEmit .lzw) lzwBlock) = .next t :=
  ⟨running_seqInv _ _ 0 [] (by decide), by decide, rfl, rfl, exists_of_goes (by decide +kernel)⟩

theorem witness_DictionaryEncodersReadBlocks :
    (let s := running (.dictRead .lz78) (withInput lz78Block [.byte 0x63])
     s.encodes (.dictRead .lz78) ∧ s.origin.dz.cnt < s.origin.dz.blockSize ∧ s.origin.offers (.byte 0x63)) ∧
      (let s := running (.dictRead .lzw) (withInput lzwBlock [.stop .ended])
       s.encodes (.dictRead .lzw) ∧ s.origin.dz.cnt < s.origin.dz.blockSize ∧ s.origin.offers (.stop .ended)) ∧
      (let s := running (.dictRead .lzw) (withClosed lzwBlock .ended)
       s.encodes (.dictRead .lzw) ∧ s.origin.offers (.stop .ended)) ∧
      (let s := running (.dictRead .lz78) { lz78Block with dz := { lz78Block.dz with cnt := 8 } }
       s.encodes (.dictRead .lz78) ∧ s.origin.dz.blockSize ≤ s.origin.dz.cnt) := by decide +kernel

theorem witness_DictionaryEncodersReadBlocks_writes :
    (let s := running (.dictFlag .lzw) { lzwBlock with dz := { lzwBlock.dz with cnt := 0 } }
     s.encodes (.dictFlag .lzw) ∧ s.origin.writable) ∧
      (let s := running (.dictEmit .lz78) { lz78Block with dz := { lz78Block.dz with i := 2 } }
       s.encodes (.dictEmit .lz78) ∧ s.origin.dz.cnt ≤ s.origin.dz.i) := by decide +kernel

theorem witness_LzwEncoderWritesIndices :
    (running (.dictEmit .lzw) lzwBlock).encodes (.dictEmit .lzw) ∧ lzwBlock.dz.i < lzwBlock.dz.cnt ∧
      lzwBlock.lzw.w = some 0x61 ∧ lzwBlock.dz.blockAt 1 = 0x62 ∧ lzwBlock.writable ∧
      findEntry lzwBlock.dict (some 0x61) 0x62 = none ∧
      (lzwBlock.dict ++ [.pair (some 0x61) 0x62])[256]? = some (.pair (some 0x61) 0x62) ∧
      ({ lzwBlock with lzw := { w := none, prev := none } } : Units).lzw.w = none ∧
      (let u := { lzwBlock with dz := { lzwBlock.dz with i := 2 } }
       u.dz.cnt ≤ u.dz.i ∧ u.lzw.w = some 0x61) := by decide +kernel

theorem witness_Lz78EncoderAndDecoderMirror :
    (running (.dictEmit .lz78) lz78Block).encodes (.dictEmit .lz78) ∧ lz78Block.writable ∧
      parentsBelow lz78Block.dict ∧ distinctPhrases lz78Block.dict ∧
      lz78Block.dict.length ≤ lz78Block.dz.cap ∧ lz78Block.dz.i < lz78Block.dz.cnt ∧
      (running (.record .lz78) { lz78Block with dz := { lz78Block.dz with blk := [] } }).phase = .record .lz78 ∧
      (0 < lz78Block.dict.length ∧ lz78Block.dz.i + (phraseOf lz78Block.dict (some 0)).length + 1 ≤ lz78Block.dz.cnt ∧
        phraseOf lz78Block.dict (some 0) = [lz78Block.dz.blockAt 0]) :=
  ⟨by decide, by decide, lz78Block_wf.1.2, lz78Block_wf.2, by decide, by decide, rfl, by decide +kernel⟩

theorem witness_MagicCommandsAndTokens :
    (Alg.lzw, (0x8E83 : BitVec 16), Instr.magicLzw, 3) ∈ [(Alg.huf, (0x27AB : BitVec 16), Instr.magicHuf, 0),
        (.lz77, 0xA5E8, .magicLz77, 1), (.lz78, 0x7869, .magicLz78, 2), (.lzw, 0x8E83, .magicLzw, 3)] ∧
      withTree.writable ∧ (running (.magic .identify) withTree).phase = .magic .identify ∧
      (running (.magic .decode) withTree).phase = .magic .decode := by decide +kernel

/-- Parameters inside the format and the limits, outside the format, and inside the format but above a limit. -/
theorem witness_EncodersBegin :
    (configured .lz77 29 28 withTree).units.writable ∧ withTree.inp.seekable = true ∧
      ({ withTree with inp := { withTree.inp with seekable := false } } : Units).inp.seekable = false ∧
      (1 ≤ (29 : BitVec 5).toNat ∧ (29 : BitVec 5).toNat ≤ 29 ∧ (28 : BitVec 5).toNat + 1 ≤ (29 : BitVec 5).toNat ∧
        (29 : BitVec 5).toNat ≤ State.reset.cfg.maxSearchBits.toNat) ∧
      ¬ ((29 : BitVec 5).toNat + 1 ≤ (29 : BitVec 5).toNat) ∧
      (8 ≤ (24 : BitVec 5).toNat ∧ (24 : BitVec 5).toNat ≤ State.reset.cfg.maxDictBits.toNat ∧
        (31 : BitVec 5).toNat ≤ State.reset.cfg.maxBlockBits.toNat) ∧
      ¬ ((25 : BitVec 5).toNat ≤ State.reset.cfg.maxDictBits.toNat) ∧
      (let p := { Params.reference with maxSearchBits := 9 }
       ¬ ((10 : BitVec 5).toNat ≤ p.maxSearchBits.toNat)) := by decide +kernel

end Sys2Proof.Tests
end

namespace Sys2Proof.Machine

/-! # What a rule guarantees from given units

`M.wp` is the weakest precondition of a rule for a condition `I` on the units after each of its steps, a condition `E`
on how it stops and a condition `Q` on how it ends; the lemmas push it through the steps of a `do` block. -/

/-- From units `u`, rule `m` passes only through units that meet `I`, stops only where `E` allows it and ends only as
`Q` says. -/
def M.wp {α : Type} (m : M α) (I : Units → Prop) (E : Stop → Units → Prop) (Q : α → Units → Prop) (u : Units) : Prop :=
  (∀ v ∈ m.past u, I v) ∧
    match m.on u with
    | .ok a v => Q a v
    | .error e v => E e v

section wp

variable {α β : Type} {I I' : Units → Prop} {E E' : Stop → Units → Prop} {Q Q' : α → Units → Prop} {u : Units}

@[simp] theorem M.wp_pure (a : α) : (pure a : M α).wp I E Q u ↔ Q a u := by simp [M.wp]

@[simp] theorem wp_look (g : Units → α) : (look g).wp I E Q u ↔ Q (g u) u := by simp [M.wp]

@[simp] theorem wp_upd (g : Units → Units) {Q : Unit → Units → Prop} :
    (upd g).wp I E Q u ↔ I (g u) ∧ Q () (g u) := by simp [M.wp]

@[simp] theorem wp_raise (e : ErrorCode) : (raise e : M α).wp I E Q u ↔ E (.raise e) u := by simp [M.wp]

@[simp] theorem wp_await : (await : M α).wp I E Q u ↔ E .wait u := by simp [M.wp]

@[simp] theorem M.wp_bind {Q : β → Units → Prop} (x : M α) (f : α → M β) :
    (x >>= f).wp I E Q u ↔ x.wp I E (fun a v => (f a).wp I E Q v) u := by
  unfold M.wp
  rw [M.past_bind, M.run_bind]
  rcases x.on u with ⟨a, v⟩ | ⟨e, v⟩ <;> simp [or_imp, forall_and, and_assoc]

@[simp] theorem M.wp_ite (c : Prop) [Decidable c] (x y : M α) :
    (if c then x else y).wp I E Q u ↔ (c → x.wp I E Q u) ∧ (¬ c → y.wp I E Q u) := by
  split <;> simp_all

theorem M.wp_mono {m : M α} (h : m.wp I E Q u) (hI : ∀ v, I v → I' v) (hE : ∀ e v, E e v → E' e v)
    (hQ : ∀ a v, Q a v → Q' a v) : m.wp I' E' Q' u := by
  obtain ⟨hp, he⟩ := h
  refine ⟨fun v hv => hI v (hp v hv), ?_⟩
  cases hm : m.on u with
  | ok a v => rw [hm] at he; exact hQ a v he
  | error e v => rw [hm] at he; exact hE e v he

/-- What a rule keeps holds at each of its steps and at its end. -/
theorem Keeps.wp {R : Units → Units → Prop} {m : M α} (h : Keeps R m) (hI : ∀ v, R u v → I v)
    (hE : ∀ e v, R u v → E e v) (hQ : ∀ a v, R u v → Q a v) : m.wp I E Q u := by
  refine ⟨fun v hv => hI v (h.past u v hv), ?_⟩
  have hon := h.on u
  cases hm : m.on u with
  | ok a v => rw [hm] at hon; exact hQ a v hon
  | error e v => rw [hm] at hon; exact hE e v hon

theorem M.wp.ok {m : M α} {a : α} {v : Units} (h : m.wp I E Q u) (hm : m.on u = .ok a v) : Q a v := by
  have := h.2
  rwa [hm] at this

theorem M.wp.error {m : M α} {e : Stop} {v : Units} (h : m.wp I E Q u) (hm : m.on u = .error e v) : E e v := by
  have := h.2
  rwa [hm] at this

/-- Where nothing is asked of the steps and stops, only a good end counts. -/
theorem M.wp_of_ok {m : M α} (hI : ∀ v, I v) (hE : ∀ e v, E e v) (hQ : ∀ a v, m.on u = .ok a v → Q a v) :
    m.wp I E Q u := by
  refine ⟨fun v _ => hI v, ?_⟩
  cases hm : m.on u with
  | ok a v => exact hQ a v hm
  | error e v => exact hE e v

end wp

/-! # What a step can do

`step_cases` says it once: a move of the environment (`Env`), nothing, or one of the stretches the sequencer may run
(`State.Runs`), left at one of the places it can be left (`Stretch.Reaches`). -/

/-- The rule of each command. -/
inductive CommandRule (cfg : Params) (arg : Word) (config : ConfigReg) : Instr → M Next → Prop
  | nop : CommandRule cfg arg config .nop ruleNop
  | srcReset : CommandRule cfg arg config .srcReset ruleSrcReset
  | srcGetBit : CommandRule cfg arg config .srcGetBit ruleSrcGetBit
  | srcGetBits (n : Byte) : CommandRule cfg arg config (.srcGetBits n) (ruleSrcGetBits n)
  | snkReset : CommandRule cfg arg config .snkReset ruleSnkReset
  | snkPutBit (bit : Bool) : CommandRule cfg arg config (.snkPutBit bit) (ruleSnkPutBit bit)
  | snkPutBits (n : Byte) : CommandRule cfg arg config (.snkPutBits n) (ruleSnkPutBits n arg)
  | snkFlush : CommandRule cfg arg config .snkFlush ruleSnkFlush
  | freqClear : CommandRule cfg arg config .freqClear ruleFreqClear
  | freqAdd (sym : Byte) : CommandRule cfg arg config (.freqAdd sym) (ruleFreqAdd sym)
  | freqGet (sym : Byte) : CommandRule cfg arg config (.freqGet sym) (ruleFreqGet sym)
  | hufBuild : CommandRule cfg arg config .hufBuild ruleHufBuild
  | hufCodeLen (sym : Byte) : CommandRule cfg arg config (.hufCodeLen sym) (ruleHufCodeLen sym)
  | hufPutSym (sym : Byte) : CommandRule cfg arg config (.hufPutSym sym) (ruleHufPutSym sym)
  | hufSerialize : CommandRule cfg arg config .hufSerialize ruleHufSerialize
  | hufDeserialize : CommandRule cfg arg config .hufDeserialize ruleHufDeserialize
  | hufWalkReset : CommandRule cfg arg config .hufWalkReset ruleHufWalkReset
  | hufAddBit (bit : Bool) : CommandRule cfg arg config (.hufAddBit bit) (ruleHufAddBit bit)
  | envPutMagic (alg : Alg) : CommandRule cfg arg config (.envPutMagic alg) (ruleEnvPutMagic alg)
  | envGetMagic : CommandRule cfg arg config .envGetMagic ruleEnvGetMagic
  | encBody (alg : Alg) : CommandRule cfg arg config (.encBody alg) (ruleEncBody cfg config alg)
  | decBody (alg : Alg) : CommandRule cfg arg config (.decBody alg) (ruleDecBody alg)
  | enc : CommandRule cfg arg config .enc (ruleEnc cfg config)
  | dec : CommandRule cfg arg config .dec ruleDec
  | softReset : CommandRule cfg arg config .softReset softResetUnits

/-- The rule of each token in each phase that reads it. -/
inductive TokenRule (cfg : Params) : Phase → Instr → M Next → Prop
  | magic (a : Alg) (use : MagicUse) : TokenRule cfg (.magic use) a.magicToken (ruleMagic a use)
  | hufHeader (total : Word) : TokenRule cfg (.header .huf) (.hufHeader total) (ruleHufHeader total)
  | treeInternal (stack : List Nat) (use : TreeUse) :
    TokenRule cfg (.tree stack use) .hufTreeInternal (ruleTreeInternal stack use)
  | treeLeaf (sym : Byte) (stack : List Nat) (use : TreeUse) :
    TokenRule cfg (.tree stack use) (.hufTreeLeaf sym) (ruleTreeLeaf sym stack use)
  | hufCode (bits : List Bool) (produced : Nat) :
    TokenRule cfg (.code produced) (.hufCode bits) (ruleHufCode bits produced)
  | lz77Header (sb lb : BitVec 5) : TokenRule cfg (.header .lz77) (.lz77Header sb lb) (ruleLz77Header cfg sb lb)
  | lz78Header (db bb : BitVec 5) :
    TokenRule cfg (.header .lz78) (.lz78Header db bb) (ruleDictHeader cfg .lz78 db bb)
  | lzwHeader (db bb : BitVec 5) : TokenRule cfg (.header .lzw) (.lzwHeader db bb) (ruleDictHeader cfg .lzw db bb)
  | blockFull (a : Lz) : TokenRule cfg (.block a) .blockFull (ruleBlockFull a)
  | blockShort (a : Lz) (count : Nat) : TokenRule cfg (.block a) (.blockShort count) (blockOf a count)
  | lz77Literal (b : Byte) : TokenRule cfg (.record .lz77) (.lz77Literal b) (lz77Record 0 0 b)
  | lz77Match (len pos : Nat) (b : Byte) :
    TokenRule cfg (.record .lz77) (.lz77Match len pos b) (ruleLz77Match len pos b)
  | lz78Literal (b : Byte) : TokenRule cfg (.record .lz78) (.lz78Literal b) (lz78Record none b)
  | lz78Phrase (index : Nat) (b : Byte) :
    TokenRule cfg (.record .lz78) (.lz78Phrase index b) (ruleLz78Phrase index b)
  | lzwIndex (index : Nat) : TokenRule cfg (.record .lzw) (.lzwIndex index) (ruleLzwIndex cfg index)

/-- The state in which a command finds the host registers: SOFT_RESET resets some with its start (assumption 26). -/
def entered : Instr → State → State
  | .softReset, s => softResetStart s
  | _, s => s

/-- The stretch of a token is that of its rule in the phase it stands in. -/
theorem tokenStretch_some {i : Instr} {f : Phase → Option (M Next)} {s : State} {r : Stretch}
    (h : tokenStretch i f s = some r) : ∃ m, f s.phase = some m ∧ r = ⟨{ s with current := some i }, m⟩ := by
  obtain ⟨m, hm, rfl⟩ := Option.map_eq_some_iff.1 h
  exact ⟨m, hm, rfl⟩

section tokens

variable {cfg : Params} {p : Phase} {m : M Next}

theorem magicRule_token {a : Alg} (h : magicRule a p = some m) : TokenRule cfg p a.magicToken m := by
  cases p <;> cases h
  exact .magic a _

theorem hufHeaderRule_token {total : Word} (h : hufHeaderRule total p = some m) :
    TokenRule cfg p (.hufHeader total) m := by
  unfold hufHeaderRule at h
  split at h <;> cases h
  exact .hufHeader total

theorem treeInternalRule_token (h : treeInternalRule p = some m) : TokenRule cfg p .hufTreeInternal m := by
  cases p <;> cases h
  exact .treeInternal _ _

theorem treeLeafRule_token {sym : Byte} (h : treeLeafRule sym p = some m) :
    TokenRule cfg p (.hufTreeLeaf sym) m := by
  cases p <;> cases h
  exact .treeLeaf sym _ _

theorem hufCodeRule_token {bits : List Bool} (h : hufCodeRule bits p = some m) :
    TokenRule cfg p (.hufCode bits) m := by
  cases p <;> cases h
  exact .hufCode bits _

theorem lz77HeaderRule_token {sb lb : BitVec 5} (h : lz77HeaderRule cfg sb lb p = some m) :
    TokenRule cfg p (.lz77Header sb lb) m := by
  unfold lz77HeaderRule at h
  split at h <;> cases h
  exact .lz77Header sb lb

theorem lz78HeaderRule_token {db bb : BitVec 5} (h : lz78HeaderRule cfg db bb p = some m) :
    TokenRule cfg p (.lz78Header db bb) m := by
  unfold lz78HeaderRule at h
  split at h <;> cases h
  exact .lz78Header db bb

theorem lzwHeaderRule_token {db bb : BitVec 5} (h : lzwHeaderRule cfg db bb p = some m) :
    TokenRule cfg p (.lzwHeader db bb) m := by
  unfold lzwHeaderRule at h
  split at h <;> cases h
  exact .lzwHeader db bb

theorem blockFullRule_token (h : blockFullRule p = some m) : TokenRule cfg p .blockFull m := by
  cases p <;> cases h
  exact .blockFull _

theorem blockShortRule_token {count : Nat} (h : blockShortRule count p = some m) :
    TokenRule cfg p (.blockShort count) m := by
  cases p <;> cases h
  exact .blockShort _ count

theorem lz77LiteralRule_token {b : Byte} (h : lz77LiteralRule b p = some m) :
    TokenRule cfg p (.lz77Literal b) m := by
  unfold lz77LiteralRule at h
  split at h <;> cases h
  exact .lz77Literal b

theorem lz77MatchRule_token {len pos : Nat} {b : Byte} (h : lz77MatchRule len pos b p = some m) :
    TokenRule cfg p (.lz77Match len pos b) m := by
  unfold lz77MatchRule at h
  split at h <;> cases h
  exact .lz77Match len pos b

theorem lz78LiteralRule_token {b : Byte} (h : lz78LiteralRule b p = some m) :
    TokenRule cfg p (.lz78Literal b) m := by
  unfold lz78LiteralRule at h
  split at h <;> cases h
  exact .lz78Literal b

theorem lz78PhraseRule_token {index : Nat} {b : Byte} (h : lz78PhraseRule index b p = some m) :
    TokenRule cfg p (.lz78Phrase index b) m := by
  unfold lz78PhraseRule at h
  split at h <;> cases h
  exact .lz78Phrase index b

theorem lzwIndexRule_token {index : Nat} (h : lzwIndexRule cfg index p = some m) :
    TokenRule cfg p (.lzwIndex index) m := by
  unfold lzwIndexRule at h
  split at h <;> cases h
  exact .lzwIndex index

end tokens

/-- The stretch of an instruction is a command's in its frame, or a token's in a phase that reads it. -/
theorem instrStretch_cases {i : Instr} {s : State} {r : Stretch} (h : instrStretch i s = some r) :
    (∃ m, CommandRule s.cfg s.arg s.config i m ∧ r = commandStretch i m (entered i s)) ∨
      ∃ m, TokenRule s.cfg s.phase i m ∧ r = ⟨{ s with current := some i }, m⟩ := by
  have token {f : Phase → Option (M Next)} (hf : ∀ m, f s.phase = some m → TokenRule s.cfg s.phase i m)
      (h : tokenStretch i f s = some r) :
      ∃ m, TokenRule s.cfg s.phase i m ∧ r = ⟨{ s with current := some i }, m⟩ := by
    obtain ⟨m, hm, rfl⟩ := tokenStretch_some h
    exact ⟨m, hf m hm, rfl⟩
  cases i with
  | nop => exact .inl ⟨_, .nop, (Option.some.inj h).symm⟩
  | srcReset => exact .inl ⟨_, .srcReset, (Option.some.inj h).symm⟩
  | srcGetBit => exact .inl ⟨_, .srcGetBit, (Option.some.inj h).symm⟩
  | srcGetBits n => exact .inl ⟨_, .srcGetBits n, (Option.some.inj h).symm⟩
  | snkReset => exact .inl ⟨_, .snkReset, (Option.some.inj h).symm⟩
  | snkPutBit bit => exact .inl ⟨_, .snkPutBit bit, (Option.some.inj h).symm⟩
  | snkPutBits n => exact .inl ⟨_, .snkPutBits n, (Option.some.inj h).symm⟩
  | snkFlush => exact .inl ⟨_, .snkFlush, (Option.some.inj h).symm⟩
  | freqClear => exact .inl ⟨_, .freqClear, (Option.some.inj h).symm⟩
  | freqAdd sym => exact .inl ⟨_, .freqAdd sym, (Option.some.inj h).symm⟩
  | freqGet sym => exact .inl ⟨_, .freqGet sym, (Option.some.inj h).symm⟩
  | hufBuild => exact .inl ⟨_, .hufBuild, (Option.some.inj h).symm⟩
  | hufCodeLen sym => exact .inl ⟨_, .hufCodeLen sym, (Option.some.inj h).symm⟩
  | hufPutSym sym => exact .inl ⟨_, .hufPutSym sym, (Option.some.inj h).symm⟩
  | hufSerialize => exact .inl ⟨_, .hufSerialize, (Option.some.inj h).symm⟩
  | hufDeserialize => exact .inl ⟨_, .hufDeserialize, (Option.some.inj h).symm⟩
  | hufWalkReset => exact .inl ⟨_, .hufWalkReset, (Option.some.inj h).symm⟩
  | hufAddBit bit => exact .inl ⟨_, .hufAddBit bit, (Option.some.inj h).symm⟩
  | envPutMagic alg => exact .inl ⟨_, .envPutMagic alg, (Option.some.inj h).symm⟩
  | envGetMagic => exact .inl ⟨_, .envGetMagic, (Option.some.inj h).symm⟩
  | encBody alg => exact .inl ⟨_, .encBody alg, (Option.some.inj h).symm⟩
  | decBody alg => exact .inl ⟨_, .decBody alg, (Option.some.inj h).symm⟩
  | enc => exact .inl ⟨_, .enc, (Option.some.inj h).symm⟩
  | dec => exact .inl ⟨_, .dec, (Option.some.inj h).symm⟩
  | softReset => exact .inl ⟨_, .softReset, (Option.some.inj h).symm⟩
  | magicHuf => exact .inr (token (fun _ => magicRule_token) h)
  | magicLz77 => exact .inr (token (fun _ => magicRule_token) h)
  | magicLz78 => exact .inr (token (fun _ => magicRule_token) h)
  | magicLzw => exact .inr (token (fun _ => magicRule_token) h)
  | hufHeader total => exact .inr (token (fun _ => hufHeaderRule_token) h)
  | hufTreeInternal => exact .inr (token (fun _ => treeInternalRule_token) h)
  | hufTreeLeaf sym => exact .inr (token (fun _ => treeLeafRule_token) h)
  | hufCode bits => exact .inr (token (fun _ => hufCodeRule_token) h)
  | lz77Header sb lb => exact .inr (token (fun _ => lz77HeaderRule_token) h)
  | lz78Header db bb => exact .inr (token (fun _ => lz78HeaderRule_token) h)
  | lzwHeader db bb => exact .inr (token (fun _ => lzwHeaderRule_token) h)
  | blockFull => exact .inr (token (fun _ => blockFullRule_token) h)
  | blockShort count => exact .inr (token (fun _ => blockShortRule_token) h)
  | lz77Literal b => exact .inr (token (fun _ => lz77LiteralRule_token) h)
  | lz77Match len pos b => exact .inr (token (fun _ => lz77MatchRule_token) h)
  | lz78Literal b => exact .inr (token (fun _ => lz78LiteralRule_token) h)
  | lz78Phrase index b => exact .inr (token (fun _ => lz78PhraseRule_token) h)
  | lzwIndex index => exact .inr (token (fun _ => lzwIndexRule_token) h)

end Sys2Proof.Machine

namespace Sys2Proof.Machine

/-! ## Instructions read from bits are well-formed -/

theorem takeField_some {n : Nat} {bits r : List Bool} {v : Nat} (h : takeField n bits = some (v, r)) : v < 2 ^ n := by
  unfold takeField at h
  split at h
  · rename_i hn
    have hv : bitsValue 0 (bits.take n) = v := congrArg Prod.fst (Option.some.inj h)
    have hlt := bitsValue_lt (bits.take n)
    rwa [hv, List.length_take_of_le hn] at hlt
  · cases h

/-- A token that comes after a field comes from a value that fits the field. -/
theorem withField_instr {n : Nat} {bits r : List Bool} {k : Nat → List Bool → Decoded} {i : Instr}
    (h : withField n bits k = .instr i r) : ∃ v rest, v < 2 ^ n ∧ k v rest = .instr i r := by
  unfold withField at h
  split at h
  · cases h
  · rename_i v rest hv
    exact ⟨v, rest, takeField_some hv, h⟩

theorem withVersion_instr {bits r : List Bool} {k : List Bool → Decoded} {i : Instr}
    (h : withVersion bits k = .instr i r) : ∃ rest, k rest = .instr i r := by
  obtain ⟨v, rest, -, h⟩ := withField_instr h
  split at h
  · exact ⟨rest, h⟩
  · cases h

theorem decodeLzHeader_instr {mk : BitVec 5 → BitVec 5 → Instr} {bits r : List Bool} {i : Instr}
    (h : decodeLzHeader mk bits = .instr i r) : ∃ p1 p2, i = mk p1 p2 := by
  obtain ⟨r1, h⟩ := withVersion_instr h
  obtain ⟨p1, r2, -, h⟩ := withField_instr h
  obtain ⟨p2, r3, -, h⟩ := withField_instr h
  cases h
  exact ⟨_, _, rfl⟩

theorem commandPlain_ok {a : BitVec 8} {b : BitVec 16} {i j : Instr} (h : commandPlain a b i = .ok j) : j = i := by
  unfold commandPlain at h
  split at h <;> cases h
  rfl

theorem commandCount_ok {a : BitVec 8} {b : BitVec 16} {mk : Byte → Instr} {j : Instr}
    (h : commandCount a b mk = .ok j) : bitCountOk a = true ∧ j = mk a := by
  unfold commandCount at h
  split at h
  · cases h
  · split at h <;> cases h
    exact ⟨by assumption, rfl⟩

theorem commandBit_ok {a : BitVec 8} {b : BitVec 16} {mk : Bool → Instr} {j : Instr}
    (h : commandBit a b mk = .ok j) : ∃ bit, j = mk bit := by
  unfold commandBit at h
  split at h <;> cases h
  exact ⟨_, rfl⟩

theorem commandSym_ok {a : BitVec 8} {b : BitVec 16} {mk : Byte → Instr} {j : Instr}
    (h : commandSym a b mk = .ok j) : ∃ sym, j = mk sym := by
  unfold commandSym at h
  split at h <;> cases h
  exact ⟨_, rfl⟩

theorem commandAlg_ok {a : BitVec 8} {b : BitVec 16} {mk : Alg → Instr} {j : Instr}
    (h : commandAlg a b mk = .ok j) : ∃ alg, j = mk alg := by
  unfold commandAlg at h
  split at h <;> cases h
  exact ⟨_, rfl⟩

/-- A legal word is a command with legal operands (30_encoding.md R124). -/
theorem decodeCommand_wf {w : Word} {i : Instr} (h : decodeCommand w = .ok i) : i.wfCommand = true := by
  have plain {a b j} (hj : j.wfCommand = true) (h : commandPlain a b j = .ok i) : i.wfCommand = true := by
    rwa [commandPlain_ok h]
  have count {a b mk} (h : commandCount a b mk = .ok i) (hm : ∀ n, bitCountOk n = true → (mk n).wfCommand = true) :
      i.wfCommand = true := by
    obtain ⟨ha, rfl⟩ := commandCount_ok h
    exact hm a ha
  have bit {a b mk} (hm : ∀ x, (mk x).wfCommand = true) (h : commandBit a b mk = .ok i) : i.wfCommand = true := by
    obtain ⟨x, rfl⟩ := commandBit_ok h
    exact hm x
  have sym {a b mk} (hm : ∀ x, (mk x).wfCommand = true) (h : commandSym a b mk = .ok i) : i.wfCommand = true := by
    obtain ⟨x, rfl⟩ := commandSym_ok h
    exact hm x
  have alg {a b mk} (hm : ∀ x, (mk x).wfCommand = true) (h : commandAlg a b mk = .ok i) : i.wfCommand = true := by
    obtain ⟨x, rfl⟩ := commandAlg_ok h
    exact hm x
  unfold decodeCommand at h
  dsimp only at h
  split at h
  case h_4 | h_7 => exact count h fun _ hn => hn
  case h_6 | h_18 => exact bit (fun _ => rfl) h
  case h_10 | h_11 | h_13 | h_14 => exact sym (fun _ => rfl) h
  case h_19 | h_21 | h_22 => exact alg (fun _ => rfl) h
  case h_26 => cases h
  all_goals exact plain rfl h

/-- What a context's bits are is an instruction of that context (30_encoding.md R140). -/
theorem decodeBits_wf {c : Ctx} {bits r : List Bool} {i : Instr} (h : decodeBits c bits = .instr i r) :
    i.wf c = true := by
  cases c with
  | command =>
    obtain ⟨v, r', -, h⟩ := withField_instr h
    split at h <;> cases h
    exact decodeCommand_wf ‹_›
  | envelope =>
    obtain ⟨v, r', -, h⟩ := withField_instr h
    split at h <;> cases h
    rename_i a _
    cases a <;> rfl
  | hufHeader =>
    obtain ⟨r1, h⟩ := withVersion_instr h
    obtain ⟨n, r2, -, h⟩ := withField_instr h
    cases h
    rfl
  | tree =>
    rcases bits with _ | ⟨_ | _, bits⟩
    · cases h
    · cases h; rfl
    · obtain ⟨v, r', -, h⟩ := withField_instr h
      cases h
      rfl
  | code =>
    rcases bits with _ | ⟨b, bits⟩
    · cases h
    · cases h; rfl
  | lzHeader a =>
    cases a <;>
    · obtain ⟨p1, p2, rfl⟩ := decodeLzHeader_instr h
      rfl
  | block width =>
    rcases bits with _ | ⟨_ | _, bits⟩
    · cases h
    · cases h; rfl
    · obtain ⟨v, r', hv, h⟩ := withField_instr h
      cases h
      exact decide_eq_true hv
  | lz77Record l s =>
    rcases bits with _ | ⟨_ | _, bits⟩
    · cases h
    · obtain ⟨v, r', -, h⟩ := withField_instr h
      cases h
      rfl
    · obtain ⟨len, r1, hl, h⟩ := withField_instr h
      obtain ⟨pos, r2, hp, h⟩ := withField_instr h
      obtain ⟨b, r3, -, h⟩ := withField_instr h
      cases h
      simp [Instr.wf, hl, hp]
  | lz78Record d =>
    rcases bits with _ | ⟨_ | _, bits⟩
    · cases h
    · obtain ⟨v, r', -, h⟩ := withField_instr h
      cases h
      rfl
    · obtain ⟨v, r1, hv, h⟩ := withField_instr h
      obtain ⟨b, r2, -, h⟩ := withField_instr h
      cases h
      exact decide_eq_true hv
  | lzwRecord d =>
    obtain ⟨v, r', hv, h⟩ := withField_instr h
    cases h
    exact decide_eq_true hv

/-- A phase executes the instructions of the context its decoder reads in. -/
theorem admits_of_wf {p : Phase} {u : Units} {c : Ctx} {i : Instr} (hc : readCtx p u = some c) (h : i.wf c = true) :
    p.admits i = true := by
  unfold readCtx at hc
  split at hc <;> cases hc <;> cases i <;> simp [Instr.wf] at h <;> rfl

/-- No phase but the command's own executes a command. -/
theorem CommandRule.phase {cfg : Params} {arg : Word} {config : ConfigReg} {i : Instr} {m : M Next} {p : Phase}
    (h : CommandRule cfg arg config i m) (hp : p.admits i = true) : p = .command := by
  unfold Phase.admits at hp
  cases h <;> split at hp <;> simp_all

end Sys2Proof.Machine

namespace Sys2Proof.Machine

/-! ## Fetching a token -/

/-- Bits that are no token always end the command. -/
theorem rejectToken_error (p : Phase) (r : Reject) (u : Units) :
    ∃ v, (rejectToken p r).on u = .error (.raise .headerInvalid) v := by
  unfold rejectToken
  split
  · rename_i use m
    cases use
    · exact ⟨_, rfl⟩
    · exact ⟨_, rfl⟩
  · exact ⟨u, rfl⟩

/-- What a fetch delivers is an instruction of the context it reads in. -/
theorem fetchBits_wf {p : Phase} {c : Ctx} {n : Nat} {bits : List Bool} {u v : Units} {i : Instr}
    (h : (fetchBits p c n bits).on u = .ok i v) : i.wf c = true := by
  induction n generalizing bits u with
  | zero => cases h
  | succ n ih =>
    unfold fetchBits at h
    rw [M.run_bind] at h
    split at h
    · split at h
      · exact ih h
      · rename_i hd
        cases h
        exact decodeBits_wf hd
      · rename_i w _ _ r _
        obtain ⟨x, hx⟩ := rejectToken_error p r w
        rw [hx] at h
        cases h
    · cases h

theorem fetchToken_wf {p : Phase} {c : Ctx} {u v : Units} {i : Instr} (h : (fetchToken p c).on u = .ok i v) :
    i.wf c = true := fetchBits_wf h

/-- The fetch as a stretch changes what fetching changes. -/
theorem fetchRule_frame (p : Phase) (c : Ctx) : Frame [.src, .inp, .result, .detect] (fetchRule p c) :=
  Frame.bind (fetchToken_frame p c) fun _ => Frame.pure _

/-- The context of a decoder depends on the parameters of its stream only. -/
theorem readCtx_congr (p : Phase) {u v : Units} (hl : v.lz77 = u.lz77) (hd : v.dz = u.dz) :
    readCtx p v = readCtx p u := by
  unfold readCtx
  rw [hl, hd]

/-- Fetching a token leaves the context as it is. -/
theorem SameBut.readCtx {u v : Units} (h : SameBut [.src, .inp, .result, .detect] u v) (p : Phase) :
    Machine.readCtx p v = Machine.readCtx p u :=
  readCtx_congr p (h .lz77 (by decide)) (h .dz (by decide))

/-! ## Where a stretch can be left -/

/-- The states in which a turn of the sequencer can leave a stretch: at one of its steps, waiting for a port, or at one
of its ends. -/
inductive Stretch.Reaches (r : Stretch) : State → Prop
  | amid {u : Units} (n : Nat) : u = r.start.units ∨ u ∈ r.rule.past r.start.units → r.Reaches (r.start.amid u n)
  | wait {u : Units} (n : Nat) : r.rule.on r.start.units = .error .wait u → r.Reaches (r.start.amid u n)
  | complete {u : Units} : r.rule.on r.start.units = .ok .complete u → r.Reaches (r.start.completed u)
  | goto {u : Units} {q : Phase} : r.rule.on r.start.units = .ok (.goto q) u → r.Reaches (r.start.goesOn q u)
  | fail {u : Units} {e : ErrorCode} : r.rule.on r.start.units = .error (.raise e) u → r.Reaches (r.start.failed e u)

theorem settle_reaches (r : Stretch) : r.Reaches (r.start.settle r.rule) := by
  obtain ⟨u, hu, ht⟩ | ⟨q, u, hu, ht⟩ | ⟨e, u, hu, ht⟩ | ⟨u, hu, ht⟩ := State.settle_cases r.start r.rule <;> rw [ht]
  · exact .complete hu
  · exact .goto hu
  · exact .fail hu
  · exact .wait _ hu

theorem partly_reaches (r : Stretch) (n : Nat) : r.Reaches (r.start.partly n r.rule) := by
  obtain ⟨u, hu, ht⟩ | ht := State.partly_cases r.start n r.rule <;> rw [ht]
  · exact .amid n hu
  · exact settle_reaches r

/-- What executing an instruction does: it runs a stretch of its own, to an end or to a wait. -/
theorem exec_next {i : Instr} {s t : State} (h : exec i s = .next t) :
    ∃ r, instrStretch i s = some r ∧ t = r.start.settle r.rule := by
  rw [exec_eq] at h
  split at h
  · rename_i r hr
    exact ⟨r, hr, (Host.Outcome.next.inj h).symm⟩
  · cases h

theorem instrWork_reaches {limit : Option Nat} {i : Instr} {s t : State}
    (h : (instrWork limit i s).outcome = .next t) : ∃ r, instrStretch i s = some r ∧ r.Reaches t := by
  rw [instrWork_outcome] at h
  split at h
  · rename_i n r hr
    cases h
    exact ⟨r, hr, partly_reaches r n⟩
  · obtain ⟨r, hr, rfl⟩ := exec_next h
    exact ⟨r, hr, settle_reaches r⟩

theorem stretchWork_reaches {limit : Option Nat} {m : M Next} {s t : State}
    (h : (stretchWork limit m s).outcome = .next t) : (Stretch.mk s m).Reaches t := by
  cases limit with
  | none => cases h; exact settle_reaches ⟨s, m⟩
  | some n => cases h; exact partly_reaches ⟨s, m⟩ n

/-! ## The turn of the sequencer -/

/-- The stretches the sequencer may run at its turn in state `s`. -/
inductive State.Runs (s : State) : Stretch → Prop
  /-- A command, from where it began; under the sequencer's invariant it is in its own phase and its operands are
  legal. -/
  | command {i : Instr} {m : M Next} : CommandRule s.cfg s.arg s.config i m →
    (s.seqInv → s.phase = .command ∧ i.wfCommand = true) → s.Runs (commandStretch i m (entered i s.resumed))
  /-- A token, with the units that its fetch left. -/
  | token {i : Instr} {m : M Next} {u : Units} : TokenRule s.cfg s.phase i m →
    SameBut [.src, .inp, .result, .detect] s.origin u →
    (s.seqInv → s.phase.admits i = true ∧ ∀ c ∈ readCtx s.phase u, i.wf c = true) →
    s.Runs ⟨{ s.resumed with units := u, current := some i }, m⟩
  /-- A word that is no command. -/
  | badCommand : s.current = none → s.phase = .command → s.Runs ⟨s.resumed, raise .badCommand⟩
  /-- A fetch that delivers no token in this turn. -/
  | fetch {c : Ctx} : s.current = none → readCtx s.phase s.origin = some c → s.Runs ⟨s.resumed, fetchRule s.phase c⟩
  /-- The stretch of the phase. -/
  | stretch {m : M Next} : s.current = none → stretchOf s.cfg s.phase = some m → s.Runs ⟨s.resumed, m⟩

/-- An instruction in units that a fetch may have left is one of the stretches the sequencer may run. -/
theorem instrStretch_runs {s : State} {i : Instr} {u : Units} {r : Stretch}
    (hr : instrStretch i { s.resumed with units := u } = some r)
    (hu : SameBut [.src, .inp, .result, .detect] s.origin u)
    (hcmd : (∃ m, CommandRule s.cfg s.arg s.config i m) →
      u = s.origin ∧ (s.seqInv → s.phase = .command ∧ i.wfCommand = true))
    (hi : s.seqInv → s.phase.admits i = true ∧ ∀ c ∈ readCtx s.phase u, i.wf c = true) : s.Runs r := by
  obtain ⟨m, hm, rfl⟩ | ⟨m, hm, rfl⟩ := instrStretch_cases hr
  · obtain ⟨rfl, hwf⟩ := hcmd ⟨m, hm⟩
    exact .command hm hwf
  · exact .token hm hu hi

/-- A token's context admits no command. -/
theorem not_command_of_wf {cfg : Params} {arg : Word} {config : ConfigReg} {i : Instr} {m : M Next} {p : Phase}
    {u : Units} {c : Ctx} (hc : readCtx p u = some c) (h : i.wf c = true) : ¬ CommandRule cfg arg config i m := by
  intro hm
  unfold readCtx at hc
  split at hc <;> cases hc <;> cases hm <;> simp [Instr.wf] at h

/-- The token that a fetch delivers is one of the stretches the sequencer may run. -/
theorem fetched_runs {s : State} {c : Ctx} {i : Instr} {u : Units} {r : Stretch}
    (hc : readCtx s.phase s.origin = some c) (hf : (fetchToken s.phase c).on s.origin = .ok i u)
    (hr : instrStretch i { s.resumed with units := u } = some r) : s.Runs r := by
  have hu : SameBut [.src, .inp, .result, .detect] s.origin u := by
    have := (fetchToken_frame s.phase c).on s.origin
    rwa [hf] at this
  have hwf : i.wf c = true := fetchToken_wf hf
  refine instrStretch_runs hr hu (fun ⟨m, hm⟩ => absurd hm (not_command_of_wf hc hwf)) fun _ =>
    ⟨admits_of_wf hc hwf, fun c' hc' => ?_⟩
  rw [hu.readCtx, hc] at hc'
  rwa [← Option.some.inj hc']

theorem fetchWork_reaches {limit : Option Nat} {s t : State} {c : Ctx} (hcur : s.current = none)
    (hc : readCtx s.phase s.origin = some c) (h : (fetchWork limit c s.resumed).outcome = .next t) :
    ∃ r, s.Runs r ∧ r.Reaches t := by
  unfold fetchWork at h
  split at h
  · rename_i i u hf
    obtain ⟨r, hr, rfl⟩ := exec_next h
    exact ⟨r, fetched_runs hc hf hr, settle_reaches r⟩
  · rename_i i u n hf
    dsimp only at h
    split at h
    · exact ⟨_, .fetch hcur hc, stretchWork_reaches h⟩
    · obtain ⟨r, hr, ht⟩ := instrWork_reaches h
      exact ⟨r, fetched_runs hc hf hr, ht⟩
  · exact ⟨_, .fetch hcur hc, stretchWork_reaches h⟩

/-- A running phase reads its next token, runs a stretch of its own, or executes a command. -/
theorem phase_idle_of_no_work {cfg : Params} {p : Phase} {u : Units} (hp : p ≠ .command) (hc : readCtx p u = none)
    (hm : stretchOf cfg p = none) : p = .idle := by
  cases p with
  | idle => rfl
  | command => exact absurd rfl hp
  | header a | block a | record a => cases a <;> cases hc
  | dictEmit a => cases a <;> cases hm
  | magic _ | tree _ _ | code _ => cases hc
  | _ => cases hm

/-- Everything a turn of the sequencer can do. -/
theorem turnWork_cases {limit : Option Nat} {s t : State} (h : (turnWork limit s).outcome = .next t) :
    (t = s ∧ (s.busy = true → s.phase = .idle)) ∨ (s.busy = true ∧ ∃ r, s.Runs r ∧ r.Reaches t) := by
  unfold turnWork at h
  split at h
  case isFalse hb => exact .inl ⟨(Host.Outcome.next.inj h).symm, fun h => absurd h hb⟩
  case isTrue hb =>
    dsimp only at h
    split at h
    · rename_i i hi
      obtain ⟨r, hr, ht⟩ := instrWork_reaches h
      refine .inr ⟨hb, r, instrStretch_runs hr ((SameBut.chains _).refl _) (fun ⟨m, hm⟩ => ⟨rfl, fun hs => ?_⟩)
        fun hs => ?_, ht⟩
      · obtain ⟨-, -, -, -, -, hcur⟩ := hs
        have hadm := (hcur i hi).2.1
        have hp := hm.phase hadm
        exact ⟨hp, by rwa [hp] at hadm⟩
      · obtain ⟨-, -, -, -, -, hcur⟩ := hs
        exact (hcur i hi).2
    · rename_i hi
      split at h
      · rename_i hp
        unfold commandWork at h
        split at h
        · rename_i i hd
          obtain ⟨r, hr, ht⟩ := instrWork_reaches h
          obtain ⟨m, hm, rfl⟩ | ⟨m, hm, rfl⟩ := instrStretch_cases hr
          · exact .inr ⟨hb, _, .command hm fun _ => ⟨hp, decodeCommand_wf hd⟩, ht⟩
          · rw [hp] at hm
            cases hm
        · exact .inr ⟨hb, _, .badCommand hi hp, stretchWork_reaches h⟩
      · rename_i hp
        split at h
        · rename_i c hc
          exact .inr ⟨hb, fetchWork_reaches hi hc h⟩
        · rename_i hc
          split at h
          · rename_i m hm
            exact .inr ⟨hb, _, .stretch hi hm, stretchWork_reaches h⟩
          · rename_i hm
            exact .inl ⟨(Host.Outcome.next.inj h).symm, fun _ => phase_idle_of_no_work hp hc hm⟩

/-! ## The moves of the environment -/

/-- What each move of the environment can make of a state. -/
inductive Env (s : State) : Move → State → Prop
  /-- A CMD write to an idle block. -/
  | latch (w a : Nat) (v : Word) : s.busy = false → Env s (.write w a v) { s with cmd := v }.begin
  /-- Any other write; IRQ_PEND can only be cleared. -/
  | write {w a : Nat} {v : Word} {t : State} :
    t = { s with arg := t.arg, config := t.config, ie := t.ie, irqPend := t.irqPend, ovr := t.ovr } →
    (t.irqPend = true → s.irqPend = true) → Env s (.write w a v) t
  | read {w a : Nat} {t : State} : t = { s with rdata := t.rdata, draws := t.draws } → Env s (.read w a) t
  | offer (item : InItem) : Env s (.offer item) (s.mapPorts (·.offered item))
  | answer (a : Answer) : Env s (.answer a) (s.mapPorts (·.answered a))
  | connectInput (seekable : Bool) (replay : Option (List InItem)) : s.busy = false →
    Env s (.connectInput seekable replay)
      { s with units := { s.units with inp := freshInput seekable replay s.units.inp.taken } }
  | connectOutput (habit : Option Answer) : s.busy = false →
    Env s (.connectOutput habit)
      { s with units := { s.units with out := { s.units.out with answers := [], habit := habit } } }
  | hardReset : Env s .hardReset (hardReset s)

theorem hostWrite_env (s : State) (w a : Nat) (offset : Nat) (v : Word) :
    Env s (.write w a v) (hostWrite s offset v) := by
  unfold hostWrite
  split
  · unfold hostCommand
    split
    · exact .write rfl id
    · exact .latch w a v (by simpa using ‹¬ s.busy = true›)
  · unfold writeRegister
    split
    · split <;> exact .write rfl id
    · exact .write rfl fun h => (Bool.and_eq_true_iff.1 h).1
    · split <;> exact .write rfl id
    · exact .write rfl id
    · exact .write rfl id

/-- A read of a register that is free while a command runs. -/
theorem freeRead_same (s : State) (v : Word) :
    (if s.busy then freeRead s else (s, v)).1 =
      { s with draws := (if s.busy then freeRead s else (s, v)).1.draws } := by
  split <;> rfl

theorem readRegister_same (s : State) (offset : Nat) :
    (readRegister s offset).1 = { s with draws := (readRegister s offset).1.draws } := by
  unfold readRegister
  split
  case h_3 | h_7 | h_8 => exact freeRead_same s _
  all_goals rfl

theorem hostRead_env (s : State) (w a : Nat) (offset : Nat) : Env s (.read w a) (hostRead s offset) := by
  refine .read ?_
  have h := readRegister_same s offset
  unfold hostRead
  dsimp only
  rw [h]

/-- Everything a step can do. -/
theorem step_cases {s t : State} (h : step s = .next t) :
    (∃ m rest, s.script = m :: rest ∧ Env { s with script := rest } m t) ∨
      (t = s.turned ∧ (s.busy = true → s.phase = .idle)) ∨
      (s.busy = true ∧ ∃ r, s.turned.Runs r ∧ r.Reaches t) := by
  have turn {limit} (h : (turnWork limit s.turned).outcome = .next t) :
      (t = s.turned ∧ (s.busy = true → s.phase = .idle)) ∨ (s.busy = true ∧ ∃ r, s.turned.Runs r ∧ r.Reaches t) :=
    turnWork_cases h
  unfold step at h
  rcases hs : s.script with _ | ⟨m, rest⟩
  · rw [stepWork_core (.inl (by simp [hs]))] at h
    exact .inr (turn h)
  · rw [stepWork_move hs] at h
    have he : s.turned = { s with script := rest } := by simp [State.turned, hs]
    cases m with
    | core => exact .inr (turn (by rw [he]; exact h))
    | coreFor n => exact .inr (turn (by rw [he]; exact h))
    | write w a v =>
      refine .inl ⟨_, _, rfl, ?_⟩
      unfold moveWork at h
      dsimp only at h
      split at h <;> cases h
      exact hostWrite_env _ w a _ v
    | read w a =>
      refine .inl ⟨_, _, rfl, ?_⟩
      unfold moveWork at h
      dsimp only at h
      split at h <;> cases h
      exact hostRead_env _ w a _
    | offer item => cases h; exact .inl ⟨_, _, rfl, .offer item⟩
    | answer a => cases h; exact .inl ⟨_, _, rfl, .answer a⟩
    | connectInput seekable replay =>
      unfold moveWork whenIdle at h
      dsimp only at h
      split at h <;> cases h
      exact .inl ⟨_, _, rfl, .connectInput seekable replay (by simpa using ‹¬ s.busy = true›)⟩
    | connectOutput habit =>
      unfold moveWork whenIdle at h
      dsimp only at h
      split at h <;> cases h
      exact .inl ⟨_, _, rfl, .connectOutput habit (by simpa using ‹¬ s.busy = true›)⟩
    | hardReset => cases h; exact .inl ⟨_, _, rfl, .hardReset⟩

end Sys2Proof.Machine

namespace Sys2Proof.Machine

/-! # The phases a rule goes on in -/

/-- Where rule `m` goes on in a phase, that phase meets `C`. -/
structure Goes (C : Phase → Prop) (m : M Next) : Prop where
  phase : ∀ {u v q}, m.on u = .ok (.goto q) v → C q

section goes

variable {α : Type} {C : Phase → Prop}

theorem Goes.goto {q : Phase} (h : C q) : Goes C (pure (.goto q)) where
  phase hq := by
    rw [M.run_pure] at hq
    cases hq
    exact h

theorem Goes.complete : Goes C (pure .complete) where
  phase hq := by
    rw [M.run_pure] at hq
    cases hq

theorem Goes.raise (e : ErrorCode) : Goes C (raise e) where
  phase hq := by
    rw [run_raise] at hq
    cases hq

/-- Only the last part of a sequence says how the command goes on. -/
theorem Goes.bind {x : M α} {f : α → M Next} (h : ∀ a, Goes C (f a)) : Goes C (x >>= f) where
  phase hq := by
    rw [M.run_bind] at hq
    split at hq
    · exact (h _).phase hq
    · cases hq

theorem Goes.ite {c : Prop} [Decidable c] {x y : M Next} (hx : Goes C x) (hy : Goes C y) :
    Goes C (if c then x else y) := by
  split
  · exact hx
  · exact hy

/-- A part that is run in one of two cases only says nothing of how the command goes on. -/
theorem Goes.optional {c : Prop} [Decidable c] {x : M Unit} {f : Unit → M Next} (h : ∀ a, Goes C (f a)) :
    Goes C (if c then x >>= f else f ()) := .ite (.bind h) (h ())

theorem Goes.mono {C' : Phase → Prop} {m : M Next} (h : Goes C m) (hC : ∀ q, C q → C' q) : Goes C' m :=
  ⟨fun hq => hC _ (h.phase hq)⟩

theorem Goes.completeWith (w : Word) : Goes C (completeWith w) := .bind fun _ => .complete

theorem Goes.finishDecode : Goes C finishDecode := .bind fun _ => .complete

theorem Goes.finishEncode : Goes C finishEncode := .bind fun _ => .bind fun _ => .ite .complete (.raise _)

end goes

/-- `q` is a phase of a running command, and of no other coded stream than `p`. -/
def Phase.within (p q : Phase) : Bool :=
  q != .idle && (!q.inWindow || p.inWindow) && (!q.inLz78 || p.inLz78) && (!q.encodesLz78 || p.encodesLz78) &&
    (!q.inLzw || p.inLzw)

theorem Phase.within_iff {p q : Phase} : p.within q = true ↔
    q ≠ .idle ∧ (q.inWindow = true → p.inWindow = true) ∧ (q.inLz78 = true → p.inLz78 = true) ∧
      (q.encodesLz78 = true → p.encodesLz78 = true) ∧ (q.inLzw = true → p.inLzw = true) := by
  simp only [Phase.within, Bool.and_eq_true, bne_iff_ne, Bool.or_eq_true, Bool.not_eq_true', and_assoc,
    ← Bool.not_eq_true, imp_iff_not_or]

/-- The phases in which a stream may begin: a command's own rule and a header. -/
def Phase.opens : Phase → Bool
  | .command | .header _ => true
  | _ => false

/-- The phases a rule of phase `p` may go on in. -/
def Phase.leadsTo (p q : Phase) : Prop := q ≠ .idle ∧ (p.opens = false → p.within q = true)

theorem Phase.leadsTo_of_within {p q : Phase} (h : p.within q = true) : p.leadsTo q :=
  ⟨(Phase.within_iff.1 h).1, fun _ => h⟩

/-! ## Commands -/

theorem encodeWith_goes (cfg : Params) (a : Alg) (p1 p2 : BitVec 5) (magic : Bool) :
    Goes (· ≠ .idle) (encodeWith cfg a p1 p2 magic) := by
  have dict (b : DictAlg) : Goes (· ≠ .idle) (dictEncode cfg b p1 p2) :=
    .bind fun _ => .bind fun _ => .bind fun _ => .bind fun _ => .goto nofun
  have lz77 : Goes (· ≠ .idle) (lz77Encode p1 p2) :=
    .bind fun _ => .bind fun _ => .bind fun _ => .goto nofun
  cases a with
  | huf => exact .bind fun _ => .ite (.bind fun _ => .goto nofun) (.raise _)
  | lz77 => exact .optional fun _ => lz77
  | lz78 => exact .optional fun _ => dict .lz78
  | lzw => exact .optional fun _ => dict .lzw

/-- The commands that begin to code a stream. -/
def encodes : Instr → Bool
  | .enc | .encBody _ => true
  | _ => false

/-- A command that is no encoder goes on in no phase of a coded stream. -/
theorem CommandRule.within {cfg : Params} {arg : Word} {config : ConfigReg} {i : Instr} {m : M Next}
    (h : CommandRule cfg arg config i m) (hi : encodes i = false) : Goes (Phase.command.within · = true) m := by
  cases h with
  | enc | encBody => cases hi
  | nop => exact .complete
  | srcReset | snkReset | snkPutBit | snkFlush | freqClear | hufSerialize | envPutMagic | softReset | freqAdd
  | hufBuild =>
    exact .bind fun _ => .complete
  | srcGetBit | freqGet | hufCodeLen => exact .bind fun _ => .completeWith _
  | srcGetBits => exact .ite (.bind fun _ => .completeWith _) (.raise _)
  | snkPutBits => exact .ite (.bind fun _ => .complete) (.raise _)
  | hufPutSym => exact .bind fun _ => .ite (.raise _) (.bind fun _ => .complete)
  | hufDeserialize => exact .bind fun _ => .goto rfl
  | hufWalkReset => exact .bind fun _ => .ite (.bind fun _ => .complete) (.raise _)
  | hufAddBit => exact .bind fun _ => .ite (.bind fun _ => .completeWith _) (.raise _)
  | envGetMagic => exact .goto rfl
  | decBody => exact .goto rfl
  | dec => exact .bind fun _ => .bind fun _ => .goto rfl

theorem CommandRule.leadsTo {cfg : Params} {arg : Word} {config : ConfigReg} {i : Instr} {m : M Next}
    (h : CommandRule cfg arg config i m) : Goes Phase.command.leadsTo m := by
  have encoder {m} (hm : Goes (· ≠ .idle) m) : Goes Phase.command.leadsTo m := hm.mono fun _ hq => ⟨hq, nofun⟩
  cases he : encodes i with
  | false => exact (h.within he).mono fun _ => Phase.leadsTo_of_within
  | true =>
    cases h with
    | enc => exact encoder (.bind fun _ => .bind fun _ => .bind fun _ => encodeWith_goes ..)
    | encBody => exact encoder (.bind fun _ => encodeWith_goes ..)
    | _ => cases he

/-! ## Tokens -/

theorem addTreeNode_goes (n : Node) (opens : Bool) (stack stack' : List Nat) (use : TreeUse) :
    Goes ((Phase.tree stack' use).within · = true) (addTreeNode n opens stack use) := by
  refine .bind fun nodes => ?_
  dsimp only
  refine .bind fun _ => ?_
  split
  · refine .bind fun _ => .bind fun h => ?_
    unfold afterTree
    split
    · exact .complete
    · split
      · exact .goto rfl
      · exact .goto rfl
  · exact .goto rfl

theorem ruleHufCode_goes (bits : List Bool) (produced n : Nat) :
    Goes ((Phase.code n).within · = true) (ruleHufCode bits produced) := by
  induction bits generalizing produced with
  | nil => exact .goto rfl
  | cons b bits ih =>
    refine .bind fun r => ?_
    cases r with
    | none => exact ih produced
    | some sym => exact .bind fun _ => .bind fun _ => .ite (ih _) .finishDecode

theorem nextRecord_goes (a : Lz) : Goes ((Phase.record a).within · = true) (nextRecord a) :=
  .bind fun _ => by cases a <;> exact .ite (.goto rfl) (.goto rfl)

theorem blockOf_goes (a : Lz) (count : Nat) : Goes ((Phase.block a).within · = true) (blockOf a count) := by
  cases a with
  | lz77 => exact .bind fun _ => .ite .finishDecode (.goto rfl)
  | lz78 => exact .bind fun _ => .ite .finishDecode (.bind fun _ => .goto rfl)
  | lzw => exact .bind fun _ => .ite .finishDecode (.bind fun _ => .goto rfl)

theorem lz77Record_goes (len pos : Nat) (b : Byte) :
    Goes ((Phase.record .lz77).within · = true) (lz77Record len pos b) :=
  .bind fun _ => .bind fun _ => .bind fun _ => .bind fun _ => .bind fun _ => .ite (.goto rfl) (.goto rfl)

theorem lz78Record_goes (w : Option Nat) (c : Byte) : Goes ((Phase.record .lz78).within · = true) (lz78Record w c) :=
  .bind fun _ => .bind fun _ => .ite (.raise _) (.bind fun _ => .bind fun _ => .bind fun _ => nextRecord_goes _)

theorem ruleLzwIndex_goes (cfg : Params) (p : Nat) :
    Goes ((Phase.record .lzw).within · = true) (ruleLzwIndex cfg p) := by
  refine .bind fun prev => .bind fun dict => ?_
  split
  · exact .raise _
  · exact .bind fun _ => .ite (.raise _)
      (.bind fun _ => .bind fun _ => .bind fun _ => .bind fun _ => nextRecord_goes _)

/-- A token of another kind than a header goes on in its own stream. -/
theorem TokenRule.within {cfg : Params} {p : Phase} {i : Instr} {m : M Next} (h : TokenRule cfg p i m)
    (hp : p.opens = false) : Goes (p.within · = true) m := by
  cases h with
  | hufHeader | lz77Header | lz78Header | lzwHeader => cases hp
  | magic a use =>
    cases use with
    | identify => exact .bind fun _ => .bind fun _ => .complete
    | decode => exact .bind fun _ => .goto rfl
  | treeInternal => exact .bind fun _ => .ite (.raise _) (addTreeNode_goes ..)
  | treeLeaf => exact .bind fun _ => .ite (.raise _) (addTreeNode_goes ..)
  | hufCode => exact ruleHufCode_goes ..
  | blockFull a => cases a <;> exact .bind fun _ => blockOf_goes ..
  | blockShort a => exact blockOf_goes ..
  | lz77Literal => exact lz77Record_goes ..
  | lz77Match => exact .bind fun _ => .ite (.raise _) (.ite (.raise _) (lz77Record_goes ..))
  | lz78Literal => exact lz78Record_goes ..
  | lz78Phrase => exact .bind fun _ => .ite (.raise _) (lz78Record_goes ..)
  | lzwIndex => exact ruleLzwIndex_goes ..

theorem TokenRule.leadsTo {cfg : Params} {p : Phase} {i : Instr} {m : M Next} (h : TokenRule cfg p i m) :
    Goes p.leadsTo m := by
  have header {a} {q : Phase} (hq : q ≠ .idle) : (Phase.header a).leadsTo q := ⟨hq, nofun⟩
  cases hp : p.opens with
  | false => exact (h.within hp).mono fun _ => Phase.leadsTo_of_within
  | true =>
    cases h with
    | hufHeader => exact .bind fun _ => .ite .finishDecode (.bind fun _ => .goto (header nofun))
    | lz77Header => exact .bind fun _ => .bind fun _ => .goto (header nofun)
    | lz78Header => exact .bind fun _ => .bind fun _ => .goto (header nofun)
    | lzwHeader => exact .bind fun _ => .bind fun _ => .goto (header nofun)
    | _ => cases hp

/-! ## The other stretches -/

theorem dictBlockStart_goes (a : DictAlg) : Goes ((Phase.dictEmit a).within · = true) (dictBlockStart a) :=
  .bind fun _ => by cases a <;> exact .goto rfl

/-- A stretch of an encoder goes on in its own stream. -/
theorem stretchOf_within {cfg : Params} {p : Phase} {m : M Next} (h : stretchOf cfg p = some m) :
    Goes (p.within · = true) m := by
  unfold stretchOf at h
  split at h <;> cases h
  · rename_i left
    cases left with
    | zero => exact .finishDecode
    | succ left =>
      refine .bind fun h => ?_
      split
      · exact .bind fun _ => .goto rfl
      · exact .raise _
  · refine .bind fun item => ?_
    split
    · exact .goto rfl
    · exact .bind fun _ => .goto rfl
  · exact .bind fun _ => .optional fun _ => .bind fun _ => .bind fun _ => .bind fun _ => .bind fun _ =>
      .ite (.bind fun _ => .goto rfl) (.goto rfl)
  · refine .bind fun item => .bind fun n => ?_
    split
    · exact .ite (.goto rfl) (.raise _)
    · exact .bind fun _ => .ite (.raise _) (.bind fun _ => .goto rfl)
  · unfold lz77Read
    refine .optional fun _ => .bind fun _ => .ite (.bind fun item => ?_) (.goto rfl)
    split
    · exact .goto rfl
    · exact .bind fun _ => .goto rfl
  · exact .bind fun _ => .bind fun _ => .bind fun _ => .ite (.goto rfl) (.goto rfl)
  · exact .bind fun _ => .ite (.goto rfl) (.bind fun _ => .bind fun _ => .bind fun _ => .goto rfl)
  · rename_i a
    refine .bind fun _ => .ite (.bind fun item => ?_) (.goto (by cases a <;> rfl))
    split
    · exact .goto (by cases a <;> rfl)
    · exact .bind fun _ => .goto (by cases a <;> rfl)
  · rename_i a
    exact .bind fun _ => .bind fun _ => .bind fun _ => .ite (.goto rfl) (.goto (by cases a <;> rfl))
  · exact .bind fun _ => .ite (.bind fun _ => .bind fun _ => .bind fun _ => .bind fun _ => .goto rfl)
      (dictBlockStart_goes _)
  · exact .bind fun _ => .ite (.bind fun _ => .bind fun _ => .goto rfl) (.bind fun _ => dictBlockStart_goes _)
  · exact .finishEncode

/-- The fetch by itself leaves the phase as it is. -/
theorem fetchRule_goes (p : Phase) (c : Ctx) : Goes (· = p) (fetchRule p c) := .bind fun _ => .goto rfl

end Sys2Proof.Machine

namespace Sys2Proof.Machine

/-! # The sequencer's invariant (10_state.md R31, R37) -/

/-- A command runs, and the instruction that is executed, if there is one, is one its phase reads. -/
structure State.Running (s : State) : Prop where
  busy : s.busy = true
  phase : s.phase ≠ .idle
  done : s.done = false
  err : s.err = false
  ecode : s.ecode = 0
  irqPend : s.irqPend = false
  current : ∀ i ∈ s.current, s.phase.admits i = true ∧ ∀ c ∈ readCtx s.phase s.units, i.wf c = true

/-- A state in which a command runs that has begun no instruction. -/
theorem State.Running.resumed {s : State} (hs : s.seqInv) (hb : s.busy = true) (hc : s.current = none) :
    s.resumed.Running := by
  obtain ⟨-, hrun, -, herr, -, -⟩ := hs
  obtain ⟨hp, hd, he, hi⟩ := hrun hb
  exact ⟨hb, hp, hd, he, by simpa [he] using herr, hi, by simp [hc]⟩

@[simp] theorem entered_busy (i : Instr) (s : State) : (entered i s).busy = s.busy := by
  cases i <;> rfl

@[simp] theorem entered_ie (i : Instr) (s : State) : (entered i s).ie = s.ie := by
  cases i <;> rfl

@[simp] theorem entered_units (i : Instr) (s : State) : (entered i s).units = s.units := by
  cases i <;> rfl

@[simp] theorem entered_cfg (i : Instr) (s : State) : (entered i s).cfg = s.cfg := by
  cases i <;> rfl

/-- Every stretch of a running command begins in a state in which it runs. -/
theorem State.Runs.running {s : State} {r : Stretch} (h : s.Runs r) (hs : s.seqInv) (hb : s.busy = true) :
    r.start.Running := by
  obtain ⟨-, hrun, -, herr, -, -⟩ := id hs
  obtain ⟨hp, hd, he, hi⟩ := hrun hb
  cases h with
  | command hm hwf =>
    exact ⟨rfl, nofun, rfl, rfl, rfl, rfl, fun j hj => ⟨Option.some.inj hj ▸ (hwf hs).2, nofun⟩⟩
  | token hm hu hi' =>
    exact ⟨hb, hp, hd, he, by simpa [he] using herr, hi, fun j hj => Option.some.inj hj ▸ hi' hs⟩
  | badCommand hc => exact .resumed hs hb hc
  | fetch hc => exact .resumed hs hb hc
  | stretch hc => exact .resumed hs hb hc

/-- No rule goes on in the idle phase. -/
theorem State.Runs.goes {s : State} {r : Stretch} (h : s.Runs r) : Goes (· ≠ .idle) r.rule := by
  cases h with
  | command hm => exact hm.leadsTo.mono fun _ hq => hq.1
  | token hm => exact hm.leadsTo.mono fun _ hq => hq.1
  | badCommand => exact .raise _
  | fetch _ hc =>
    refine (fetchRule_goes _ _).mono fun q hq hidle => ?_
    rw [← hq, hidle] at hc
    cases hc
  | stretch _ hm => exact (stretchOf_within hm).mono fun _ hq => (Phase.within_iff.1 hq).1

theorem ErrorCode.code_ne_zero (e : ErrorCode) : e.code ≠ 0#4 := by cases e <;> decide

theorem ErrorCode.code_le (e : ErrorCode) : e.code.toNat ≤ 8 := by cases e <;> decide

/-- Wherever a turn leaves a stretch, the sequencer is consistent. -/
theorem Stretch.Reaches.seqInv {r : Stretch} {t : State} (h : r.Reaches t) (hr : r.start.Running)
    (hg : Goes (· ≠ .idle) r.rule) : t.seqInv := by
  obtain ⟨hb, hp, hd, he, hec, hi, hc⟩ := hr
  have amid (u : Units) (n : Nat) : (r.start.amid u n).seqInv :=
    ⟨fun h => absurd (hb.symm.trans h) (by simp), fun _ => ⟨hp, hd, he, hi⟩, fun _ => he,
      by simp [he, hec], by simp [hec], fun i hm => ⟨nofun, hc i hm⟩⟩
  cases h with
  | amid n _ => exact amid _ n
  | wait n _ => exact amid _ n
  | complete _ => simp [State.seqInv]
  | goto hq =>
    have hq := hg.phase hq
    exact ⟨fun h => absurd (hb.symm.trans h) (by simp), fun _ => ⟨hq, hd, he, hi⟩, fun _ => he,
      by simp [he, hec], by simp [hec], nofun⟩
  | fail _ => simp [State.seqInv, ErrorCode.code_ne_zero, ErrorCode.code_le]

theorem mapPorts_origin (s : State) (f : Units → Units) : (s.mapPorts f).origin = f s.origin := by
  unfold State.origin State.mapPorts
  cases s.begun <;> rfl

/-- A move at the ports changes neither the context a decoder reads in nor where a stretch stands. -/
theorem mapPorts_seqInv {s : State} (hs : s.seqInv) {f : Units → Units} (hl : ∀ u, (f u).lz77 = u.lz77)
    (hd : ∀ u, (f u).dz = u.dz) : (s.mapPorts f).seqInv := by
  obtain ⟨hidle, hrun, hde, herr, hec, hcur⟩ := hs
  refine ⟨fun hb => ?_, hrun, hde, herr, hec, fun i hi => ?_⟩
  · obtain ⟨hp, hc, hbg⟩ := hidle hb
    exact ⟨hp, hc, by simp [hbg]⟩
  · obtain ⟨hbg, hadm, hwf⟩ := hcur i hi
    refine ⟨by simpa using hbg, hadm, ?_⟩
    rw [mapPorts_origin, State.mapPorts_phase, readCtx_congr _ (hl _) (hd _)]
    exact hwf

/-- An idle block stays consistent whatever its units are. -/
theorem idle_seqInv {s : State} (hs : s.seqInv) (hb : s.busy = false) (u : Units) :
    ({ s with units := u } : State).seqInv := by
  obtain ⟨hidle, hrun, hde, herr, hec, -⟩ := hs
  exact ⟨hidle, hrun, hde, herr, hec, by simp [(hidle hb).2.1]⟩

/-- Every move of the environment keeps the sequencer consistent. -/
theorem Env.seqInv {s t : State} {m : Move} (h : Env s m t) (hs : s.seqInv) : t.seqInv := by
  cases h with
  | latch => simp [State.seqInv]
  | write ht hirq =>
    obtain ⟨hidle, hrun, hde, herr, hec, hcur⟩ := hs
    rw [ht]
    refine ⟨hidle, fun hb => ?_, hde, herr, hec, hcur⟩
    obtain ⟨hp, hd, he, hi⟩ := hrun hb
    exact ⟨hp, hd, he, by simpa [hi] using hirq⟩
  | read ht =>
    rw [ht]
    exact hs
  | offer => exact mapPorts_seqInv hs (fun _ => rfl) fun _ => rfl
  | answer => exact mapPorts_seqInv hs (fun _ => rfl) fun _ => rfl
  | connectInput _ _ hb => exact idle_seqInv hs hb _
  | connectOutput _ hb => exact idle_seqInv hs hb _
  | hardReset => exact ⟨fun _ => ⟨rfl, rfl, rfl⟩, nofun, nofun, ⟨nofun, fun h => absurd rfl h⟩, Nat.zero_le 8, nofun⟩

/-- Settles O16: wherever a turn leaves a stretch the sequencer is consistent, and no move of the environment disturbs
it. -/
theorem stepKeepsTheSequencerConsistent : Obligations.StepKeepsTheSequencerConsistent := by
  intro s t hs h
  obtain ⟨m, rest, -, he⟩ | ⟨rfl, -⟩ | ⟨hb, r, hr, ht⟩ := step_cases h
  · exact he.seqInv hs
  · exact hs
  · exact ht.seqInv (hr.running hs hb) hr.goes

/-! # How a command ends (60_exceptions.md R510, R511) -/

/-- A stretch of a running command begins while the command runs, and with the host's interrupt enable. -/
theorem State.Runs.start_busy {s : State} {r : Stretch} (h : s.Runs r) (hb : s.busy = true) :
    r.start.busy = true ∧ r.start.ie = s.ie := by
  cases h with
  | command => exact ⟨rfl, entered_ie ..⟩
  | _ => exact ⟨hb, rfl⟩

/-- A turn that ends a command raises the interrupt. -/
theorem Stretch.Reaches.interrupt {r : Stretch} {t : State} (h : r.Reaches t) (hb : r.start.busy = true)
    (ht : t.busy = false) : t.irqPend = true ∧ t.done = !t.err ∧ (t.err = true ↔ t.ecode ≠ 0) ∧ irq t = r.start.ie := by
  cases h with
  | amid | wait | goto => exact absurd (hb.symm.trans ht) (by simp)
  | complete => simp [irq]
  | fail => simp [irq, ErrorCode.code_ne_zero]

/-- Only a reset ends a running command from outside. -/
theorem Env.busy {s t : State} {m : Move} (h : Env s m t) (hm : m ≠ .hardReset) (hb : s.busy = true) :
    t.busy = true := by
  cases h with
  | latch => rfl
  | write ht => rw [ht]; exact hb
  | read ht => rw [ht]; exact hb
  | hardReset => exact absurd rfl hm
  | _ => exact hb

/-- Settles O24: a step that ends a command is a turn of the sequencer, which ends it by `complete` or `raise`. -/
theorem endOfACommandRaisesTheInterrupt : Obligations.EndOfACommandRaisesTheInterrupt := by
  intro s t h hb ht hreset
  obtain ⟨m, rest, hm, he⟩ | ⟨rfl, -⟩ | ⟨-, r, hr, hreach⟩ := step_cases h
  · rw [he.busy (fun e => hreset (by simp [hm, e])) hb] at ht
    cases ht
  · exact absurd (hb.symm.trans ht) (by simp)
  · obtain ⟨hrb, hie⟩ := hr.start_busy hb
    have := hreach.interrupt hrb ht
    rwa [hie] at this

/-! # What executing an instruction leaves alone -/

/-- `t` has the host registers of `s` and everything of the environment's, but for the flags a command's end sets. -/
structure HostSame (s t : State) : Prop where
  cfg : t.cfg = s.cfg
  ie : t.ie = s.ie
  ovr : t.ovr = s.ovr
  script : t.script = s.script
  rdata : t.rdata = s.rdata
  draws : t.draws = s.draws
  cmd : t.cmd = s.cmd
  arg : t.arg = s.arg
  config : t.config = s.config

/-- No end of a stretch changes a host register. -/
theorem settle_hostSame (s : State) (p : M Next) : HostSame s (s.settle p) := by
  obtain ⟨u, -, ht⟩ | ⟨q, u, -, ht⟩ | ⟨e, u, -, ht⟩ | ⟨u, -, ht⟩ := State.settle_cases s p <;> rw [ht] <;>
    exact ⟨rfl, rfl, rfl, rfl, rfl, rfl, rfl, rfl, rfl⟩

theorem entered_eq {i : Instr} (s : State) (h : i ≠ .softReset) : entered i s = s := by
  unfold entered
  split
  · exact absurd rfl h
  · rfl

theorem TokenRule.ne_softReset {cfg : Params} {p : Phase} {i : Instr} {m : M Next} (h : TokenRule cfg p i m) :
    i ≠ .softReset := by
  cases h with
  | magic a => cases a <;> nofun
  | _ => nofun

/-- The state in which an instruction begins has the host registers of the state it is executed in, but for
SOFT_RESET's. -/
theorem instrStretch_hostSame {i : Instr} {s : State} {r : Stretch} (h : instrStretch i s = some r) :
    HostSame (entered i s) r.start := by
  obtain ⟨m, -, rfl⟩ | ⟨m, hm, rfl⟩ := instrStretch_cases h
  · exact ⟨rfl, rfl, rfl, rfl, rfl, rfl, rfl, rfl, rfl⟩
  · rw [entered_eq s hm.ne_softReset]
    exact ⟨rfl, rfl, rfl, rfl, rfl, rfl, rfl, rfl, rfl⟩

/-- Settles O25: SOFT_RESET resets CMD, ARG and CONFIG with its start, and nothing else touches a host register. -/
theorem instructionsLeaveHostRegistersAlone : Obligations.InstructionsLeaveHostRegistersAlone := by
  intro i s t h
  obtain ⟨r, hr, rfl⟩ := exec_next h
  obtain ⟨cfg, ie, ovr, script, rdata, draws, cmd, arg, config⟩ := instrStretch_hostSame hr
  obtain ⟨cfg', ie', ovr', script', rdata', draws', cmd', arg', config'⟩ := settle_hostSame r.start r.rule
  rw [cfg', ie', ovr', script', rdata', draws', cmd', arg', config', cfg, ie, ovr, script, rdata, draws, cmd, arg,
    config]
  split
  · rename_i hi
    rw [hi]
    exact ⟨rfl, rfl, rfl, rfl, rfl, rfl, rfl, rfl, rfl⟩
  · rename_i hi
    rw [entered_eq s hi]
    exact ⟨rfl, rfl, rfl, rfl, rfl, rfl, rfl, rfl, rfl⟩

end Sys2Proof.Machine

namespace Sys2Proof.Machine

/-! # The units an instruction may change -/

/-- A part with one relation and a rest with another. -/
theorem Keeps.seq {α β : Type} {R S T : Units → Units → Prop} {x : M α} {f : α → M β} (hx : Keeps R x)
    (hf : ∀ a, Keeps S (f a)) (hRT : ∀ {u v}, R u v → T u v) (hRST : ∀ {u v w}, R u v → S v w → T u w) :
    Keeps T (x >>= f) where
  on u := by
    rw [M.run_bind]
    have h := hx.on u
    cases hxu : x.on u with
    | ok a v =>
      rw [hxu] at h
      exact hRST h ((hf a).on v)
    | error e v =>
      rw [hxu] at h
      exact hRT h
  past u w hw := by
    rw [M.past_bind] at hw
    rcases List.mem_append.1 hw with hw | hw
    · exact hRT (hx.past u w hw)
    · have h := hx.on u
      cases hxu : x.on u with
      | ok a v =>
        rw [hxu] at h hw
        exact hRST h ((hf a).past v w hw)
      | error e v =>
        rw [hxu] at hw
        exact absurd hw List.not_mem_nil

/-- A part that is run in one of two cases only. -/
theorem Keeps.optional {β : Type} {R : Units → Units → Prop} (hR : Chains R) {c : Prop} [Decidable c] {x : M Unit}
    {f : Unit → M β} (hx : Keeps R x) (hf : ∀ a, Keeps R (f a)) : Keeps R (if c then x >>= f else f ()) :=
  .ite (.bind hR hx hf) (hf ())

theorem updSrc_frame (g : Units → Src) : Frame [.src] (upd fun u => { u with src := g u }) :=
  Keeps.upd fun u f hf => by cases f <;> simp_all [Field.same]

theorem updSnk_frame (g : Units → Snk) : Frame [.snk] (upd fun u => { u with snk := g u }) :=
  Keeps.upd fun u f hf => by cases f <;> simp_all [Field.same]

theorem updDetect_frame (g : Units → Detect) : Frame [.detect] (upd fun u => { u with detect := g u }) :=
  Keeps.upd fun u f hf => by cases f <;> simp_all [Field.same]

theorem unitsReset_frame : Frame [.src, .snk, .huf, .lz77, .dict, .dz, .lzw, .detect, .result] (upd unitsReset) :=
  Keeps.upd fun u f hf => by cases f <;> simp_all [Field.same, unitsReset, Units.resetWith]

theorem Frame.ite {α : Type} {fs : List Field} {c : Prop} [Decidable c] {x y : M α} (hx : Frame fs x)
    (hy : Frame fs y) : Frame fs (if c then x else y) := Keeps.ite hx hy

/-- An LZ78 stream leaves the LZW phrase registers alone. -/
theorem dictStart_lz78_frame (cfg : Params) (db bb : BitVec 5) : Frame [.dz, .dict] (dictStart cfg .lz78 db bb) :=
  Keeps.upd fun u f hf => by cases f <;> simp_all [Field.same]

theorem dictEncode_lz78_frame (cfg : Params) (p1 p2 : BitVec 5) :
    Frame [.dz, .dict, .snk, .out] (dictEncode cfg .lz78 p1 p2) :=
  .bind ((updDz_frame _).mono (by decide)) fun _ =>
    .bind ((writeToken_frame _ _).mono (by decide)) fun _ =>
      .bind ((dictStart_lz78_frame ..).mono (by decide)) fun _ => (dictBlockStart_frame _).mono (by decide)

theorem ruleDictHeader_lz78_frame (cfg : Params) (p1 p2 : BitVec 5) :
    Frame [.dz, .dict, .detect] (ruleDictHeader cfg .lz78 p1 p2) :=
  .bind ((checkHeader_frame ..).mono (by decide)) fun _ =>
    .bind ((dictStart_lz78_frame ..).mono (by decide)) fun _ => .pure _

theorem ruleEncBody_frame (cfg : Params) (config : ConfigReg) (alg : Alg) :
    Frame (touches (.encBody alg)) (ruleEncBody cfg config alg) := by
  refine .bind ((checkEncParams_frame ..).mono (by simp)) fun _ => ?_
  cases alg with
  | huf => exact hufEncode_frame false
  | lz77 => exact lz77Encode_frame _ _
  | lz78 => exact dictEncode_lz78_frame ..
  | lzw => exact dictEncode_frame ..

theorem ruleEnc_frame (cfg : Params) (config : ConfigReg) : Frame (touches .enc) (ruleEnc cfg config) :=
  .bind ((checkEncParams_frame ..).mono (by decide)) fun _ =>
    .bind ((updSrc_frame _).mono (by decide)) fun _ =>
      .bind ((updSnk_frame _).mono (by decide)) fun _ => (encodeWith_frame ..).mono (by decide)

/-- A command changes only the units of its list. -/
theorem CommandRule.frame {cfg : Params} {arg : Word} {config : ConfigReg} {i : Instr} {m : M Next}
    (h : CommandRule cfg arg config i m) : Frame (touches i) m := by
  cases h with
  | nop | envGetMagic | decBody => exact .pure _
  | srcReset => exact .bind (updSrc_frame _) fun _ => .pure _
  | srcGetBit =>
    exact .bind (srcGetBit_frame.mono (by simp [touches])) fun _ => (completeWith_frame _).mono (by simp [touches])
  | srcGetBits n =>
    exact .ite (.bind ((srcGetBits_frame ..).mono (by simp [touches])) fun _ =>
      (completeWith_frame _).mono (by simp [touches])) (.raise _)
  | snkReset => exact .bind ((updSnk_frame _).mono (by simp [touches])) fun _ => .pure _
  | snkPutBit => exact .bind (snkPutBit_frame _) fun _ => .pure _
  | snkPutBits => exact .ite (.bind (snkPutBits_frame _) fun _ => .pure _) (.raise _)
  | snkFlush => exact .bind snkFlush_frame fun _ => .pure _
  | freqClear => exact .bind (updHuf_frame _) fun _ => .pure _
  | freqAdd sym => exact .bind (freqAdd_frame sym) fun _ => .pure _
  | freqGet => exact .bind (.look _) fun _ => completeWith_frame _
  | hufBuild => exact .bind hufBuild_frame fun _ => .pure _
  | hufCodeLen => exact .bind (.look _) fun _ => completeWith_frame _
  | hufPutSym sym => exact .bind (.look _) fun _ => .ite (.raise _) (.bind (putCode_frame sym) fun _ => .pure _)
  | hufSerialize => exact .bind serialize_frame fun _ => .pure _
  | hufDeserialize => exact .bind (updHuf_frame _) fun _ => .pure _
  | hufWalkReset => exact .bind (.look _) fun _ => .ite (.bind (updHuf_frame _) fun _ => .pure _) (.raise _)
  | hufAddBit =>
    exact .bind (.look _) fun _ => .ite (.bind ((addBit_frame _).mono (by simp [touches])) fun _ =>
      (completeWith_frame _).mono (by simp [touches])) (.raise _)
  | envPutMagic => exact .bind (writeToken_frame _ _) fun _ => .pure _
  | encBody alg => exact ruleEncBody_frame ..
  | enc => exact ruleEnc_frame ..
  | dec =>
    exact .bind ((updSrc_frame _).mono (by decide)) fun _ =>
      .bind ((updDetect_frame _).mono (by decide)) fun _ => .pure _
  | softReset => exact .bind unitsReset_frame fun _ => .pure _

/-- A token changes only the units of its list. -/
theorem TokenRule.frame {cfg : Params} {p : Phase} {i : Instr} {m : M Next} (h : TokenRule cfg p i m) :
    Frame (touches i) m := by
  cases h with
  | magic a use => cases a <;> exact ruleMagic_frame _ use
  | hufHeader => exact ruleHufHeader_frame _
  | treeInternal => exact ruleTreeInternal_frame ..
  | treeLeaf => exact ruleTreeLeaf_frame ..
  | hufCode => exact ruleHufCode_frame ..
  | lz77Header => exact (ruleLz77Header_frame ..).mono (by simp [touches])
  | lz78Header => exact ruleDictHeader_lz78_frame ..
  | lzwHeader => exact (ruleDictHeader_frame ..).mono (by simp [touches])
  | blockFull a => exact ruleBlockFull_frame a
  | blockShort a => exact blockOf_frame ..
  | lz77Literal => exact lz77Record_frame ..
  | lz77Match => exact ruleLz77Match_frame ..
  | lz78Literal => exact lz78Record_frame ..
  | lz78Phrase => exact ruleLz78Phrase_frame ..
  | lzwIndex => exact (ruleLzwIndex_frame ..).mono (by simp [touches])

/-- What executing an instruction does to the units is what its rule does, from the units it finds. -/
theorem exec_units {i : Instr} {s t : State} (h : exec i s = .next t) :
    ∃ m, (CommandRule s.cfg s.arg s.config i m ∨ TokenRule s.cfg s.phase i m) ∧
      t.units = unitsAfter (m.on s.units) ∧
      (t.err = true ∨ t.busy = true → ∀ u, m.on s.units ≠ .ok .complete u) := by
  obtain ⟨r, hr, rfl⟩ := exec_next h
  obtain ⟨hrule, hunits⟩ : (CommandRule s.cfg s.arg s.config i r.rule ∨ TokenRule s.cfg s.phase i r.rule) ∧
      r.start.units = s.units := by
    obtain ⟨m, hm, rfl⟩ | ⟨m, hm, rfl⟩ := instrStretch_cases hr
    · exact ⟨.inl hm, entered_units i s⟩
    · exact ⟨.inr hm, rfl⟩
  refine ⟨r.rule, hrule, ?_⟩
  rw [← hunits]
  obtain ⟨u, hu, ht⟩ | ⟨q, u, hu, ht⟩ | ⟨e, u, hu, ht⟩ | ⟨u, hu, ht⟩ := State.settle_cases r.start r.rule <;>
    rw [ht, hu]
  · exact ⟨rfl, by simp⟩
  all_goals exact ⟨rfl, fun _ _ => nofun⟩

/-! ## RESULT (10_state.md R35, R38) -/

/-- RESULT is what it was unless the command has completed. -/
def WritesResultAtEnd (m : M Next) : Prop :=
  ∀ u, m.wp (fun _ => True) (fun _ v => v.result = u.result) (fun n v => n ≠ .complete → v.result = u.result) u

theorem WritesResultAtEnd.of_frame {fs : List Field} {m : M Next} (h : Frame fs m) (hf : .result ∉ fs) :
    WritesResultAtEnd m := fun _ =>
  h.wp (fun _ _ => trivial) (fun _ _ hv => hv .result hf) fun _ _ hv _ => hv .result hf

/-- A command that returns a value writes RESULT with its last step. -/
theorem WritesResultAtEnd.completeWith {α : Type} {fs : List Field} {x : M α} (h : Frame fs x) (hf : .result ∉ fs)
    (g : α → Word) : WritesResultAtEnd (x >>= fun a => Machine.completeWith (g a)) := fun u => by
  rw [M.wp_bind]
  exact h.wp (fun _ _ => trivial) (fun _ _ hv => hv .result hf) fun a v _ => by simp [M.wp]

theorem WritesResultAtEnd.ite {c : Prop} [Decidable c] {x : M Next} (hx : WritesResultAtEnd x) (e : ErrorCode) :
    WritesResultAtEnd (if c then x else raise e) := fun u => by
  rw [M.wp_ite]
  exact ⟨fun _ => hx u, fun _ => by simp⟩

theorem CommandRule.result {cfg : Params} {arg : Word} {config : ConfigReg} {i : Instr} {m : M Next}
    (h : CommandRule cfg arg config i m) : WritesResultAtEnd m := by
  have hfr := h.frame
  cases h with
  | srcGetBit => exact .completeWith srcGetBit_frame (by decide) _
  | srcGetBits => exact .ite (.completeWith (srcGetBits_frame ..) (by decide) _) _
  | freqGet => exact .completeWith (fs := []) (.look _) (by decide) _
  | hufCodeLen => exact .completeWith (fs := []) (.look _) (by decide) _
  | hufAddBit bit =>
    intro u
    rw [ruleHufAddBit, M.wp_bind, wp_look]
    exact WritesResultAtEnd.ite (.completeWith (addBit_frame bit) (by decide) _) _ u
  | softReset => intro u; simp [softResetUnits]
  | encBody alg => cases alg <;> exact .of_frame hfr (by simp [touches])
  | _ => exact .of_frame hfr (by simp [touches])

theorem TokenRule.result {cfg : Params} {p : Phase} {i : Instr} {m : M Next} (h : TokenRule cfg p i m) :
    WritesResultAtEnd m := by
  have hfr := h.frame
  cases h with
  | magic a use => cases use <;> intro u <;> simp [ruleMagic, setResult]
  | _ => exact .of_frame hfr (by simp [touches])

/-! ## The byte memories (10_state.md R63, R69) -/

/-- The block buffer and the window have the bytes they had. -/
def SameBytes (u v : Units) : Prop := v.dz.blk = u.dz.blk ∧ v.lz77.win = u.lz77.win

theorem SameBytes.chains : Chains SameBytes where
  refl _ := ⟨rfl, rfl⟩
  trans h h' := ⟨h'.1.trans h.1, h'.2.trans h.2⟩

/-- A rule that touches neither unit leaves both memories alone. -/
theorem Frame.sameBytes {α : Type} {fs : List Field} {m : M α} (h : Frame fs m) (hd : .dz ∉ fs) (hl : .lz77 ∉ fs) :
    Keeps SameBytes m :=
  Keeps.mono h fun _ _ hv => ⟨congrArg Dz.blk (hv .dz hd), congrArg Lz77.win (hv .lz77 hl)⟩

theorem writeToken_sameBytes (c : Ctx) (i : Instr) : Keeps SameBytes (writeToken c i) :=
  (writeToken_frame c i).sameBytes (by decide) (by decide)

theorem finishDecode_sameBytes : Keeps SameBytes finishDecode := finishDecode_frame.sameBytes (by decide) (by decide)

theorem emitBytes_sameBytes (bs : List Byte) : Keeps SameBytes (emitBytes bs) :=
  (emitBytes_frame bs).sameBytes (by decide) (by decide)

theorem updLz77_sameBytes {g : Lz77 → Lz77} (h : ∀ z, (g z).win = z.win) : Keeps SameBytes (updLz77 g) :=
  Keeps.upd fun _ => ⟨rfl, h _⟩

theorem updDz_sameBytes {g : Dz → Dz} (h : ∀ z, (g z).blk = z.blk) : Keeps SameBytes (updDz g) :=
  Keeps.upd fun _ => ⟨h _, rfl⟩

theorem pure_sameBytes {α : Type} (a : α) : Keeps SameBytes (pure a : M α) := .pure SameBytes.chains a

theorem look_sameBytes {α : Type} (g : Units → α) : Keeps SameBytes (look g) := .look SameBytes.chains g

theorem raise_sameBytes {α : Type} (e : ErrorCode) : Keeps SameBytes (raise e : M α) := .raise SameBytes.chains e

theorem bind_sameBytes {α β : Type} {x : M α} {f : α → M β} (hx : Keeps SameBytes x)
    (hf : ∀ a, Keeps SameBytes (f a)) : Keeps SameBytes (x >>= f) := .bind SameBytes.chains hx hf

theorem lz77Encode_sameBytes (p1 p2 : BitVec 5) : Keeps SameBytes (lz77Encode p1 p2) :=
  bind_sameBytes (updLz77_sameBytes fun _ => rfl) fun _ =>
    bind_sameBytes (writeToken_sameBytes _ _) fun _ =>
      bind_sameBytes (updLz77_sameBytes fun _ => rfl) fun _ => pure_sameBytes _

theorem dictStart_sameBytes (cfg : Params) (a : DictAlg) (db bb : BitVec 5) :
    Keeps SameBytes (dictStart cfg a db bb) := Keeps.upd fun _ => ⟨rfl, rfl⟩

theorem dictEncode_sameBytes (cfg : Params) (a : DictAlg) (p1 p2 : BitVec 5) :
    Keeps SameBytes (dictEncode cfg a p1 p2) :=
  bind_sameBytes (updDz_sameBytes fun _ => rfl) fun _ =>
    bind_sameBytes (writeToken_sameBytes _ _) fun _ =>
      bind_sameBytes (dictStart_sameBytes ..) fun _ =>
        bind_sameBytes (updDz_sameBytes fun _ => rfl) fun _ => pure_sameBytes _

theorem encodeWith_sameBytes (cfg : Params) (a : Alg) (p1 p2 : BitVec 5) (magic : Bool) :
    Keeps SameBytes (encodeWith cfg a p1 p2 magic) := by
  have magicWritten (i : Instr) : Keeps SameBytes (writeToken .envelope i) := writeToken_sameBytes _ _
  cases a with
  | huf => exact (hufEncode_frame magic).sameBytes (by decide) (by decide)
  | lz77 => exact .optional SameBytes.chains (magicWritten _) fun _ => lz77Encode_sameBytes ..
  | lz78 => exact .optional SameBytes.chains (magicWritten _) fun _ => dictEncode_sameBytes ..
  | lzw => exact .optional SameBytes.chains (magicWritten _) fun _ => dictEncode_sameBytes ..

theorem checkEncParams_sameBytes (cfg : Params) (a : Alg) (p1 p2 : BitVec 5) :
    Keeps SameBytes (checkEncParams cfg a p1 p2) := (checkEncParams_frame ..).sameBytes (by decide) (by decide)

theorem CommandRule.sameBytes {cfg : Params} {arg : Word} {config : ConfigReg} {i : Instr} {m : M Next}
    (h : CommandRule cfg arg config i m) (hi : i ≠ .softReset) : Keeps SameBytes m := by
  have hfr := h.frame
  cases h with
  | softReset => exact absurd rfl hi
  | enc =>
    exact bind_sameBytes (checkEncParams_sameBytes ..) fun _ =>
      bind_sameBytes ((updSrc_frame _).sameBytes (by decide) (by decide)) fun _ =>
        bind_sameBytes ((updSnk_frame _).sameBytes (by decide) (by decide)) fun _ => encodeWith_sameBytes ..
  | encBody alg => exact bind_sameBytes (checkEncParams_sameBytes ..) fun _ => encodeWith_sameBytes ..
  | _ => exact hfr.sameBytes (by simp [touches]) (by simp [touches])

theorem checkHeader_sameBytes (cfg : Params) (a : Alg) (p1 p2 : BitVec 5) :
    Keeps SameBytes (checkHeader cfg a p1 p2) := (checkHeader_frame ..).sameBytes (by decide) (by decide)

theorem ruleDictHeader_sameBytes (cfg : Params) (a : DictAlg) (db bb : BitVec 5) :
    Keeps SameBytes (ruleDictHeader cfg a db bb) :=
  bind_sameBytes (checkHeader_sameBytes ..) fun _ =>
    bind_sameBytes (dictStart_sameBytes ..) fun _ => pure_sameBytes _

theorem dictBlock_sameBytes (a : DictAlg) (count : Nat) : Keeps SameBytes (dictBlock a count) :=
  bind_sameBytes (updDz_sameBytes fun _ => rfl) fun _ =>
    .ite finishDecode_sameBytes (bind_sameBytes (Keeps.upd fun _ => ⟨rfl, rfl⟩) fun _ => pure_sameBytes _)

theorem blockOf_sameBytes (a : Lz) (count : Nat) : Keeps SameBytes (blockOf a count) := by
  cases a with
  | lz77 =>
    exact bind_sameBytes (updLz77_sameBytes fun _ => rfl) fun _ => .ite finishDecode_sameBytes (pure_sameBytes _)
  | lz78 => exact dictBlock_sameBytes .lz78 count
  | lzw => exact dictBlock_sameBytes .lzw count

theorem nextRecord_sameBytes (a : Lz) : Keeps SameBytes (nextRecord a) :=
  (nextRecord_frame a).sameBytes (by decide) (by decide)

theorem lz78Record_sameBytes (w : Option Nat) (c : Byte) : Keeps SameBytes (lz78Record w c) :=
  bind_sameBytes (look_sameBytes _) fun _ => bind_sameBytes (look_sameBytes _) fun _ =>
    .ite (raise_sameBytes _) (bind_sameBytes (emitBytes_sameBytes _) fun _ =>
      bind_sameBytes (updDz_sameBytes fun _ => rfl) fun _ =>
        bind_sameBytes ((insertInBlock_frame _ _).sameBytes (by decide) (by decide)) fun _ => nextRecord_sameBytes _)

theorem ruleLzwIndex_sameBytes (cfg : Params) (p : Nat) : Keeps SameBytes (ruleLzwIndex cfg p) := by
  refine bind_sameBytes (look_sameBytes _) fun prev => bind_sameBytes (look_sameBytes _) fun dict => ?_
  split
  · exact raise_sameBytes _
  · exact bind_sameBytes (look_sameBytes _) fun _ =>
      .ite (raise_sameBytes _) (bind_sameBytes (emitBytes_sameBytes _) fun _ =>
        bind_sameBytes (updDz_sameBytes fun _ => rfl) fun _ =>
          bind_sameBytes ((lzwInsert_frame _ _).sameBytes (by decide) (by decide)) fun _ =>
            bind_sameBytes ((updLzw_frame _).sameBytes (by decide) (by decide)) fun _ => nextRecord_sameBytes _)

/-- No token but an LZ77 record writes a byte memory. -/
theorem TokenRule.sameBytes {cfg : Params} {p : Phase} {i : Instr} {m : M Next} (h : TokenRule cfg p i m)
    (hp : p ≠ .record .lz77) : Keeps SameBytes m := by
  have hfr := h.frame
  cases h with
  | lz77Literal | lz77Match => exact absurd rfl hp
  | magic a => cases a <;> exact hfr.sameBytes (by simp [touches, Alg.magicToken]) (by simp [touches, Alg.magicToken])
  | lz77Header =>
    exact bind_sameBytes (checkHeader_sameBytes ..) fun _ =>
      bind_sameBytes (updLz77_sameBytes fun _ => rfl) fun _ => pure_sameBytes _
  | lz78Header | lzwHeader => exact ruleDictHeader_sameBytes ..
  | blockFull a => cases a <;> exact bind_sameBytes (look_sameBytes _) fun _ => blockOf_sameBytes ..
  | blockShort => exact blockOf_sameBytes ..
  | lz78Literal => exact lz78Record_sameBytes ..
  | lz78Phrase =>
    exact bind_sameBytes (look_sameBytes _) fun _ => .ite (raise_sameBytes _) (lz78Record_sameBytes ..)
  | lzwIndex => exact ruleLzwIndex_sameBytes ..
  | _ => exact hfr.sameBytes (by simp [touches]) (by simp [touches])

/-! ## The window under an LZ77 record (43_lz77.md R352) -/

/-- The window differs at most in the `len + 1` bytes from the `LS` of `u` on. -/
def SameOutside (len : Nat) (u v : Units) : Prop :=
  ∀ a, (∀ k ≤ len, a ≠ (u.lz77.ls + k) % u.lz77.windowSize) →
    Memory.read v.lz77.win Config.unwrittenWindow a = Memory.read u.lz77.win Config.unwrittenWindow a

/-- And `LS` and the window's size are what they were. -/
def WritesAhead (len : Nat) (u v : Units) : Prop :=
  (v.lz77.ls = u.lz77.ls ∧ v.lz77.windowSize = u.lz77.windowSize) ∧ SameOutside len u v

theorem WritesAhead.outside {len : Nat} {u v w : Units} (h : WritesAhead len u v) (h' : SameOutside len v w) :
    SameOutside len u w := fun a ha => by
  obtain ⟨⟨hls, hw⟩, h⟩ := h
  rw [← h a ha]
  exact h' a (by rwa [hls, hw])

theorem WritesAhead.chains (len : Nat) : Chains (WritesAhead len) where
  refl _ := ⟨⟨rfl, rfl⟩, fun _ _ => rfl⟩
  trans h h' := ⟨⟨h'.1.1.trans h.1.1, h'.1.2.trans h.1.2⟩, h.outside h'.2⟩

theorem winSet_writesAhead {len k : Nat} (h : k ≤ len) (g : Lz77 → Byte) :
    Keeps (WritesAhead len) (updLz77 fun z => z.winSet (z.ls + k) (g z)) :=
  Keeps.upd fun _ => ⟨⟨rfl, rfl⟩, fun _ ha => Memory.read_write_other _ _ _ (ha k h)⟩

theorem emitByte_writesAhead (len : Nat) (b : Byte) : Keeps (WritesAhead len) (emitByte b) :=
  Keeps.mono (emitByte_frame b) fun u v h => by
    have hl : v.lz77 = u.lz77 := h .lz77 (by decide)
    unfold WritesAhead SameOutside
    rw [hl]
    exact ⟨⟨rfl, rfl⟩, fun _ _ => rfl⟩

theorem lz77Copy_writesAhead (len pos : Nat) {count i : Nat} (h : i + count ≤ len + 1) :
    Keeps (WritesAhead len) (lz77Copy pos count i) := by
  induction count generalizing i with
  | zero => exact .pure (WritesAhead.chains len) _
  | succ count ih =>
    exact .bind (WritesAhead.chains len) (.look (WritesAhead.chains len) _) fun _ =>
      .bind (WritesAhead.chains len) (winSet_writesAhead (by omega) _) fun _ =>
        .bind (WritesAhead.chains len) (emitByte_writesAhead len _) fun _ => ih (by omega)

theorem lz77Record_sameOutside (len pos : Nat) (c : Byte) : Keeps (SameOutside len) (lz77Record len pos c) := by
  have tail : Keeps SameBytes (do
      updLz77 fun z => z.advanced len
      if (← look (·.lz77.rem)) = 0 then pure (.goto (.block .lz77)) else pure (Next.goto (.record .lz77))) :=
    bind_sameBytes (updLz77_sameBytes fun _ => rfl) fun _ =>
      bind_sameBytes (look_sameBytes _) fun _ => .ite (pure_sameBytes _) (pure_sameBytes _)
  have before {α : Type} {x : M α} {f : α → M Next} (hx : Keeps (WritesAhead len) x)
      (hf : ∀ a, Keeps (SameOutside len) (f a)) : Keeps (SameOutside len) (x >>= f) :=
    .seq hx hf (fun h => h.2) WritesAhead.outside
  exact before (lz77Copy_writesAhead len pos (by omega)) fun _ => before (winSet_writesAhead le_rfl _) fun _ =>
    before (emitByte_writesAhead len c) fun _ => tail.mono fun _ _ h _ _ => by rw [h.2]

theorem ruleLz77Match_sameOutside (len pos : Nat) (b : Byte) :
    Keeps (SameOutside len) (ruleLz77Match len pos b) := by
  refine .seq (R := Eq) (.look ⟨fun _ => rfl, Eq.trans⟩ _) (fun z => ?_) (fun h _ _ => by rw [h]) fun h h' => h ▸ h'
  have stops (e : ErrorCode) : Keeps (SameOutside len) (raise e : M Next) :=
    Keeps.mono (.raise ⟨fun _ => rfl, Eq.trans⟩ e) fun _ _ h _ _ => by rw [h]
  exact .ite (stops _) (.ite (stops _) (lz77Record_sameOutside len pos b))

/-- Settles O26: every rule has the frame of its list, writes RESULT with its last step, and writes bytes only where an
LZ77 record stores them. -/
theorem instructionsChangeOnlyTheirUnits : Obligations.InstructionsChangeOnlyTheirUnits := by
  intro i s t h
  obtain ⟨m, hrule, hunits, hend⟩ := exec_units h
  have hframe : Frame (touches i) m := hrule.elim CommandRule.frame TokenRule.frame
  have hresult : WritesResultAtEnd m := hrule.elim CommandRule.result TokenRule.result
  refine ⟨hunits ▸ hframe.on s.units, fun ht => ?_, fun hi => ?_⟩
  · have hwp := (hresult s.units).2
    rw [hunits]
    cases hm : m.on s.units with
    | ok n u =>
      rw [hm] at hwp
      exact hwp fun hn => hend ht u (hn ▸ hm)
    | error e u =>
      rw [hm] at hwp
      exact hwp
  · rw [hunits]
    rcases hrule with hcmd | htok
    · have := (hcmd.sameBytes hi).on s.units
      refine ⟨this.1, ?_⟩
      cases hcmd <;> exact this.2
    · generalize s.phase = p at htok
      have same (hp : p ≠ .record .lz77) : SameBytes s.units (unitsAfter (m.on s.units)) :=
        (htok.sameBytes hp).on s.units
      have hdz (hf : .dz ∉ touches i) : (unitsAfter (m.on s.units)).dz.blk = s.units.dz.blk :=
        congrArg Dz.blk (hframe.apply .dz hf s.units)
      cases htok with
      | lz77Literal b =>
        exact ⟨hdz (by simp [touches]), fun a ha => (lz77Record_sameOutside 0 0 b).on s.units a fun k hk => by
          rw [Nat.le_zero.1 hk]
          exact ha⟩
      | lz77Match len pos b => exact ⟨hdz (by simp [touches]), (ruleLz77Match_sameOutside len pos b).on s.units⟩
      | magic a => cases a <;> exact same nofun
      | _ => exact same nofun

end Sys2Proof.Machine

namespace Sys2Proof.Machine

/-! # Relations at the ends of a rule

`Leads S R m` is weaker than `Keeps R m`: it speaks of the ends of `m` only, and of those stops that meet `S`. -/

/-- Rule `m` relates the units before it to those at its end by `R`, where it ends well or stops as `S` says. -/
structure Leads {α : Type} (S : Stop → Prop) (R : Units → Units → Prop) (m : M α) : Prop where
  wp : ∀ u, m.wp (fun _ => True) (fun e v => S e → R u v) (fun _ v => R u v) u

section leads

variable {α β : Type} {S : Stop → Prop} {R : Units → Units → Prop}

theorem Leads.pure (hR : Chains R) (a : α) : Leads S R (pure a : M α) := ⟨fun u => (M.wp_pure a).2 (hR.refl u)⟩

theorem Leads.look (hR : Chains R) (g : Units → α) : Leads S R (look g) := ⟨fun u => (wp_look g).2 (hR.refl u)⟩

theorem Leads.raise (hR : Chains R) (e : ErrorCode) : Leads S R (raise e : M α) :=
  ⟨fun u => (wp_raise e).2 fun _ => hR.refl u⟩

theorem Leads.bind (hR : Chains R) {x : M α} {f : α → M β} (hx : Leads S R x) (hf : ∀ a, Leads S R (f a)) :
    Leads S R (x >>= f) where
  wp u := (M.wp_bind x f).2 (M.wp_mono (hx.wp u) (fun _ h => h) (fun _ _ h => h) fun a v huv =>
    M.wp_mono ((hf a).wp v) (fun _ h => h) (fun _ _ h he => hR.trans huv (h he)) fun _ _ h => hR.trans huv h)

theorem Leads.ite {c : Prop} [Decidable c] {x y : M α} (hx : Leads S R x) (hy : Leads S R y) :
    Leads S R (if c then x else y) := by
  split
  · exact hx
  · exact hy

/-- A part that is run in one of two cases only. -/
theorem Leads.optional {c : Prop} [Decidable c] (hR : Chains R) {x : M Unit} {f : Unit → M β} (hx : Leads S R x)
    (hf : ∀ a, Leads S R (f a)) : Leads S R (if c then x >>= f else f ()) := .ite (.bind hR hx hf) (hf ())

theorem Keeps.leads {m : M α} (h : Keeps R m) : Leads S R m :=
  ⟨fun _ => h.wp (fun _ _ => trivial) (fun _ _ h _ => h) fun _ _ h => h⟩

/-- What a rule that may stop in any way leads to. -/
theorem Leads.on {m : M α} (h : Leads (fun _ => True) R m) (u : Units) : R u (unitsAfter (m.on u)) := by
  have hwp := (h.wp u).2
  cases hm : m.on u with
  | ok a v => rw [hm] at hwp; exact hwp
  | error e v => rw [hm] at hwp; exact hwp trivial

/-- A relation that a rule respects where it does nothing but where the relation asks nothing. -/
theorem Leads.of_stuck {m : M α} (hR : Chains R) (h : ∀ u, (∃ a, m.on u = .ok a u) ∨ ∀ v, R u v) : Leads S R m where
  wp u := by
    refine ⟨fun _ _ => trivial, ?_⟩
    rcases h u with ⟨a, ha⟩ | hall
    · rw [ha]
      exact hR.refl u
    · cases m.on u with
      | ok a v => exact hall v
      | error e v => exact fun _ => hall v

end leads

/-- A relation on the BitSink that a sequence of rules respects when each does, and that both of its own operations
respect. -/
structure SinkRelation (S : Stop → Prop) (R : Units → Units → Prop) : Prop where
  chains : Chains R
  same : ∀ {u v}, v.snk = u.snk → R u v
  putBit : ∀ b, Leads S R (snkPutBit b)
  flush : Leads S R snkFlush

section sink

variable {S : Stop → Prop} {R : Units → Units → Prop}

/-- A rule that leaves the sink alone respects the relation. -/
theorem Frame.leads {α : Type} {fs : List Field} {m : M α} (h : Frame fs m) (hf : .snk ∉ fs)
    (hR : SinkRelation S R) : Leads S R m :=
  (Keeps.mono h fun _ _ hv => hR.same (hv .snk hf)).leads

variable (hR : SinkRelation S R)
include hR

theorem snkPutBits_leads (bits : List Bool) : Leads S R (snkPutBits bits) := by
  induction bits with
  | nil => exact .pure hR.chains _
  | cons b bits ih => exact .bind hR.chains (hR.putBit b) fun _ => ih

theorem checkGood_leads {α : Type} (a : α) (e : ErrorCode) :
    Leads S R (do if ← look (·.snk.good) then pure a else raise e) :=
  .bind hR.chains (.look hR.chains _) fun _ => .ite (.pure hR.chains _) (.raise hR.chains _)

theorem writeBits_leads (bits : List Bool) : Leads S R (writeBits bits) := by
  cases bits with
  | nil => exact .pure hR.chains _
  | cons b bits => exact .bind hR.chains (snkPutBits_leads hR _) fun _ => checkGood_leads hR _ _

theorem writeToken_leads (c : Ctx) (i : Instr) : Leads S R (writeToken c i) := writeBits_leads hR _

theorem putCode_leads (sym : Byte) : Leads S R (putCode sym) :=
  .bind hR.chains (.look hR.chains _) fun _ => writeToken_leads hR _ _

theorem serialize_leads : Leads S R serialize :=
  .bind hR.chains (.look hR.chains _) fun _ => writeBits_leads hR _

theorem lz77Encode_leads (p1 p2 : BitVec 5) : Leads S R (lz77Encode p1 p2) :=
  .bind hR.chains ((updLz77_frame _).leads (by decide) hR) fun _ =>
    .bind hR.chains (writeToken_leads hR _ _) fun _ =>
      .bind hR.chains ((updLz77_frame _).leads (by decide) hR) fun _ => .pure hR.chains _

theorem dictBlockStart_leads (a : DictAlg) : Leads S R (dictBlockStart a) :=
  (dictBlockStart_frame a).leads (by decide) hR

theorem dictEncode_leads (cfg : Params) (a : DictAlg) (p1 p2 : BitVec 5) : Leads S R (dictEncode cfg a p1 p2) :=
  .bind hR.chains ((updDz_frame _).leads (by decide) hR) fun _ =>
    .bind hR.chains (writeToken_leads hR _ _) fun _ =>
      .bind hR.chains ((dictStart_frame ..).leads (by decide) hR) fun _ => dictBlockStart_leads hR a

theorem encodeWith_leads (cfg : Params) (a : Alg) (p1 p2 : BitVec 5) (magic : Bool) :
    Leads S R (encodeWith cfg a p1 p2 magic) := by
  have magicWritten (i : Instr) : Leads S R (writeToken .envelope i) := writeToken_leads hR _ _
  cases a with
  | huf => exact (hufEncode_frame magic).leads (by decide) hR
  | lz77 => exact .optional hR.chains (magicWritten _) fun _ => lz77Encode_leads hR ..
  | lz78 => exact .optional hR.chains (magicWritten _) fun _ => dictEncode_leads hR ..
  | lzw => exact .optional hR.chains (magicWritten _) fun _ => dictEncode_leads hR ..

theorem ruleEncBody_leads (cfg : Params) (config : ConfigReg) (alg : Alg) :
    Leads S R (ruleEncBody cfg config alg) :=
  .bind hR.chains ((checkEncParams_frame ..).leads (by decide) hR) fun _ => encodeWith_leads hR ..

/-- The commands that set the sink to its initial state. -/
theorem CommandRule.leads {cfg : Params} {arg : Word} {config : ConfigReg} {i : Instr} {m : M Next}
    (h : CommandRule cfg arg config i m) (hi : i ∉ [.snkReset, .enc, .softReset]) : Leads S R m := by
  have hfr := h.frame
  cases h with
  | snkReset | enc | softReset => simp at hi
  | snkPutBit bit => exact .bind hR.chains (hR.putBit bit) fun _ => .pure hR.chains _
  | snkPutBits n =>
    exact .ite (.bind hR.chains (snkPutBits_leads hR _) fun _ => .pure hR.chains _) (.raise hR.chains _)
  | snkFlush => exact .bind hR.chains hR.flush fun _ => .pure hR.chains _
  | hufPutSym sym =>
    exact .bind hR.chains (.look hR.chains _) fun _ =>
      .ite (.raise hR.chains _) (.bind hR.chains (putCode_leads hR sym) fun _ => .pure hR.chains _)
  | hufSerialize => exact .bind hR.chains (serialize_leads hR) fun _ => .pure hR.chains _
  | envPutMagic => exact .bind hR.chains (writeToken_leads hR _ _) fun _ => .pure hR.chains _
  | encBody alg => exact ruleEncBody_leads hR ..
  | _ => exact hfr.leads (by simp [touches]) hR

omit hR in
/-- No token touches the sink. -/
theorem TokenRule.snk_notMem {cfg : Params} {p : Phase} {i : Instr} {m : M Next} (h : TokenRule cfg p i m) :
    .snk ∉ touches i := by
  cases h with
  | magic a => cases a <;> simp [touches, Alg.magicToken]
  | _ => simp [touches]

theorem TokenRule.leads {cfg : Params} {p : Phase} {i : Instr} {m : M Next} (h : TokenRule cfg p i m) :
    Leads S R m := h.frame.leads h.snk_notMem hR

theorem hufHead_leads (cfg : Params) (magic : Bool) : Leads S R (hufHead cfg magic) :=
  .bind hR.chains (hufBuild_frame.leads (by decide) hR) fun _ =>
    .optional hR.chains (writeToken_leads hR _ _) fun _ => .bind hR.chains (.look hR.chains _) fun _ =>
      .bind hR.chains (writeToken_leads hR _ _) fun _ => .bind hR.chains (serialize_leads hR) fun _ =>
        .bind hR.chains (.look hR.chains _) fun _ =>
          .ite (.bind hR.chains (inRewind_frame.leads (by decide) hR) fun _ => .pure hR.chains _)
            (.pure hR.chains _)

theorem hufPass_leads (count : Nat) : Leads S R (hufPass count) := by
  refine .bind hR.chains (takeByte_frame.leads (by decide) hR) fun item =>
    .bind hR.chains (.look hR.chains _) fun n => ?_
  split
  · exact .ite (.pure hR.chains _) (.raise hR.chains _)
  · exact .bind hR.chains (.look hR.chains _) fun _ =>
      .ite (.raise hR.chains _) (.bind hR.chains (putCode_leads hR _) fun _ => .pure hR.chains _)

theorem lz77Flag_leads (cnt : Nat) : Leads S R (lz77Flag cnt) :=
  .bind hR.chains (.look hR.chains _) fun _ => .bind hR.chains (writeToken_leads hR _ _) fun _ =>
    .bind hR.chains ((updLz77_frame _).leads (by decide) hR) fun _ => .ite (.pure hR.chains _) (.pure hR.chains _)

theorem lz77Emit_leads : Leads S R lz77Emit :=
  .bind hR.chains (.look hR.chains _) fun _ =>
    .ite (.pure hR.chains _) (.bind hR.chains ((updLz77_frame _).leads (by decide) hR) fun _ =>
      .bind hR.chains (writeToken_leads hR _ _) fun _ =>
        .bind hR.chains ((updLz77_frame _).leads (by decide) hR) fun _ => .pure hR.chains _)

theorem dictFlag_leads (a : DictAlg) : Leads S R (dictFlag a) :=
  .bind hR.chains (.look hR.chains _) fun _ => .bind hR.chains (writeToken_leads hR _ _) fun _ =>
    .bind hR.chains (Keeps.leads (Keeps.upd fun _ => hR.same rfl)) fun _ =>
      .ite (.pure hR.chains _) (.pure hR.chains _)

theorem lz78Emit_leads : Leads S R lz78Emit :=
  .bind hR.chains (.look hR.chains _) fun _ =>
    .ite (.bind hR.chains (.look hR.chains _) fun _ => .bind hR.chains (writeToken_leads hR _ _) fun _ =>
      .bind hR.chains ((updDz_frame _).leads (by decide) hR) fun _ =>
        .bind hR.chains ((insertInBlock_frame _ _).leads (by decide) hR) fun _ => .pure hR.chains _)
      (dictBlockStart_leads hR _)

theorem lzwByte_leads (c : Byte) : Leads S R (lzwByte c) := by
  have setW (g : Lzw → Lzw) : Leads S R (updLzw g) := (updLzw_frame g).leads (by decide) hR
  refine .bind hR.chains (.look hR.chains _) fun dict => .bind hR.chains (.look hR.chains _) fun w => ?_
  split
  · exact setW _
  · split
    · exact setW _
    · exact .bind hR.chains (.look hR.chains _) fun _ => .bind hR.chains (writeToken_leads hR _ _) fun _ =>
        .bind hR.chains ((insertIfRoom_frame _ _).leads (by decide) hR) fun _ => setW _

theorem lzwBlockEnd_leads : Leads S R lzwBlockEnd := by
  refine .bind hR.chains (.look hR.chains _) fun w => ?_
  split
  · exact .pure hR.chains _
  · exact .bind hR.chains (.look hR.chains _) fun _ => writeToken_leads hR _ _

theorem lzwEmit_leads : Leads S R lzwEmit :=
  .bind hR.chains (.look hR.chains _) fun _ =>
    .ite (.bind hR.chains (lzwByte_leads hR _) fun _ =>
      .bind hR.chains ((updDz_frame _).leads (by decide) hR) fun _ => .pure hR.chains _)
      (.bind hR.chains (lzwBlockEnd_leads hR) fun _ => dictBlockStart_leads hR _)

theorem stretchOf_leads {cfg : Params} {p : Phase} {m : M Next} (h : stretchOf cfg p = some m) : Leads S R m := by
  unfold stretchOf at h
  split at h <;> cases h
  · exact (leafRun_frame _).leads (by decide) hR
  · exact (hufCount_frame _).leads (by decide) hR
  · exact hufHead_leads hR ..
  · exact hufPass_leads hR _
  · exact (lz77Read_frame _).leads (by decide) hR
  · exact lz77Flag_leads hR _
  · exact lz77Emit_leads hR
  · exact (dictRead_frame _).leads (by decide) hR
  · exact dictFlag_leads hR _
  · exact lz78Emit_leads hR
  · exact lzwEmit_leads hR
  · exact .bind hR.chains hR.flush fun _ => checkGood_leads hR _ _

end sink

/-! ## The failure flags (10_state.md R52, R55) -/

/-- A BitSink that has failed stays failed. -/
def SinkStaysFailed (u v : Units) : Prop := u.snk.good = false → v.snk.good = false

theorem sinkStaysFailed_relation : SinkRelation (fun _ => True) SinkStaysFailed where
  chains := ⟨fun _ h => h, fun h h' hu => h' (h hu)⟩
  same h hu := h ▸ hu
  putBit b := .of_stuck ⟨fun _ h => h, fun h h' hu => h' (h hu)⟩ fun u => by
    cases hg : u.snk.good with
    | false => exact .inl ⟨(), by simp [snkPutBit, hg]⟩
    | true => exact .inr fun _ hu => absurd (hg.symm.trans hu) (by simp)
  flush := .of_stuck ⟨fun _ h => h, fun h h' hu => h' (h hu)⟩ fun u => by
    cases hg : u.snk.good with
    | false => exact .inl ⟨(), snkFlush_failed hg⟩
    | true => exact .inr fun _ hu => absurd (hg.symm.trans hu) (by simp)

/-- A BitSource that has met End or Error stays so. -/
def SourceStaysFailed (u v : Units) : Prop :=
  (u.src.eof = true → v.src.eof = true) ∧ (u.src.err = true → v.src.err = true)

theorem SourceStaysFailed.chains : Chains SourceStaysFailed where
  refl _ := ⟨fun h => h, fun h => h⟩
  trans h h' := ⟨fun hu => h'.1 (h.1 hu), fun hu => h'.2 (h.2 hu)⟩

theorem Frame.sourceStaysFailed {α : Type} {fs : List Field} {m : M α} (h : Frame fs m) (hf : .src ∉ fs) :
    Leads (fun _ => True) SourceStaysFailed m :=
  (Keeps.mono h fun u v hv => by
    have hs : v.src = u.src := hv .src hf
    unfold SourceStaysFailed
    rw [hs]
    exact ⟨fun h => h, fun h => h⟩).leads

theorem srcGetBit_staysFailed : Leads (fun _ => True) SourceStaysFailed srcGetBit :=
  .of_stuck SourceStaysFailed.chains fun u => by
    cases hg : u.src.good with
    | false => exact .inl ⟨false, srcGetBit_not_good hg⟩
    | true =>
      have : u.src.eof = false ∧ u.src.err = false := by simpa [Src.good] using hg
      exact .inr fun _ => by simp [SourceStaysFailed, this]

theorem srcGetBits_staysFailed (n acc : Nat) : Leads (fun _ => True) SourceStaysFailed (srcGetBits n acc) := by
  induction n generalizing acc with
  | zero => exact .pure SourceStaysFailed.chains _
  | succ n ih => exact .bind SourceStaysFailed.chains srcGetBit_staysFailed fun _ => ih _

theorem completeWith_staysFailed (w : Word) : Leads (fun _ => True) SourceStaysFailed (completeWith w) :=
  (completeWith_frame w).sourceStaysFailed (by decide)

theorem CommandRule.sourceStaysFailed {cfg : Params} {arg : Word} {config : ConfigReg} {i : Instr} {m : M Next}
    (h : CommandRule cfg arg config i m) (hi : i ∉ [.srcReset, .enc, .dec, .softReset]) :
    Leads (fun _ => True) SourceStaysFailed m := by
  have hfr := h.frame
  cases h with
  | srcReset | enc | dec | softReset => simp at hi
  | srcGetBit =>
    exact .bind SourceStaysFailed.chains srcGetBit_staysFailed fun _ => completeWith_staysFailed _
  | srcGetBits n =>
    exact .ite (.bind SourceStaysFailed.chains (srcGetBits_staysFailed ..) fun _ => completeWith_staysFailed _)
      (.raise SourceStaysFailed.chains _)
  | encBody alg => cases alg <;> exact hfr.sourceStaysFailed (by simp [touches])
  | _ => exact hfr.sourceStaysFailed (by simp [touches])

theorem TokenRule.sourceStaysFailed {cfg : Params} {p : Phase} {i : Instr} {m : M Next} (h : TokenRule cfg p i m) :
    Leads (fun _ => True) SourceStaysFailed m := by
  have hfr := h.frame
  cases h with
  | magic a => cases a <;> exact hfr.sourceStaysFailed (by simp [touches, Alg.magicToken])
  | _ => exact hfr.sourceStaysFailed (by simp [touches])

/-- Settles O27: a failed source delivers and a failed sink takes nothing, and no other rule touches the flags. -/
theorem failureFlagsAreSticky : Obligations.FailureFlagsAreSticky := by
  intro i s t h
  obtain ⟨m, hrule, hunits, -⟩ := exec_units h
  rw [hunits]
  refine ⟨fun hi => ?_, fun hi => ?_⟩
  · have hm : Leads (fun _ => True) SourceStaysFailed m := hrule.elim (·.sourceStaysFailed hi) (·.sourceStaysFailed)
    exact hm.on s.units
  · have hm : Leads (fun _ => True) SinkStaysFailed m :=
      hrule.elim (·.leads sinkStaysFailed_relation hi) (·.leads sinkStaysFailed_relation)
    exact hm.on s.units

/-! ## The accumulator (10_state.md R54) -/

/-- The sink keeps 0 below its cursor. -/
def StaysPadded (u v : Units) : Prop := u.snk.wf → v.snk.wf

theorem StaysPadded.chains : Chains StaysPadded := ⟨fun _ h => h, fun h h' hu => h' (h hu)⟩

/-- The stops at which a rule is over. -/
def Ends (e : Stop) : Prop := e ≠ .wait

theorem initial_wf (g : Bool) : ({ acc := 0, pos := 7, good := g } : Snk).wf := by
  intro j _
  simp

/-- A byte offered to the consumer is answered or waits. -/
theorem outWrite_error {b : Byte} {u v : Units} {e : Stop} (h : (outWrite b).on u = .error e v) : e = .wait := by
  rw [outWrite, run_act] at h
  split at h <;> cases h
  rfl

/-- An emission that is over leaves an empty accumulator. -/
theorem snkEmit_padded {u : Units} {R : Units → Prop} (hR : ∀ v, v.snk.wf → R v) :
    snkEmit.wp (fun _ => True) (fun e v => Ends e → R v) (fun _ v => R v) u := by
  have clear (v : Units) :
      (do upd fun u => { u with snk := { u.snk with acc := 0 } }
          upd fun u => { u with snk := { u.snk with pos := 7 } } : M Unit).wp
        (fun _ => True) (fun e v => Ends e → R v) (fun _ v => R v) v := by
    simp only [M.wp_bind, wp_upd, true_and]
    exact hR _ (initial_wf _)
  unfold snkEmit
  rw [M.wp_bind, wp_look, M.wp_bind]
  refine ⟨fun _ _ => trivial, ?_⟩
  cases hw : (outWrite u.snk.acc).on u with
  | error e v => exact fun he => absurd (outWrite_error hw) he
  | ok a v =>
    cases a with
    | true => exact clear v
    | false => exact (M.wp_bind ..).2 ((wp_upd _).2 ⟨trivial, clear _⟩)

/-- The bit that is written stands above the new cursor. -/
theorem setBit_wf {k : Snk} (h : k.wf) (b : Bool) (h0 : k.pos ≠ 0) :
    ({ k with acc := setBit k.acc k.pos.val b, pos := k.pos - 1 } : Snk).wf := by
  have hpos : k.pos.val ≠ 0 := fun e => h0 (Fin.ext e)
  intro j hj
  have hlt : j.val < k.pos.val := by
    have : j.val ≤ (k.pos - 1).val := hj
    rw [Fin.sub_val_of_le (Fin.le_def.2 (by simp; omega))] at this
    simp at this
    omega
  rw [setBit_getLsbD _ _ _ _ j.isLt, if_neg (by omega)]
  exact h j (Fin.le_def.2 (by omega))

theorem outFlush_staysPadded : Leads Ends StaysPadded outFlush :=
  (Keeps.mono outFlush_frame fun _ _ h hu => (h .snk (by decide) : _ = _) ▸ hu).leads

theorem staysPadded_relation : SinkRelation Ends StaysPadded where
  chains := StaysPadded.chains
  same h hu := h ▸ hu
  putBit b := ⟨fun u => by
    unfold snkPutBit
    simp only [M.wp_bind, wp_look, M.wp_ite, wp_upd, true_and, M.wp_pure]
    exact ⟨fun _ => ⟨fun _ => snkEmit_padded fun v hv _ => hv, fun h0 hw => setBit_wf hw b h0⟩, fun _ h => h⟩⟩
  flush :=
    have flushed (_ : Unit) : Leads Ends StaysPadded (do if ← look (·.snk.good) then outFlush else pure ()) :=
      .bind StaysPadded.chains (.look StaysPadded.chains _) fun _ =>
        .ite outFlush_staysPadded (.pure StaysPadded.chains _)
    .bind StaysPadded.chains (.look StaysPadded.chains _) fun _ =>
      .ite (.ite (flushed ()) (.bind StaysPadded.chains ⟨fun _ => snkEmit_padded fun _ hv _ => hv⟩ flushed))
        (.pure StaysPadded.chains _)

/-- Every rule keeps the accumulator padded, ENC and the two resets by clearing it. -/
theorem CommandRule.staysPadded {cfg : Params} {arg : Word} {config : ConfigReg} {i : Instr} {m : M Next}
    (h : CommandRule cfg arg config i m) : Leads Ends StaysPadded m := by
  by_cases hi : i ∈ [.snkReset, .enc, .softReset]
  · have cleared {f : Units → Units} (hf : ∀ u, (f u).snk.wf) : Leads Ends StaysPadded (upd f) :=
      (Keeps.upd fun u _ => hf u).leads
    cases h with
    | snkReset =>
      exact .bind StaysPadded.chains (cleared fun _ => initial_wf _) fun _ => .pure StaysPadded.chains _
    | softReset =>
      exact .bind StaysPadded.chains (cleared fun _ => initial_wf _) fun _ => .pure StaysPadded.chains _
    | enc =>
      exact .bind StaysPadded.chains ((checkEncParams_frame ..).leads (by decide) staysPadded_relation) fun _ =>
        .bind StaysPadded.chains ((updSrc_frame _).leads (by decide) staysPadded_relation) fun _ =>
          .bind StaysPadded.chains (cleared fun _ => initial_wf _) fun _ => encodeWith_leads staysPadded_relation ..
    | _ => simp at hi
  · exact h.leads staysPadded_relation hi

theorem State.Runs.staysPadded {s : State} {r : Stretch} (h : s.Runs r) : Leads Ends StaysPadded r.rule := by
  cases h with
  | command hm => exact hm.staysPadded
  | token hm => exact hm.leads staysPadded_relation
  | badCommand => exact .raise StaysPadded.chains _
  | fetch => exact (fetchRule_frame ..).leads (by decide) staysPadded_relation
  | stretch _ hm => exact stretchOf_leads staysPadded_relation hm

/-- A stretch begins with the sink it will be run again with. -/
theorem State.Runs.start_snk {s : State} {r : Stretch} (h : s.Runs r) : r.start.units.snk = s.origin.snk := by
  cases h with
  | @command i => exact congrArg Units.snk (entered_units i s.resumed)
  | token _ hu => exact hu .snk (by decide)
  | _ => rfl

/-- Wherever a turn leaves a stretch, the sink is padded where it began or will begin. -/
theorem Stretch.Reaches.sinkInv {r : Stretch} {t : State} (h : r.Reaches t) (hm : Leads Ends StaysPadded r.rule)
    (hw : r.start.units.snk.wf) : t.sinkInv := by
  have hend := (hm.wp r.start.units)
  cases h with
  | amid => exact hw
  | wait => exact hw
  | complete hq => exact hend.ok hq hw
  | goto hq => exact hend.ok hq hw
  | fail hq => exact hend.error hq nofun hw

theorem Env.sinkInv {s t : State} {m : Move} (h : Env s m t) (hs : s.seqInv) (hw : s.sinkInv) : t.sinkInv := by
  have idle (hb : s.busy = false) {u : Units} (hu : u.snk = s.units.snk) : u.snk.wf := by
    obtain ⟨hidle, -⟩ := hs
    rw [hu, ← State.origin_fresh (hidle hb).2.2]
    exact hw
  have idleOrigin (hb : s.busy = false) (u : Units) : ({ s with units := u } : State).origin = u := by
    obtain ⟨hidle, -⟩ := hs
    exact State.origin_fresh (hidle hb).2.2
  cases h with
  | latch _ _ _ hb => exact idle hb rfl
  | write ht => rw [ht]; exact hw
  | read ht => rw [ht]; exact hw
  | offer => unfold State.sinkInv; rw [mapPorts_origin]; exact hw
  | answer => unfold State.sinkInv; rw [mapPorts_origin]; exact hw
  | connectInput _ _ hb => unfold State.sinkInv; rw [idleOrigin hb]; exact idle hb rfl
  | connectOutput _ hb => unfold State.sinkInv; rw [idleOrigin hb]; exact idle hb rfl
  | hardReset => exact initial_wf true

/-- Settles O13: every rule leaves the sink padded at its ends, and inside a stretch what counts is where it began. -/
theorem stepKeepsTheAccumulatorPadded : Obligations.StepKeepsTheAccumulatorPadded := by
  intro s t hs hw h
  obtain ⟨m, rest, -, he⟩ | ⟨rfl, -⟩ | ⟨-, r, hr, ht⟩ := step_cases h
  · exact he.sinkInv hs hw
  · exact hw
  · exact ht.sinkInv hr.staysPadded (hr.start_snk ▸ hw)

end Sys2Proof.Machine

namespace Sys2Proof.Machine

/-! # Invariants of a coded stream

An invariant of this kind says something of the units in each phase. `step_keeps` reduces "every step keeps it" to the
rules: what a stream's start establishes, and what each token and each stretch keeps. -/

/-- A sequence that ends well is two parts that end well. -/
theorem M.bind_ok {α β : Type} {x : M α} {f : α → M β} {u w : Units} {b : β} (h : (x >>= f).on u = .ok b w) :
    ∃ a v, x.on u = .ok a v ∧ (f a).on v = .ok b w := by
  rw [M.run_bind] at h
  cases hx : x.on u with
  | ok a v => rw [hx] at h; exact ⟨a, v, rfl, h⟩
  | error e v => rw [hx] at h; cases h

/-! ## How a stream begins -/

theorem checkEncParams_ok {cfg : Params} {a : Alg} {p1 p2 : BitVec 5} {u v : Units}
    (h : (checkEncParams cfg a p1 p2).on u = .ok () v) : paramsInFormat a p1.toNat p2.toNat = true := by
  rw [checkEncParams_eq] at h
  by_cases hf : paramsInFormat a p1.toNat p2.toNat = true
  · exact hf
  · rw [if_neg hf] at h
    cases h

theorem checkHeader_ok {cfg : Params} {a : Alg} {p1 p2 : BitVec 5} {u v : Units}
    (h : (checkHeader cfg a p1 p2).on u = .ok () v) : paramsInFormat a p1.toNat p2.toNat = true := by
  rw [checkHeader_eq] at h
  by_cases hf : paramsInFormat a p1.toNat p2.toNat = true
  · exact hf
  · rw [if_neg hf] at h
    cases h

/-- What a command or a header leaves where it goes on: the start of a stream, or no coded stream at all. -/
inductive Begins (cfg : Params) : Phase → Units → Prop
  | other {q : Phase} {v : Units} : Phase.command.within q = true → Begins cfg q v
  | lz77 {q : Phase} {v : Units} (z : Lz77) {sb lb : BitVec 5} : q = .lz77Read 0 ∨ q = .block .lz77 →
    paramsInFormat .lz77 sb.toNat lb.toNat = true → v.lz77 = z.started sb lb → Begins cfg q v
  | lz78 {q : Phase} {v : Units} : q = .dictRead .lz78 ∨ q = .block .lz78 → v.dict = lz78Seed cfg → Begins cfg q v
  | lzw {q : Phase} {v : Units} : q = .dictRead .lzw ∨ q = .block .lzw → 8 ≤ v.dz.db.toNat →
    v.dict = lzwSeed → v.lzw = { w := none, prev := none } → Begins cfg q v

theorem lz77Encode_begins {cfg : Params} {p1 p2 : BitVec 5} {u v : Units} {q : Phase}
    (hf : paramsInFormat .lz77 p1.toNat p2.toNat = true) (h : (lz77Encode p1 p2).on u = .ok (.goto q) v) :
    Begins cfg q v := by
  obtain ⟨_, u1, -, h⟩ := M.bind_ok h
  obtain ⟨_, u2, -, h⟩ := M.bind_ok h
  obtain ⟨_, u3, h3, h⟩ := M.bind_ok h
  cases h3
  cases h
  exact .lz77 u2.lz77 (.inl rfl) hf rfl

theorem dictEncode_begins {cfg : Params} {a : DictAlg} {p1 p2 : BitVec 5} {u v : Units} {q : Phase}
    (hf : a = .lzw → 8 ≤ p1.toNat) (h : (dictEncode cfg a p1 p2).on u = .ok (.goto q) v) : Begins cfg q v := by
  obtain ⟨_, u1, -, h⟩ := M.bind_ok h
  obtain ⟨_, u2, -, h⟩ := M.bind_ok h
  obtain ⟨_, u3, h3, h⟩ := M.bind_ok h
  cases h3
  cases h
  cases a with
  | lz78 => exact .lz78 (.inl rfl) rfl
  | lzw => exact .lzw (.inl rfl) (hf rfl) rfl rfl

/-- LZW parameters in the format's range make room for the single bytes (00_scope.md R18). -/
theorem lzw_paramsInFormat {p1 p2 : Nat} (h : paramsInFormat .lzw p1 p2 = true) : 8 ≤ p1 := by
  simp only [paramsInFormat, Bool.and_eq_true, decide_eq_true_eq] at h
  exact h.1

/-- A part that is run in one of two cases only hands on to the rest. -/
theorem M.optional_ok {β : Type} {c : Prop} [Decidable c] {x : M Unit} {f : Unit → M β} {u w : Units} {b : β}
    (h : (if c then x >>= f else f ()).on u = .ok b w) : ∃ v, (f ()).on v = .ok b w := by
  split at h
  · obtain ⟨_, v, _, h⟩ := M.bind_ok h
    exact ⟨v, h⟩
  · exact ⟨u, h⟩

theorem encodeWith_begins {cfg : Params} {a : Alg} {p1 p2 : BitVec 5} {magic : Bool} {u v : Units} {q : Phase}
    (hf : paramsInFormat a p1.toNat p2.toNat = true) (h : (encodeWith cfg a p1 p2 magic).on u = .ok (.goto q) v) :
    Begins cfg q v := by
  cases a with
  | huf =>
    have : Goes (Phase.command.within · = true) (hufEncode magic) :=
      .bind fun _ => .ite (.bind fun _ => .goto rfl) (.raise _)
    exact .other (this.phase h)
  | lz77 =>
    obtain ⟨w, h⟩ := M.optional_ok (f := fun _ => lz77Encode p1 p2) h
    exact lz77Encode_begins hf h
  | lz78 =>
    obtain ⟨w, h⟩ := M.optional_ok (f := fun _ => dictEncode cfg .lz78 p1 p2) h
    exact dictEncode_begins (a := .lz78) nofun h
  | lzw =>
    obtain ⟨w, h⟩ := M.optional_ok (f := fun _ => dictEncode cfg .lzw p1 p2) h
    exact dictEncode_begins (fun _ => lzw_paramsInFormat hf) h

theorem CommandRule.begins {cfg : Params} {arg : Word} {config : ConfigReg} {i : Instr} {m : M Next}
    (hm : CommandRule cfg arg config i m) {u v : Units} {q : Phase} (h : m.on u = .ok (.goto q) v) :
    Begins cfg q v := by
  cases he : encodes i with
  | false => exact .other ((hm.within he).phase h)
  | true =>
    cases hm with
    | enc =>
      obtain ⟨_, u1, hc, h⟩ := M.bind_ok h
      obtain ⟨_, u2, -, h⟩ := M.bind_ok h
      obtain ⟨_, u3, -, h⟩ := M.bind_ok h
      exact encodeWith_begins (checkEncParams_ok hc) h
    | encBody =>
      obtain ⟨_, u1, hc, h⟩ := M.bind_ok h
      exact encodeWith_begins (checkEncParams_ok hc) h
    | _ => cases he

theorem ruleDictHeader_begins {cfg : Params} {a : DictAlg} {p1 p2 : BitVec 5} {u v : Units} {q : Phase}
    (h : (ruleDictHeader cfg a p1 p2).on u = .ok (.goto q) v) : Begins cfg q v := by
  obtain ⟨_, u1, hc, h⟩ := M.bind_ok h
  obtain ⟨_, u2, h2, h⟩ := M.bind_ok h
  cases h2
  cases h
  cases a with
  | lz78 => exact .lz78 (.inr rfl) rfl
  | lzw => exact .lzw (.inr rfl) (lzw_paramsInFormat (checkHeader_ok hc)) rfl rfl

theorem TokenRule.begins {cfg : Params} {p : Phase} {i : Instr} {m : M Next} (hm : TokenRule cfg p i m)
    (hp : p.opens = true) {u v : Units} {q : Phase} (h : m.on u = .ok (.goto q) v) : Begins cfg q v := by
  cases hm with
  | hufHeader total =>
    have : Goes (Phase.command.within · = true) (ruleHufHeader total) :=
      .bind fun _ => .ite .finishDecode (.bind fun _ => .goto rfl)
    exact .other (this.phase h)
  | lz77Header sb lb =>
    obtain ⟨_, u1, hc, h⟩ := M.bind_ok h
    obtain ⟨_, u2, h2, h⟩ := M.bind_ok h
    cases h2
    cases h
    exact .lz77 u1.lz77 (.inr rfl) (checkHeader_ok hc) rfl
  | lz78Header => exact ruleDictHeader_begins h
  | lzwHeader => exact ruleDictHeader_begins h
  | _ => cases hp

/-! ## Invariants by phase -/

/-- An invariant by phase: it asks nothing before a stream begins, holds where one begins, and speaks of the codec
units only. -/
structure PhaseInv (J : Phase → Units → Prop) : Prop where
  idle : ∀ u, J .idle u
  opens : ∀ {p}, p.opens = true → ∀ u, J p u
  begins : ∀ {cfg q v}, Begins cfg q v → J q v
  same : ∀ {p u v}, v.lz77 = u.lz77 → v.dict = u.dict → v.dz = u.dz → v.lzw = u.lzw → J p u → J p v

/-- From units `u` that meet the invariant of phase `p`, rule `m` keeps it at each of its steps, and meets the
invariant of the phase it goes on in. -/
def Preserves (J : Phase → Units → Prop) (p : Phase) (m : M Next) (u : Units) : Prop :=
  J p u → m.wp (J p) (fun e v => e = .wait → J p v) (fun n v => ∀ q, n = .goto q → J q v) u

section phases

variable {J : Phase → Units → Prop}

/-- Where the phase asks nothing, only where the rule goes on counts. -/
theorem Preserves.of_goto {p : Phase} {m : M Next} {u : Units} (hp : ∀ u, J p u)
    (hq : ∀ {q v}, m.on u = .ok (.goto q) v → J q v) : Preserves J p m u := fun _ =>
  M.wp_of_ok hp (fun _ v _ => hp v) fun _ _ hm _ hn => hq (hn ▸ hm)

/-- A rule that keeps what the phases ask of the units. -/
theorem Preserves.of_keeps {p : Phase} {m : M Next} {u : Units} {R : Units → Units → Prop} (hm : Keeps R m)
    (hg : Goes (p.within · = true) m) (hp : ∀ {v}, R u v → J p u → J p v)
    (hq : ∀ {q v}, p.within q = true → R u v → J p u → J q v) : Preserves J p m u := fun hu => by
  refine ⟨fun v hv => hp (hm.past u v hv) hu, ?_⟩
  have hon := hm.on u
  cases h : m.on u with
  | ok n v =>
    rw [h] at hon
    rintro _ rfl
    exact hq (hg.phase h) hon hu
  | error e v =>
    rw [h] at hon
    exact fun _ => hp hon hu

theorem allUnits_fresh {P : Units → Prop} {s : State} (hb : s.begun = none) (h : P s.units) : s.allUnits P :=
  ⟨h, by simp [hb]⟩

theorem allUnits_origin {P : Units → Prop} {s : State} (h : s.allUnits P) : P s.origin := by
  unfold State.origin
  cases hb : s.begun with
  | none => exact h.1
  | some b => exact h.2 b hb

/-- Wherever a turn leaves a stretch that preserves the invariant, it holds. -/
theorem Stretch.Reaches.keeps {r : Stretch} {t : State} (h : r.Reaches t) (hJ : PhaseInv J)
    (hr : Preserves J r.start.phase r.rule r.start.units) (hs : J r.start.phase r.start.units) :
    t.allUnits (J t.phase) := by
  have hwp := hr hs
  have amid {u : Units} (n : Nat) (h : J r.start.phase u) :
      (r.start.amid u n).allUnits (J (r.start.amid u n).phase) :=
    ⟨h, fun b hb => by rw [← Option.some.inj hb]; exact hs⟩
  cases h with
  | amid n hu =>
    rcases hu with rfl | hu
    · exact amid n hs
    · exact amid n (hwp.1 _ hu)
  | wait n hu => exact amid n (hwp.error hu rfl)
  | complete => exact allUnits_fresh rfl (hJ.idle _)
  | goto hu => exact allUnits_fresh rfl (hwp.ok hu _ rfl)
  | fail => exact allUnits_fresh rfl (hJ.idle _)

/-- Every move of the environment keeps an invariant by phase. -/
theorem Env.keeps {s t : State} {m : Move} (h : Env s m t) (hJ : PhaseInv J) (hs : s.allUnits (J s.phase)) :
    t.allUnits (J t.phase) := by
  have ports {f : Units → Units} (hf : ∀ u, J s.phase u → J s.phase (f u)) :
      (s.mapPorts f).allUnits (J s.phase) := by
    refine ⟨hf _ hs.1, fun b hb => ?_⟩
    obtain ⟨b', hb', rfl⟩ := Option.map_eq_some_iff.1 hb
    exact hf _ (hs.2 b' hb')
  cases h with
  | latch => exact allUnits_fresh rfl (hJ.opens rfl _)
  | write ht => rw [ht]; exact hs
  | read ht => rw [ht]; exact hs
  | offer => exact ports fun _ => hJ.same rfl rfl rfl rfl
  | answer => exact ports fun _ => hJ.same rfl rfl rfl rfl
  | connectInput => exact ⟨hJ.same (u := s.units) rfl rfl rfl rfl hs.1, hs.2⟩
  | connectOutput => exact ⟨hJ.same (u := s.units) rfl rfl rfl rfl hs.1, hs.2⟩
  | hardReset => exact allUnits_fresh rfl (hJ.idle _)

/-- Fetching a token preserves an invariant by phase. -/
theorem fetchRule_preserves (hJ : PhaseInv J) (p : Phase) (c : Ctx) (u : Units) :
    Preserves J p (fetchRule p c) u := fun hu => by
  have hf := fetchRule_frame p c
  have keep {v : Units} (h : SameBut [.src, .inp, .result, .detect] u v) : J p v :=
    hJ.same (h .lz77 (by decide)) (h .dict (by decide)) (h .dz (by decide)) (h .lzw (by decide)) hu
  refine ⟨fun v hv => keep (hf.past u v hv), ?_⟩
  have hon := hf.on u
  cases h : (fetchRule p c).on u with
  | ok n v =>
    rw [h] at hon
    rintro q rfl
    rw [(fetchRule_goes p c).phase h]
    exact keep hon
  | error e v =>
    rw [h] at hon
    exact fun _ => keep hon

/-- A step keeps an invariant by phase if the tokens and the stretches of the phase do. -/
theorem step_keeps (hJ : PhaseInv J) {s t : State}
    (htok : ∀ {i m u}, TokenRule s.cfg s.phase i m → s.phase.opens = false →
      (s.seqInv → ∀ c ∈ readCtx s.phase u, i.wf c = true) → Preserves J s.phase m u)
    (hstr : ∀ {m u}, stretchOf s.cfg s.phase = some m → Preserves J s.phase m u)
    (hs : s.allUnits (J s.phase)) (h : step s = .next t) : t.allUnits (J t.phase) := by
  obtain ⟨m, rest, -, he⟩ | ⟨rfl, -⟩ | ⟨-, r, hr, ht⟩ := step_cases h
  · exact he.keeps hJ hs
  · exact hs
  · have horigin : J s.phase s.origin := allUnits_origin hs
    cases hr with
    | command hm =>
      exact ht.keeps hJ (.of_goto (hJ.opens rfl) fun hq => hJ.begins (hm.begins hq)) (hJ.opens rfl _)
    | token hm hu hi =>
      refine ht.keeps hJ ?_ (hJ.same (hu .lz77 (by decide)) (hu .dict (by decide)) (hu .dz (by decide))
        (hu .lzw (by decide)) horigin)
      cases hp : s.phase.opens with
      | false => exact htok hm hp fun hsq => (hi hsq).2
      | true => exact .of_goto (hJ.opens hp) fun hq => hJ.begins (hm.begins hp hq)
    | badCommand => exact ht.keeps hJ (fun _ => by simp) horigin
    | fetch => exact ht.keeps hJ (fetchRule_preserves hJ _ _ _) horigin
    | stretch _ hm => exact ht.keeps hJ (hstr hm) horigin

end phases

/-! # The window's geometry (10_state.md R63, R64, 43_lz77.md R331, R334) -/

/-- What the window's invariant asks of the units in a phase. -/
def windowAt (p : Phase) (u : Units) : Prop := p.inWindow = true → u.lz77.geometry

theorem windowInv_iff (s : State) : s.windowInv ↔ s.allUnits (windowAt s.phase) :=
  ⟨fun h => ⟨fun hp => (h hp).1, fun b hb hp => (h hp).2 b hb⟩, fun h hp => ⟨h.1 hp, fun b hb => h.2 b hb hp⟩⟩

theorem windowSize_pos (z : Lz77) : 0 < z.windowSize :=
  Nat.add_pos_left (Nat.two_pow_pos _) _

/-- A stream starts with an empty search region at place 0. -/
theorem started_geometry (z : Lz77) {sb lb : BitVec 5} (h : paramsInFormat .lz77 sb.toNat lb.toNat = true) :
    (z.started sb lb).geometry := by
  simp only [paramsInFormat, Bool.and_eq_true, decide_eq_true_eq] at h
  have hw := windowSize_pos (z.started sb lb)
  refine ⟨⟨?_, ?_, ?_, ?_⟩, Nat.zero_le _, hw, hw, hw, ?_⟩
  · change 2 ≤ sb.toNat; omega
  · change sb.toNat ≤ 29; omega
  · change 1 ≤ lb.toNat; omega
  · change lb.toNat < sb.toNat; omega
  · change 0 = (0 + _ - 0) % _
    simp

/-- `Advance` keeps the geometry, whatever the length (R334). -/
theorem advanced_geometry {z : Lz77} (h : z.geometry) (len : Nat) : (z.advanced len).geometry := by
  obtain ⟨hp, hc, hls, hle, hsp, hss⟩ := h
  exact ⟨hp, Nat.min_le_right _ _, Nat.mod_lt _ (windowSize_pos z), hle, hsp, rfl⟩

/-- A rule that keeps the geometry of the window. -/
def KeepsGeometry (u v : Units) : Prop := u.lz77.geometry → v.lz77.geometry

theorem KeepsGeometry.chains : Chains KeepsGeometry := ⟨fun _ h => h, fun h h' hu => h' (h hu)⟩

theorem Frame.keepsGeometry {α : Type} {fs : List Field} {m : M α} (h : Frame fs m) (hf : .lz77 ∉ fs) :
    Keeps KeepsGeometry m := Keeps.mono h fun _ _ hv hu => (hv .lz77 hf : _ = _) ▸ hu

theorem updLz77_keepsGeometry {g : Lz77 → Lz77} (h : ∀ z, z.geometry → (g z).geometry) :
    Keeps KeepsGeometry (updLz77 g) := Keeps.upd fun u hu => h u.lz77 hu

theorem bind_keepsGeometry {α β : Type} {x : M α} {f : α → M β} (hx : Keeps KeepsGeometry x)
    (hf : ∀ a, Keeps KeepsGeometry (f a)) : Keeps KeepsGeometry (x >>= f) := .bind KeepsGeometry.chains hx hf

theorem pure_keepsGeometry {α : Type} (a : α) : Keeps KeepsGeometry (pure a : M α) := .pure KeepsGeometry.chains a

theorem look_keepsGeometry {α : Type} (g : Units → α) : Keeps KeepsGeometry (look g) := .look KeepsGeometry.chains g

theorem raise_keepsGeometry {α : Type} (e : ErrorCode) : Keeps KeepsGeometry (raise e : M α) :=
  .raise KeepsGeometry.chains e

theorem winSet_geometry {z : Lz77} (h : z.geometry) (i : Nat) (b : Byte) : (z.winSet i b).geometry := h

theorem lz77Block_keepsGeometry (count : Nat) : Keeps KeepsGeometry (lz77Block count) :=
  bind_keepsGeometry (updLz77_keepsGeometry fun _ h => h) fun _ =>
    .ite (finishDecode_frame.keepsGeometry (by decide)) (pure_keepsGeometry _)

theorem lz77Copy_keepsGeometry (pos count i : Nat) : Keeps KeepsGeometry (lz77Copy pos count i) := by
  induction count generalizing i with
  | zero => exact pure_keepsGeometry _
  | succ count ih =>
    exact bind_keepsGeometry (look_keepsGeometry _) fun _ =>
      bind_keepsGeometry (updLz77_keepsGeometry fun _ h => winSet_geometry h _ _) fun _ =>
        bind_keepsGeometry ((emitByte_frame _).keepsGeometry (by decide)) fun _ => ih _

theorem lz77Record_keepsGeometry (len pos : Nat) (c : Byte) : Keeps KeepsGeometry (lz77Record len pos c) :=
  bind_keepsGeometry (lz77Copy_keepsGeometry ..) fun _ =>
    bind_keepsGeometry (updLz77_keepsGeometry fun _ h => winSet_geometry h _ _) fun _ =>
      bind_keepsGeometry ((emitByte_frame _).keepsGeometry (by decide)) fun _ =>
        bind_keepsGeometry (updLz77_keepsGeometry fun _ h => advanced_geometry h len) fun _ =>
          bind_keepsGeometry (look_keepsGeometry _) fun _ => .ite (pure_keepsGeometry _) (pure_keepsGeometry _)

theorem ruleLz77Match_keepsGeometry (len pos : Nat) (b : Byte) : Keeps KeepsGeometry (ruleLz77Match len pos b) :=
  bind_keepsGeometry (look_keepsGeometry _) fun _ =>
    .ite (raise_keepsGeometry _) (.ite (raise_keepsGeometry _) (lz77Record_keepsGeometry ..))

theorem lz77Read_keepsGeometry (cnt : Nat) : Keeps KeepsGeometry (lz77Read cnt) := by
  have rewound : ∀ z : Lz77, z.geometry → ({ z with le := z.ls } : Lz77).geometry :=
    fun _ ⟨hp, hc, hls, _, hsp, hss⟩ => ⟨hp, hc, hls, hls, hsp, hss⟩
  have stored (b : Byte) : ∀ z : Lz77, z.geometry →
      ({ z.winSet z.le b with le := (z.le + 1) % z.windowSize } : Lz77).geometry :=
    fun z ⟨hp, hc, hls, _, hsp, hss⟩ => ⟨hp, hc, hls, Nat.mod_lt _ (windowSize_pos z), hsp, hss⟩
  unfold lz77Read
  refine .optional KeepsGeometry.chains (updLz77_keepsGeometry rewound) fun _ =>
    bind_keepsGeometry (look_keepsGeometry _) fun z =>
      .ite (bind_keepsGeometry (takeByte_frame.keepsGeometry (by decide)) fun x => ?_) (pure_keepsGeometry _)
  split
  · exact pure_keepsGeometry _
  · exact bind_keepsGeometry (updLz77_keepsGeometry (stored _)) fun _ => pure_keepsGeometry _

theorem lz77Flag_keepsGeometry (cnt : Nat) : Keeps KeepsGeometry (lz77Flag cnt) :=
  bind_keepsGeometry (look_keepsGeometry _) fun _ =>
    bind_keepsGeometry ((writeToken_frame _ _).keepsGeometry (by decide)) fun _ =>
      bind_keepsGeometry (updLz77_keepsGeometry fun _ h => h) fun _ =>
        .ite (pure_keepsGeometry _) (pure_keepsGeometry _)

theorem searched_geometry {z : Lz77} (h : z.geometry) : z.searched.geometry := by
  obtain ⟨hp, hc, hls, hle, hsp, hss⟩ := h
  refine ⟨hp, hc, hls, hle, ?_, hss⟩
  unfold Lz77.searched
  dsimp only
  split
  · exact hsp
  · exact Nat.mod_lt _ (windowSize_pos z)

theorem lz77Emit_keepsGeometry : Keeps KeepsGeometry lz77Emit :=
  bind_keepsGeometry (look_keepsGeometry _) fun _ =>
    .ite (pure_keepsGeometry _) (bind_keepsGeometry (updLz77_keepsGeometry fun _ => searched_geometry) fun _ =>
      bind_keepsGeometry ((writeToken_frame _ _).keepsGeometry (by decide)) fun _ =>
        bind_keepsGeometry (updLz77_keepsGeometry fun _ h => advanced_geometry h _) fun _ => pure_keepsGeometry _)

theorem windowAt_phaseInv : PhaseInv windowAt where
  idle _ := nofun
  opens {p} hp _ := by
    cases p with
    | command | header => nofun
    | _ => cases hp
  begins h := by
    cases h with
    | other hq => exact fun hw => absurd ((Phase.within_iff.1 hq).2.1 hw) nofun
    | lz77 z _ hf hv => exact fun _ => hv ▸ started_geometry z hf
    | lz78 hq => rcases hq with rfl | rfl <;> nofun
    | lzw hq => rcases hq with rfl | rfl <;> nofun
  same hl _ _ _ hu hp := hl ▸ hu hp

/-- In a phase of no LZ77 stream there is nothing to keep: no rule but a stream's start goes on in one. -/
theorem windowAt_outside {p : Phase} {m : M Next} {u : Units} (hp : p.inWindow = false)
    (hg : Goes (p.within · = true) m) : Preserves windowAt p m u :=
  .of_goto (fun _ h => absurd (hp.symm.trans h) nofun) fun hq h =>
    absurd (hp.symm.trans ((Phase.within_iff.1 (hg.phase hq)).2.1 h)) nofun

/-- A rule of an LZ77 stream that keeps the geometry keeps the invariant. -/
theorem windowAt_inside {p : Phase} {m : M Next} {u : Units} (hm : Keeps KeepsGeometry m)
    (hg : Goes (p.within · = true) m) : Preserves windowAt p m u :=
  .of_keeps hm hg (fun h hu hp => h (hu hp)) fun hq h hu hw => h (hu ((Phase.within_iff.1 hq).2.1 hw))

theorem TokenRule.window {cfg : Params} {p : Phase} {i : Instr} {m : M Next} (h : TokenRule cfg p i m)
    (hp : p.opens = false) (u : Units) : Preserves windowAt p m u := by
  have hg := h.within hp
  cases h with
  | blockFull a =>
    cases a with
    | lz77 =>
      exact windowAt_inside (bind_keepsGeometry (look_keepsGeometry _) fun _ => lz77Block_keepsGeometry _) hg
    | _ => exact windowAt_outside rfl hg
  | blockShort a count =>
    cases a with
    | lz77 => exact windowAt_inside (lz77Block_keepsGeometry count) hg
    | _ => exact windowAt_outside rfl hg
  | lz77Literal b => exact windowAt_inside (lz77Record_keepsGeometry ..) hg
  | lz77Match => exact windowAt_inside (ruleLz77Match_keepsGeometry ..) hg
  | _ => exact windowAt_outside rfl hg

theorem stretchOf_window {cfg : Params} {p : Phase} {m : M Next} (h : stretchOf cfg p = some m) (u : Units) :
    Preserves windowAt p m u := by
  have hg := stretchOf_within h
  cases p with
  | lz77Read cnt => cases h; exact windowAt_inside (lz77Read_keepsGeometry cnt) hg
  | lz77Flag cnt => cases h; exact windowAt_inside (lz77Flag_keepsGeometry cnt) hg
  | lz77Emit => cases h; exact windowAt_inside lz77Emit_keepsGeometry hg
  | block a => cases h
  | record a => cases h
  | _ => exact windowAt_outside rfl hg

/-- Settles O14: a stream starts with the geometry and every rule of an LZ77 stream keeps it. -/
theorem stepKeepsTheWindowGeometry : Obligations.StepKeepsTheWindowGeometry := by
  intro s t hs h
  rw [windowInv_iff] at hs ⊢
  exact step_keeps windowAt_phaseInv (fun hm hp _ => hm.window hp _) (fun hm => stretchOf_window hm _) hs h

end Sys2Proof.Machine

namespace Sys2Proof.Machine

/-! # Phrases (20_memory.md R100) -/

theorem parent_lt {dict : List Entry} (h : parentsBelow dict) {w p : Nat} {b : Byte}
    (hw : dict[w]? = some (.pair (some p) b)) : p < w := by
  obtain ⟨hlt, he⟩ := List.getElem?_eq_some_iff.1 hw
  exact h ⟨w, hlt⟩ p b he

/-- With parents below their entries the fuel of `phraseOf` is enough, and what follows a phrase stays behind it. -/
theorem phraseBytes_eq {dict : List Entry} (h : parentsBelow dict) (w : Nat) :
    ∀ fuel tail, w < fuel → phraseBytes dict fuel w tail = phraseOf dict (some w) ++ tail := by
  induction w using Nat.strong_induction_on with
  | _ w ih =>
    intro fuel tail hf
    obtain ⟨fuel, rfl⟩ : ∃ n, fuel = n + 1 := ⟨fuel - 1, by omega⟩
    change phraseBytes dict (fuel + 1) w tail = phraseBytes dict (w + 1) w [] ++ tail
    rw [phraseBytes, phraseBytes]
    rcases hw : dict[w]? with _ | _ | ⟨_ | p, b⟩
    · rfl
    · rfl
    · rfl
    · have hp : p < w := parent_lt h hw
      simp only
      rw [ih p hp fuel (b :: tail) (by omega), ih p hp w [b] hp, List.append_assoc]
      rfl

/-- An entry's phrase is its parent's phrase and its byte. -/
theorem phraseOf_pair {dict : List Entry} (h : parentsBelow dict) {w : Nat} {p : Option Nat} {b : Byte}
    (hw : dict[w]? = some (.pair p b)) : phraseOf dict (some w) = phraseOf dict p ++ [b] := by
  cases p with
  | none => simp [phraseOf, phraseBytes, hw]
  | some p =>
    have he : phraseOf dict (some w) = phraseBytes dict w p [b] := by simp [phraseOf, phraseBytes, hw]
    rw [he, phraseBytes_eq h p w [b] (parent_lt h hw)]

/-- Settles O52. -/
theorem phrasesFollowTheirParents : Obligations.PhrasesFollowTheirParents := by
  intro dict w h
  exact ⟨rfl, fun hw => by simp [phraseOf, phraseBytes, hw], fun p b => phraseOf_pair h⟩

/-! # The dictionary's invariant (10_state.md R66, R68, 44_lz78.md R375, 45_lzw.md R401) -/

/-! ## Lists of entries -/

theorem seed_parentsBelow {dict : List Entry} (h : ∀ e ∈ dict, ∀ p b, e ≠ .pair (some p) b) : parentsBelow dict :=
  fun i p b he => absurd he (h _ (List.getElem_mem i.isLt) p b)

/-- One more entry whose parent stands below it. -/
theorem parentsBelow_append {dict : List Entry} (h : parentsBelow dict) {w : Option Nat} {c : Byte}
    (hw : ∀ p ∈ w, p < dict.length) : parentsBelow (dict ++ [.pair w c]) := by
  intro i p b he
  have hi : i.val < dict.length + 1 := by simpa using i.isLt
  rcases Nat.lt_or_ge i.val dict.length with hlt | hge
  · have he' : dict[i.val]? = some (.pair (some p) b) := by
      rw [List.getElem?_eq_getElem hlt, ← he]
      exact congrArg some (List.getElem_append_left hlt).symm
    exact parent_lt h he'
  · have hlast : i.val = dict.length := by omega
    have he' : Entry.pair w c = .pair (some p) b := by
      rw [← he]
      simp [hlast]
    cases he'
    exact hlast ▸ hw p rfl

theorem findEntry_some {dict : List Entry} {w : Option Nat} {c : Byte} {j : Nat} (h : findEntry dict w c = some j) :
    dict[j]? = some (.pair w c) := by
  obtain ⟨hj, he, -⟩ := List.findIdx?_eq_some_iff_getElem.1 h
  rw [List.getElem?_eq_getElem hj]
  simpa using he

theorem findEntry_none {dict : List Entry} {w : Option Nat} {c : Byte} (h : findEntry dict w c = none) :
    .pair w c ∉ dict := by
  intro hm
  have := List.findIdx?_eq_none_iff.1 h _ hm
  simp at this

/-- `w` is NONE or names an entry that is a phrase with a last byte. -/
def NamesPhrase (dict : List Entry) (w : Option Nat) : Prop := ∀ p ∈ w, ∃ q b, dict[p]? = some (.pair q b)

theorem NamesPhrase.lt {dict : List Entry} {w : Option Nat} (h : NamesPhrase dict w) : ∀ p ∈ w, p < dict.length := by
  intro p hp
  obtain ⟨q, b, hpb⟩ := h p hp
  exact (List.getElem?_eq_some_iff.1 hpb).1

/-- A new phrase keeps the phrases distinct. -/
theorem distinctPhrases_append {dict : List Entry} (h : distinctPhrases dict) {w : Option Nat} {c : Byte}
    (hn : findEntry dict w c = none) (hw : NamesPhrase dict w) : distinctPhrases (dict ++ [.pair w c]) := by
  obtain ⟨hd, hc⟩ := h
  refine ⟨List.nodup_append.2 ⟨hd, by simp, fun a ha b hb => ?_⟩, fun p b hm => ?_⟩
  · rw [List.mem_singleton.1 hb]
    rintro rfl
    exact findEntry_none hn ha
  · have notReserved (hp : dict[p]? ≠ some .emptyPhrase) : (dict ++ [.pair w c])[p]? ≠ some .emptyPhrase := by
      intro he
      rcases Nat.lt_or_ge p dict.length with hlt | hge
      · rw [List.getElem?_append_left hlt] at he
        exact hp he
      · rw [List.getElem?_append_right hge] at he
        simp [List.getElem?_cons] at he
    rcases List.mem_append.1 hm with hm | hm
    · exact notReserved (hc p b hm)
    · cases List.mem_singleton.1 hm
      obtain ⟨q, b', hp⟩ := hw p rfl
      exact notReserved (by simp [hp])

/-! ## The units -/

/-- `v` has the dictionary of `u` and its size. -/
structure SameDict (u v : Units) : Prop where
  dict : v.dict = u.dict
  db : v.dz.db = u.dz.db

/-- And each phrase register is as it was or NONE. -/
structure SamePhrases (u v : Units) : Prop extends SameDict u v where
  w : v.lzw.w = u.lzw.w ∨ v.lzw.w = none
  prev : v.lzw.prev = u.lzw.prev ∨ v.lzw.prev = none

theorem SamePhrases.chains : Chains SamePhrases where
  refl _ := ⟨⟨rfl, rfl⟩, .inl rfl, .inl rfl⟩
  trans h h' := ⟨⟨h'.dict.trans h.dict, h'.db.trans h.db⟩, h'.w.elim (fun e => e ▸ h.w) .inr,
    h'.prev.elim (fun e => e ▸ h.prev) .inr⟩

theorem SameDict.cap {u v : Units} (h : SameDict u v) : v.dz.cap = u.dz.cap := by
  unfold Dz.cap
  rw [h.db]

theorem SameDict.dictWf {u v : Units} (h : SameDict u v) (hu : u.dictWf) : v.dictWf := by
  unfold Units.dictWf
  rw [h.dict, h.cap]
  exact hu

theorem SamePhrases.lzwWf {u v : Units} (h : SamePhrases u v) (hu : u.lzwWf) : v.lzwWf := by
  obtain ⟨hwf, hseed, hres, hw, hprev⟩ := hu
  refine ⟨h.dictWf hwf, h.dict ▸ hseed, h.dict ▸ hres, fun w hvw => ?_, fun q hvq => ?_⟩
  · rw [h.dict]
    rcases h.w with e | e <;> rw [e] at hvw
    · exact hw w hvw
    · cases hvw
  · rw [h.dict]
    rcases h.prev with e | e <;> rw [e] at hvq
    · exact hprev q hvq
    · cases hvq

theorem Frame.samePhrases {α : Type} {fs : List Field} {m : M α} (h : Frame fs m) (hdict : .dict ∉ fs)
    (hdz : .dz ∉ fs) (hlzw : .lzw ∉ fs) : Keeps SamePhrases m := Keeps.mono h fun u v hv => by
  have hl : v.lzw = u.lzw := hv .lzw hlzw
  exact ⟨⟨hv .dict hdict, congrArg Dz.db (hv .dz hdz)⟩, .inl (hl ▸ rfl), .inl (hl ▸ rfl)⟩

/-- `v` has one entry more than `u`, where there was room, or none, and no phrase register names another entry. -/
structure Inserted (w : Option Nat) (c : Byte) (u v : Units) : Prop where
  db : v.dz.db = u.dz.db
  regs : (v.lzw.w = u.lzw.w ∨ v.lzw.w = none) ∧ (v.lzw.prev = u.lzw.prev ∨ v.lzw.prev = none)
  dict : v.dict = u.dict ∨ (u.dict.length < u.dz.cap ∧ v.dict = u.dict ++ [.pair w c])

theorem SamePhrases.inserted {w : Option Nat} {c : Byte} {u v : Units} (h : SamePhrases u v) : Inserted w c u v :=
  ⟨h.db, ⟨h.w, h.prev⟩, .inl h.dict⟩

theorem SamePhrases.inserted_trans {w : Option Nat} {c : Byte} {u v x : Units} (h : SamePhrases u v)
    (h' : Inserted w c v x) : Inserted w c u x :=
  ⟨h'.db.trans h.db, ⟨h'.regs.1.elim (fun e => e ▸ h.w) .inr, h'.regs.2.elim (fun e => e ▸ h.prev) .inr⟩,
    h.dict ▸ h.cap ▸ h'.dict⟩

theorem Inserted.samePhrases {w : Option Nat} {c : Byte} {u v x : Units} (h : Inserted w c u v)
    (h' : SamePhrases v x) : Inserted w c u x :=
  ⟨h'.db.trans h.db, ⟨h'.w.elim (fun e => e ▸ h.regs.1) .inr, h'.prev.elim (fun e => e ▸ h.regs.2) .inr⟩,
    h'.dict ▸ h.dict⟩

/-- A part before the insertion. -/
theorem Keeps.inserted_bind {α β : Type} {w : Option Nat} {c : Byte} {x : M α} {f : α → M β}
    (hx : Keeps SamePhrases x) (hf : ∀ a, Keeps (Inserted w c) (f a)) : Keeps (Inserted w c) (x >>= f) :=
  .seq hx hf SamePhrases.inserted SamePhrases.inserted_trans

/-- A part after the insertion. -/
theorem Keeps.inserted_then {α β : Type} {w : Option Nat} {c : Byte} {x : M α} {f : α → M β}
    (hx : Keeps (Inserted w c) x) (hf : ∀ a, Keeps SamePhrases (f a)) : Keeps (Inserted w c) (x >>= f) :=
  .seq hx hf (fun h => h) Inserted.samePhrases

theorem insertIfRoom_inserted (w : Option Nat) (c : Byte) : Keeps (Inserted w c) (insertIfRoom w c) :=
  Keeps.upd fun u => by
    by_cases h : u.dict.length < u.dz.cap
    · rw [if_pos h]
      exact ⟨rfl, ⟨.inl rfl, .inl rfl⟩, .inr ⟨h, rfl⟩⟩
    · rw [if_neg h]
      exact (SamePhrases.chains.refl u).inserted

theorem insertInBlock_inserted (w : Option Nat) (c : Byte) : Keeps (Inserted w c) (insertInBlock w c) :=
  .inserted_bind (.look SamePhrases.chains _) fun _ =>
    .ite (insertIfRoom_inserted w c) (Keeps.mono (.pure SamePhrases.chains _) fun _ _ => SamePhrases.inserted)

theorem Inserted.dictWf {w : Option Nat} {c : Byte} {u v : Units} (h : Inserted w c u v) (hu : u.dictWf)
    (hw : ∀ p ∈ w, p < u.dict.length) : v.dictWf := by
  obtain ⟨hlen, hpar⟩ := hu
  unfold Units.dictWf Dz.cap
  rw [h.db]
  rcases h.dict with he | ⟨hroom, he⟩ <;> rw [he]
  · exact ⟨hlen, hpar⟩
  · exact ⟨by rw [List.length_append]; exact hroom, parentsBelow_append hpar hw⟩

theorem Inserted.length_le {w : Option Nat} {c : Byte} {u v : Units} (h : Inserted w c u v) :
    u.dict.length ≤ v.dict.length := by
  rcases h.dict with he | ⟨-, he⟩ <;> simp [he]

theorem Inserted.lzwWf {w : Option Nat} {c : Byte} {u v : Units} (h : Inserted w c u v) (hu : u.lzwWf)
    (hw : ∀ p ∈ w, p < u.dict.length) : v.lzwWf := by
  obtain ⟨hwf, hseed, hres, hw', hprev⟩ := hu
  have hle := h.length_le
  have hdict : lzwSeed <+: v.dict ∧ .emptyPhrase ∉ v.dict := by
    rcases h.dict with he | ⟨-, he⟩ <;> rw [he]
    · exact ⟨hseed, hres⟩
    · exact ⟨hseed.trans ⟨_, rfl⟩, by simpa using hres⟩
  refine ⟨h.dictWf hwf hw, hdict.1, hdict.2, fun x hx => ?_, fun q hq => ?_⟩
  · rcases h.regs.1 with e | e <;> rw [e] at hx
    · exact Nat.lt_of_lt_of_le (hw' x hx) hle
    · cases hx
  · rcases h.regs.2 with e | e <;> rw [e] at hq
    · exact Nat.lt_of_lt_of_le (hprev q hq) hle
    · cases hq

end Sys2Proof.Machine

namespace Sys2Proof.Machine

/-! ## The rules that insert nothing -/

theorem updDz_samePhrases {g : Dz → Dz} (h : ∀ z, (g z).db = z.db) : Keeps SamePhrases (updDz g) :=
  Keeps.upd fun _ => ⟨⟨rfl, h _⟩, .inl rfl, .inl rfl⟩

theorem bind_samePhrases {α β : Type} {x : M α} {f : α → M β} (hx : Keeps SamePhrases x)
    (hf : ∀ a, Keeps SamePhrases (f a)) : Keeps SamePhrases (x >>= f) := .bind SamePhrases.chains hx hf

theorem pure_samePhrases {α : Type} (a : α) : Keeps SamePhrases (pure a : M α) := .pure SamePhrases.chains a

theorem look_samePhrases {α : Type} (g : Units → α) : Keeps SamePhrases (look g) := .look SamePhrases.chains g

theorem raise_samePhrases {α : Type} (e : ErrorCode) : Keeps SamePhrases (raise e : M α) :=
  .raise SamePhrases.chains e

theorem writeToken_samePhrases (c : Ctx) (i : Instr) : Keeps SamePhrases (writeToken c i) :=
  (writeToken_frame c i).samePhrases (by decide) (by decide) (by decide)

theorem emitBytes_samePhrases (bs : List Byte) : Keeps SamePhrases (emitBytes bs) :=
  (emitBytes_frame bs).samePhrases (by decide) (by decide) (by decide)

theorem nextRecord_samePhrases (a : Lz) : Keeps SamePhrases (nextRecord a) :=
  (nextRecord_frame a).samePhrases (by decide) (by decide) (by decide)

theorem dictBlockStart_samePhrases (a : DictAlg) : Keeps SamePhrases (dictBlockStart a) :=
  bind_samePhrases (updDz_samePhrases fun _ => rfl) fun _ => pure_samePhrases _

theorem lzwBlockEnd_samePhrases : Keeps SamePhrases lzwBlockEnd :=
  lzwBlockEnd_frame.samePhrases (by decide) (by decide) (by decide)

theorem dictBlock_samePhrases (a : DictAlg) (count : Nat) : Keeps SamePhrases (dictBlock a count) :=
  bind_samePhrases (updDz_samePhrases fun _ => rfl) fun _ =>
    .ite (finishDecode_frame.samePhrases (by decide) (by decide) (by decide))
      (bind_samePhrases (Keeps.upd fun _ => by
        cases a
        · exact ⟨⟨rfl, rfl⟩, .inl rfl, .inl rfl⟩
        · exact ⟨⟨rfl, rfl⟩, .inl rfl, .inr rfl⟩) fun _ => pure_samePhrases _)

theorem dictRead_samePhrases (a : DictAlg) : Keeps SamePhrases (dictRead a) := by
  refine bind_samePhrases (look_samePhrases _) fun z => .ite (bind_samePhrases
    (takeByte_frame.samePhrases (by decide) (by decide) (by decide)) fun item => ?_) (pure_samePhrases _)
  split
  · exact pure_samePhrases _
  · exact bind_samePhrases (updDz_samePhrases fun _ => rfl) fun _ => pure_samePhrases _

theorem dictFlag_samePhrases (a : DictAlg) : Keeps SamePhrases (dictFlag a) :=
  bind_samePhrases (look_samePhrases _) fun _ => bind_samePhrases (writeToken_samePhrases _ _) fun _ =>
    bind_samePhrases (Keeps.upd fun _ => by
      cases a
      · exact ⟨⟨rfl, rfl⟩, .inl rfl, .inl rfl⟩
      · exact ⟨⟨rfl, rfl⟩, .inr rfl, .inl rfl⟩) fun _ => .ite (pure_samePhrases _) (pure_samePhrases _)

/-! ## LZ78 records (44_lz78.md R375, R377, R383) -/

theorem lz78Record_inserted (w : Option Nat) (c : Byte) : Keeps (Inserted w c) (lz78Record w c) :=
  .inserted_bind (look_samePhrases _) fun _ => .inserted_bind (look_samePhrases _) fun _ =>
    .ite (Keeps.mono (raise_samePhrases _) fun _ _ => SamePhrases.inserted)
      (.inserted_bind (emitBytes_samePhrases _) fun _ => .inserted_bind (updDz_samePhrases fun _ => rfl) fun _ =>
        .inserted_then (insertInBlock_inserted w c) fun _ => nextRecord_samePhrases _)

/-- The search of a phrase goes from entry to entry. -/
theorem extendPhrase_names {dict : List Entry} {z : Dz} {fuel : Nat} {w : Option Nat} {len : Nat}
    (h : NamesPhrase dict w) : NamesPhrase dict (extendPhrase dict z fuel w len).1 := by
  induction fuel generalizing w len with
  | zero => exact h
  | succ fuel ih =>
    unfold extendPhrase
    split
    · split
      · rename_i j hj
        exact ih fun p hp => ⟨_, _, Option.some.inj hp ▸ findEntry_some hj⟩
      · exact h
    · exact h

/-- It stops inside the block only where no entry continues the phrase. -/
theorem extendPhrase_stops {dict : List Entry} {z : Dz} {fuel : Nat} {w : Option Nat} {len : Nat}
    (hf : (extendPhrase dict z fuel w len).2 < len + fuel)
    (hb : (extendPhrase dict z fuel w len).2 + 1 ≤ z.cnt - z.i - 1) :
    findEntry dict (extendPhrase dict z fuel w len).1
      (z.blockAt (z.i + (extendPhrase dict z fuel w len).2)) = none := by
  induction fuel generalizing w len with
  | zero => exact absurd hf (Nat.lt_irrefl _)
  | succ fuel ih =>
    by_cases hlen : len + 1 ≤ z.cnt - z.i - 1
    · cases hj : findEntry dict w (z.blockAt (z.i + len)) with
      | some j =>
        have he : extendPhrase dict z (fuel + 1) w len = extendPhrase dict z fuel (some j) (len + 1) := by
          simp [extendPhrase, hlen, hj]
        rw [he] at hf hb ⊢
        exact ih (by omega) hb
      | none =>
        have he : extendPhrase dict z (fuel + 1) w len = (w, len) := by simp [extendPhrase, hlen, hj]
        rw [he]
        exact hj
    · have he : extendPhrase dict z (fuel + 1) w len = (w, len) := by simp [extendPhrase, hlen]
      rw [he] at hb
      exact absurd hb hlen

theorem none_namesPhrase (dict : List Entry) : NamesPhrase dict none := nofun

/-- What an LZ78 encoder's invariant asks of the units. -/
def Lz78Wf (u : Units) : Prop := u.dictWf ∧ distinctPhrases u.dict

theorem SameDict.lz78Wf {u v : Units} (h : SameDict u v) (hu : Lz78Wf u) : Lz78Wf v :=
  ⟨h.dictWf hu.1, h.dict ▸ hu.2⟩

theorem Inserted.lz78Wf {w : Option Nat} {c : Byte} {u v : Units} (h : Inserted w c u v) (hu : Lz78Wf u)
    (hn : findEntry u.dict w c = none) (hw : NamesPhrase u.dict w) : Lz78Wf v := by
  refine ⟨h.dictWf hu.1 hw.lt, ?_⟩
  rcases h.dict with he | ⟨-, he⟩ <;> rw [he]
  · exact hu.2
  · exact distinctPhrases_append hu.2 hn hw

/-- A predicate that a rule keeps is a relation that it keeps. -/
theorem keeps_of_wp {α : Type} {P : Units → Prop} {m : M α}
    (h : ∀ u, P u → m.wp P (fun _ => P) (fun _ => P) u) : Keeps (fun u v => P u → P v) m where
  on u hu := by
    have hwp := (h u hu).2
    cases hm : m.on u with
    | ok a v => rw [hm] at hwp; exact hwp
    | error e v => rw [hm] at hwp; exact hwp
  past u v hv hu := (h u hu).1 v hv

theorem Keeps.wp_of {α : Type} {P : Units → Prop} {m : M α} (h : Keeps (fun u v => P u → P v) m) {u : Units}
    (hu : P u) : m.wp P (fun _ => P) (fun _ => P) u :=
  h.wp (fun _ h => h hu) (fun _ _ h => h hu) fun _ _ h => h hu

/-- The record of the LZ78 encoder: what it inserts is a phrase that no entry had. -/
theorem lz78Emit_keeps : Keeps (fun u v => Lz78Wf u → Lz78Wf v) lz78Emit := by
  refine keeps_of_wp fun u hu => ?_
  unfold lz78Emit
  rw [M.wp_bind, wp_look, M.wp_ite]
  refine ⟨fun hi => ?_, fun _ => ?_⟩
  · rw [M.wp_bind, wp_look]
    have hnames : NamesPhrase u.dict (findPhrase u.dict u.dz).1 := extendPhrase_names (none_namesPhrase _)
    have hstops : ∀ c, c = u.dz.blockAt (u.dz.i + (findPhrase u.dict u.dz).2) →
        u.dz.i + (findPhrase u.dict u.dz).2 + 1 < u.dz.cnt → findEntry u.dict (findPhrase u.dict u.dz).1 c = none := by
      rintro _ rfl hlt
      exact extendPhrase_stops (by change (findPhrase u.dict u.dz).2 < _; omega)
        (by change (findPhrase u.dict u.dz).2 + 1 ≤ _; omega)
    generalize findPhrase u.dict u.dz = r at hnames hstops
    obtain ⟨w, len⟩ := r
    dsimp only at hnames hstops ⊢
    generalize u.dz.blockAt (u.dz.i + len) = c at hstops
    rw [M.wp_bind]
    refine (writeToken_frame _ _).wp (fun v hv => ?_) (fun _ v hv => ?_) fun _ v hv => ?_
    all_goals have hvd : v.dict = u.dict := hv .dict (by decide)
    all_goals have hvz : v.dz = u.dz := hv .dz (by decide)
    all_goals have hsame : SameDict u v := ⟨hvd, congrArg Dz.db hvz⟩
    · exact hsame.lz78Wf hu
    · exact hsame.lz78Wf hu
    · have hwf : Lz78Wf { v with dz := { v.dz with i := v.dz.i + len + 1 } } := hsame.lz78Wf hu
      rw [M.wp_bind, updDz, wp_upd]
      refine ⟨hwf, ?_⟩
      rw [M.wp_bind, insertInBlock, M.wp_bind, wp_look, M.wp_ite]
      refine ⟨fun hroom => ?_, fun _ => (M.wp_pure _).2 ((M.wp_pure _).2 hwf)⟩
      have hn : findEntry v.dict w c = none := by
        rw [hvd]
        rw [hvz] at hroom
        exact hstops c rfl hroom
      have hins {x : Units} (h : Inserted w c { v with dz := { v.dz with i := v.dz.i + len + 1 } } x) : Lz78Wf x :=
        h.lz78Wf hwf hn (by rw [hvd]; exact hnames)
      exact (insertIfRoom_inserted w c).wp (fun _ => hins) (fun _ _ => hins) fun _ _ h => (M.wp_pure _).2 (hins h)
  · exact (Keeps.mono (dictBlockStart_samePhrases _) fun _ _ h => h.lz78Wf).wp_of hu

/-! ## LZW records (45_lzw.md R402, R407) -/

theorem lzwSeed_length : lzwSeed.length = 256 := by simp [lzwSeed]

theorem lzwSeed_pair {e : Entry} (h : e ∈ lzwSeed) : ∃ b, e = .pair none b := by
  obtain ⟨i, -, rfl⟩ := List.mem_map.1 h
  exact ⟨_, rfl⟩

/-- Every byte is an entry of an LZW stream. -/
theorem Units.lzwWf.byte_lt {u : Units} (h : u.lzwWf) {n : Nat} (hn : n < 256) : n < u.dict.length := by
  obtain ⟨-, hseed, -⟩ := h
  have := hseed.length_le
  rw [lzwSeed_length] at this
  omega

/-- Every phrase of an LZW stream has a last byte. -/
theorem Units.lzwWf.phrase_ne_nil {u : Units} (h : u.lzwWf) {q : Nat} (hq : q < u.dict.length) :
    phraseOf u.dict (some q) ≠ [] := by
  obtain ⟨⟨-, hpar⟩, -, hres, -⟩ := h
  have hget := List.getElem?_eq_getElem hq
  rcases he : u.dict[q] with _ | ⟨p, b⟩
  · exact absurd (he ▸ List.getElem_mem hq) hres
  · rw [he] at hget
    simp [phraseOf_pair hpar hget]

/-- The current phrase may be set to any entry. -/
theorem Units.lzwWf.setW {u : Units} (h : u.lzwWf) {j : Nat} (hj : j < u.dict.length) :
    ({ u with lzw := { u.lzw with w := some j } } : Units).lzwWf := by
  obtain ⟨hwf, hseed, hres, -, hprev⟩ := h
  exact ⟨hwf, hseed, hres, fun w hw => Option.some.inj hw ▸ hj, hprev⟩

theorem Units.lzwWf.setPrev {u : Units} (h : u.lzwWf) {p : Nat} (hp : p < u.dict.length) :
    ({ u with lzw := { u.lzw with prev := some p } } : Units).lzwWf := by
  obtain ⟨hwf, hseed, hres, hw, -⟩ := h
  exact ⟨hwf, hseed, hres, hw, fun q hq => Option.some.inj hq ▸ hp⟩

/-- One byte of the encoder's block. -/
theorem lzwByte_keeps (c : Byte) : Keeps (fun u v => u.lzwWf → v.lzwWf) (lzwByte c) := by
  refine keeps_of_wp fun u hu => ?_
  have setW {v : Units} {j : Nat} (hv : v.lzwWf) (hj : j < v.dict.length) :
      (updLzw fun l => { l with w := some j }).wp Units.lzwWf (fun _ => Units.lzwWf) (fun _ => Units.lzwWf) v := by
    rw [updLzw, wp_upd]
    exact ⟨hv.setW hj, hv.setW hj⟩
  have hw := hu.2.2.2.1
  unfold lzwByte
  rw [M.wp_bind, wp_look, M.wp_bind, wp_look]
  split
  · exact setW hu (hu.byte_lt c.isLt)
  · rename_i w hsome
    split
    · rename_i j hj
      exact setW hu (List.getElem?_eq_some_iff.1 (findEntry_some hj)).1
    · have hlt : ∀ p ∈ some w, p < u.dict.length := hsome ▸ hw
      have insert (v : Units) (hv : v.lzwWf) (hvd : v.dict = u.dict) :
          (do insertIfRoom (some w) c
              updLzw fun l => { l with w := some c.toNat } : M Unit).wp
            Units.lzwWf (fun _ => Units.lzwWf) (fun _ => Units.lzwWf) v := by
        rw [M.wp_bind]
        refine (insertIfRoom_inserted (some w) c).wp (fun x hx => ?_) (fun _ x hx => ?_) fun _ x hx => ?_
        all_goals have hx : x.lzwWf := hx.lzwWf hv (by rw [hvd]; exact hlt)
        · exact hx
        · exact hx
        · exact setW hx (hx.byte_lt c.isLt)
      rw [M.wp_bind, wp_look, M.wp_bind]
      exact (writeToken_samePhrases _ _).wp (fun _ h => h.lzwWf hu) (fun _ _ h => h.lzwWf hu)
        fun _ v h => insert v (h.lzwWf hu) h.dict

theorem KeepsLzw.chains : Chains fun u v : Units => u.lzwWf → v.lzwWf := ⟨fun _ h => h, fun h h' hu => h' (h hu)⟩

/-- A rule that inserts nothing keeps an LZW stream's dictionary. -/
theorem Keeps.lzwWf {α : Type} {m : M α} (h : Keeps SamePhrases m) : Keeps (fun u v => u.lzwWf → v.lzwWf) m :=
  Keeps.mono h fun _ _ h => h.lzwWf

theorem lzwEmit_keeps : Keeps (fun u v => u.lzwWf → v.lzwWf) lzwEmit :=
  .bind KeepsLzw.chains (look_samePhrases _).lzwWf fun _ =>
    .ite (.bind KeepsLzw.chains (lzwByte_keeps _) fun _ =>
      Keeps.lzwWf (bind_samePhrases (updDz_samePhrases fun _ => rfl) fun _ => pure_samePhrases _))
      (bind_samePhrases lzwBlockEnd_samePhrases fun _ => dictBlockStart_samePhrases _).lzwWf

theorem lzwInsert_inserted (q : Nat) (b : Byte) (bs : List Byte) :
    Keeps (Inserted (some q) b) (lzwInsert (some q) (b :: bs)) := insertIfRoom_inserted (some q) b

/-- After the insertion that goes with index `p`, `p` names an entry: it did before, or it is the entry inserted, for
which its width leaves room (R407). -/
theorem lzwInsert_keeps {cfg : Params} {u v : Units} {p : Nat} {phrase : List Byte} (hu : u.lzwWf)
    (hp : p < u.dz.cap) (hph : lzwPhrase cfg u.dict u.lzw.prev p = .ok phrase) (hv : SamePhrases u v) :
    (lzwInsert u.lzw.prev phrase).wp Units.lzwWf (fun _ => Units.lzwWf)
      (fun _ x => x.lzwWf ∧ p < x.dict.length) v := by
  have hvwf : v.lzwWf := hv.lzwWf hu
  have hprev : ∀ q ∈ u.lzw.prev, q < u.dict.length := hu.2.2.2.2
  unfold lzwPhrase at hph
  cases hq : u.lzw.prev with
  | none =>
    rw [hq] at hph
    have hlt : p < u.dict.length := by
      dsimp only at hph
      split at hph
      · rename_i hok
        unfold firstIndexOk at hok
        split at hok
        · exact of_decide_eq_true hok
        · exact hu.byte_lt (of_decide_eq_true hok)
      · cases hph
    exact (M.wp_pure _).2 ⟨hvwf, hv.dict ▸ hlt⟩
  | some q =>
    rw [hq] at hph
    have hqlt : q < u.dict.length := hprev q hq
    have hqv : ∀ r ∈ some q, r < v.dict.length := fun r hr => by
      rw [← Option.some.inj hr, hv.dict]
      exact hqlt
    have inserted {b bs} (hlt : ∀ {x}, Inserted (some q) b v x → p < x.dict.length) :
        (lzwInsert (some q) (b :: bs)).wp Units.lzwWf (fun _ => Units.lzwWf)
          (fun _ x => x.lzwWf ∧ p < x.dict.length) v :=
      (lzwInsert_inserted q b bs).wp (fun _ h => h.lzwWf hvwf hqv) (fun _ _ h => h.lzwWf hvwf hqv)
        fun _ _ h => ⟨h.lzwWf hvwf hqv, hlt h⟩
    by_cases hlt : p < u.dict.length
    · have hltv : p < v.dict.length := by rw [hv.dict]; exact hlt
      cases phrase with
      | nil => exact (M.wp_pure _).2 ⟨hvwf, hltv⟩
      | cons b bs => exact inserted fun h => Nat.lt_of_lt_of_le hltv h.length_le
    · dsimp only at hph
      rw [if_neg hlt] at hph
      split at hph
      · rename_i hlen
        obtain ⟨b, bs, hb⟩ := List.exists_cons_of_ne_nil (hu.phrase_ne_nil hqlt)
        rw [hb] at hph
        cases hph
        have hroom : v.dict.length < v.dz.cap := by
          rw [hv.dict, hv.cap]
          omega
        have hins : Inserted (some q) b v { v with dict := v.dict ++ [.pair (some q) b] } :=
          ⟨rfl, ⟨.inl rfl, .inl rfl⟩, .inr ⟨hroom, rfl⟩⟩
        change (insertIfRoom (some q) b).wp _ _ _ v
        rw [insertIfRoom, wp_upd, if_pos hroom]
        refine ⟨hins.lzwWf hvwf hqv, hins.lzwWf hvwf hqv, ?_⟩
        rw [List.length_append, hv.dict, hlen]
        exact Nat.lt_succ_self _
      · cases hph

/-- The record of the LZW decoder, its index being one of the stream's width. -/
theorem ruleLzwIndex_keeps {cfg : Params} {u : Units} {p : Nat} (hu : u.lzwWf) (hp : p < u.dz.cap) :
    (ruleLzwIndex cfg p).wp Units.lzwWf (fun _ => Units.lzwWf) (fun _ => Units.lzwWf) u := by
  unfold ruleLzwIndex
  rw [M.wp_bind, wp_look, M.wp_bind, wp_look]
  split
  · exact (wp_raise _).2 hu
  · rename_i phrase hph
    rw [M.wp_bind, wp_look, M.wp_ite]
    refine ⟨fun _ => (wp_raise _).2 hu, fun _ => ?_⟩
    rw [M.wp_bind]
    refine (emitBytes_samePhrases phrase).wp (fun _ h => h.lzwWf hu) (fun _ _ h => h.lzwWf hu) fun _ v hv => ?_
    have hv' : SamePhrases u { v with dz := { v.dz with i := v.dz.i + phrase.length } } :=
      ⟨⟨hv.dict, hv.db⟩, hv.w, hv.prev⟩
    rw [M.wp_bind, updDz, wp_upd]
    refine ⟨hv'.lzwWf hu, ?_⟩
    rw [M.wp_bind]
    refine M.wp_mono (lzwInsert_keeps hu hp hph hv') (fun _ h => h) (fun _ _ h => h) fun _ x hx => ?_
    have hx' := hx.1.setPrev hx.2
    rw [M.wp_bind, updLzw, wp_upd]
    exact ⟨hx', (Keeps.lzwWf (nextRecord_samePhrases _)).wp_of hx'⟩

/-! ## The invariant by phase -/

/-- What the dictionary's invariant asks of the units in a phase. -/
def dictAt (p : Phase) (u : Units) : Prop :=
  (p.inLz78 = true → u.dictWf) ∧ (p.encodesLz78 = true → distinctPhrases u.dict) ∧ (p.inLzw = true → u.lzwWf)

theorem dictInv_iff (s : State) : s.dictInv ↔ s.allUnits (dictAt s.phase) :=
  ⟨fun ⟨h1, h2, h3⟩ => ⟨⟨fun hp => (h1 hp).1, fun hp => (h2 hp).1, fun hp => (h3 hp).1⟩,
      fun b hb => ⟨fun hp => (h1 hp).2 b hb, fun hp => (h2 hp).2 b hb, fun hp => (h3 hp).2 b hb⟩⟩,
    fun ⟨h, hb⟩ => ⟨fun hp => ⟨h.1 hp, fun b hm => (hb b hm).1 hp⟩,
      fun hp => ⟨h.2.1 hp, fun b hm => (hb b hm).2.1 hp⟩, fun hp => ⟨h.2.2 hp, fun b hm => (hb b hm).2.2 hp⟩⟩⟩

/-- A phase of no LZ78 and no LZW stream asks nothing. -/
theorem dictAt_other {p : Phase} (h1 : p.inLz78 = false) (h2 : p.encodesLz78 = false) (h3 : p.inLzw = false)
    (u : Units) : dictAt p u := by simp [dictAt, h1, h2, h3]

/-- A later phase of the same stream asks no more. -/
theorem dictAt_within {p q : Phase} (h : p.within q = true) {u : Units} (hu : dictAt p u) : dictAt q u := by
  obtain ⟨-, -, h1, h2, h3⟩ := Phase.within_iff.1 h
  exact ⟨fun hq => hu.1 (h1 hq), fun hq => hu.2.1 (h2 hq), fun hq => hu.2.2 (h3 hq)⟩

theorem lz78Seed_cases (cfg : Params) : lz78Seed cfg = [.emptyPhrase] ∨ lz78Seed cfg = [] := by
  unfold lz78Seed
  split
  · exact .inl rfl
  · exact .inr rfl

/-- The start of an LZ78 stream (44_lz78.md R371). -/
theorem lz78Seed_wf {cfg : Params} {v : Units} (h : v.dict = lz78Seed cfg) : Lz78Wf v := by
  have hcap : 0 < v.dz.cap := Nat.two_pow_pos _
  unfold Lz78Wf Units.dictWf
  rw [h]
  rcases lz78Seed_cases cfg with e | e <;> rw [e]
  · exact ⟨⟨hcap, seed_parentsBelow (by simp)⟩, by simp [distinctPhrases]⟩
  · exact ⟨⟨Nat.zero_le _, seed_parentsBelow (by simp)⟩, by simp [distinctPhrases]⟩

/-- The start of an LZW stream, whose index width has room for the single bytes (45_lzw.md R401). -/
theorem lzwSeed_wf {v : Units} (hdb : 8 ≤ v.dz.db.toNat) (h : v.dict = lzwSeed)
    (hl : v.lzw = { w := none, prev := none }) : v.lzwWf := by
  have hcap : lzwSeed.length ≤ v.dz.cap := by
    rw [lzwSeed_length]
    exact Nat.pow_le_pow_right Nat.zero_lt_two hdb
  refine ⟨⟨h ▸ hcap, ?_⟩, h ▸ List.prefix_rfl, ?_, by simp [hl], by simp [hl]⟩ <;> rw [h]
  · refine seed_parentsBelow fun e he p b => ?_
    obtain ⟨b', rfl⟩ := lzwSeed_pair he
    simp
  · intro he
    obtain ⟨b', hb⟩ := lzwSeed_pair he
    cases hb

theorem dictAt_phaseInv : PhaseInv dictAt where
  idle := dictAt_other rfl rfl rfl
  opens {p} hp := by
    cases p with
    | command | header => exact dictAt_other rfl rfl rfl
    | _ => cases hp
  begins h := by
    cases h with
    | other hq => exact dictAt_within hq (dictAt_other rfl rfl rfl _)
    | lz77 _ hq => rcases hq with rfl | rfl <;> exact dictAt_other rfl rfl rfl _
    | lz78 hq hd =>
      have hwf := lz78Seed_wf hd
      rcases hq with rfl | rfl <;> exact ⟨fun _ => hwf.1, fun _ => hwf.2, nofun⟩
    | lzw hq hdb hd hl =>
      have hwf := lzwSeed_wf hdb hd hl
      rcases hq with rfl | rfl <;> exact ⟨nofun, nofun, fun _ => hwf⟩
  same _ hd hz hl hu := by
    unfold dictAt Units.lzwWf Units.dictWf
    rw [hd, hz, hl]
    exact hu

section rules

variable {p : Phase} {m : M Next} {u : Units}

/-- A rule keeps the invariant where it keeps what its own phase asks. -/
theorem dictAt_of_wp (hg : Goes (p.within · = true) m)
    (h : dictAt p u → m.wp (dictAt p) (fun _ => dictAt p) (fun _ => dictAt p) u) :
    Preserves dictAt p m u := fun hu => by
  refine ⟨(h hu).1, ?_⟩
  have hwp := (h hu).2
  cases hm : m.on u with
  | ok n v =>
    rw [hm] at hwp
    rintro _ rfl
    exact dictAt_within (hg.phase hm) hwp
  | error e v =>
    rw [hm] at hwp
    exact fun _ => hwp

theorem dictAt_outside (h1 : p.inLz78 = false) (h2 : p.encodesLz78 = false) (h3 : p.inLzw = false)
    (hg : Goes (p.within · = true) m) : Preserves dictAt p m u :=
  .of_goto (dictAt_other h1 h2 h3) fun hq => dictAt_within (hg.phase hq) (dictAt_other h1 h2 h3 _)

/-- A rule that inserts nothing. -/
theorem dictAt_samePhrases (hm : Keeps SamePhrases m) (hg : Goes (p.within · = true) m) : Preserves dictAt p m u := by
  have same {v : Units} (h : SamePhrases u v) (hu : dictAt p u) : dictAt p v :=
    ⟨fun hp => h.dictWf (hu.1 hp), fun hp => h.dict ▸ hu.2.1 hp, fun hp => h.lzwWf (hu.2.2 hp)⟩
  exact dictAt_of_wp hg fun hu => hm.wp (fun _ h => same h hu) (fun _ _ h => same h hu) fun _ _ h => same h hu

/-- Where a phase asks exactly `P`, a rule keeps the invariant where it keeps `P`. -/
theorem dictAt_of_iff {P : Units → Prop} (hP : ∀ v, dictAt p v ↔ P v) (hg : Goes (p.within · = true) m)
    (h : P u → m.wp P (fun _ => P) (fun _ => P) u) : Preserves dictAt p m u :=
  dictAt_of_wp hg fun hu => M.wp_mono (h ((hP u).1 hu)) (fun v => (hP v).2) (fun _ v => (hP v).2) fun _ v => (hP v).2

end rules

theorem dictAt_record_lz78 (v : Units) : dictAt (.record .lz78) v ↔ v.dictWf :=
  ⟨fun h => h.1 rfl, fun h => ⟨fun _ => h, nofun, nofun⟩⟩

theorem dictAt_emit_lz78 (v : Units) : dictAt (.dictEmit .lz78) v ↔ Lz78Wf v :=
  ⟨fun h => ⟨h.1 rfl, h.2.1 rfl⟩, fun h => ⟨fun _ => h.1, fun _ => h.2, nofun⟩⟩

theorem dictAt_record_lzw (v : Units) : dictAt (.record .lzw) v ↔ v.lzwWf :=
  ⟨fun h => h.2.2 rfl, fun h => ⟨nofun, nofun, fun _ => h⟩⟩

theorem dictAt_emit_lzw (v : Units) : dictAt (.dictEmit .lzw) v ↔ v.lzwWf :=
  ⟨fun h => h.2.2 rfl, fun h => ⟨nofun, nofun, fun _ => h⟩⟩

theorem lz78Record_keeps {u : Units} (hu : u.dictWf) {w : Option Nat} (hw : ∀ p ∈ w, p < u.dict.length) (c : Byte) :
    (lz78Record w c).wp Units.dictWf (fun _ => Units.dictWf) (fun _ => Units.dictWf) u :=
  (lz78Record_inserted w c).wp (fun _ h => h.dictWf hu hw) (fun _ _ h => h.dictWf hu hw) fun _ _ h => h.dictWf hu hw

theorem ruleLz78Phrase_keeps {u : Units} (hu : u.dictWf) (index : Nat) (b : Byte) :
    (ruleLz78Phrase index b).wp Units.dictWf (fun _ => Units.dictWf) (fun _ => Units.dictWf) u := by
  rw [ruleLz78Phrase, M.wp_bind, wp_look, M.wp_ite]
  refine ⟨fun _ => (wp_raise _).2 hu, fun hlt => lz78Record_keeps hu (fun p hp => ?_) b⟩
  rw [← Option.some.inj hp]
  omega

/-- Every token keeps the dictionary's invariant. -/
theorem TokenRule.dict {cfg : Params} {p : Phase} {i : Instr} {m : M Next} {u : Units} (h : TokenRule cfg p i m)
    (hp : p.opens = false) (hwf : ∀ c ∈ readCtx p u, i.wf c = true) : Preserves dictAt p m u := by
  have hg := h.within hp
  cases h with
  | blockFull a =>
    cases a with
    | lz77 => exact dictAt_outside rfl rfl rfl hg
    | lz78 => exact dictAt_samePhrases (bind_samePhrases (look_samePhrases _) fun _ => dictBlock_samePhrases .lz78 _) hg
    | lzw => exact dictAt_samePhrases (bind_samePhrases (look_samePhrases _) fun _ => dictBlock_samePhrases .lzw _) hg
  | blockShort a count =>
    cases a with
    | lz77 => exact dictAt_outside rfl rfl rfl hg
    | lz78 => exact dictAt_samePhrases (dictBlock_samePhrases .lz78 count) hg
    | lzw => exact dictAt_samePhrases (dictBlock_samePhrases .lzw count) hg
  | lz78Literal b => exact dictAt_of_iff dictAt_record_lz78 hg fun hu => lz78Record_keeps hu (by simp) b
  | lz78Phrase index b => exact dictAt_of_iff dictAt_record_lz78 hg fun hu => ruleLz78Phrase_keeps hu index b
  | lzwIndex index =>
    have hlt : index < u.dz.cap := of_decide_eq_true (hwf _ rfl)
    exact dictAt_of_iff dictAt_record_lzw hg fun hu => ruleLzwIndex_keeps hu hlt
  | _ => exact dictAt_outside rfl rfl rfl hg

/-- Every stretch of an encoder keeps the dictionary's invariant. -/
theorem stretchOf_dict {cfg : Params} {p : Phase} {m : M Next} (h : stretchOf cfg p = some m) (u : Units) :
    Preserves dictAt p m u := by
  have hg := stretchOf_within h
  cases p with
  | dictRead a => cases h; exact dictAt_samePhrases (dictRead_samePhrases a) hg
  | dictFlag a => cases h; exact dictAt_samePhrases (dictFlag_samePhrases a) hg
  | dictEmit a =>
    cases a with
    | lz78 => cases h; exact dictAt_of_iff dictAt_emit_lz78 hg lz78Emit_keeps.wp_of
    | lzw => cases h; exact dictAt_of_iff dictAt_emit_lzw hg lzwEmit_keeps.wp_of
  | block a => cases h
  | record a => cases h
  | _ => exact dictAt_outside rfl rfl rfl hg

/-- Settles O15: a stream's start establishes the invariant and every rule of its phases keeps it, the width of an LZW
index leaving room for the one entry it may name before it is there. -/
theorem stepKeepsTheDictionaryInBounds : Obligations.StepKeepsTheDictionaryInBounds := by
  intro s t hseq hs h
  rw [dictInv_iff] at hs ⊢
  exact step_keeps dictAt_phaseInv (fun hm hp hwf => hm.dict hp (hwf hseq)) (fun hm => stretchOf_dict hm _) hs h

end Sys2Proof.Machine

namespace Sys2Proof.Machine

/-! # The dictionary only grows (10_state.md R66, R68) -/

/-- `v` has the dictionary of `u`, or one entry more. -/
def Grown (u v : Units) : Prop := v.dict = u.dict ∨ ∃ e, v.dict = u.dict ++ [e]

/-- `v` has the dictionary of `u`. -/
def DictKept (u v : Units) : Prop := v.dict = u.dict

theorem Frame.dictKept {α : Type} {fs : List Field} {m : M α} (h : Frame fs m) (hf : .dict ∉ fs) : Keeps DictKept m :=
  Keeps.mono h fun _ _ hv => hv .dict hf

theorem Keeps.grown {α : Type} {m : M α} (h : Keeps DictKept m) : Keeps Grown m := Keeps.mono h fun _ _ => .inl

theorem Inserted.grown {w : Option Nat} {c : Byte} {u v : Units} (h : Inserted w c u v) : Grown u v :=
  h.dict.imp id fun h => ⟨_, h.2⟩

/-- A part before the insertion. -/
theorem Keeps.grown_bind {α β : Type} {x : M α} {f : α → M β} (hx : Keeps DictKept x) (hf : ∀ a, Keeps Grown (f a)) :
    Keeps Grown (x >>= f) :=
  .seq hx hf .inl fun {u v w} (h : v.dict = u.dict) (h' : Grown v w) => by
    unfold Grown at h' ⊢
    rwa [h] at h'

/-- A part after the insertion. -/
theorem Keeps.grown_then {α β : Type} {x : M α} {f : α → M β} (hx : Keeps Grown x) (hf : ∀ a, Keeps DictKept (f a)) :
    Keeps Grown (x >>= f) :=
  .seq hx hf (fun h => h) fun {u v w} (h : Grown u v) (h' : w.dict = v.dict) => by
    unfold Grown
    rwa [h']

theorem look_dictKept {α : Type} (g : Units → α) : Keeps DictKept (look g) :=
  (Frame.look (fs := []) g).dictKept (by decide)

theorem pure_dictKept {α : Type} (a : α) : Keeps DictKept (pure a : M α) :=
  (Frame.pure (fs := []) a).dictKept (by decide)

theorem raise_grown {α : Type} (e : ErrorCode) : Keeps Grown (raise e : M α) :=
  ((Frame.raise (fs := []) e).dictKept (by decide)).grown

theorem writeToken_dictKept (c : Ctx) (i : Instr) : Keeps DictKept (writeToken c i) :=
  (writeToken_frame c i).dictKept (by decide)

theorem updDz_dictKept (g : Dz → Dz) : Keeps DictKept (updDz g) := (updDz_frame g).dictKept (by decide)

theorem updLzw_dictKept (g : Lzw → Lzw) : Keeps DictKept (updLzw g) := (updLzw_frame g).dictKept (by decide)

theorem lz78Record_grown (w : Option Nat) (c : Byte) : Keeps Grown (lz78Record w c) :=
  Keeps.mono (lz78Record_inserted w c) fun _ _ => Inserted.grown

theorem insertIfRoom_grown (w : Option Nat) (c : Byte) : Keeps Grown (insertIfRoom w c) :=
  Keeps.mono (insertIfRoom_inserted w c) fun _ _ => Inserted.grown

theorem lz78Emit_grown : Keeps Grown lz78Emit :=
  .grown_bind (look_dictKept _) fun _ =>
    .ite (.grown_bind (look_dictKept _) fun _ => .grown_bind (writeToken_dictKept _ _) fun _ =>
      .grown_bind (updDz_dictKept _) fun _ =>
        .grown_then (Keeps.mono (insertInBlock_inserted _ _) fun _ _ => Inserted.grown) fun _ => pure_dictKept _)
      ((dictBlockStart_frame _).dictKept (by decide)).grown

theorem lzwByte_grown (c : Byte) : Keeps Grown (lzwByte c) := by
  refine .grown_bind (look_dictKept _) fun dict => .grown_bind (look_dictKept _) fun w => ?_
  split
  · exact (updLzw_dictKept _).grown
  · split
    · exact (updLzw_dictKept _).grown
    · exact .grown_bind (look_dictKept _) fun _ => .grown_bind (writeToken_dictKept _ _) fun _ =>
        .grown_then (insertIfRoom_grown _ _) fun _ => updLzw_dictKept _

theorem lzwEmit_grown : Keeps Grown lzwEmit :=
  .grown_bind (look_dictKept _) fun _ =>
    .ite (.grown_then (lzwByte_grown _) fun _ =>
        (Frame.bind (updDz_frame _) fun _ => .pure _).dictKept (by decide))
      (.grown_bind (lzwBlockEnd_frame.dictKept (by decide)) fun _ =>
        ((dictBlockStart_frame _).dictKept (by decide)).grown)

theorem lzwInsert_grown (prev : Option Nat) (phrase : List Byte) : Keeps Grown (lzwInsert prev phrase) := by
  unfold lzwInsert
  split
  · exact insertIfRoom_grown _ _
  · exact (pure_dictKept _).grown

theorem ruleLzwIndex_grown (cfg : Params) (p : Nat) : Keeps Grown (ruleLzwIndex cfg p) := by
  refine .grown_bind (look_dictKept _) fun prev => .grown_bind (look_dictKept _) fun dict => ?_
  split
  · exact raise_grown _
  · exact .grown_bind (look_dictKept _) fun _ =>
      .ite (raise_grown _) (.grown_bind ((emitBytes_frame _).dictKept (by decide)) fun _ =>
        .grown_bind (updDz_dictKept _) fun _ => .grown_then (lzwInsert_grown _ _) fun _ =>
          (Frame.bind ((updLzw_frame _).mono (by decide)) fun _ =>
            (nextRecord_frame _).mono (by decide) : Frame [.lzw] _).dictKept (by decide))

/-- A token of a stream that has begun. -/
theorem TokenRule.grown {cfg : Params} {p : Phase} {i : Instr} {m : M Next} (h : TokenRule cfg p i m)
    (hp : p.opens = false) : Keeps Grown m := by
  have hfr := h.frame
  cases h with
  | lz78Literal => exact lz78Record_grown _ _
  | lz78Phrase => exact .grown_bind (look_dictKept _) fun _ => .ite (raise_grown _) (lz78Record_grown _ _)
  | lzwIndex => exact ruleLzwIndex_grown _ _
  | lz77Header | lz78Header | lzwHeader => cases hp
  | magic a => cases a <;> exact (hfr.dictKept (by simp [touches, Alg.magicToken])).grown
  | _ => exact (hfr.dictKept (by simp [touches])).grown

theorem stretchOf_grown {cfg : Params} {p : Phase} {m : M Next} (h : stretchOf cfg p = some m) : Keeps Grown m := by
  unfold stretchOf at h
  split at h <;> cases h
  · exact ((leafRun_frame _).dictKept (by decide)).grown
  · exact ((hufCount_frame _).dictKept (by decide)).grown
  · exact ((hufHead_frame _ _).dictKept (by decide)).grown
  · exact ((hufPass_frame _).dictKept (by decide)).grown
  · exact ((lz77Read_frame _).dictKept (by decide)).grown
  · exact ((lz77Flag_frame _).dictKept (by decide)).grown
  · exact (lz77Emit_frame.dictKept (by decide)).grown
  · exact ((dictRead_frame _).dictKept (by decide)).grown
  · exact ((dictFlag_frame _).dictKept (by decide)).grown
  · exact lz78Emit_grown
  · exact lzwEmit_grown
  · exact (finishEncode_frame.dictKept (by decide)).grown

/-- Wherever a turn leaves a stretch whose rule only adds to the dictionary, it has only been added to. -/
theorem Stretch.Reaches.grown {r : Stretch} {t : State} (h : r.Reaches t) (hm : Keeps Grown r.rule) :
    Grown r.start.units t.units := by
  have hon := hm.on r.start.units
  cases h with
  | amid _ hu =>
    rcases hu with rfl | hu
    · exact .inl rfl
    · exact hm.past _ _ hu
  | wait _ hu => rw [hu] at hon; exact hon
  | complete hu => rw [hu] at hon; exact hon
  | goto hu => rw [hu] at hon; exact hon
  | fail hu => rw [hu] at hon; exact hon

/-- The phases of a coded stream with a dictionary are none of those that begin one. -/
theorem opens_of_coding {p : Phase} (h : p.inLz78 = true ∨ p.inLzw = true) : p.opens = false := by
  cases p with
  | command | header => rcases h with h | h <;> cases h
  | _ => rfl

/-- Settles O55: the sequencer runs a rule of the phase, and each of those inserts once at most. -/
theorem dictionaryOnlyGrows : Obligations.DictionaryOnlyGrows := by
  intro s t hs hturn hp h
  have hopens := opens_of_coding hp
  have grown : Grown s.origin t.units := by
    obtain ⟨m, rest, hm, he⟩ | ⟨rfl, hidle⟩ | ⟨-, r, hr, ht⟩ := step_cases h
    · rcases hturn with hturn | hturn <;> rw [hm] at hturn <;> cases hturn
      cases he
    · obtain ⟨hid, -⟩ := hs
      have hb : s.busy ≠ false := fun hb => absurd ((hid hb).1 ▸ hp) (by decide)
      exact absurd (hidle (Bool.ne_false_iff.1 hb) ▸ hp) (by decide)
    · cases hr with
      | command _ hi => exact absurd ((hi hs).1 ▸ hopens) (by decide)
      | token hm hu =>
        have hg := ht.grown (hm.grown hopens)
        unfold Grown at hg ⊢
        rwa [show _ = s.origin.dict from hu .dict (by decide)] at hg
      | badCommand _ hc => exact absurd (hc ▸ hopens) (by decide)
      | fetch => exact ht.grown ((fetchRule_frame _ _).dictKept (by decide)).grown
      | stretch _ hm => exact ht.grown (stretchOf_grown hm)
  rcases grown with he | ⟨e, he⟩ <;> rw [he]
  · exact ⟨List.prefix_rfl, Nat.le_succ _⟩
  · exact ⟨⟨_, rfl⟩, by simp⟩

end Sys2Proof.Machine

namespace Sys2Proof.Machine

/-! # The code table (42_huffman.md R61, R272, R273) -/

theorem hufCodeLen_completes (s : State) (sym : Byte) : exec (.hufCodeLen sym) s =
    .next (s.completed { s.units with result := BitVec.ofNat 32 (s.units.huf.codeOf sym).length }) :=
  runCommand_complete rfl

theorem hufPutSym_without_code {s : State} {sym : Byte} (h : s.units.huf.codeOf sym = []) :
    exec (.hufPutSym sym) s = .next (s.failed .badParameter s.units) := by
  refine runCommand_raise ?_
  simp [ruleHufPutSym, M.run_bind, h]

theorem hufPutSym_writes_code {s : State} {sym : Byte} (h : s.units.huf.codeOf sym ≠ []) (hw : s.units.writable) :
    exec (.hufPutSym sym) s = .next (s.completed (s.units.wrote (s.units.huf.codeOf sym))) := by
  have put : (putCode sym).on s.units = .ok () (s.units.wrote (s.units.huf.codeOf sym)) :=
    writeBits_writable hw _
  refine runCommand_complete ?_
  simp [ruleHufPutSym, M.run_bind, h, put]

theorem codeOf_empty {h : Huf} (he : h.tree = .empty) (sym : Byte) : h.codeOf sym = [] := if_pos he

/-- Settles O38: the rules of both commands at the code the table holds. -/
theorem codeCommandsUseTheCodeTable : Obligations.CodeCommandsUseTheCodeTable := by
  refine fun s sym => ⟨hufCodeLen_completes s sym, hufPutSym_without_code, fun he => ?_, fun he => if_neg he,
    hufPutSym_writes_code⟩
  have hc := codeOf_empty he sym
  refine ⟨?_, hufPutSym_without_code hc⟩
  rw [hufCodeLen_completes, hc]
  rfl

end Sys2Proof.Machine

namespace Sys2Proof.Machine

/-! # The start of the encoders (46_envelope.md R435, R436) -/

/-- What ENC and ENC_BODY encode with: the algorithm, the units once the parameters are legal, and whether the magic
is written. -/
inductive EncodesWith (s : State) : Instr → Alg → Units → Bool → Prop
  | body (a : Alg) : EncodesWith s (.encBody a) a s.units false
  | whole : EncodesWith s .enc s.config.alg { s.units with src := s.units.src.cleared, snk := Snk.initial } true

/-- The magic where it is written. -/
def magicBits (a : Alg) (magic : Bool) : List Bool := if magic then bitsOf 16 a.magic.toNat else []

section
variable {s : State} {i : Instr} {a : Alg} {u v : Units} {magic : Bool}

theorem EncodesWith.badParameter (h : EncodesWith s i a u magic)
    (hf : paramsInFormat a s.config.p1.toNat s.config.p2.toNat = false) :
    exec i s = .next (s.failed .badParameter s.units) := by
  have hc := checkEncParams_eq s.cfg a s.config.p1 s.config.p2 s.units
  rw [hf] at hc
  cases h <;> exact runCommand_raise (M.run_bind_error hc)

theorem EncodesWith.capacityExceeded (h : EncodesWith s i a u magic)
    (hf : paramsInFormat a s.config.p1.toNat s.config.p2.toNat = true)
    (hl : paramsInLimits s.cfg a s.config.p1.toNat s.config.p2.toNat = false) :
    exec i s = .next (s.failed .capacityExceeded s.units) := by
  have hc := checkEncParams_eq s.cfg a s.config.p1 s.config.p2 s.units
  rw [hf, hl] at hc
  cases h <;> exact runCommand_raise (M.run_bind_error hc)

/-- Past the check the command does what the encoder does. -/
theorem EncodesWith.run (h : EncodesWith s i a u magic)
    (hf : paramsInFormat a s.config.p1.toNat s.config.p2.toNat = true)
    (hl : paramsInLimits s.cfg a s.config.p1.toNat s.config.p2.toNat = true) :
    ∃ p, exec i s = runCommand i p s ∧
      p.on s.units = (encodeWith s.cfg a s.config.p1 s.config.p2 magic).on u := by
  have hc := checkEncParams_eq s.cfg a s.config.p1 s.config.p2 s.units
  rw [hf, hl] at hc
  cases h with
  | body => exact ⟨ruleEncBody s.cfg s.config a, rfl, M.run_bind_ok hc⟩
  | whole =>
    refine ⟨ruleEnc s.cfg s.config, rfl, (M.run_bind_ok hc).trans ?_⟩
    rw [M.run_upd_bind, M.run_upd_bind]

theorem EncodesWith.goto (h : EncodesWith s i a u magic)
    (hf : paramsInFormat a s.config.p1.toNat s.config.p2.toNat = true)
    (hl : paramsInLimits s.cfg a s.config.p1.toNat s.config.p2.toNat = true) {q : Phase}
    (he : (encodeWith s.cfg a s.config.p1 s.config.p2 magic).on u = .ok (.goto q) v) :
    exec i s = .next (s.started q v) := by
  obtain ⟨p, hx, hp⟩ := h.run hf hl
  exact hx.trans (runCommand_goto (hp.trans he))

end

theorem writeToken_writable {u : Units} (h : u.writable) (c : Ctx) (i : Instr) :
    (writeToken c i).on u = .ok () (u.wrote (encode c i)) := writeBits_writable h _

theorem lz77Encode_writable {u : Units} (h : u.writable) (p1 p2 : BitVec 5) :
    (lz77Encode p1 p2).on u = .ok (.goto (.lz77Read 0)) { u.wrote (encodeLzHeader p1 p2) with
      lz77 := { u.lz77 with sb := p1, lb := p2, ss := 0, sp := 0, ls := 0, le := 0, csize := 0, rem := 0 } } := by
  have hw : ({ u with lz77 := { u.lz77 with sb := p1, lb := p2 } } : Units).writable := h
  refine (M.run_bind_ok (run_updLz77 _ _)).trans ((M.run_bind_ok (writeToken_writable hw _ _)).trans ?_)
  rfl

theorem dictEncode_writable {u : Units} (h : u.writable) (cfg : Params) (a : DictAlg) (p1 p2 : BitVec 5) :
    (dictEncode cfg a p1 p2).on u = .ok (.goto (.dictRead a)) { u.wrote (encodeLzHeader p1 p2) with
      dz := { u.dz with db := p1, bb := p2, cnt := 0 }
      dict := match a with | .lz78 => lz78Seed cfg | .lzw => lzwSeed
      lzw := match a with | .lz78 => u.lzw | .lzw => { w := none, prev := none } } := by
  have hw : ({ u with dz := { u.dz with db := p1, bb := p2 } } : Units).writable := h
  refine (M.run_bind_ok (run_updDz _ _)).trans ((M.run_bind_ok (writeToken_writable hw _ _)).trans ?_)
  cases a <;> rfl

/-- The encoder after its magic. -/
theorem magic_then {u : Units} (h : u.writable) (a : Alg) (magic : Bool) (p : M Next) :
    (do
      if magic then writeToken .envelope a.magicToken else pure ()
      p : M Next).on u = p.on (u.wrote (magicBits a magic)) := by
  cases magic with
  | false => exact congrArg p.on (Units.wrote_nil h).symm
  | true =>
    have he : encode .envelope a.magicToken = magicBits a true := by cases a <;> rfl
    rw [← he]
    exact M.run_bind_ok (writeToken_writable h _ _)

theorem encodeWith_lz77 {u : Units} (h : u.writable) (cfg : Params) (p1 p2 : BitVec 5) (magic : Bool) :
    (encodeWith cfg .lz77 p1 p2 magic).on u = .ok (.goto (.lz77Read 0))
      { u.wrote (magicBits .lz77 magic ++ encodeLzHeader p1 p2) with
        lz77 := { u.lz77 with sb := p1, lb := p2, ss := 0, sp := 0, ls := 0, le := 0, csize := 0, rem := 0 } } := by
  rw [← Units.wrote_wrote]
  exact (magic_then h .lz77 magic _).trans (lz77Encode_writable (Units.wrote_writable h _) p1 p2)

theorem encodeWith_lz78 {u : Units} (h : u.writable) (cfg : Params) (p1 p2 : BitVec 5) (magic : Bool) :
    (encodeWith cfg .lz78 p1 p2 magic).on u = .ok (.goto (.dictRead .lz78))
      { u.wrote (magicBits .lz78 magic ++ encodeLzHeader p1 p2) with
        dz := { u.dz with db := p1, bb := p2, cnt := 0 }, dict := lz78Seed cfg } := by
  rw [← Units.wrote_wrote]
  exact (magic_then h .lz78 magic _).trans (dictEncode_writable (Units.wrote_writable h _) cfg .lz78 p1 p2)

theorem encodeWith_lzw {u : Units} (h : u.writable) (cfg : Params) (p1 p2 : BitVec 5) (magic : Bool) :
    (encodeWith cfg .lzw p1 p2 magic).on u = .ok (.goto (.dictRead .lzw))
      { u.wrote (magicBits .lzw magic ++ encodeLzHeader p1 p2) with
        dz := { u.dz with db := p1, bb := p2, cnt := 0 }, dict := lzwSeed, lzw := { w := none, prev := none } } := by
  rw [← Units.wrote_wrote]
  exact (magic_then h .lzw magic _).trans (dictEncode_writable (Units.wrote_writable h _) cfg .lzw p1 p2)

/-- The Huffman encoder's start: the first pass needs an input that can be read again (42_huffman.md R313). -/
theorem hufEncode_on (u : Units) (magic : Bool) : (hufEncode magic).on u =
    if u.inp.seekable then .ok (.goto (.hufCount magic)) { u with huf := { u.huf with freq := [], total := 0 } }
    else .error (.raise .streamError) u := by
  unfold hufEncode
  rw [M.run_look_bind]
  split <;> rfl

/-- The parameter conditions as propositions. -/
theorem lz77_inFormat_iff {p1 p2 : Nat} :
    paramsInFormat .lz77 p1 p2 = true ↔ 1 ≤ p1 ∧ p1 ≤ 29 ∧ 1 ≤ p2 ∧ p2 + 1 ≤ p1 := by
  simp [paramsInFormat, and_assoc]

theorem lz78_inFormat_iff {p1 p2 : Nat} : paramsInFormat .lz78 p1 p2 = true ↔ 1 ≤ p1 ∧ 1 ≤ p2 := by
  simp [paramsInFormat]

theorem lzw_inFormat_iff {p1 p2 : Nat} : paramsInFormat .lzw p1 p2 = true ↔ 8 ≤ p1 ∧ 1 ≤ p2 := by
  simp [paramsInFormat]

theorem lz77_inLimits_iff {cfg : Params} {p1 p2 : Nat} :
    paramsInLimits cfg .lz77 p1 p2 = true ↔ p1 ≤ cfg.maxSearchBits.toNat := by simp [paramsInLimits]

theorem dict_inLimits_iff {cfg : Params} {a : Alg} (ha : a = .lz78 ∨ a = .lzw) {p1 p2 : Nat} :
    paramsInLimits cfg a p1 p2 = true ↔ p1 ≤ cfg.maxDictBits.toNat ∧ p2 ≤ cfg.maxBlockBits.toNat := by
  rcases ha with rfl | rfl <;> simp [paramsInLimits]

/-- Both commands at an algorithm whose parameters are checked, once its conditions are put as propositions. -/
theorem EncodesWith.begins {s : State} {i : Instr} {a : Alg} {u v : Units} {magic : Bool}
    (h : EncodesWith s i a u magic) {format limits : Prop} {q : Phase}
    (hf : paramsInFormat a s.config.p1.toNat s.config.p2.toNat = true ↔ format)
    (hl : paramsInLimits s.cfg a s.config.p1.toNat s.config.p2.toNat = true ↔ limits)
    (he : u.writable → (encodeWith s.cfg a s.config.p1 s.config.p2 magic).on u = .ok (.goto q) v) :
    (¬ format → exec i s = .next (s.failed .badParameter s.units)) ∧
      (format → ¬ limits → exec i s = .next (s.failed .capacityExceeded s.units)) ∧
      (format → limits → u.writable → exec i s = .next (s.started q v)) :=
  ⟨fun hn => h.badParameter (Bool.eq_false_iff.2 (mt hf.1 hn)),
    fun h1 hn => h.capacityExceeded (hf.2 h1) (Bool.eq_false_iff.2 (mt hl.1 hn)),
    fun h1 h2 hw => h.goto (hf.2 h1) (hl.2 h2) (he hw)⟩

/-- Settles O60: the check, then each encoder's start. -/
theorem encodersBegin : Obligations.EncodersBegin := by
  intro s i a u magic hi
  have ⟨b, hb, hmagic, henc⟩ : ∃ b, decide (i = .enc) = b ∧ magic = magicBits a b ∧ EncodesWith s i a u b := by
    rcases hi with ⟨rfl, rfl, rfl⟩ | ⟨rfl, rfl, rfl, rfl⟩
    · exact ⟨false, rfl, rfl, .body a⟩
    · exact ⟨true, rfl, rfl, .whole⟩
  have header : magic ++ bitsOf 8 0x01 ++ bitsOf 5 s.config.p1.toNat ++ bitsOf 5 s.config.p2.toNat =
      magicBits a b ++ encodeLzHeader s.config.p1 s.config.p2 := by
    simp only [hmagic, encodeLzHeader, formatVersion, List.append_assoc]
  dsimp only
  rw [hb, header]
  cases a with
  | huf =>
    obtain ⟨p, hx, hp⟩ := henc.run rfl rfl
    have hon := hp.trans (hufEncode_on u b)
    refine ⟨fun hs => ?_, fun hs => ?_⟩ <;> rw [hs] at hon
    · exact hx.trans (runCommand_goto hon)
    · exact hx.trans (runCommand_raise hon)
  | lz77 => exact henc.begins lz77_inFormat_iff lz77_inLimits_iff fun hw => encodeWith_lz77 hw _ _ _ _
  | lz78 => exact henc.begins lz78_inFormat_iff (dict_inLimits_iff (.inl rfl)) fun hw => encodeWith_lz78 hw _ _ _ _
  | lzw => exact henc.begins lzw_inFormat_iff (dict_inLimits_iff (.inr rfl)) fun hw => encodeWith_lzw hw _ _ _ _

end Sys2Proof.Machine

namespace Sys2Proof.Machine

/-! # The turns of the sequencer and the host's accesses (assumption 2, 20_memory.md R103) -/

theorem step_core {s : State} (h : s.coreTurn) : step s = (turnWork none s.turned).outcome :=
  congrArg Work.outcome (stepWork_core h)

theorem turnWork_idle {s : State} (hb : s.busy = false) : turnWork none s = .result (.next s) := by
  simp [turnWork, hb]

theorem turnWork_current {s : State} {i : Instr} (hb : s.busy = true) (hi : s.current = some i) :
    turnWork none s = .run i s.resumed := by
  simp [turnWork, hb, hi, State.resumed, instrWork]

theorem turnWork_reading {s : State} {c : Ctx} (hb : s.busy = true) (hn : s.current = none)
    (hc : readCtx s.phase s.origin = some c) : turnWork none s = fetchWork none c s.resumed := by
  have hp : s.phase ≠ .command := fun hp => by rw [hp] at hc; cases hc
  simp [turnWork, hb, hn, hp, hc]

theorem turnWork_stretch {s : State} {p : M Next} (hb : s.busy = true) (hn : s.current = none)
    (hc : readCtx s.phase s.origin = none) (hm : stretchOf s.cfg s.phase = some p) :
    turnWork none s = .result (runStretch p s.resumed) := by
  have hp : s.phase ≠ .command := fun hp => by rw [hp] at hm; cases hm
  simp [turnWork, hb, hn, hp, hc, hm, stretchWork]

theorem fetchWork_ok {s : State} {c : Ctx} {i : Instr} {u : Units} (h : (fetchToken s.phase c).on s.units = .ok i u) :
    fetchWork none c s = .run i { s with units := u } := by
  simp [fetchWork, h]

theorem commandWork_ok {s : State} {i : Instr} (h : decodeCommand s.cmd = .ok i) : commandWork none s = .run i s := by
  simp [commandWork, h, instrWork]

theorem commandWork_error {s : State} {r : Reject} (h : decodeCommand s.cmd = .error r) :
    commandWork none s = .result (runStretch (raise .badCommand) s) := by
  simp [commandWork, h, stretchWork]

/-- Settles O1: a CMD write begins the command; its turn decodes the word. -/
theorem stepRunsTheCommandWord : Obligations.StepRunsTheCommandWord := by
  refine ⟨fun s w rest hs hb => ?_, fun s hturn hb hp hn => ?_⟩
  · have ha : accessOf s.cfg 4 s.cfg.base = .register 0 := accessOf_register s.cfg (offset := 0) (by decide) rfl
    simp [step, stepWork_move hs, moveWork, ha, hostWrite, hostCommand, hb, State.begin, Work.outcome]
  · rw [step_core hturn, turnWork_command (s := s.turned) hb hn hp, State.resumed_turned, Option.map_none]
    refine ⟨fun i hd => ?_, fun r hd => ?_⟩
    · rw [commandWork_ok (s := s.resuming s.origin) hd]
      rfl
    · rw [commandWork_error (s := s.resuming s.origin) hd]
      exact runStretch_eq _ _

/-- Settles O2: what `turnWork` does in each case, by the lemma of the case. -/
theorem stepRunsTheFetchedToken : Obligations.StepRunsTheFetchedToken := by
  intro s hturn
  rw [step_core hturn]
  refine ⟨fun hb => ?_, fun hb => ⟨fun i hi => ?_, fun hn => ⟨fun c i u hc hf => ?_, fun p hc hm => ?_⟩⟩⟩
  · rw [turnWork_idle (s := s.turned) hb]
    rfl
  · rw [turnWork_current (s := s.turned) hb hi]
    rfl
  · rw [turnWork_reading (s := s.turned) hb hn hc, fetchWork_ok (s := s.turned.resumed) hf]
    rfl
  · rw [turnWork_stretch (s := s.turned) hb hn hc hm]
    rfl

/-! ## The register accesses -/

theorem step_read {s : State} {offset : Nat} {rest : List Move}
    (hs : s.script = .read 4 (s.cfg.base + offset) :: rest) (h : offset < 64) (h4 : offset % 4 = 0) :
    step s = .next (hostRead { s with script := rest } offset) := by
  simp [step, stepWork_move hs, moveWork, accessOf_register s.cfg h h4, Work.outcome]

theorem step_write {s : State} {offset : Nat} {v : Word} {rest : List Move}
    (hs : s.script = .write 4 (s.cfg.base + offset) v :: rest) (h : offset < 64) (h4 : offset % 4 = 0) :
    step s = .next (hostWrite { s with script := rest } offset v) := by
  simp [step, stepWork_move hs, moveWork, accessOf_register s.cfg h h4, Work.outcome]

/-- Settles O18: an aligned read reaches `readRegister`, whose three unlawful cases are the free reads. -/
theorem registerReads : Obligations.RegisterReads := by
  intro s offset rest hs h h4
  rw [step_read hs h h4]
  refine ⟨fun hfree hb => ?_, fun hlaw => ?_⟩
  · fin_cases hfree <;> simp [hostRead, readRegister, freeRead, hb]
  · unfold hostRead readRegister
    split
    case h_3 | h_7 | h_8 =>
      have hb : s.busy = false := hlaw.resolve_left (by decide)
      simp [hb]
    case h_10 _ h4 h8 hC h10 h14 h18 h1C h20 =>
      simp only [if_neg h4, if_neg h8, if_neg hC, if_neg h10, if_neg h14, if_neg h18, if_neg h1C, if_neg h20]
    all_goals rfl

/-- Settles O19: an aligned write reaches `writeRegister`, whose cases are the registers a host can write. -/
theorem registerWrites : Obligations.RegisterWrites := by
  intro s offset v rest hs h h4 h0 hC
  rw [step_write hs h h4]
  unfold hostWrite
  split
  · contradiction
  unfold writeRegister
  split
  · cases hb : s.busy <;> rfl
  · contradiction
  · cases hb : s.busy <;> rfl
  · rfl
  · next h4 _ h10 h14 =>
    simp only [if_neg h14, if_neg (mt And.left h4), if_neg (mt And.left h10)]

end Sys2Proof.Machine

namespace Sys2Proof.Machine

/-! # The register words field by field (10_state.md R36 to R49)

A word is an append of its fields, the lowest last. -/

/-- A field above the last one. -/
theorem field_skip {a b n k : Nat} (hi : BitVec a) (lo : BitVec b) :
    (hi ++ lo).extractLsb' (k + b) n = hi.extractLsb' k n := by
  rw [BitVec.extractLsb'_append_eq_of_le (Nat.le_add_left b k), Nat.add_sub_cancel]

/-- The last field. -/
theorem field_last {a b : Nat} (hi : BitVec a) (lo : BitVec b) : (hi ++ lo).extractLsb' 0 b = lo :=
  (BitVec.extractLsb'_append_eq_of_add_le (Nat.zero_add b).le).trans BitVec.extractLsb'_eq_self

/-- A mask is taken field by field. -/
theorem masked_zero {a b : Nat} {hi m : BitVec a} {lo n : BitVec b} (hm : hi &&& m = 0) (hn : lo &&& n = 0) :
    (hi ++ lo) &&& (m ++ n) = 0 := by
  rw [BitVec.and_append, hm, hn]
  exact BitVec.zero_append_zero

/-! ## STATUS -/

/-- The widths of STATUS's fields make it 32 bits. -/
theorem statusWord_bit (s : State) (i : Nat) : (statusWord s).getLsbD i = BitVec.getLsbD
    (w := 8 + 1 + 3 + 4 + 1 + 1 + 1 + 1 + 1 + 1 + 1 + 1 + 4 + 1 + 1 + 1 + 1) (statusWord s) i := rfl

theorem treeValid_iff (h : Huf) : h.treeValid = true ↔ h.tree ≠ .empty := by
  unfold Huf.treeValid
  cases h.tree <;> simp

theorem statusWord_bits (s : State) :
    (statusWord s).getLsbD 0 = s.busy ∧ (statusWord s).getLsbD 1 = s.done ∧ (statusWord s).getLsbD 2 = s.err ∧
      (statusWord s).getLsbD 3 = false ∧ (statusWord s).getLsbD 8 = s.units.src.eof ∧
      (statusWord s).getLsbD 9 = s.units.src.err ∧ (statusWord s).getLsbD 10 = s.units.src.good ∧
      (statusWord s).getLsbD 11 = s.units.snk.good ∧ (statusWord s).getLsbD 12 = s.units.huf.treeValid ∧
      (statusWord s).getLsbD 13 = s.irqPend ∧ (statusWord s).getLsbD 14 = s.ovr ∧
      (statusWord s).getLsbD 15 = false ∧ (statusWord s).getLsbD 23 = false := by
  simp only [statusWord_bit]
  unfold statusWord
  simp only [BitVec.getLsbD_append]
  simp

theorem statusWord_ecode (s : State) : (statusWord s).extractLsb' 4 4 = s.ecode := by
  unfold statusWord
  iterate 4 refine (field_skip _ _).trans ?_
  exact field_last _ _

theorem statusWord_srcPos (s : State) : (statusWord s).extractLsb' 16 4 = BitVec.ofNat 4 s.units.src.pos.val := by
  unfold statusWord
  iterate 13 refine (field_skip _ _).trans ?_
  exact field_last _ _

theorem statusWord_snkPos (s : State) : (statusWord s).extractLsb' 20 3 = BitVec.ofNat 3 s.units.snk.pos.val := by
  unfold statusWord
  iterate 14 refine (field_skip _ _).trans ?_
  exact field_last _ _

theorem statusWord_acc (s : State) : (statusWord s).extractLsb' 24 8 = s.units.snk.acc := by
  unfold statusWord
  iterate 16 refine (field_skip _ _).trans ?_
  exact BitVec.extractLsb'_eq_self

/-! ## CONFIG and CTRL -/

theorem ofCode_code (a : Alg) : Alg.ofCode a.code = a := by cases a <;> rfl

theorem code_ofCode (c : BitVec 2) : (Alg.ofCode c).code = c := by decide +revert

theorem configWord_alg (c : ConfigReg) : c.toWord.extractLsb' 0 2 = c.alg.code := field_last _ _

theorem configWord_p1 (c : ConfigReg) : c.toWord.extractLsb' 8 5 = c.p1 := by
  unfold ConfigReg.toWord
  iterate 2 refine (field_skip _ _).trans ?_
  exact field_last _ _

theorem configWord_p2 (c : ConfigReg) : c.toWord.extractLsb' 16 5 = c.p2 := by
  unfold ConfigReg.toWord
  iterate 4 refine (field_skip _ _).trans ?_
  exact field_last _ _

theorem ofWord_toWord (c : ConfigReg) : ConfigReg.ofWord c.toWord = c := by
  unfold ConfigReg.ofWord
  rw [configWord_alg, ofCode_code, configWord_p1, configWord_p2]

theorem toWord_ofWord (w : Word) : (ConfigReg.ofWord w).toWord = w &&& 0x001F1F03 := by
  apply BitVec.eq_of_getLsbD_eq
  intro i hi
  rw [BitVec.getLsbD_and]
  unfold ConfigReg.toWord
  change BitVec.getLsbD (w := 11 + 5 + 3 + 5 + 6 + 2) _ _ = _
  simp only [BitVec.getLsbD_append, ConfigReg.ofWord, code_ofCode, BitVec.getLsbD_extractLsb']
  interval_cases i <;> simp

theorem ctrlWord_bit (w : Word) : ctrlWord (w.getLsbD 0) = w &&& 1 := by
  have h : w &&& 1#32 = BitVec.setWidth 32 (BitVec.ofBool (w.getLsbD 0)) := BitVec.and_one_eq_setWidth_ofBool_getLsbD
  refine Eq.trans ?_ h.symm
  cases w.getLsbD 0 <;> rfl

/-! ## DETECT and ID -/

theorem detectWord_alg (d : Detect) : d.toWord.extractLsb' 0 2 = d.alg.code := field_last _ _

theorem detectWord_valid (d : Detect) : d.toWord.getLsbD 2 = d.valid := by
  unfold Detect.toWord
  change BitVec.getLsbD (w := 11 + 5 + 3 + 5 + 5 + 1 + 2) _ _ = _
  simp only [BitVec.getLsbD_append]
  simp

theorem detectWord_p1 (d : Detect) : d.toWord.extractLsb' 8 5 = d.p1 := by
  unfold Detect.toWord
  iterate 3 refine (field_skip _ _).trans ?_
  exact field_last _ _

theorem detectWord_p2 (d : Detect) : d.toWord.extractLsb' 16 5 = d.p2 := by
  unfold Detect.toWord
  iterate 5 refine (field_skip _ _).trans ?_
  exact field_last _ _

theorem detectWord_reserved (d : Detect) : d.toWord &&& 0xFFE0E0F8 = 0 := by
  have mask : (0xFFE0E0F8 : Word) = (0x7FF#11 ++ 0#5 ++ 7#3 ++ 0#5 ++ 31#5 ++ 0#1 ++ 0#2 : BitVec 32) := rfl
  rw [mask]
  unfold Detect.toWord
  iterate 6 refine masked_zero ?_ (by simp)
  rfl

theorem idWord_version (p : Params) : (idWord p).extractLsb' 0 8 = 0x01 := field_last _ _

theorem idWord_search (p : Params) : (idWord p).extractLsb' 8 5 = p.maxSearchBits := by
  unfold idWord
  refine (field_skip _ _).trans ?_
  exact field_last _ _

theorem idWord_dict (p : Params) : (idWord p).extractLsb' 16 5 = p.maxDictBits := by
  unfold idWord
  iterate 3 refine (field_skip _ _).trans ?_
  exact field_last _ _

theorem idWord_block (p : Params) : (idWord p).extractLsb' 24 5 = p.maxBlockBits := by
  unfold idWord
  iterate 5 refine (field_skip _ _).trans ?_
  exact field_last _ _

theorem idWord_reserved (p : Params) : idWord p &&& 0xE0E0E000 = 0 := by
  have mask : (0xE0E0E000 : Word) = (7#3 ++ 0#5 ++ 7#3 ++ 0#5 ++ 7#3 ++ 0#5 ++ 0#8 : BitVec 32) := rfl
  rw [mask]
  unfold idWord
  iterate 6 refine masked_zero ?_ (by simp)
  rfl

/-- Settles O23: each field of the five words by its lemma. -/
theorem registerWordLayouts : Obligations.RegisterWordLayouts := by
  intro s c w
  obtain ⟨h0, h1, h2, h3, h8, h9, h10, h11, h12, h13, h14, h15, h23⟩ := statusWord_bits s
  refine ⟨⟨h0, h1, h2, h3, statusWord_ecode s, h8, h9, h10, h11, ?_, h13, h14, h15, ?_, ?_, h23, statusWord_acc s⟩,
    ofWord_toWord c, toWord_ofWord w, ctrlWord_bit w,
    ⟨detectWord_alg _, detectWord_valid _, detectWord_p1 _, detectWord_p2 _, detectWord_reserved _⟩,
    idWord_version _, idWord_search _, idWord_dict _, idWord_block _, idWord_reserved _⟩
  · rw [h12, treeValid_iff]
  · rw [statusWord_srcPos, BitVec.toNat_ofNat, Nat.mod_eq_of_lt (by omega)]
  · rw [statusWord_snkPos, BitVec.toNat_ofNat, Nat.mod_eq_of_lt (by omega)]

end Sys2Proof.Machine

namespace Sys2Proof.Machine

/-! # Reset (10_state.md R72) -/

/-- Settles O9: each value is the one `State.reset` was given. -/
theorem resetLeavesTheStatedValues : Obligations.ResetLeavesTheStatedValues := by
  unfold Obligations.ResetLeavesTheStatedValues
  have registers : (readRegister State.reset 0x04).2 = 0 ∧ (readRegister State.reset 0x08).2 = 0 ∧
      (readRegister State.reset 0x0C).2 = 0x00780C00 ∧ (readRegister State.reset 0x10).2 = 0x00000003 ∧
      (readRegister State.reset 0x14).2 = 0 ∧ (readRegister State.reset 0x18).2 = 0 ∧
      (readRegister State.reset 0x1C).2 = 0 := by decide
  obtain ⟨arg, result, status, config, ctrl, detect, total⟩ := registers
  refine ⟨rfl, rfl, arg, result, status, config, ctrl, detect, total, ?_⟩
  refine ⟨rfl, rfl, rfl, rfl, rfl, rfl, rfl, fun _ => rfl, rfl, rfl, rfl, fun _ => rfl, ?_⟩
  exact ⟨rfl, rfl, rfl, rfl, rfl, rfl, rfl, rfl, rfl, rfl, rfl, rfl, rfl, rfl, rfl⟩

theorem reset_seqInv : State.reset.seqInv :=
  ⟨fun _ => ⟨rfl, rfl, rfl⟩, nofun, nofun, by decide, by decide, nofun⟩

/-- Settles O10: no command runs, so that no stream is being coded. -/
theorem resetMeetsTheInvariants : Obligations.ResetMeetsTheInvariants :=
  ⟨by decide, reset_seqInv, State.reset_memInv, initial_wf true, nofun, nofun, nofun, nofun⟩

end Sys2Proof.Machine

namespace Sys2Proof.Machine

/-! # The memories' canonical form (20_memory.md R100 to R102)

The byte memories and the Huffman tables are two independent parts of it: `BytesWf` and `Huf.TablesWf`. -/

/-- Both byte memories are canonical. -/
def BytesWf (u : Units) : Prop := Memory.wf u.lz77.win ∧ Memory.wf u.dz.blk

/-- Both Huffman tables are canonical, without a zero counter or an empty code. -/
structure Huf.TablesWf (h : Huf) : Prop where
  freq : Sparse.wf h.freq
  counters : ∀ e ∈ h.freq, e.1 < 256 ∧ e.2 ≠ 0
  code : Sparse.wf h.code
  codes : ∀ e ∈ h.code, e.1 < 256 ∧ e.2 ≠ []

theorem memWf_iff (u : Units) : u.memWf ↔ BytesWf u ∧ u.huf.TablesWf :=
  ⟨fun ⟨hw, hb, hf, hn, hc, he⟩ => ⟨⟨hw, hb⟩, ⟨hf, hn, hc, he⟩⟩,
    fun ⟨⟨hw, hb⟩, ⟨hf, hn, hc, he⟩⟩ => ⟨hw, hb, hf, hn, hc, he⟩⟩

/-- To keep a property of the units is a relation that chains. -/
theorem implies_chains (P : Units → Prop) : Chains fun u v => P u → P v := ⟨fun _ h => h, fun h h' hu => h' (h hu)⟩

/-! ## The byte memories -/

/-- `m` keeps the byte memories canonical. -/
abbrev KeepsBytes {α : Type} (m : M α) : Prop := Keeps (fun u v => BytesWf u → BytesWf v) m

theorem bind_keepsBytes {α β : Type} {x : M α} {f : α → M β} (hx : KeepsBytes x) (hf : ∀ a, KeepsBytes (f a)) :
    KeepsBytes (x >>= f) := .bind (implies_chains BytesWf) hx hf

/-- A rule that writes no byte keeps them. -/
theorem Keeps.keepsBytes {α : Type} {m : M α} (h : Keeps SameBytes m) : KeepsBytes m :=
  Keeps.mono h fun _ _ hv hu => ⟨hv.2 ▸ hu.1, hv.1 ▸ hu.2⟩

theorem look_keepsBytes {α : Type} (g : Units → α) : KeepsBytes (look g) := (look_sameBytes g).keepsBytes

theorem pure_keepsBytes {α : Type} (a : α) : KeepsBytes (pure a : M α) := (pure_sameBytes a).keepsBytes

theorem raise_keepsBytes {α : Type} (e : ErrorCode) : KeepsBytes (raise e : M α) := (raise_sameBytes e).keepsBytes

theorem takeByte_keepsBytes : KeepsBytes takeByte := (takeByte_frame.sameBytes (by decide) (by decide)).keepsBytes

theorem emitByte_keepsBytes (b : Byte) : KeepsBytes (emitByte b) :=
  ((emitByte_frame b).sameBytes (by decide) (by decide)).keepsBytes

theorem updLz77_keepsBytes {g : Lz77 → Lz77} (h : ∀ z, Memory.wf z.win → Memory.wf (g z).win) :
    KeepsBytes (updLz77 g) := Keeps.upd fun _ ⟨hw, hb⟩ => ⟨h _ hw, hb⟩

/-- A window write keeps the window canonical (R101, R102). -/
theorem winSet_keepsBytes (f : Lz77 → Nat) (b : Lz77 → Byte) : KeepsBytes (updLz77 fun z => z.winSet (f z) (b z)) :=
  updLz77_keepsBytes fun _ hw => Memory.write_wf hw _ _

theorem lz77Copy_keepsBytes (pos count i : Nat) : KeepsBytes (lz77Copy pos count i) := by
  induction count generalizing i with
  | zero => exact pure_keepsBytes _
  | succ count ih =>
    exact bind_keepsBytes (look_keepsBytes _) fun _ =>
      bind_keepsBytes (winSet_keepsBytes _ _) fun _ => bind_keepsBytes (emitByte_keepsBytes _) fun _ => ih _

theorem lz77Record_keepsBytes (len pos : Nat) (c : Byte) : KeepsBytes (lz77Record len pos c) :=
  bind_keepsBytes (lz77Copy_keepsBytes ..) fun _ => bind_keepsBytes (winSet_keepsBytes _ _) fun _ =>
    bind_keepsBytes (emitByte_keepsBytes c) fun _ =>
      bind_keepsBytes (updLz77_keepsBytes fun _ hw => hw) fun _ =>
        bind_keepsBytes (look_keepsBytes _) fun _ => .ite (pure_keepsBytes _) (pure_keepsBytes _)

theorem unitsReset_bytesWf (u : Units) : BytesWf (unitsReset u) := ⟨Sparse.wf_nil, Sparse.wf_nil⟩

theorem CommandRule.keepsBytes {cfg : Params} {arg : Word} {config : ConfigReg} {i : Instr} {m : M Next}
    (h : CommandRule cfg arg config i m) : KeepsBytes m := by
  by_cases hi : i = .softReset
  · cases h with
    | softReset => exact bind_keepsBytes (Keeps.upd fun u _ => unitsReset_bytesWf u) fun _ => pure_keepsBytes _
    | _ => cases hi
  · exact (h.sameBytes hi).keepsBytes

theorem TokenRule.keepsBytes {cfg : Params} {p : Phase} {i : Instr} {m : M Next} (h : TokenRule cfg p i m) :
    KeepsBytes m := by
  by_cases hp : p = .record .lz77
  · cases h with
    | lz77Literal b => exact lz77Record_keepsBytes ..
    | lz77Match len pos b =>
      exact bind_keepsBytes (look_keepsBytes _) fun _ =>
        .ite (raise_keepsBytes _) (.ite (raise_keepsBytes _) (lz77Record_keepsBytes ..))
    | _ => cases hp
  · exact (h.sameBytes hp).keepsBytes

theorem lz77Read_keepsBytes (cnt : Nat) : KeepsBytes (lz77Read cnt) := by
  unfold lz77Read
  refine .optional (implies_chains _) (updLz77_keepsBytes fun _ hw => hw) fun _ =>
    bind_keepsBytes (look_keepsBytes _) fun z =>
      .ite (bind_keepsBytes takeByte_keepsBytes fun item => ?_) (pure_keepsBytes _)
  split
  · exact pure_keepsBytes _
  · exact bind_keepsBytes (updLz77_keepsBytes fun _ hw => Memory.write_wf hw _ _) fun _ => pure_keepsBytes _

theorem dictRead_keepsBytes (a : DictAlg) : KeepsBytes (dictRead a) := by
  refine bind_keepsBytes (look_keepsBytes _) fun z =>
    .ite (bind_keepsBytes takeByte_keepsBytes fun item => ?_) (pure_keepsBytes _)
  split
  · exact pure_keepsBytes _
  · exact bind_keepsBytes (Keeps.upd fun _ ⟨hw, hb⟩ => ⟨hw, Memory.write_wf hb _ _⟩) fun _ => pure_keepsBytes _

theorem lz77Flag_sameBytes (cnt : Nat) : Keeps SameBytes (lz77Flag cnt) :=
  bind_sameBytes (look_sameBytes _) fun _ => bind_sameBytes (writeToken_sameBytes _ _) fun _ =>
    bind_sameBytes (updLz77_sameBytes fun _ => rfl) fun _ => .ite (pure_sameBytes _) (pure_sameBytes _)

theorem lz77Emit_sameBytes : Keeps SameBytes lz77Emit :=
  bind_sameBytes (look_sameBytes _) fun _ =>
    .ite (pure_sameBytes _) (bind_sameBytes (updLz77_sameBytes fun _ => rfl) fun _ =>
      bind_sameBytes (writeToken_sameBytes _ _) fun _ =>
        bind_sameBytes (updLz77_sameBytes fun _ => rfl) fun _ => pure_sameBytes _)

theorem dictBlockStart_sameBytes (a : DictAlg) : Keeps SameBytes (dictBlockStart a) :=
  bind_sameBytes (updDz_sameBytes fun _ => rfl) fun _ => pure_sameBytes _

theorem dictFlag_sameBytes (a : DictAlg) : Keeps SameBytes (dictFlag a) :=
  bind_sameBytes (look_sameBytes _) fun _ => bind_sameBytes (writeToken_sameBytes _ _) fun _ =>
    bind_sameBytes (Keeps.upd fun _ => ⟨rfl, rfl⟩) fun _ => .ite (pure_sameBytes _) (pure_sameBytes _)

theorem lz78Emit_sameBytes : Keeps SameBytes lz78Emit :=
  bind_sameBytes (look_sameBytes _) fun _ =>
    .ite (bind_sameBytes (look_sameBytes _) fun _ => bind_sameBytes (writeToken_sameBytes _ _) fun _ =>
      bind_sameBytes (updDz_sameBytes fun _ => rfl) fun _ =>
        bind_sameBytes ((insertInBlock_frame _ _).sameBytes (by decide) (by decide)) fun _ => pure_sameBytes _)
      (dictBlockStart_sameBytes _)

theorem lzwEmit_sameBytes : Keeps SameBytes lzwEmit :=
  bind_sameBytes (look_sameBytes _) fun _ =>
    .ite (bind_sameBytes ((lzwByte_frame _).sameBytes (by decide) (by decide)) fun _ =>
      bind_sameBytes (updDz_sameBytes fun _ => rfl) fun _ => pure_sameBytes _)
      (bind_sameBytes (lzwBlockEnd_frame.sameBytes (by decide) (by decide)) fun _ => dictBlockStart_sameBytes _)

theorem stretchOf_keepsBytes {cfg : Params} {p : Phase} {m : M Next} (h : stretchOf cfg p = some m) :
    KeepsBytes m := by
  unfold stretchOf at h
  split at h <;> cases h
  · exact ((leafRun_frame _).sameBytes (by decide) (by decide)).keepsBytes
  · exact ((hufCount_frame _).sameBytes (by decide) (by decide)).keepsBytes
  · exact ((hufHead_frame ..).sameBytes (by decide) (by decide)).keepsBytes
  · exact ((hufPass_frame _).sameBytes (by decide) (by decide)).keepsBytes
  · exact lz77Read_keepsBytes _
  · exact (lz77Flag_sameBytes _).keepsBytes
  · exact lz77Emit_sameBytes.keepsBytes
  · exact dictRead_keepsBytes _
  · exact (dictFlag_sameBytes _).keepsBytes
  · exact lz78Emit_sameBytes.keepsBytes
  · exact lzwEmit_sameBytes.keepsBytes
  · exact (finishEncode_frame.sameBytes (by decide) (by decide)).keepsBytes

/-! ## The Huffman tables -/

/-- The code table lists no empty code and no symbol twice. -/
def CodeWf (code : Sparse (List Bool)) : Prop := Sparse.wf code ∧ ∀ e ∈ code, e.1 < 256 ∧ e.2 ≠ []

theorem CodeWf.nil : CodeWf [] := ⟨Sparse.wf_nil, by simp⟩

theorem CodeWf.write {code : Sparse (List Bool)} (h : CodeWf code) (sym : Byte) (path : List Bool) :
    CodeWf (code.write [] sym.toNat path) := by
  refine ⟨Sparse.write_wf h.1 _ _ _, fun e he => ?_⟩
  rcases Sparse.mem_write he with he | ⟨rfl, hne⟩
  · exact h.2 e he
  · exact ⟨sym.isLt, hne⟩

/-- The walk of `Codify()` adds codes of bytes only (42_huffman.md R270). -/
theorem walkCodes_wf {nodes : List Node} {fuel i : Nat} {path : List Bool} {code : Sparse (List Bool)}
    (h : CodeWf code) : CodeWf (walkCodes nodes fuel i path code) := by
  induction fuel generalizing i path code with
  | zero => exact h
  | succ fuel ih =>
    unfold walkCodes
    split
    · exact h.write _ _
    · rename_i left right _ _
      cases left with
      | none =>
        cases right with
        | none => exact h
        | some r => exact ih h
      | some l =>
        cases right with
        | none => exact ih h
        | some r => exact ih (ih h)
    · exact h

/-- A change that leaves both tables alone. -/
theorem Huf.TablesWf.of_same {h h' : Huf} (hw : h.TablesWf) (hf : h'.freq = h.freq) (hc : h'.code = h.code) :
    h'.TablesWf := ⟨hf ▸ hw.freq, hf ▸ hw.counters, hc ▸ hw.code, hc ▸ hw.codes⟩

/-- A change of the code table. -/
theorem Huf.TablesWf.of_code {h h' : Huf} (hw : h.TablesWf) (hf : h'.freq = h.freq) (hc : CodeWf h'.code) :
    h'.TablesWf := ⟨hf ▸ hw.freq, hf ▸ hw.counters, hc.1, hc.2⟩

theorem Huf.TablesWf.freqCleared {h : Huf} (hw : h.TablesWf) : h.freqCleared.TablesWf :=
  ⟨Sparse.wf_nil, by simp [Huf.freqCleared], hw.code, hw.codes⟩

/-- A counter that comes back to 0 is no longer listed (assumption 9). -/
theorem Huf.TablesWf.counted {h : Huf} (hw : h.TablesWf) (s : Byte) : (h.counted s).TablesWf := by
  refine ⟨Sparse.write_wf hw.freq _ _ _, fun e he => ?_, hw.code, hw.codes⟩
  rcases Sparse.mem_write he with he | ⟨rfl, hne⟩
  · exact hw.counters e he
  · exact ⟨s.isLt, hne⟩

theorem Huf.TablesWf.treeBuilt {h : Huf} (hw : h.TablesWf) : h.treeBuilt.TablesWf := by
  unfold Huf.treeBuilt
  split <;> exact hw.of_same rfl rfl

theorem Huf.codified_codeWf (h : Huf) : CodeWf h.codified.code := by
  unfold Huf.codified
  dsimp only
  split
  · exact .nil
  · split
    · exact CodeWf.nil.write _ _
    · exact .nil
  · exact walkCodes_wf .nil

theorem Huf.TablesWf.codified {h : Huf} (hw : h.TablesWf) : h.codified.TablesWf := hw.of_code rfl h.codified_codeWf

theorem Huf.TablesWf.treeStarted {h : Huf} (hw : h.TablesWf) : h.treeStarted.TablesWf := hw.of_code rfl .nil

theorem Huf.TablesWf.treeEnded {h : Huf} (hw : h.TablesWf) : h.treeEnded.TablesWf :=
  hw.of_code rfl (Huf.codified_codeWf _)

/-- `m` keeps the Huffman tables canonical. -/
abbrev KeepsTables {α : Type} (m : M α) : Prop := Keeps (fun u v => u.huf.TablesWf → v.huf.TablesWf) m

theorem bind_keepsTables {α β : Type} {x : M α} {f : α → M β} (hx : KeepsTables x) (hf : ∀ a, KeepsTables (f a)) :
    KeepsTables (x >>= f) := .bind (implies_chains fun u => u.huf.TablesWf) hx hf

/-- A rule that leaves the Huffman units alone keeps the tables. -/
theorem Frame.keepsTables {α : Type} {fs : List Field} {m : M α} (h : Frame fs m) (hf : .huf ∉ fs) : KeepsTables m :=
  Keeps.mono h fun _ _ hv hu => (hv .huf hf : _ = _) ▸ hu

theorem updHuf_keepsTables {g : Huf → Huf} (hg : ∀ {h : Huf}, h.TablesWf → (g h).TablesWf) : KeepsTables (updHuf g) :=
  Keeps.upd fun _ hu => hg hu

theorem pure_keepsTables {α : Type} (a : α) : KeepsTables (pure a : M α) := .pure (implies_chains _) a

theorem look_keepsTables {α : Type} (g : Units → α) : KeepsTables (look g) := .look (implies_chains _) g

theorem raise_keepsTables {α : Type} (e : ErrorCode) : KeepsTables (raise e : M α) := .raise (implies_chains _) e

theorem freqAdd_keepsTables (s : Byte) : KeepsTables (freqAdd s) :=
  bind_keepsTables (look_keepsTables _) fun _ =>
    .ite (raise_keepsTables _) (updHuf_keepsTables fun hw => hw.counted s)

theorem hufBuild_keepsTables : KeepsTables hufBuild :=
  bind_keepsTables (updHuf_keepsTables fun hw => hw.treeBuilt) fun _ =>
    bind_keepsTables (updHuf_keepsTables fun hw => hw.codified) fun _ =>
      updHuf_keepsTables fun hw => hw.of_same rfl rfl

theorem addBit_keepsTables (b : Bool) : KeepsTables (addBit b) := by
  refine bind_keepsTables (look_keepsTables _) fun h => .ite (raise_keepsTables _) ?_
  split
  · exact raise_keepsTables _
  · split
    · exact bind_keepsTables (updHuf_keepsTables fun hw => hw.of_same rfl rfl) fun _ => pure_keepsTables _
    · exact bind_keepsTables (updHuf_keepsTables fun hw => hw.of_same rfl rfl) fun _ => pure_keepsTables _
    · exact raise_keepsTables _

theorem addTreeNode_keepsTables (n : Node) (opens : Bool) (stack : List Nat) (use : TreeUse) :
    KeepsTables (addTreeNode n opens stack use) := by
  refine bind_keepsTables (look_keepsTables _) fun nodes => ?_
  dsimp only
  refine bind_keepsTables (updHuf_keepsTables fun hw => hw.of_same rfl rfl) fun _ => ?_
  split
  · exact bind_keepsTables (updHuf_keepsTables fun hw => hw.treeEnded) fun _ =>
      bind_keepsTables (look_keepsTables _) fun _ => pure_keepsTables _
  · exact pure_keepsTables _

theorem hufEncode_keepsTables (magic : Bool) : KeepsTables (hufEncode magic) :=
  bind_keepsTables (look_keepsTables _) fun _ =>
    .ite (bind_keepsTables (updHuf_keepsTables fun hw => hw.freqCleared) fun _ => pure_keepsTables _)
      (raise_keepsTables _)

theorem encodeWith_keepsTables (cfg : Params) (a : Alg) (p1 p2 : BitVec 5) (magic : Bool) :
    KeepsTables (encodeWith cfg a p1 p2 magic) := by
  have magicWritten (i : Instr) : KeepsTables (writeToken .envelope i) := (writeToken_frame _ _).keepsTables (by decide)
  cases a with
  | huf => exact hufEncode_keepsTables magic
  | lz77 =>
    exact .optional (implies_chains _) (magicWritten _) fun _ => (lz77Encode_frame ..).keepsTables (by decide)
  | lz78 =>
    exact .optional (implies_chains _) (magicWritten _) fun _ => (dictEncode_frame ..).keepsTables (by decide)
  | lzw =>
    exact .optional (implies_chains _) (magicWritten _) fun _ => (dictEncode_frame ..).keepsTables (by decide)

theorem unitsReset_tablesWf (u : Units) : (unitsReset u).huf.TablesWf :=
  ⟨Sparse.wf_nil, by simp [unitsReset, Units.resetWith], Sparse.wf_nil, by simp [unitsReset, Units.resetWith]⟩

theorem CommandRule.keepsTables {cfg : Params} {arg : Word} {config : ConfigReg} {i : Instr} {m : M Next}
    (h : CommandRule cfg arg config i m) : KeepsTables m := by
  have hfr := h.frame
  have checked (a : Alg) (p1 p2 : BitVec 5) : KeepsTables (checkEncParams cfg a p1 p2) :=
    (checkEncParams_frame ..).keepsTables (by decide)
  cases h with
  | freqClear => exact bind_keepsTables (updHuf_keepsTables fun hw => hw.freqCleared) fun _ => pure_keepsTables _
  | freqAdd sym => exact bind_keepsTables (freqAdd_keepsTables sym) fun _ => pure_keepsTables _
  | hufBuild => exact bind_keepsTables hufBuild_keepsTables fun _ => pure_keepsTables _
  | hufDeserialize => exact bind_keepsTables (updHuf_keepsTables fun hw => hw.treeStarted) fun _ => pure_keepsTables _
  | hufWalkReset =>
    exact bind_keepsTables (look_keepsTables _) fun _ =>
      .ite (bind_keepsTables (updHuf_keepsTables fun hw => hw.of_same rfl rfl) fun _ => pure_keepsTables _)
        (raise_keepsTables _)
  | hufAddBit bit =>
    exact bind_keepsTables (look_keepsTables _) fun _ =>
      .ite (bind_keepsTables (addBit_keepsTables bit) fun _ => (completeWith_frame _).keepsTables (by decide))
        (raise_keepsTables _)
  | encBody alg => exact bind_keepsTables (checked ..) fun _ => encodeWith_keepsTables ..
  | enc =>
    exact bind_keepsTables (checked ..) fun _ =>
      bind_keepsTables ((updSrc_frame _).keepsTables (by decide)) fun _ =>
        bind_keepsTables ((updSnk_frame _).keepsTables (by decide)) fun _ => encodeWith_keepsTables ..
  | softReset => exact bind_keepsTables (Keeps.upd fun u _ => unitsReset_tablesWf u) fun _ => pure_keepsTables _
  | _ => exact hfr.keepsTables (by simp [touches])

theorem ruleHufCode_keepsTables (bits : List Bool) (produced : Nat) : KeepsTables (ruleHufCode bits produced) := by
  induction bits generalizing produced with
  | nil => exact pure_keepsTables _
  | cons b bits ih =>
    refine bind_keepsTables (addBit_keepsTables b) fun r => ?_
    cases r with
    | none => exact ih produced
    | some sym =>
      exact bind_keepsTables ((emitByte_frame sym).keepsTables (by decide)) fun _ =>
        bind_keepsTables (look_keepsTables _) fun _ => .ite (ih _) (finishDecode_frame.keepsTables (by decide))

theorem TokenRule.keepsTables {cfg : Params} {p : Phase} {i : Instr} {m : M Next} (h : TokenRule cfg p i m) :
    KeepsTables m := by
  have hfr := h.frame
  cases h with
  | magic a => cases a <;> exact hfr.keepsTables (by simp [touches, Alg.magicToken])
  | hufHeader total =>
    exact bind_keepsTables (updHuf_keepsTables fun hw => hw.of_same rfl rfl) fun _ =>
      .ite (finishDecode_frame.keepsTables (by decide))
        (bind_keepsTables (updHuf_keepsTables fun hw => hw.treeStarted) fun _ => pure_keepsTables _)
  | treeInternal | treeLeaf =>
    exact bind_keepsTables (look_keepsTables _) fun _ => .ite (raise_keepsTables _) (addTreeNode_keepsTables ..)
  | hufCode bits produced => exact ruleHufCode_keepsTables ..
  | _ => exact hfr.keepsTables (by simp [touches])

theorem hufCount_keepsTables (magic : Bool) : KeepsTables (hufCount magic) := by
  refine bind_keepsTables (takeByte_frame.keepsTables (by decide)) fun item => ?_
  split
  · exact pure_keepsTables _
  · exact bind_keepsTables (freqAdd_keepsTables _) fun _ => pure_keepsTables _

theorem hufHead_keepsTables (cfg : Params) (magic : Bool) : KeepsTables (hufHead cfg magic) :=
  have written (c : Ctx) (i : Instr) : KeepsTables (writeToken c i) := (writeToken_frame c i).keepsTables (by decide)
  bind_keepsTables hufBuild_keepsTables fun _ => .optional (implies_chains _) (written _ _) fun _ =>
    bind_keepsTables (look_keepsTables _) fun _ => bind_keepsTables (written _ _) fun _ =>
      bind_keepsTables (serialize_frame.keepsTables (by decide)) fun _ => bind_keepsTables (look_keepsTables _) fun _ =>
        .ite (bind_keepsTables (inRewind_frame.keepsTables (by decide)) fun _ => pure_keepsTables _)
          (pure_keepsTables _)

theorem stretchOf_keepsTables {cfg : Params} {p : Phase} {m : M Next} (h : stretchOf cfg p = some m) :
    KeepsTables m := by
  unfold stretchOf at h
  split at h <;> cases h
  · exact (leafRun_frame _).keepsTables (by decide)
  · exact hufCount_keepsTables _
  · exact hufHead_keepsTables ..
  · exact (hufPass_frame _).keepsTables (by decide)
  · exact (lz77Read_frame _).keepsTables (by decide)
  · exact (lz77Flag_frame _).keepsTables (by decide)
  · exact lz77Emit_frame.keepsTables (by decide)
  · exact (dictRead_frame _).keepsTables (by decide)
  · exact (dictFlag_frame _).keepsTables (by decide)
  · exact lz78Emit_frame.keepsTables (by decide)
  · exact lzwEmit_frame.keepsTables (by decide)
  · exact finishEncode_frame.keepsTables (by decide)

/-! ## Every step -/

/-- `m` keeps every memory canonical. -/
abbrev KeepsMemories {α : Type} (m : M α) : Prop := Keeps (fun u v => u.memWf → v.memWf) m

theorem KeepsBytes.memories {α : Type} {m : M α} (hb : KeepsBytes m) (ht : KeepsTables m) : KeepsMemories m where
  on u hu := by
    rw [memWf_iff] at hu ⊢
    exact ⟨hb.on u hu.1, ht.on u hu.2⟩
  past u v hv hu := by
    rw [memWf_iff] at hu ⊢
    exact ⟨hb.past u v hv hu.1, ht.past u v hv hu.2⟩

/-- The fetch touches no memory. -/
theorem SameBut.memWf {u v : Units} (h : SameBut [.src, .inp, .result, .detect] u v) (hu : u.memWf) : v.memWf := by
  have hl : v.lz77 = u.lz77 := h .lz77 (by decide)
  have hd : v.dz = u.dz := h .dz (by decide)
  have hh : v.huf = u.huf := h .huf (by decide)
  rw [memWf_iff, BytesWf, hl, hd, hh]
  exact (memWf_iff u).1 hu

theorem State.Runs.keepsMemories {s : State} {r : Stretch} (h : s.Runs r) : KeepsMemories r.rule := by
  cases h with
  | command hm => exact hm.keepsBytes.memories hm.keepsTables
  | token hm => exact hm.keepsBytes.memories hm.keepsTables
  | badCommand => exact .raise (implies_chains _) _
  | fetch => exact Keeps.mono (fetchRule_frame ..) fun _ _ => SameBut.memWf
  | stretch _ hm => exact KeepsBytes.memories (stretchOf_keepsBytes hm) (stretchOf_keepsTables hm)

theorem State.Runs.start_memWf {s : State} {r : Stretch} (h : s.Runs r) (hs : s.memInv) : r.start.units.memWf := by
  have horigin : s.origin.memWf := allUnits_origin hs
  cases h with
  | @command i => exact (entered_units i s.resumed).symm ▸ horigin
  | token _ hu => exact hu.memWf horigin
  | _ => exact horigin

/-- Wherever a turn leaves a stretch, the memories are canonical, now and where it began. -/
theorem Stretch.Reaches.memInv {r : Stretch} {t : State} (h : r.Reaches t) (hm : KeepsMemories r.rule)
    (hs : r.start.units.memWf) : t.memInv := by
  have hon := hm.on r.start.units
  have amid {u : Units} (n : Nat) (hu : u.memWf) : (r.start.amid u n).memInv :=
    ⟨hu, fun b hb => Option.some.inj hb ▸ hs⟩
  cases h with
  | amid n hu =>
    rcases hu with rfl | hu
    · exact amid n hs
    · exact amid n (hm.past _ _ hu hs)
  | wait n hu => rw [hu] at hon; exact amid n (hon hs)
  | complete hu => rw [hu] at hon; exact allUnits_fresh rfl (hon hs)
  | goto hu => rw [hu] at hon; exact allUnits_fresh rfl (hon hs)
  | fail hu => rw [hu] at hon; exact allUnits_fresh rfl (hon hs)

/-- No move of the environment writes a memory, but a reset, which empties them all. -/
theorem Env.memInv {s t : State} {m : Move} (h : Env s m t) (hs : s.memInv) : t.memInv := by
  have ports {f : Units → Units} (hf : ∀ u, u.memWf → (f u).memWf) : (s.mapPorts f).memInv := by
    refine ⟨hf _ hs.1, fun b hb => ?_⟩
    obtain ⟨b', hb', rfl⟩ := Option.map_eq_some_iff.1 hb
    exact hf _ (hs.2 b' hb')
  cases h with
  | latch => exact allUnits_fresh rfl hs.1
  | write ht => rw [ht]; exact hs
  | read ht => rw [ht]; exact hs
  | offer => exact ports fun _ hu => hu
  | answer => exact ports fun _ hu => hu
  | connectInput => exact hs
  | connectOutput => exact hs
  | hardReset => exact allUnits_fresh rfl ((memWf_iff _).2 ⟨unitsReset_bytesWf _, unitsReset_tablesWf _⟩)

/-- Settles O12: every rule keeps both byte memories and both Huffman tables canonical at each of its steps. -/
theorem stepKeepsMemoriesCanonical : Obligations.StepKeepsMemoriesCanonical := by
  intro s t hs h
  obtain ⟨m, rest, -, he⟩ | ⟨rfl, -⟩ | ⟨-, r, hr, ht⟩ := step_cases h
  · exact he.memInv hs
  · exact hs
  · exact ht.memInv hr.keepsMemories (hr.start_memWf hs)

end Sys2Proof.Machine

namespace Sys2Proof.Machine

/-! # Accesses outside the contract (20_memory.md R103, R104) -/

theorem accessOf_outside {cfg : Params} {width addr : Nat} (h : addr < cfg.base ∨ cfg.base + 64 ≤ addr) :
    accessOf cfg width addr = .faulty .outsideWindow := if_pos h

theorem accessOf_misaligned {cfg : Params} {width addr : Nat} (h : cfg.base ≤ addr) (h' : addr < cfg.base + 64)
    (hw : width ≠ 4 ∨ (addr - cfg.base) % 4 ≠ 0) : accessOf cfg width addr = .refused .registerAccess := by
  unfold accessOf
  rw [if_neg (by omega), if_neg (by omega)]

/-- A host access that reaches no register ends the step with what `accessOf` says. -/
theorem step_access {s : State} {width addr : Nat} {rest : List Move}
    (hs : s.script = .read width addr :: rest ∨ ∃ v, s.script = .write width addr v :: rest) :
    (∀ f, accessOf s.cfg width addr = .faulty f → step s = .fault f) ∧
      (∀ r, accessOf s.cfg width addr = .refused r → step s = .refused r) := by
  rcases hs with hs | ⟨v, hs⟩
  · exact ⟨fun f ha => by simp [step, stepWork_move hs, moveWork, ha, Work.outcome],
      fun r ha => by simp [step, stepWork_move hs, moveWork, ha, Work.outcome]⟩
  · exact ⟨fun f ha => by simp [step, stepWork_move hs, moveWork, ha, Work.outcome],
      fun r ha => by simp [step, stepWork_move hs, moveWork, ha, Work.outcome]⟩

/-- Settles O22: `accessOf` tests the window first, then the alignment and the width. -/
theorem accessOutsideTheContract : Obligations.AccessOutsideTheContract := by
  intro s width addr rest hs
  obtain ⟨fault, refused⟩ := step_access hs
  exact ⟨fun h => fault _ (accessOf_outside h), fun h h' hw => refused _ (accessOf_misaligned h h' hw)⟩

end Sys2Proof.Machine

namespace Sys2Proof.Machine

/-! # Reading past the end of the input (20_memory.md R94, 40_bitsource.md R202 to R209) -/

/-- The flags once the port has stopped with `t` (R202). -/
def Src.stopped (s : Src) : Terminal → Src
  | .ended => { s with eof := true }
  | .failed => { s with err := true }

/-- `u` after its BitSource met terminal item `t`. -/
def Units.stopped (u : Units) (t : Terminal) : Units := { u.took (.stop t) with src := u.src.stopped t }

/-- A good BitSource that meets terminal item `t` delivers 0 and sets the flag of `t`. -/
theorem srcGetBit_meets {u : Units} {t : Terminal} (h : u.meets t) : srcGetBit.on u = .ok false (u.stopped t) := by
  cases t with
  | ended => exact srcGetBit_end h
  | failed => exact srcGetBit_failed h

theorem readTo_sameBut {u v : Units} (h : u.readTo v) : SameBut [.src, .inp] u v := by
  obtain ⟨hv, -⟩ := h
  rw [hv]
  intro f hf
  cases f <;> simp_all [Field.same]

theorem stopped_sameBut (u : Units) (t : Terminal) : SameBut [.src, .inp] u (u.stopped t) := by
  intro f hf
  cases f <;> simp_all [Field.same, Units.stopped]

theorem stopped_flag (u : Units) (t : Terminal) :
    if t = .ended then (u.stopped t).src.eof = true else (u.stopped t).src.err = true := by
  cases t <;> rfl

/-- A good source has neither flag set. -/
theorem Src.good_iff (s : Src) : s.good = true ↔ s.eof = false ∧ s.err = false := by
  simp [Src.good]

/-! ## Where the input stops -/

/-- Taking an item from the port changes nothing of how its bytes stop. -/
theorem inRead_stopsWith (t : Terminal) :
    Keeps (fun u v => u.inp.stopsWith t → v.inp.stopsWith t) inRead := by
  refine Keeps.act fun u hu => ?_
  split
  · rename_i t' hc
    rcases hu with hu | hu
    · exact .inl hu
    · exact absurd (hc.symm.trans hu.1) nofun
  · rename_i hc
    have hstop : (u.inp.offer.drop (bytesAhead u.inp.offer).length).head? = some (.stop t) := by
      rcases hu with hu | hu
      · exact absurd (hc.symm.trans hu) nofun
      · simpa [InPort.ahead, hc] using hu.2
    split
    · exact hu
    · rename_i b rest ho
      rw [ho] at hstop
      exact .inr ⟨hc, by simpa [unitsAfter, InPort.ahead, hc, bytesAhead] using hstop⟩
    · rename_i t' rest ho
      rw [ho] at hstop
      exact .inl (by simpa [unitsAfter, bytesAhead] using hstop)

/-- Reading a bit changes nothing of how the bytes of the input stop. -/
theorem srcGetBit_stopsWith (t : Terminal) :
    Keeps (fun u v => u.inp.stopsWith t → v.inp.stopsWith t) srcGetBit := by
  have chains := implies_chains fun u : Units => u.inp.stopsWith t
  have source {α : Type} {m : M α} (h : Frame [.src] m) : Keeps (fun u v => u.inp.stopsWith t → v.inp.stopsWith t) m :=
    Keeps.mono h fun _ _ hv hu => (hv .inp (by decide) : _ = _) ▸ hu
  have refilled : Keeps (fun u v => u.inp.stopsWith t → v.inp.stopsWith t) refill := by
    refine .bind chains (inRead_stopsWith t) fun item => source ?_
    split <;> exact .bind (updSrc_frame _) fun _ => .pure _
  refine .bind chains (.look chains _) fun s =>
    .ite (.ite (.bind chains refilled fun ok => source ?_) (source heldBit_frame)) (source (.pure _))
  cases ok with
  | true => exact heldBit_frame
  | false => exact .pure _

/-- A source that has no bit ahead and whose input stops with `t` meets `t` at the next bit. -/
theorem meets_of_stopsWith {u : Units} {t : Terminal} (hg : u.readable) (hp : u.pendingBits = [])
    (ht : u.inp.stopsWith t) : u.meets t := by
  obtain ⟨hheld, hahead⟩ := List.append_eq_nil_iff.1 hp
  have hpos : u.src.pos = 8 := by
    by_contra hne
    rw [heldBits_cons hne] at hheld
    cases hheld
  have hnone : u.inp.ahead = [] := by
    cases ha : u.inp.ahead with
    | nil => rfl
    | cons b l =>
      rw [ha] at hahead
      have := congrArg List.length hahead
      simp at this
  refine ⟨hg, hpos, ?_⟩
  rcases ht with hc | ⟨hc, ho⟩
  · exact .inr (by rw [hc]; rfl)
  · exact .inl ⟨hc, by simpa [hnone] using ho⟩

/-! ## The source commands (40_bitsource.md R203 to R206) -/

/-- A source that is not good delivers zeros only. -/
theorem srcGetBits_not_good {u : Units} (h : u.src.good = false) (n acc : Nat) :
    (srcGetBits n acc).on u = .ok (acc * 2 ^ n) u := by
  induction n generalizing acc with
  | zero => simp [srcGetBits]
  | succ n ih =>
    rw [srcGetBits, M.run_bind_ok (srcGetBit_not_good h), ih]
    congr 1
    rw [pow_succ, Bool.toNat_false]
    ring

/-- The missing bits of a read that meets the end are zeros (R202, R205). -/
theorem srcGetBits_meets {u : Units} {t : Terminal} (h : u.meets t) (n acc : Nat) :
    (srcGetBits (n + 1) acc).on u = .ok (acc * 2 ^ (n + 1)) (u.stopped t) := by
  have hbad : (u.stopped t).src.good = false := by cases t <;> simp [Units.stopped, Src.stopped, Src.good]
  rw [srcGetBits, M.run_bind_ok (srcGetBit_meets h), srcGetBits_not_good hbad]
  congr 1
  rw [pow_succ, Bool.toNat_false]
  ring

/-- A read is a read of its first bits and then of the others. -/
theorem srcGetBits_add (m n acc : Nat) (u : Units) :
    (srcGetBits (m + n) acc).on u = (srcGetBits m acc >>= srcGetBits n).on u := by
  induction m generalizing acc u with
  | zero => rw [Nat.zero_add]; rfl
  | succ m ih =>
    rw [Nat.succ_add, M.run_bind]
    simp only [srcGetBits]
    rw [M.run_bind, M.run_bind]
    cases srcGetBit.on u with
    | error e v => rfl
    | ok b v => exact (ih _ v).trans (M.run_bind ..)

/-- All the bits ahead are read; where the input then stops with `t`, the source meets `t`. -/
theorem srcGetBits_ahead {u : Units} {t : Terminal} (h : u.readable) (ht : u.inp.stopsWith t) (acc : Nat) :
    ∃ v, (srcGetBits u.pendingBits.length acc).on u = .ok (bitsValue acc u.pendingBits) v ∧ u.readTo v ∧ v.meets t := by
  have stops (n : Nat) : ∀ acc, Keeps (fun u v => u.inp.stopsWith t → v.inp.stopsWith t) (srcGetBits n acc) := by
    induction n with
    | zero => exact fun _ => .pure (implies_chains _) _
    | succ n ih => exact fun _ => .bind (implies_chains _) (srcGetBit_stopsWith t) fun _ => ih _
  obtain ⟨v, hv, hr, hp, -⟩ := srcGetBits_pending acc h (List.append_nil u.pendingBits).symm
  have hvt := (stops u.pendingBits.length acc).on u ht
  rw [hv] at hvt
  exact ⟨v, hv, hr, meets_of_stopsWith hr.2.1 hp hvt⟩

/-- A read of more bits than are ahead: the missing ones are zeros. -/
theorem srcGetBits_short {u : Units} {t : Terminal} (h : u.readable) (ht : u.inp.stopsWith t) {n : Nat}
    (hn : u.pendingBits.length < n) :
    ∃ v, SameBut [.src, .inp] u v ∧ (if t = .ended then v.src.eof = true else v.src.err = true) ∧
      (srcGetBits n 0).on u = .ok (bitsValue 0 u.pendingBits * 2 ^ (n - u.pendingBits.length)) v := by
  obtain ⟨v, hv, hr, hm⟩ := srcGetBits_ahead h ht 0
  obtain ⟨k, rfl⟩ : ∃ k, n = u.pendingBits.length + (k + 1) := ⟨n - u.pendingBits.length - 1, by omega⟩
  refine ⟨v.stopped t, (SameBut.chains _).trans (readTo_sameBut hr) (stopped_sameBut v t), stopped_flag v t, ?_⟩
  rw [srcGetBits_add, M.run_bind_ok hv, srcGetBits_meets hm, Nat.add_sub_cancel_left]

theorem bitCountOk_iff (n : Byte) : bitCountOk n = true ↔ 1 ≤ n.toNat ∧ n.toNat ≤ 32 := by simp [bitCountOk]

/-- SRC_GET_BITS completes with what was read. -/
theorem exec_srcGetBits {s : State} {n : Byte} {x : Nat} {v : Units} (hn : bitCountOk n = true)
    (h : (srcGetBits n.toNat 0).on s.units = .ok x v) :
    exec (.srcGetBits n) s = .next (s.completed { v with result := BitVec.ofNat 32 x }) := by
  refine runCommand_complete ?_
  rw [ruleSrcGetBits, if_pos hn, M.run_bind_ok h]
  rfl

/-- SRC_GET_BIT completes with what was read. -/
theorem exec_srcGetBit {s : State} {b : Bool} {v : Units} (h : srcGetBit.on s.units = .ok b v) :
    exec .srcGetBit s = .next (s.completed { v with result := BitVec.ofNat 32 b.toNat }) := by
  refine runCommand_complete ?_
  rw [ruleSrcGetBit, M.run_bind_ok h]
  rfl

/-- Settles O30: the bits ahead are read, the source meets the end, and from then on delivers zeros. -/
theorem srcReadsReportTheEndByFlags : Obligations.SrcReadsReportTheEndByFlags := by
  refine fun s n => ⟨fun hn => ?_, fun h1 h32 => ?_⟩
  · refine runCommand_raise ?_
    rw [ruleSrcGetBits, if_neg (mt (bitCountOk_iff n).1 hn)]
    rfl
  · have hn : bitCountOk n = true := (bitCountOk_iff n).2 ⟨h1, h32⟩
    refine ⟨fun hbad => ⟨?_, exec_srcGetBit (srcGetBit_not_good hbad)⟩, fun t hg ht => ⟨fun hlt => ?_, fun hp => ?_⟩⟩
    · have := exec_srcGetBits hn (srcGetBits_not_good hbad n.toNat 0)
      rwa [Nat.zero_mul] at this
    · obtain ⟨v, hsame, hflag, hv⟩ := srcGetBits_short hg ht hlt
      exact ⟨v, hsame, hflag, exec_srcGetBits hn hv⟩
    · have hm := meets_of_stopsWith hg hp ht
      exact ⟨s.units.stopped t, stopped_sameBut _ t, stopped_flag _ t, exec_srcGetBit (srcGetBit_meets hm)⟩

end Sys2Proof.Machine

namespace Sys2Proof.Machine

/-! # Fetching past the end of the input (30_encoding.md R140, 40_bitsource.md R208, R209) -/

/-! ## How many bits a context asks for -/

/-- A decoder that asks for more than `m` bits never, and that has asked for more at every beginning of a string at
which it asks for more. -/
structure AsksFor (m : Nat) (k : List Bool → Decoded) : Prop where
  short : ∀ bits, k bits = .more → bits.length < m
  before : ∀ a b, k (a ++ b) = .more → k a = .more

theorem AsksFor.nothing {m : Nat} {k : List Bool → Decoded} (h : ∀ bits, k bits ≠ .more) : AsksFor m k :=
  ⟨fun bits hb => absurd hb (h bits), fun _ _ hb => absurd hb (h _)⟩

theorem AsksFor.mono {m n : Nat} {k : List Bool → Decoded} (h : AsksFor m k) (hn : m ≤ n) : AsksFor n k :=
  ⟨fun bits hb => Nat.lt_of_lt_of_le (h.short bits hb) hn, h.before⟩

theorem AsksFor.field {m n : Nat} {k : Nat → List Bool → Decoded} (h : ∀ v, AsksFor m (k v)) :
    AsksFor (n + m) fun bits => withField n bits k where
  short bits hb := by
    by_cases hl : n ≤ bits.length
    · have hk : k (bitsValue 0 (bits.take n)) (bits.drop n) = .more := by
        simpa [withField, takeField, hl] using hb
      have := (h _).short _ hk
      rw [List.length_drop] at this
      omega
    · omega
  before a b hb := by
    by_cases hl : n ≤ a.length
    · have hk : k (bitsValue 0 (a.take n)) (a.drop n ++ b) = .more := by
        simpa [withField, takeField, Nat.le_add_right_of_le hl, List.take_append_of_le_length hl,
          List.drop_append_of_le_length hl] using hb
      simpa [withField, takeField, hl] using (h _).before _ _ hk
    · simp [withField, takeField, hl]

theorem AsksFor.version {m : Nat} {k : List Bool → Decoded} (h : AsksFor m k) :
    AsksFor (8 + m) fun bits => withVersion bits k :=
  .field fun v => by
    by_cases hv : v = formatVersion
    · simpa [hv] using h
    · simpa [hv] using AsksFor.nothing (m := m) (k := fun _ => .reject .badVersion) nofun

/-- A decoder that reads one bit and then goes on by it. -/
theorem AsksFor.flag {m : Nat} {k f g : List Bool → Decoded} (hf : AsksFor m f) (hg : AsksFor m g)
    (h0 : k [] = .more) (hkf : ∀ r, k (false :: r) = f r) (hkg : ∀ r, k (true :: r) = g r) : AsksFor (1 + m) k where
  short bits hb := by
    match bits with
    | [] => simp
    | false :: r => have := hf.short r (hkf r ▸ hb); simp; omega
    | true :: r => have := hg.short r (hkg r ▸ hb); simp; omega
  before a b hb := by
    match a with
    | [] => exact h0
    | false :: r => exact (hkf r).trans (hf.before r b ((hkf _).symm.trans hb))
    | true :: r => exact (hkg r).trans (hg.before r b ((hkg _).symm.trans hb))

theorem instr_asksForNothing {m : Nat} (i : Instr) : AsksFor m fun r => .instr i r := .nothing nofun

theorem lzHeader_asksFor (mk : BitVec 5 → BitVec 5 → Instr) : AsksFor 18 (decodeLzHeader mk) :=
  .version (.field (n := 5) fun _ => .field (n := 5) (m := 0) fun _ => instr_asksForNothing _)

/-- No context asks for more than its longest token (R140). -/
theorem decodeBits_asksFor (c : Ctx) : AsksFor c.maxBits (decodeBits c) := by
  have byteField (mk : Byte → Instr) : AsksFor 8 fun bits =>
      withField 8 bits fun b r => .instr (mk (BitVec.ofNat 8 b)) r :=
    .field fun _ => instr_asksForNothing (m := 0) _
  cases c with
  | command =>
    refine .field (m := 0) fun v => .nothing fun r => ?_
    split <;> nofun
  | envelope =>
    refine .field (m := 0) fun v => .nothing fun r => ?_
    split <;> nofun
  | hufHeader => exact .version (.field (n := 32) (m := 0) fun _ => instr_asksForNothing _)
  | tree =>
    exact .flag (instr_asksForNothing _) (byteField .hufTreeLeaf) rfl (fun _ => rfl) fun _ => rfl
  | code =>
    exact .flag (m := 0) (instr_asksForNothing (.hufCode [false])) (instr_asksForNothing (.hufCode [true])) rfl
      (fun _ => rfl) fun _ => rfl
  | lzHeader a => cases a <;> exact lzHeader_asksFor _
  | block width =>
    exact .flag (instr_asksForNothing .blockFull)
      (.field (m := 0) fun n => instr_asksForNothing (.blockShort n)) rfl (fun _ => rfl) fun _ => rfl
  | lz77Record l s =>
    have hmatch : AsksFor (l + (s + 8)) fun bits => withField l bits fun len r1 =>
        withField s r1 fun pos r2 => withField 8 r2 fun b r3 => .instr (.lz77Match len pos (BitVec.ofNat 8 b)) r3 :=
      .field fun len => .field fun pos => byteField (.lz77Match len pos)
    exact (AsksFor.flag ((byteField .lz77Literal).mono (by omega)) hmatch rfl (fun _ => rfl) fun _ => rfl).mono
      (by simp only [Ctx.maxBits]; omega)
  | lz78Record d =>
    have hphrase : AsksFor (d + 8) fun bits => withField d bits fun index r1 =>
        withField 8 r1 fun b r2 => .instr (.lz78Phrase index (BitVec.ofNat 8 b)) r2 :=
      .field fun index => byteField (.lz78Phrase index)
    exact (AsksFor.flag ((byteField .lz78Literal).mono (by omega)) hphrase rfl (fun _ => rfl) fun _ => rfl).mono
      (by simp only [Ctx.maxBits]; omega)
  | lzwRecord d => exact .field (m := 0) fun index => instr_asksForNothing (.lzwIndex index)

/-! ## Checked reads at the end of the input -/

/-- The error of terminal item `t` at a bit where End is the error `e` (60_exceptions.md R513). -/
def Terminal.error (t : Terminal) (e : ErrorCode) : ErrorCode :=
  match t with
  | .ended => e
  | .failed => .streamError

theorem readBit_meets {u : Units} {t : Terminal} (h : u.meets t) (e : ErrorCode) :
    (readBit e).on u = .error (.raise (t.error e)) (u.stopped t) := by
  obtain ⟨heof, herr⟩ := (Src.good_iff u.src).1 h.1
  rw [readBit, M.run_bind_ok (srcGetBit_meets h), M.run_look_bind]
  cases t <;> simp [Units.stopped, Src.stopped, Terminal.error, herr]

/-- A source that failed before fails at once, StreamError first (R513). -/
theorem readBit_err {u : Units} (h : u.src.err = true) (e : ErrorCode) :
    (readBit e).on u = .error (.raise .streamError) u := by
  have hg : u.src.good = false := by simp [Src.good, h]
  rw [readBit, M.run_bind_ok (srcGetBit_not_good hg), M.run_look_bind]
  simp [h]

theorem readBit_eof {u : Units} (herr : u.src.err = false) (heof : u.src.eof = true) (e : ErrorCode) :
    (readBit e).on u = .error (.raise e) u := by
  have hg : u.src.good = false := by simp [Src.good, heof]
  rw [readBit, M.run_bind_ok (srcGetBit_not_good hg), M.run_look_bind]
  simp [herr, heof]

theorem readBit_stopsWith (e : ErrorCode) (t : Terminal) :
    Keeps (fun u v => u.inp.stopsWith t → v.inp.stopsWith t) (readBit e) :=
  have chains := implies_chains fun u : Units => u.inp.stopsWith t
  .bind chains (srcGetBit_stopsWith t) fun _ => .bind chains (.look chains _) fun _ =>
    .ite (.raise chains _) (.ite (.raise chains _) (.pure chains _))

/-! ## Fetches that end the command -/

/-- Inside a token End is an UnexpectedEof (R208). -/
theorem eofError_inside {c : Ctx} {bits : List Bool} (h : bits ≠ []) : eofError c bits = .unexpectedEof := by
  unfold eofError
  split
  · exact absurd rfl h
  · rfl

/-- A fetch whose bits are the beginning of a token only reads them all and then meets the end. -/
theorem fetchBits_ends {p : Phase} {c : Ctx} {t : Terminal} {more bits : List Bool} {fuel : Nat} {u : Units}
    (hg : u.readable) (hp : u.pendingBits = more) (ht : u.inp.stopsWith t) (hne : bits ++ more ≠ [])
    (hd : decodeBits c (bits ++ more) = .more) (hf : more.length < fuel) :
    ∃ v, SameBut [.src, .inp] u v ∧
      (fetchBits p c fuel bits).on u = .error (.raise (t.error .unexpectedEof)) v := by
  obtain ⟨fuel, rfl⟩ : ∃ n, fuel = n + 1 := ⟨fuel - 1, by omega⟩
  induction more generalizing u bits fuel with
  | nil =>
    have hread := readBit_meets (meets_of_stopsWith hg hp ht) (eofError c bits)
    rw [eofError_inside (by simpa using hne)] at hread
    refine ⟨u.stopped t, stopped_sameBut u t, M.run_bind_error ?_⟩
    rw [eofError_inside (by simpa using hne)]
    exact hread
  | cons b more ih =>
    obtain ⟨v, hv, hr, hvp, -⟩ := readBit_pending (eofError c bits) hg hp
    have hvt : v.inp.stopsWith t := by
      have := (readBit_stopsWith (eofError c bits) t).on u ht
      rwa [hv] at this
    have hassoc : bits ++ b :: more = (bits ++ [b]) ++ more := by simp
    rw [hassoc] at hd
    have hmore : decodeBits c (bits ++ [b]) = .more := (decodeBits_asksFor c).before _ _ hd
    obtain ⟨fuel, rfl⟩ : ∃ n, fuel = n + 1 := ⟨fuel - 1, by simp at hf; omega⟩
    obtain ⟨w, hw, hon⟩ := ih hr.2.1 hvp hvt (by simp) hd fuel (by simp at hf; omega)
    refine ⟨w, (SameBut.chains _).trans (readTo_sameBut hr) hw, ?_⟩
    rw [fetchBits, M.run_bind_ok hv, hmore]
    exact hon

/-- A fetch that fails ends the command. -/
theorem step_fetch_fails {s : State} {c : Ctx} {e : ErrorCode} {v : Units} (hs : s.reads c)
    (hf : (fetchToken s.phase c).on s.origin = .error (.raise e) v) : step s = .next (s.turned.failed e v) := by
  obtain ⟨hturn, hb, hn, hc⟩ := hs
  have hrule : (fetchRule s.phase c).on s.origin = .error (.raise e) v := M.run_bind_error hf
  rw [step_core hturn, turnWork_reading (s := s.turned) hb hn hc, State.resumed_turned]
  simp only [fetchWork, State.resuming_phase, State.resuming_units, hf, stretchWork, Work.outcome, runStretch_eq, hrule]
  rfl

/-- A fetch whose first bit cannot be read ends the command. -/
theorem step_first_bit_fails {s : State} {c : Ctx} {e : ErrorCode} {v : Units} (hs : s.reads c) (hc : 0 < c.maxBits)
    (hf : (readBit (eofError c [])).on s.origin = .error (.raise e) v) : step s = .next (s.turned.failed e v) := by
  refine step_fetch_fails hs ?_
  obtain ⟨n, hn⟩ : ∃ n, c.maxBits = n + 1 := ⟨c.maxBits - 1, by omega⟩
  rw [fetchToken, hn, fetchBits]
  exact M.run_bind_error hf

/-- Settles O4: the first bit that is missing ends the fetch with the error of its place. -/
theorem fetchFailsAtTheEndOfInput : Obligations.FetchFailsAtTheEndOfInput := by
  intro s c hs hc atStart
  have hstart : eofError c [] = atStart := by cases c <;> rfl
  have first {e : ErrorCode} {v : Units} (h : (readBit atStart).on s.origin = .error (.raise e) v) :
      step s = .next (s.turned.failed e v) := step_first_bit_fails hs hc (hstart ▸ h)
  refine ⟨fun hm => ⟨_, stopped_sameBut _ .ended, rfl, first (readBit_meets hm _)⟩,
    fun hm => ⟨_, stopped_sameBut _ .failed, rfl, first (readBit_meets hm _)⟩,
    fun herr => first (readBit_err herr _), fun herr heof => first (readBit_eof herr heof _),
    fun t hg hne hd ht => ?_⟩
  have hlt := (decodeBits_asksFor c).short _ hd
  obtain ⟨v, hv, hon⟩ := fetchBits_ends (p := s.phase) (bits := []) hg rfl ht hne hd hlt
  have hstep := step_fetch_fails hs hon
  exact ⟨v, hv, by cases t <;> exact hstep⟩

end Sys2Proof.Machine

namespace Sys2Proof.Machine

/-! # The turns of the encoders (assumption 2) -/

/-- A phase with a stretch of its own reads no token. -/
theorem readCtx_of_stretchOf {cfg : Params} {p : Phase} {m : M Next} (h : stretchOf cfg p = some m) (u : Units) :
    readCtx p u = none := by
  unfold stretchOf at h
  split at h <;> cases h <;> rfl

section turns

variable {s : State} {p q : Phase} {m : M Next} {u : Units} {e : ErrorCode}

/-- At its turn the sequencer runs the stretch of the encoder's phase. -/
theorem step_stretch (h : s.encodes p) (hm : stretchOf s.cfg p = some m) :
    step s = runStretch m (s.resuming s.origin) := by
  obtain ⟨hturn, hb, hn, rfl⟩ := h
  rw [step_core hturn, turnWork_stretch (s := s.turned) hb hn (readCtx_of_stretchOf hm _) hm]
  rfl

theorem step_stretch_goes (h : s.encodes p) (hm : stretchOf s.cfg p = some m) (ho : m.on s.origin = .ok (.goto q) u) :
    step s = .next (s.turned.goesOn q u) := by
  rw [step_stretch h hm, runStretch_eq, State.resuming_units, ho]
  rfl

theorem step_stretch_completes (h : s.encodes p) (hm : stretchOf s.cfg p = some m)
    (ho : m.on s.origin = .ok .complete u) : step s = .next (s.turned.completed u) := by
  rw [step_stretch h hm, runStretch_eq, State.resuming_units, ho]
  rfl

theorem step_stretch_fails (h : s.encodes p) (hm : stretchOf s.cfg p = some m)
    (ho : m.on s.origin = .error (.raise e) u) : step s = .next (s.turned.failed e u) := by
  rw [step_stretch h hm, runStretch_eq, State.resuming_units, ho]
  rfl

/-- A stretch that ends in one of two ways. -/
theorem step_stretch_ite {c : Prop} [Decidable c] {x y : EStateM.Result Stop Units Next} (h : s.encodes p)
    (hm : stretchOf s.cfg p = some m) (ho : m.on s.origin = if c then x else y) :
    ∃ n, step s = .next (if c then (s.resuming s.origin).afterStretch none n x
      else (s.resuming s.origin).afterStretch none n y) := by
  rw [step_stretch h hm, runStretch_eq, State.resuming_units, ho, State.resuming_current, h.2.2.1]
  exact ⟨_, by split <;> rfl⟩

end turns

/-! # The Huffman encoder (42_huffman.md R310 to R314) -/

/-- Counting a byte fails only where the total is at its end (R262). -/
theorem freqAdd_on (b : Byte) (u : Units) :
    (freqAdd b).on u = if u.huf.total = 0xFFFFFFFF then .error (.raise .capacityExceeded) u
      else .ok () { u with huf := u.huf.counted b } := by
  rw [freqAdd, M.run_look_bind]
  split <;> rfl

theorem hasPayload_iff (cfg : Params) (k : Nat) :
    hasPayload cfg k = true ↔ 2 ≤ k ∨ (k = 1 ∧ cfg.hufSingle = .oneBit) := by
  simp [hasPayload]

theorem hufCount_byte {u : Units} {b : Byte} (h : u.offers (.byte b)) (magic : Bool) :
    (hufCount magic).on u = if u.huf.total = 0xFFFFFFFF
      then .error (.raise .capacityExceeded) (u.took (.byte b))
      else .ok (.goto (.hufCount magic)) { u.took (.byte b) with huf := u.huf.counted b } := by
  rw [hufCount, M.run_bind_ok (takeByte_byte h)]
  dsimp only
  rw [M.run_bind, freqAdd_on, Units.took_huf]
  by_cases ht : u.huf.total = 0xFFFFFFFF
  · rw [if_pos ht, if_pos ht]
  · rw [if_neg ht, if_neg ht]
    rfl

/-- What stands between the passes: the magic where asked for, the header and the serialized tree. -/
def hufHeadBits (h : Huf) (magic : Bool) : List Bool :=
  magicBits .huf magic ++ bitsOf 8 0x01 ++ bitsOf 32 h.total.toNat ++ h.serialized

theorem serialize_writable {u : Units} (h : u.writable) : serialize.on u = .ok () (u.wrote u.huf.serialized) :=
  writeBits_writable h _

theorem hufHead_writable {u : Units} (h : u.writable) (cfg : Params) (magic : Bool) :
    (hufHead cfg magic).on u =
      let v := ({ u with huf := u.huf.built } : Units).wrote (hufHeadBits u.huf.built magic)
      if 2 ≤ u.huf.built.distinct ∨ (u.huf.built.distinct = 1 ∧ cfg.hufSingle = .oneBit)
      then .ok (.goto (.hufPass 0)) { v with inp := v.inp.rewound }
      else .ok (.goto .encFlush) v := by
  have hb : ({ u with huf := u.huf.built } : Units).writable := h
  have hm := Units.wrote_writable hb (magicBits .huf magic)
  have hh := Units.wrote_writable hm (encode .hufHeader (.hufHeader u.huf.built.total))
  rw [hufHead, M.run_bind_ok (run_hufBuild u)]
  refine (magic_then hb .huf magic _).trans ?_
  rw [M.run_look_bind]
  refine (M.run_bind_ok (writeToken_writable hm _ _)).trans ?_
  refine (M.run_bind_ok (serialize_writable hh)).trans ?_
  have hbits : ((({ u with huf := u.huf.built } : Units).wrote (magicBits .huf magic)).wrote
      (encode .hufHeader (.hufHeader u.huf.built.total))).wrote u.huf.built.serialized =
        ({ u with huf := u.huf.built } : Units).wrote (hufHeadBits u.huf.built magic) := by
    rw [Units.wrote_wrote, Units.wrote_wrote]
    simp only [hufHeadBits, encode, formatVersion, List.append_assoc]
  change M.on _ (((({ u with huf := u.huf.built } : Units).wrote (magicBits .huf magic)).wrote
      (encode .hufHeader (.hufHeader u.huf.built.total))).wrote u.huf.built.serialized) = _
  rw [hbits, M.run_look_bind, M.run_ite]
  simp only [hasPayload_iff]
  rfl

theorem hufPass_byte {u : Units} {b : Byte} (h : u.offers (.byte b)) (hw : u.writable) (count : Nat) :
    (hufPass count).on u = if count = u.huf.total.toNat ∨ u.huf.codeOf b = []
      then .error (.raise .streamError) (u.took (.byte b))
      else .ok (.goto (.hufPass (count + 1))) ((u.took (.byte b)).wrote (u.huf.codeOf b)) := by
  have hw' : (u.took (.byte b)).writable := hw
  have hput : (putCode b).on (u.took (.byte b)) = .ok () ((u.took (.byte b)).wrote (u.huf.codeOf b)) :=
    writeBits_writable hw' _
  rw [hufPass, M.run_bind_ok (takeByte_byte h), M.run_look_bind]
  dsimp only
  rw [M.run_look_bind, M.run_ite, M.run_bind_ok hput]
  rfl

theorem hufPass_ended {u : Units} (h : u.offers (.stop .ended)) (count : Nat) :
    (hufPass count).on u = if count = u.huf.total.toNat
      then .ok (.goto .encFlush) (u.took (.stop .ended))
      else .error (.raise .streamError) (u.took (.stop .ended)) := by
  rw [hufPass, M.run_bind_ok (takeByte_ended h), M.run_look_bind]
  dsimp only
  rw [M.run_ite]
  rfl

/-- Settles O45: each stretch by what it does with the item it takes or the sink it writes to. -/
theorem huffmanEncoderMakesTwoPasses : Obligations.HuffmanEncoderMakesTwoPasses := by
  refine fun s => ⟨fun item magic h ho => ?_, fun magic h hw => ?_, fun item count h ho hw => ?_⟩
  · match item with
    | .byte b =>
      obtain ⟨_, hstep⟩ := step_stretch_ite h rfl (hufCount_byte ho magic)
      exact hstep
    | .stop .ended => exact step_stretch_goes h rfl (M.run_bind_ok (takeByte_ended ho))
    | .stop .failed => exact step_stretch_fails h rfl (M.run_bind_error (takeByte_failed ho))
  · obtain ⟨_, hstep⟩ := step_stretch_ite h rfl (hufHead_writable hw s.cfg magic)
    exact hstep
  · match item with
    | .byte b =>
      obtain ⟨_, hstep⟩ := step_stretch_ite h rfl (hufPass_byte ho hw count)
      exact hstep
    | .stop .ended =>
      obtain ⟨_, hstep⟩ := step_stretch_ite h rfl (hufPass_ended ho count)
      exact hstep
    | .stop .failed => exact step_stretch_fails h rfl (M.run_bind_error (takeByte_failed ho))

end Sys2Proof.Machine

namespace Sys2Proof.Machine

/-! # The LZ77 encoder (43_lz77.md R335 to R339) -/

/-- The token that opens a block, as bits (30_encoding.md R131). -/
theorem encode_blockToken (width size cnt : Nat) :
    encode (.block width) (blockToken size cnt) = if cnt = size then [false] else true :: bitsOf width cnt := by
  unfold blockToken
  split <;> rfl

/-- The record of a match, as bits (R338). -/
theorem encode_recordToken (z : Lz77) (m : Nat × Nat) :
    encode (.lz77Record z.lb.toNat z.sb.toNat) (z.recordToken m) =
      if m.1 = 0 then false :: byteBits (z.winAt (z.ls + m.1))
      else true :: (bitsOf z.lb.toNat m.1 ++ bitsOf z.sb.toNat m.2 ++ byteBits (z.winAt (z.ls + m.1))) := by
  unfold Lz77.recordToken
  dsimp only
  split <;> rfl

/-- The window where the next byte of the block is read: the first one goes to `LS` (R335). -/
def Lz77.readingAt (z : Lz77) (cnt : Nat) : Lz77 := { z with le := if cnt = 0 then z.ls else z.le }

/-- The window after byte `b` of the block has been stored at `LE`. -/
def Lz77.stored (z : Lz77) (b : Byte) : Lz77 := { z.winSet z.le b with le := (z.le + 1) % z.windowSize }

/-- One item of the block, once `LE` stands where it goes. -/
def lz77Take (cnt : Nat) : M Next := do
  let z ← look (·.lz77)
  if cnt < z.lookaheadSize then do
    match ← takeByte with
    | none => pure (.goto (.lz77Flag cnt))
    | some b => do
      updLz77 fun z => z.stored b
      pure (.goto (.lz77Read (cnt + 1)))
  else pure (.goto (.lz77Flag cnt))

/-- Reading a block begins at `LS` and takes its items one by one. -/
theorem lz77Read_on (cnt : Nat) (u : Units) :
    (lz77Read cnt).on u = (lz77Take cnt).on { u with lz77 := u.lz77.readingAt cnt } := by
  unfold lz77Read Lz77.readingAt
  by_cases h0 : cnt = 0
  · simp only [if_pos h0]
    exact M.run_bind_ok (run_updLz77 _ _)
  · simp only [if_neg h0]
    rfl

theorem lz77Take_full {cnt : Nat} {u : Units} (h : u.lz77.lookaheadSize ≤ cnt) :
    (lz77Take cnt).on u = .ok (.goto (.lz77Flag cnt)) u := by
  rw [lz77Take, M.run_look_bind, if_neg (Nat.not_lt.2 h)]
  rfl

/-- Where the block has room, what follows is what the input gives. -/
theorem lz77Take_on {cnt : Nat} {u : Units} (h : cnt < u.lz77.lookaheadSize) : (lz77Take cnt).on u =
    match takeByte.on u with
    | .ok none w => .ok (.goto (.lz77Flag cnt)) w
    | .ok (some b) w => .ok (.goto (.lz77Read (cnt + 1))) { w with lz77 := w.lz77.stored b }
    | .error e w => .error e w := by
  rw [lz77Take, M.run_look_bind, if_pos h, M.run_bind]
  rcases takeByte.on u with ⟨_ | b, w⟩ | ⟨e, w⟩ <;> rfl

theorem lz77Flag_writable {u : Units} (h : u.writable) (cnt : Nat) :
    (lz77Flag cnt).on u = .ok (.goto (if cnt = 0 then .encFlush else .lz77Emit))
      { u.wrote (if cnt = u.lz77.lookaheadSize then [false] else true :: bitsOf u.lz77.lb.toNat cnt) with
        lz77 := { u.lz77 with rem := cnt } } := by
  rw [lz77Flag, M.run_look_bind, M.run_bind_ok (writeToken_writable h _ _), encode_blockToken]
  refine (M.run_bind_ok (run_updLz77 _ _)).trans ?_
  by_cases h0 : cnt = 0
  · simp only [if_pos h0]; rfl
  · simp only [if_neg h0]; rfl

theorem lz77Emit_writable {u : Units} (h : u.writable) (hr : u.lz77.rem ≠ 0) :
    lz77Emit.on u = .ok (.goto .lz77Emit)
      { u.wrote (encode (.lz77Record u.lz77.lb.toNat u.lz77.sb.toNat) (u.lz77.recordToken u.lz77.reducedMatch)) with
        lz77 := u.lz77.searched.advanced u.lz77.reducedMatch.1 } := by
  have hs : ({ u with lz77 := u.lz77.searched } : Units).writable := h
  rw [lz77Emit, M.run_look_bind, if_neg hr, M.run_bind_ok (run_updLz77 _ _),
    M.run_bind_ok (writeToken_writable hs _ _)]
  rfl

theorem flushedBits_good {u : Units} (h : u.writable) : u.flushedBits.snk.good = true := by
  unfold Units.flushedBits
  split
  · exact h.1
  · rfl

/-- The final flush of an encoder (41_bitsink.md R240). -/
theorem finishEncode_writable {u : Units} (h : u.writable) : finishEncode.on u = .ok .complete u.flushedBits := by
  rw [finishEncode, M.run_bind_ok (snkFlush_writable h), M.run_look_bind, if_pos (flushedBits_good h)]
  rfl

/-- Settles O51: each stretch by what it does with the item it takes or the sink it writes to. -/
theorem lz77EncoderCodesTheBlock : Obligations.Lz77EncoderCodesTheBlock := by
  refine fun s cnt => ⟨fun item h hlt ho => ?_, fun h hge => ?_, fun h hw => ?_, fun h hr => ?_, fun h hr hw => ?_,
    fun h hw => ?_⟩
  · have ho' : ({ s.origin with lz77 := s.origin.lz77.readingAt cnt } : Units).offers item := ho
    have hon := (lz77Read_on cnt s.origin).trans (lz77Take_on hlt)
    match item with
    | .byte b =>
      rw [takeByte_byte ho'] at hon
      exact step_stretch_goes h rfl hon
    | .stop .ended =>
      rw [takeByte_ended ho'] at hon
      exact step_stretch_goes h rfl hon
    | .stop .failed =>
      rw [takeByte_failed ho'] at hon
      exact step_stretch_fails h rfl hon
  · exact step_stretch_goes h rfl ((lz77Read_on cnt s.origin).trans (lz77Take_full hge))
  · exact step_stretch_goes h rfl (lz77Flag_writable hw cnt)
  · exact step_stretch_goes h rfl (by rw [lz77Emit, M.run_look_bind, if_pos hr]; rfl)
  · have hon := lz77Emit_writable hw hr
    rw [encode_recordToken] at hon
    exact step_stretch_goes h rfl hon
  · exact step_stretch_completes h rfl (finishEncode_writable hw)

/-! # The block encoders of LZ78 and LZW (44_lz78.md R374, R378, 45_lzw.md R402) -/

theorem dictRead_on (a : DictAlg) (u : Units) : (dictRead a).on u =
    if u.dz.cnt < u.dz.blockSize then
      match takeByte.on u with
      | .ok none w => .ok (.goto (.dictFlag a)) w
      | .ok (some b) w => .ok (.goto (.dictRead a))
          { w with dz := { w.dz with blk := Memory.write w.dz.blk w.dz.cnt b, cnt := w.dz.cnt + 1 } }
      | .error e w => .error e w
    else .ok (.goto (.dictFlag a)) u := by
  rw [dictRead, M.run_look_bind, M.run_ite, M.run_bind]
  rcases takeByte.on u with ⟨_ | b, w⟩ | ⟨e, w⟩ <;> rfl

theorem dictFlag_writable {u : Units} (h : u.writable) (a : DictAlg) :
    (dictFlag a).on u = .ok (.goto (if u.dz.cnt = 0 then .encFlush else .dictEmit a))
      { u.wrote (if u.dz.cnt = u.dz.blockSize then [false] else true :: bitsOf u.dz.bb.toNat u.dz.cnt) with
        dz := { u.dz with i := 0 }
        lzw := if a = .lzw then { u.lzw with w := none } else u.lzw } := by
  have htoken : encode (.block u.dz.bb.toNat) (if u.dz.cnt = u.dz.blockSize then .blockFull else .blockShort u.dz.cnt) =
      if u.dz.cnt = u.dz.blockSize then [false] else true :: bitsOf u.dz.bb.toNat u.dz.cnt := encode_blockToken ..
  rw [dictFlag, M.run_look_bind, M.run_bind_ok (writeToken_writable h _ _), htoken, M.run_upd_bind, M.run_ite]
  by_cases h0 : u.dz.cnt = 0
  · simp only [if_pos h0]
    cases a <;> rfl
  · simp only [if_neg h0]
    cases a <;> rfl

/-- Settles O56: each stretch by what it does with the item it takes or the sink it writes to. -/
theorem dictionaryEncodersReadBlocks : Obligations.DictionaryEncodersReadBlocks := by
  refine fun s a => ⟨fun item h hlt ho => ?_, fun h hge => ?_, fun h hw => ?_, fun h hge => ?_⟩
  · have hon := dictRead_on a s.origin
    rw [if_pos hlt] at hon
    match item with
    | .byte b =>
      rw [takeByte_byte ho] at hon
      exact step_stretch_goes h rfl hon
    | .stop .ended =>
      rw [takeByte_ended ho] at hon
      exact step_stretch_goes h rfl hon
    | .stop .failed =>
      rw [takeByte_failed ho] at hon
      exact step_stretch_fails h rfl hon
  · have hon := dictRead_on a s.origin
    rw [if_neg (Nat.not_lt.2 hge)] at hon
    exact step_stretch_goes h rfl hon
  · exact step_stretch_goes h rfl (dictFlag_writable hw a)
  · exact step_stretch_goes h rfl (by rw [lz78Emit, M.run_look_bind, if_neg (Nat.not_lt.2 hge)]; rfl)

end Sys2Proof.Machine

namespace Sys2Proof.Machine

/-! # A consumer that refuses a byte (20_memory.md R97, R118) -/

theorem refused_eq (u : Units) : u.refused [] = { u with out := { u.out with answers := u.out.answers.drop 1 } } := by
  simp [Units.refused]

/-- Everything `OutWrite` can do, by the consumer's answer to the next byte. -/
theorem outWrite_on (b : Byte) (u : Units) : (outWrite b).on u = match u.out.answerTo 0 with
    | some .ok => .ok true (u.emitted [b])
    | some .fail => .ok false (u.refused [])
    | none => .error .wait u := by
  obtain ⟨_, _, _, _, _, _, _, _, _, _, ⟨events, answers, habit⟩⟩ := u
  rw [outWrite, run_act]
  rcases answers with _ | ⟨_ | _, rest⟩
  · rcases habit with _ | _ | _ <;> simp [OutPort.answerTo, Units.emitted, Units.refused, OutPort.happens]
  · simp [OutPort.answerTo, Units.emitted, OutPort.happens]
  · simp [OutPort.answerTo, Units.refused]

theorem answerTo_emitted (u : Units) (bytes : List Byte) (n : Nat) :
    (u.emitted bytes).out.answerTo n = u.out.answerTo (bytes.length + n) := by
  simp [OutPort.answerTo, List.getElem?_drop]

theorem answerTo_refuses {p : OutPort} (h : p.refuses) : p.answerTo 0 = some .fail := by
  rcases h with h | ⟨ha, hh⟩
  · simp [OutPort.answerTo, ← List.head?_eq_getElem?, h]
  · simp [OutPort.answerTo, ha, hh]

/-- Bytes that come before the refused one are accepted. -/
theorem refusesAt_emitted {u : Units} {k : Nat} (h : u.out.refusesAt k) {bytes : List Byte} (hk : bytes.length ≤ k) :
    (u.emitted bytes).out.refusesAt (k - bytes.length) := by
  refine ⟨fun j hj => ?_, ?_⟩ <;> rw [answerTo_emitted]
  · exact h.1 _ (by omega)
  · rw [Nat.add_sub_cancel' hk]
    exact h.2

theorem refused_emitted (u : Units) (a b : List Byte) : (u.emitted a).refused b = u.refused (a ++ b) := by
  simp [Units.emitted, Units.refused, List.drop_drop, Nat.add_assoc]

theorem emitByte_accepted {u : Units} (h : u.out.answerTo 0 = some .ok) (b : Byte) :
    (emitByte b).on u = .ok () (u.emitted [b]) := by
  rw [emitByte, M.run_bind, outWrite_on, h]
  rfl

theorem emitByte_refused {u : Units} (h : u.out.answerTo 0 = some .fail) (b : Byte) :
    (emitByte b).on u = .error (.raise .streamError) (u.refused []) := by
  rw [emitByte, M.run_bind, outWrite_on, h]
  rfl

/-- Of a phrase that is refused after `k` bytes those have been sent. -/
theorem emitBytes_refused {bytes : List Byte} {u : Units} {k : Nat} (h : u.out.refusesAt k) (hk : k < bytes.length) :
    (emitBytes bytes).on u = .error (.raise .streamError) (u.refused (bytes.take k)) := by
  induction bytes generalizing u k with
  | nil => exact absurd hk (Nat.not_lt_zero k)
  | cons b bytes ih =>
    cases k with
    | zero => exact M.run_bind_error (emitByte_refused h.2 b)
    | succ k =>
      rw [emitBytes, M.run_bind_ok (emitByte_accepted (h.1 0 (Nat.succ_pos k)) b),
        ih (refusesAt_emitted h (bytes := [b]) (by simp)) (Nat.lt_of_succ_lt_succ hk), refused_emitted]
      rfl

/-! ## The BitSink before a consumer that refuses (41_bitsink.md R232, R239, R240) -/

/-- The empty BitSink that has failed. -/
def Snk.failed : Snk := { acc := 0, pos := 7, good := false }

/-- Everything an emission can do, by the consumer's answer to the next byte (R232). -/
theorem snkEmit_on (u : Units) : snkEmit.on u = match u.out.answerTo 0 with
    | some .ok => .ok () { u.emitted [u.snk.acc] with snk := { u.snk with acc := 0, pos := 7 } }
    | some .fail => .ok () { u.refused [] with snk := Snk.failed }
    | none => .error .wait u := by
  rw [snkEmit, M.run_look_bind, M.run_bind, outWrite_on]
  rcases u.out.answerTo 0 with _ | _ | _ <;> rfl

/-- A bit in a good sink: the eighth sends the byte (R233). -/
theorem snkPutBit_on {u : Units} (hg : u.snk.good = true) (b : Bool) : (snkPutBit b).on u =
    let acc := setBit u.snk.acc u.snk.pos.val b
    if u.snk.pos = 0 then snkEmit.on { u with snk := { u.snk with acc := acc } }
    else .ok () { u with snk := { u.snk with acc := acc, pos := u.snk.pos - 1 } } := by
  rw [snkPutBit, M.run_look_bind, if_pos hg, M.run_upd_bind, M.run_ite]
  rfl

/-- One more bit joins those held. -/
theorem wrote_bit {u : Units} (hg : u.snk.good = true) (hw : u.snk.wf) (b : Bool) :
    u.wrote [b] =
      if u.snk.pos = 0 then { u.emitted [setBit u.snk.acc u.snk.pos.val b] with snk := Snk.initial }
      else { u with snk := { u.snk with acc := setBit u.snk.acc u.snk.pos.val b, pos := u.snk.pos - 1 } } := by
  let v : Units := { u with out := { events := [], answers := [], habit := some .ok } }
  have hon : (snkPutBit b).on v = .ok () (v.wrote [b]) := snkPutBit_writable (u := v) ⟨hg, hw, by simp [v], rfl⟩ b
  have hsnk : (v.wrote [b]).snk = Snk.holding (packRest (u.snk.held ++ [b])) := rfl
  have hevents : (v.wrote [b]).out.events = (packFull (u.snk.held ++ [b])).map OutEvent.byte := List.nil_append _
  rw [snkPutBit_on (u := v) hg] at hon
  unfold Units.wrote
  by_cases hp : u.snk.pos = 0
  · simp only [v, if_pos hp, snkEmit_on, OutPort.answerTo] at hon
    rw [← (EStateM.Result.ok.inj hon).2] at hsnk hevents
    have hfull : packFull (u.snk.held ++ [b]) = [setBit u.snk.acc u.snk.pos.val b] := by
      simpa [List.map_eq_singleton_iff] using hevents.symm
    rw [if_pos hp, hfull, ← hsnk, Snk.initial, hg]
  · simp only [v, if_neg hp] at hon
    rw [← (EStateM.Result.ok.inj hon).2] at hsnk hevents
    rw [if_neg hp, List.map_eq_nil_iff.1 hevents.symm, Units.emitted_nil, ← hsnk]

/-- A bit goes through where it completes no byte or the byte is accepted. -/
theorem snkPutBit_accepted {u : Units} (hg : u.snk.good = true) (hw : u.snk.wf) (b : Bool)
    (h : u.snk.pos = 0 → u.out.answerTo 0 = some .ok) : (snkPutBit b).on u = .ok () (u.wrote [b]) := by
  rw [snkPutBit_on hg, wrote_bit hg hw]
  by_cases hp : u.snk.pos = 0
  · simp only [if_pos hp, snkEmit_on, h hp, hg, Snk.initial]
    rfl
  · simp only [if_neg hp]

/-- The byte that is refused empties the accumulator and clears SNK_GOOD. -/
theorem snkPutBit_refused {u : Units} (hg : u.snk.good = true) (hp : u.snk.pos = 0) (b : Bool)
    (h : u.out.answerTo 0 = some .fail) : (snkPutBit b).on u = .ok () { u.refused [] with snk := Snk.failed } := by
  rw [snkPutBit_on hg]
  simp only [if_pos hp, snkEmit_on, h]
  rfl

/-! ## Checked writes that are refused in their middle (R240) -/

/-- A bit completes a byte exactly where the cursor is at 0. -/
theorem packFull_bit_length {u : Units} (hg : u.snk.good = true) (hw : u.snk.wf) (b : Bool) :
    (packFull (u.snk.held ++ [b])).length = if u.snk.pos = 0 then 1 else 0 := by
  have h := congrArg (fun v : Units => v.out.events.length) (wrote_bit hg hw b)
  by_cases hp : u.snk.pos = 0
  · simpa [Units.wrote, hp] using h
  · simpa [Units.wrote, hp] using h

/-- A write that is cut after `k` bytes, some of which come before its second part. -/
theorem wrote_cut (u : Units) {a : List Bool} (b : List Bool) {k : Nat}
    (hk : (packFull (u.snk.held ++ a)).length ≤ k) :
    (u.wrote a).cut b (k - (packFull (u.snk.held ++ a)).length) = u.cut (a ++ b) k := by
  have hh : (u.wrote a).snk.held = packRest (u.snk.held ++ a) := held_holding _ (packRest_length _)
  have hfull := packFull_append (u.snk.held ++ a) b
  rw [List.append_assoc] at hfull
  unfold Units.cut
  rw [hh, hfull, List.take_append, List.take_of_length_le hk, ← refused_emitted]
  rfl

/-- A write that is cut has bits. -/
theorem ne_nil_of_cut {k : Snk} {bits : List Bool} {n : Nat} (h : n < (packFull (k.held ++ bits)).length) :
    bits ≠ [] := by
  rintro rfl
  rw [List.append_nil, packFull_short (by rw [held_length]; omega)] at h
  exact absurd h (Nat.not_lt_zero n)

/-- Bits of which the consumer refuses a byte: those before it have been sent, those after it are ignored. -/
theorem snkPutBits_cut {bits : List Bool} {u : Units} {k : Nat} (hg : u.snk.good = true) (hw : u.snk.wf)
    (h : u.out.refusesAt k) (hk : k < (packFull (u.snk.held ++ bits)).length) :
    (snkPutBits bits).on u = .ok () (u.cut bits k) := by
  induction bits generalizing u k with
  | nil => exact absurd rfl (ne_nil_of_cut hk)
  | cons b bits ih =>
    have hlen := packFull_bit_length hg hw b
    by_cases hsent : (packFull (u.snk.held ++ [b])).length ≤ k
    · have hbit : (snkPutBit b).on u = .ok () (u.wrote [b]) := by
        refine snkPutBit_accepted hg hw b fun hp => h.1 0 ?_
        rw [if_pos hp] at hlen
        omega
      have hfull := packFull_append (u.snk.held ++ [b]) bits
      rw [List.append_assoc, List.singleton_append] at hfull
      rw [hfull, List.length_append] at hk
      have hheld : (u.wrote [b]).snk.held = packRest (u.snk.held ++ [b]) := held_holding _ (packRest_length _)
      rw [snkPutBits, M.run_bind_ok hbit, ih (u := u.wrote [b]) rfl (holding_wf _ (packRest_length _))
        (refusesAt_emitted h hsent) (by rw [hheld]; omega), wrote_cut u bits hsent]
      rfl
    · have hp : u.snk.pos = 0 := by
        by_contra hp
        rw [if_neg hp] at hlen
        omega
      rw [if_pos hp] at hlen
      obtain rfl : k = 0 := by omega
      rw [snkPutBits, M.run_bind_ok (snkPutBit_refused hg hp b h.2), snkPutBits_failed rfl]
      rfl

theorem writeBits_cut {bits : List Bool} {u : Units} {k : Nat} (hg : u.snk.good = true) (hw : u.snk.wf)
    (h : u.out.refusesAt k) (hk : k < (packFull (u.snk.held ++ bits)).length) :
    (writeBits bits).on u = .error (.raise .streamError) (u.cut bits k) := by
  cases bits with
  | nil => exact absurd rfl (ne_nil_of_cut hk)
  | cons b bits =>
    rw [writeBits, M.run_bind_ok (snkPutBits_cut hg hw h hk), M.run_look_bind]
    rfl

end Sys2Proof.Machine

namespace Sys2Proof.Machine

/-! # The bits of a held tree (42_huffman.md R274) -/

theorem serializeNodes_nil (nodes : List Node) (f : Nat) : serializeNodes nodes f [] = [] := by
  cases f <;> rfl

/-- The walk over a held tree writes the tree's bits and goes on with the stack. -/
theorem serializeNodes_heldAt {nodes : List Node} {t : Shape} {i : Nat} (h : t.heldAt nodes i) (f : Nat)
    (stack : List Nat) : serializeNodes nodes (t.size + f) (i :: stack) = t.bits ++ serializeNodes nodes f stack := by
  induction t generalizing i f stack with
  | leaf sym =>
    obtain ⟨w, hi⟩ := h
    rw [Shape.size, Nat.add_comm, serializeNodes, hi]
    rfl
  | node left right ihl ihr =>
    obtain ⟨l, r, w, hi, hl, hr⟩ := h
    have hfuel : (Shape.node left right).size + f = left.size + (right.size + f) + 1 := by
      simp only [Shape.size]
      omega
    rw [hfuel, serializeNodes, hi]
    change false :: serializeNodes nodes (left.size + (right.size + f)) (l :: r :: stack) = _
    rw [ihl hl, ihr hr, ← List.append_assoc]
    rfl

theorem serialized_eq {h : Huf} (ht : h.tree ≠ .empty) :
    h.serialized = serializeNodes h.nodes h.nodes.length [h.root] := by
  unfold Huf.serialized
  cases hk : h.tree with
  | empty => exact absurd hk ht
  | leafRoot | internalRoot => rfl

theorem serialized_heldAt {h : Huf} {t : Shape} (ht : h.tree ≠ .empty) (hr : t.heldAt h.nodes h.root)
    (hs : t.size ≤ h.nodes.length) : h.serialized = t.bits := by
  obtain ⟨f, hf⟩ := Nat.exists_eq_add_of_le hs
  rw [serialized_eq ht, hf, serializeNodes_heldAt hr, serializeNodes_nil, List.append_nil]

/-- A root that is there is written. -/
theorem serialized_ne_nil {h : Huf} {t : Shape} (ht : h.tree ≠ .empty) (hr : t.heldAt h.nodes h.root) :
    h.serialized ≠ [] := by
  obtain ⟨x, hx⟩ : ∃ x, h.nodes[h.root]? = some x := by
    cases t with
    | leaf sym => obtain ⟨w, hw⟩ := hr; exact ⟨_, hw⟩
    | node left right => obtain ⟨l, r, w, hw, -⟩ := hr; exact ⟨_, hw⟩
  obtain ⟨n, hn⟩ : ∃ n, h.nodes.length = n + 1 :=
    Nat.exists_eq_add_one_of_ne_zero (by have := (List.getElem?_eq_some_iff.1 hx).1; omega)
  rw [serialized_eq ht, hn, serializeNodes, hx]
  cases x <;> exact List.cons_ne_nil _ _

/-! # Commands whose checked write ends with StreamError (41_bitsink.md R240) -/

section
variable {s : State} {u v : Units} {e : ErrorCode}

theorem hufPutSym_fails {sym : Byte} (hc : s.units.huf.codeOf sym ≠ [])
    (h : (writeBits (s.units.huf.codeOf sym)).on s.units = .error (.raise e) v) :
    exec (.hufPutSym sym) s = .next (s.failed e v) := by
  refine runCommand_raise ?_
  rw [ruleHufPutSym, M.run_look_bind, if_neg hc]
  exact M.run_bind_error h

theorem hufSerialize_fails (h : (writeBits s.units.huf.serialized).on s.units = .error (.raise e) v) :
    exec .hufSerialize s = .next (s.failed e v) :=
  runCommand_raise (M.run_bind_error h)

theorem encode_magicToken (a : Alg) : encode .envelope a.magicToken = bitsOf 16 a.magic.toNat := by cases a <;> rfl

theorem envPutMagic_fails {a : Alg} (h : (writeBits (bitsOf 16 a.magic.toNat)).on s.units = .error (.raise e) v) :
    exec (.envPutMagic a) s = .next (s.failed e v) := by
  rw [← encode_magicToken] at h
  exact runCommand_raise (M.run_bind_error h)

/-- ENC_BODY with legal parameters fails where its encoder does. -/
theorem encBody_fails {a : Alg} (hf : paramsInFormat a s.config.p1.toNat s.config.p2.toNat = true)
    (hl : paramsInLimits s.cfg a s.config.p1.toNat s.config.p2.toNat = true)
    (he : (encodeWith s.cfg a s.config.p1 s.config.p2 false).on s.units = .error (.raise e) v) :
    exec (.encBody a) s = .next (s.failed e v) := by
  obtain ⟨p, hx, hp⟩ := (EncodesWith.body a).run hf hl
  exact hx.trans (runCommand_raise (hp.trans he))

/-! # A sink that has failed (41_bitsink.md R239) -/

theorem snkPutBit_failed (h : u.snk.good = false) (b : Bool) : (snkPutBit b).on u = .ok () u := by
  simp [snkPutBit, M.run_bind, h]

theorem encode_lzHeader_ne_nil (p1 p2 : BitVec 5) : encodeLzHeader p1 p2 ≠ [] := by
  simp [encodeLzHeader, bitsOf]

theorem writeToken_failed (h : u.snk.good = false) {c : Ctx} {i : Instr} (hb : encode c i ≠ []) :
    (writeToken c i).on u = .error (.raise .streamError) u := writeBits_failed h hb

theorem lz77Encode_failed (h : u.snk.good = false) (p1 p2 : BitVec 5) :
    (lz77Encode p1 p2).on u =
      .error (.raise .streamError) { u with lz77 := { u.lz77 with sb := p1, lb := p2 } } := by
  have hv : ({ u with lz77 := { u.lz77 with sb := p1, lb := p2 } } : Units).snk.good = false := h
  rw [lz77Encode, M.run_bind_ok (run_updLz77 _ _)]
  exact M.run_bind_error (writeToken_failed hv (encode_lzHeader_ne_nil p1 p2))

theorem dictEncode_failed (h : u.snk.good = false) (cfg : Params) (a : DictAlg) (p1 p2 : BitVec 5) :
    (dictEncode cfg a p1 p2).on u =
      .error (.raise .streamError) { u with dz := { u.dz with db := p1, bb := p2 } } := by
  have hv : ({ u with dz := { u.dz with db := p1, bb := p2 } } : Units).snk.good = false := h
  have hbits : encode a.headerCtx (a.headerToken p1 p2) ≠ [] := by
    cases a <;> exact encode_lzHeader_ne_nil p1 p2
  rw [dictEncode, M.run_bind_ok (run_updDz _ _)]
  exact M.run_bind_error (writeToken_failed hv hbits)

/-- The head of a Huffman stream builds the tree and then fails at its first field. -/
theorem hufHead_failed (h : u.snk.good = false) (cfg : Params) (magic : Bool) :
    (hufHead cfg magic).on u = .error (.raise .streamError) { u with huf := u.huf.built } := by
  have hv : ({ u with huf := u.huf.built } : Units).snk.good = false := h
  rw [hufHead, M.run_bind_ok (run_hufBuild u)]
  cases magic with
  | true => exact M.run_bind_error (writeToken_failed hv (List.cons_ne_nil _ _))
  | false =>
    exact (M.run_look_bind _ _ _).trans (M.run_bind_error (writeToken_failed hv (List.cons_ne_nil _ _)))

theorem finishEncode_failed (h : u.snk.good = false) : finishEncode.on u = .error (.raise .streamError) u := by
  rw [finishEncode, M.run_bind_ok (snkFlush_failed h), M.run_look_bind, h]
  rfl

/-- The final flush of a partial byte that is refused. -/
theorem finishEncode_refused (hg : u.snk.good = true) (hp : u.snk.pos ≠ 7) (h : u.out.answerTo 0 = some .fail) :
    finishEncode.on u = .error (.raise .streamError) { u.refused [] with snk := Snk.failed } := by
  have hemit := snkEmit_on u
  rw [h] at hemit
  have hflush : snkFlush.on u = .ok () { u.refused [] with snk := Snk.failed } := by
    rw [snkFlush, M.run_look_bind, if_pos hg, if_neg hp, M.run_bind_ok hemit, M.run_look_bind]
    rfl
  rw [finishEncode, M.run_bind_ok hflush, M.run_look_bind]
  rfl

end

end Sys2Proof.Machine

namespace Sys2Proof.Machine

/-! # Decoder tokens of which the consumer refuses a byte (20_memory.md R118) -/

section
variable {u : Units} {k : Nat}

/-- The copy of a match up to the byte that is refused, if that is one of its own. -/
theorem lz77Copy_refused (h : u.out.refusesAt k) (pos count i : Nat) :
    ∃ (bytes : List Byte) (win : Memory), bytes.length = min count k ∧
      (lz77Copy pos count i).on u = if k < count
        then .error (.raise .streamError) { u.refused bytes with lz77 := { u.lz77 with win := win } }
        else .ok () { u.emitted bytes with lz77 := { u.lz77 with win := win } } := by
  induction count generalizing u k i with
  | zero => exact ⟨[], u.lz77.win, by simp, by rw [if_neg (Nat.not_lt_zero k), Units.emitted_nil]; rfl⟩
  | succ count ih =>
    let x := u.lz77.winAt (u.lz77.ss + pos + i)
    let v : Units := { u with lz77 := u.lz77.winSet (u.lz77.ls + i) x }
    have hv : v.out.refusesAt k := h
    have hcopy : (lz77Copy pos (count + 1) i).on u = (emitByte x >>= fun _ => lz77Copy pos count (i + 1)).on v := by
      rw [lz77Copy, M.run_look_bind]
      exact M.run_bind_ok (run_updLz77 _ _)
    cases k with
    | zero =>
      refine ⟨[], v.lz77.win, by simp, ?_⟩
      rw [hcopy, if_pos (Nat.succ_pos count), M.run_bind_error (emitByte_refused hv.2 x)]
      rfl
    | succ k =>
      obtain ⟨bytes, win, hlen, hon⟩ := ih (refusesAt_emitted hv (bytes := [x]) (by simp)) (i + 1)
      refine ⟨x :: bytes, win, by simp [hlen], ?_⟩
      rw [hcopy, M.run_bind_ok (emitByte_accepted (hv.1 0 (Nat.succ_pos k)) x), hon, refused_emitted,
        Units.emitted_emitted]
      simp only [List.length_singleton, Nat.add_sub_cancel, Nat.add_lt_add_iff_right]
      rfl

/-- A record of which the byte after the first `k` is refused: a copied one or the last. -/
theorem lz77Record_refused (h : u.out.refusesAt k) {len : Nat} (hk : k ≤ len) (pos : Nat) (c : Byte) :
    ∃ (bytes : List Byte) (win : Memory), bytes.length = k ∧
      (lz77Record len pos c).on u =
        .error (.raise .streamError) { u.refused bytes with lz77 := { u.lz77 with win := win } } := by
  obtain ⟨bytes, win, hlen, hon⟩ := lz77Copy_refused h pos len 0
  rw [Nat.min_eq_right hk] at hlen
  by_cases hlt : k < len
  · rw [if_pos hlt] at hon
    exact ⟨bytes, win, hlen, M.run_bind_error hon⟩
  · rw [if_neg hlt] at hon
    obtain rfl : k = len := by omega
    let z : Lz77 := ({ u.lz77 with win := win } : Lz77).winSet (u.lz77.ls + k) c
    let v : Units := { u.emitted bytes with lz77 := z }
    have hv : v.out.answerTo 0 = some .fail := (answerTo_emitted u bytes 0).trans (by rw [hlen]; exact h.2)
    have hend : v.refused [] = { u.refused bytes with lz77 := z } := by
      have := congrArg (fun w : Units => { w with lz77 := z }) (refused_emitted u bytes [])
      rwa [List.append_nil] at this
    refine ⟨bytes, z.win, hlen, ?_⟩
    rw [lz77Record, M.run_bind_ok hon, M.run_bind_ok (run_updLz77 _ _)]
    exact M.run_bind_error ((emitByte_refused hv c).trans (congrArg _ hend))

theorem lz77Record_literal_refused (h : u.out.refuses) (c : Byte) : (lz77Record 0 0 c).on u =
    .error (.raise .streamError) { u with
      lz77 := { u.lz77 with win := Memory.write u.lz77.win (u.lz77.ls % u.lz77.windowSize) c }
      out := { u.out with answers := u.out.answers.drop 1 } } := by
  have hv : ({ u with lz77 := u.lz77.winSet (u.lz77.ls + 0) c } : Units).out.refuses := h
  rw [lz77Record, lz77Copy, M.run_pure_bind, M.run_bind_ok (run_updLz77 _ _)]
  exact M.run_bind_error (emitByte_refuses hv c)

/-- Where the checks of R352 and R353 let it pass, a match is its record. -/
theorem ruleLz77Match_legal {len pos : Nat} (hpos : len = 0 ∨ pos < u.lz77.csize) (hlen : len + 1 ≤ u.lz77.rem)
    (c : Byte) : (ruleLz77Match len pos c).on u = (lz77Record len pos c).on u := by
  rw [ruleLz77Match, M.run_look_bind, if_neg (by omega), if_neg (by omega)]

theorem lz78Record_refused {w : Option Nat} {c : Byte} (hfits : u.dz.i + (phraseOf u.dict w ++ [c]).length ≤ u.dz.cnt)
    (h : u.out.refusesAt k) (hk : k < (phraseOf u.dict w ++ [c]).length) : (lz78Record w c).on u =
      .error (.raise .streamError) (u.refused ((phraseOf u.dict w ++ [c]).take k)) := by
  rw [lz78Record, M.run_look_bind, M.run_look_bind, if_neg (Nat.not_lt.2 hfits)]
  exact M.run_bind_error (emitBytes_refused h hk)

theorem ruleLzwIndex_refused {cfg : Params} {p : Nat} {phrase : List Byte}
    (hp : lzwPhrase cfg u.dict u.lzw.prev p = .ok phrase) (hfits : u.dz.i + phrase.length ≤ u.dz.cnt)
    (h : u.out.refusesAt k) (hk : k < phrase.length) :
    (ruleLzwIndex cfg p).on u = .error (.raise .streamError) (u.refused (phrase.take k)) := by
  rw [ruleLzwIndex, M.run_look_bind, M.run_look_bind, hp]
  dsimp only
  rw [M.run_look_bind, if_neg (Nat.not_lt.2 hfits)]
  exact M.run_bind_error (emitBytes_refused h hk)

/-- The bit that reaches a leaf starts the next walk before the symbol is refused. -/
theorem ruleHufCode_refused {bit : Bool} {c : Nat} {x : Byte} {w : Word} (ht : u.huf.tree ≠ .leafRoot)
    (hc : u.huf.child bit = some c) (hn : u.huf.nodes[c]? = some (.leaf x w)) (h : u.out.refuses) (produced : Nat) :
    (ruleHufCode [bit] produced).on u = .error (.raise .streamError) { u with
      huf := u.huf.walkReset
      out := { u.out with answers := u.out.answers.drop 1 } } := by
  have hv : ({ u with huf := u.huf.walkReset } : Units).out.refuses := h
  rw [ruleHufCode, M.run_bind_ok (addBit_leaf ht hc hn)]
  exact M.run_bind_error (emitByte_refuses hv x)

theorem leafRun_refused {left : Nat} {x : Byte} {w : Word} (hn : u.huf.nodes[u.huf.root]? = some (.leaf x w))
    (h : u.out.refuses) : (leafRun (left + 1)).on u =
      .error (.raise .streamError) { u with out := { u.out with answers := u.out.answers.drop 1 } } := by
  rw [leafRun, M.run_look_bind, hn]
  exact M.run_bind_error (emitByte_refuses h x)

end

end Sys2Proof.Machine

namespace Sys2Proof.Machine

/-! # Refused bytes, command by command (41_bitsink.md R239, R240, 20_memory.md R118) -/

section
variable {s : State}

theorem exec_snkPutBits_failed (h : s.units.snk.good = false) {n : Byte} (hn : bitCountOk n = true) :
    exec (.snkPutBits n) s = .next (s.completed s.units) := by
  refine runCommand_complete ?_
  rw [ruleSnkPutBits, if_pos hn]
  exact M.run_bind_ok (snkPutBits_failed h _)

theorem exec_lz78_refused {w : Option Nat} {c : Byte} {i : Instr} {k : Nat} (hphase : s.phase = .record .lz78)
    (hi : (w = none ∧ i = .lz78Literal c) ∨
      ∃ index, w = some index ∧ i = .lz78Phrase index c ∧ index < s.units.dict.length)
    (hfits : s.units.dz.i + (phraseOf s.units.dict w ++ [c]).length ≤ s.units.dz.cnt)
    (hr : s.units.out.refusesAt k) (hk : k < (phraseOf s.units.dict w ++ [c]).length) :
    exec i s = .next (s.failed .streamError (s.units.refused ((phraseOf s.units.dict w ++ [c]).take k))) := by
  have hon := lz78Record_refused hfits hr hk
  obtain ⟨rfl, rfl⟩ | ⟨index, rfl, rfl, hindex⟩ := hi
  · exact runToken_raise (p := lz78Record none c) (by rw [hphase]; rfl) hon
  · refine runToken_raise (p := ruleLz78Phrase index c) (by rw [hphase]; rfl) ?_
    rw [ruleLz78Phrase, M.run_look_bind, if_neg (Nat.not_le.2 hindex)]
    exact hon

theorem exec_hufCode_refused {produced : Nat} {bit : Bool} {l r : Option Nat} {w v : Word} {c : Nat} {x : Byte}
    (hphase : s.phase = .code produced) (ht : s.units.huf.tree = .internalRoot)
    (hcur : s.units.huf.nodes[s.units.huf.cursor]? = some (.internal l r w)) (hchild : (if bit then r else l) = some c)
    (hleaf : s.units.huf.nodes[c]? = some (.leaf x v)) (hr : s.units.out.refuses) :
    exec (.hufCode [bit]) s = .next (s.failed .streamError { s.units with
      huf := { s.units.huf with cursor := s.units.huf.root }
      out := { s.units.out with answers := s.units.out.answers.drop 1 } }) := by
  have hnext : s.units.huf.child bit = some c := by
    rw [Huf.child, hcur]
    exact hchild
  exact runToken_raise (p := ruleHufCode [bit] produced) (by rw [hphase]; rfl)
    (ruleHufCode_refused (by rw [ht]; nofun) hnext hleaf hr produced)

end

/-- Settles O32: a checked write or an emitted byte that fails ends its command, and each command's rule comes to
such a write or byte after changes that are kept. -/
theorem failedSinkIgnoresAndIsReported : Obligations.FailedSinkIgnoresAndIsReported := by
  intro s n sym b a t k u p1 p2 refusedOne
  refine ⟨fun h => ?failed, fun h => ⟨fun magic he => ?_, fun he => ?_⟩, fun he hg hp hr => ?flush,
    fun hg hr hp => ?bit, fun hg hw hr => ⟨fun hk => ?_, fun hk => ?_, fun ht hroot hsize hk => ?serialize⟩,
    fun c hphase hr => ?_, fun len pos c hphase hpos hlen hr hk => ?lz77Match, fun w c i hphase hi => ?_,
    fun p phrase hphase hp hfits hr hk => ?_, fun produced bit l r w c x v => ?_, fun left x w he hleaf hr => ?_⟩
  case failed =>
    refine ⟨runCommand_complete (M.run_bind_ok (snkPutBit_failed h b)),
      fun h1 h32 => exec_snkPutBits_failed h ((bitCountOk_iff n).2 ⟨h1, h32⟩),
      runCommand_complete (M.run_bind_ok (snkFlush_failed h)),
      fun hc => hufPutSym_fails hc (writeBits_failed h hc),
      fun ht hroot => hufSerialize_fails (writeBits_failed h (serialized_ne_nil ht hroot)),
      envPutMagic_fails (writeBits_failed h (List.cons_ne_nil _ _)), fun h1 h29 h2 h21 hmax => ?_,
      fun h1 h2 hdict hblock => ⟨?_, fun h8 => ?_⟩⟩
    · exact encBody_fails (lz77_inFormat_iff.2 ⟨h1, h29, h2, h21⟩) (lz77_inLimits_iff.2 hmax)
        (lz77Encode_failed h p1 p2)
    · exact encBody_fails (lz78_inFormat_iff.2 ⟨h1, h2⟩) ((dict_inLimits_iff (.inl rfl)).2 ⟨hdict, hblock⟩)
        (dictEncode_failed h s.cfg .lz78 p1 p2)
    · exact encBody_fails (lzw_inFormat_iff.2 ⟨h8, h2⟩) ((dict_inLimits_iff (.inr rfl)).2 ⟨hdict, hblock⟩)
        (dictEncode_failed h s.cfg .lzw p1 p2)
  case flush =>
    have hon := finishEncode_refused hg hp (answerTo_refuses hr)
    rw [refused_eq] at hon
    exact step_stretch_fails he rfl hon
  case bit =>
    have hon := snkPutBit_refused hg hp b (answerTo_refuses hr)
    rw [refused_eq] at hon
    exact runCommand_complete (M.run_bind_ok hon)
  case serialize =>
    have hon := writeBits_cut hg hw hr hk
    rw [← serialized_heldAt ht hroot hsize] at hon ⊢
    exact hufSerialize_fails hon
  case lz77Match =>
    obtain ⟨bytes, win, hbytes, hon⟩ := lz77Record_refused hr hk pos c
    exact ⟨bytes, win, hbytes, runToken_raise (p := ruleLz77Match len pos c) (by rw [hphase]; rfl)
      ((ruleLz77Match_legal hpos hlen c).trans hon)⟩
  · exact step_stretch_fails he rfl (hufHead_failed h s.cfg magic)
  · exact step_stretch_fails he rfl (finishEncode_failed h)
  · exact hufPutSym_fails (ne_nil_of_cut hk) (writeBits_cut hg hw hr hk)
  · exact envPutMagic_fails (writeBits_cut hg hw hr hk)
  · exact runToken_raise (p := lz77Record 0 0 c) (by rw [hphase]; rfl) (lz77Record_literal_refused hr c)
  · exact exec_lz78_refused hphase hi
  · exact runToken_raise (p := ruleLzwIndex s.cfg p) (by rw [hphase]; rfl) (ruleLzwIndex_refused hp hfits hr hk)
  · exact exec_hufCode_refused
  · exact step_stretch_fails he rfl (leafRun_refused hleaf hr)

end Sys2Proof.Machine

namespace Sys2Proof.Machine

/-! # Command words (30_encoding.md R120 to R125) -/

/-! ## The fields of a word (R120) -/

@[simp] theorem commandWord_opcode (opc a : BitVec 8) (b : BitVec 16) :
    (commandWord opc a b).extractLsb' 24 8 = opc :=
  (field_skip (k := 8) (opc ++ a) b).trans BitVec.extractLsb'_append_eq_left

@[simp] theorem commandWord_a (opc a : BitVec 8) (b : BitVec 16) : (commandWord opc a b).extractLsb' 16 8 = a :=
  (field_skip (k := 0) (opc ++ a) b).trans (field_last opc a)

@[simp] theorem commandWord_b (opc a : BitVec 8) (b : BitVec 16) : (commandWord opc a b).extractLsb' 0 16 = b :=
  field_last (opc ++ a) b

/-- A word is its three fields. -/
theorem commandWord_fields (w : Word) :
    commandWord (w.extractLsb' 24 8) (w.extractLsb' 16 8) (w.extractLsb' 0 16) = w := by
  have ha : w.extractLsb' 24 8 ++ w.extractLsb' 16 8 = w.extractLsb' 16 16 :=
    BitVec.extractLsb'_append_extractLsb'_eq_extractLsb' rfl
  rw [commandWord, ha]
  exact BitVec.extractLsb'_append_extractLsb' (w := 16) (len := 16)

/-- A field holds a value of `m` bits, and 0 above it, exactly when it is that value made wider. -/
theorem low_field {n m : Nat} (x : BitVec (n + m)) (v : BitVec m) :
    x.extractLsb' m n = 0 ∧ x.extractLsb' 0 m = v ↔ x = v.setWidth (n + m) := by
  have hv : v.setWidth (n + m) = (0 : BitVec n) ++ v := by
    apply BitVec.eq_of_toNat_eq
    simpa using Nat.mod_eq_of_lt (v.isLt.trans_le (Nat.pow_le_pow_right (by decide) (Nat.le_add_left m n)))
  rw [hv]
  constructor
  · rintro ⟨h, rfl⟩
    rw [← h, BitVec.extractLsb'_append_extractLsb']
  · rintro rfl
    exact ⟨BitVec.extractLsb'_append_eq_left, BitVec.extractLsb'_append_eq_right⟩

theorem ofBool_inj {a b : Bool} : BitVec.ofBool a = BitVec.ofBool b ↔ a = b := by decide +revert

theorem bit_field (b : BitVec 16) (bit : Bool) :
    b.extractLsb' 1 15 = 0 ∧ b.getLsbD 0 = bit ↔ b = (BitVec.ofBool bit).setWidth 16 := by
  rw [← low_field (n := 15) (m := 1), ← BitVec.setWidth_eq_extractLsb' (by decide), BitVec.setWidth_one,
    ofBool_inj]

theorem ofCode_eq_iff (c : BitVec 2) (alg : Alg) : Alg.ofCode c = alg ↔ c = alg.code :=
  ⟨fun h => h ▸ (code_ofCode c).symm, fun h => h ▸ ofCode_code alg⟩

theorem alg_field (a : BitVec 8) (alg : Alg) :
    a.extractLsb' 2 6 = 0 ∧ Alg.ofCode (a.extractLsb' 0 2) = alg ↔ a = alg.code.setWidth 8 := by
  rw [ofCode_eq_iff]
  exact low_field (n := 6) a alg.code

/-! ## The forms of the operands (R121, R124) -/

theorem commandPlain_ok_iff {a : BitVec 8} {b : BitVec 16} {i j : Instr} :
    commandPlain a b i = .ok j ↔ (a = 0 ∧ b = 0) ∧ i = j := by
  unfold commandPlain
  split <;> simp_all

theorem commandCount_ok_iff {a : BitVec 8} {b : BitVec 16} {mk : Byte → Instr} {j : Instr} :
    commandCount a b mk = .ok j ↔ b = 0 ∧ bitCountOk a = true ∧ mk a = j := by
  unfold commandCount
  split
  · simp_all
  · split <;> simp_all

/-- An operand `x` in a field whose other bits are 0 (`p`), the other operand field being 0 (`c`). -/
theorem operand_ok_iff {α : Type} {c d p : Prop} [Decidable d] {q : α → Prop} {x : α} {mk : α → Instr}
    {r : Reject} {j : Instr} (hd : d ↔ c ∧ p) (h : ∀ v, p ∧ x = v ↔ q v) :
    (if d then .ok (mk x) else .error r : Except Reject Instr) = .ok j ↔ c ∧ ∃ v, q v ∧ mk v = j := by
  simp only [← h]
  split <;> simp_all

theorem commandBit_ok_iff {a : BitVec 8} {b : BitVec 16} {mk : Bool → Instr} {j : Instr} :
    commandBit a b mk = .ok j ↔ a = 0 ∧ ∃ bit, b = (BitVec.ofBool bit).setWidth 16 ∧ mk bit = j :=
  operand_ok_iff .rfl (bit_field b)

theorem commandSym_ok_iff {a : BitVec 8} {b : BitVec 16} {mk : Byte → Instr} {j : Instr} :
    commandSym a b mk = .ok j ↔ a = 0 ∧ ∃ sym : Byte, b = sym.setWidth 16 ∧ mk sym = j :=
  operand_ok_iff .rfl (low_field (n := 8) (m := 8) b)

theorem commandAlg_ok_iff {a : BitVec 8} {b : BitVec 16} {mk : Alg → Instr} {j : Instr} :
    commandAlg a b mk = .ok j ↔ b = 0 ∧ ∃ alg : Alg, a = alg.code.setWidth 8 ∧ mk alg = j :=
  operand_ok_iff and_comm (alg_field a)

/-! ## Decoding and encoding -/

/-- A legal word is the word of the command it is (R123, R125). -/
theorem encodeWord_of_decodeCommand {w : Word} {i : Instr} (h : decodeCommand w = .ok i) : encodeWord i = w := by
  rw [← commandWord_fields w]
  have plain {opc a b j} (hj : encodeWord j = commandWord opc 0 0) (h : commandPlain a b j = .ok i) :
      encodeWord i = commandWord opc a b := by
    obtain ⟨⟨rfl, rfl⟩, rfl⟩ := commandPlain_ok_iff.1 h
    exact hj
  have count {opc a b mk} (hm : ∀ n, encodeWord (mk n) = commandWord opc n 0) (h : commandCount a b mk = .ok i) :
      encodeWord i = commandWord opc a b := by
    obtain ⟨rfl, -, rfl⟩ := commandCount_ok_iff.1 h
    exact hm a
  have bit {opc a b mk} (hm : ∀ x, encodeWord (mk x) = commandWord opc 0 ((BitVec.ofBool x).setWidth 16))
      (h : commandBit a b mk = .ok i) : encodeWord i = commandWord opc a b := by
    obtain ⟨rfl, x, rfl, rfl⟩ := commandBit_ok_iff.1 h
    exact hm x
  have sym {opc a b mk} (hm : ∀ x : Byte, encodeWord (mk x) = commandWord opc 0 (x.setWidth 16))
      (h : commandSym a b mk = .ok i) : encodeWord i = commandWord opc a b := by
    obtain ⟨rfl, x, rfl, rfl⟩ := commandSym_ok_iff.1 h
    exact hm x
  have alg {opc a b mk} (hm : ∀ x : Alg, encodeWord (mk x) = commandWord opc (x.code.setWidth 8) 0)
      (h : commandAlg a b mk = .ok i) : encodeWord i = commandWord opc a b := by
    obtain ⟨rfl, x, rfl, rfl⟩ := commandAlg_ok_iff.1 h
    exact hm x
  unfold decodeCommand at h
  dsimp only at h
  split at h <;> rename_i hopc
  case h_4 | h_7 => exact hopc ▸ count (fun _ => rfl) h
  case h_6 | h_18 => exact hopc ▸ bit (fun _ => rfl) h
  case h_10 | h_11 | h_13 | h_14 => exact hopc ▸ sym (fun _ => rfl) h
  case h_19 | h_21 | h_22 => exact hopc ▸ alg (fun _ => rfl) h
  case h_26 => cases h
  all_goals exact hopc ▸ plain rfl h

/-- The word of a legal command decodes to it. -/
theorem decodeCommand_encodeWord {i : Instr} (h : i.wfCommand = true) : decodeCommand (encodeWord i) = .ok i := by
  cases i <;> first
    | exact absurd (h : false = true) Bool.false_ne_true
    | simp only [encodeWord, decodeCommand, commandWord_opcode, commandWord_a, commandWord_b]
  case srcGetBits n | snkPutBits n => exact commandCount_ok_iff.2 ⟨rfl, h, rfl⟩
  case snkPutBit bit | hufAddBit bit => exact commandBit_ok_iff.2 ⟨rfl, bit, rfl, rfl⟩
  case freqAdd sym | freqGet sym | hufCodeLen sym | hufPutSym sym => exact commandSym_ok_iff.2 ⟨rfl, sym, rfl, rfl⟩
  case envPutMagic alg | encBody alg | decBody alg => exact commandAlg_ok_iff.2 ⟨rfl, alg, rfl, rfl⟩
  all_goals exact commandPlain_ok_iff.2 ⟨⟨rfl, rfl⟩, rfl⟩

/-- Settles O6: decoding and encoding are inverse to each other on the legal commands. -/
theorem commandWordsAreExactlyTheLegalOnes : Obligations.CommandWordsAreExactlyTheLegalOnes := by
  intro w i
  constructor
  · intro h
    exact ⟨decodeCommand_wf h, encodeWord_of_decodeCommand h⟩
  · rintro ⟨h, rfl⟩
    exact decodeCommand_encodeWord h

end Sys2Proof.Machine

namespace Sys2Proof.Machine

/-! # Instructions and their bits (30_encoding.md R130 to R140) -/

/-- Decoder `k` reads `bits` as instruction `i`: whatever follows them stays, and every proper beginning of them asks
for more. -/
structure ReadsAs (k : List Bool → Decoded) (bits : List Bool) (i : Instr) : Prop where
  whole : ∀ rest, k (bits ++ rest) = .instr i rest
  beginning : ∀ n < bits.length, k (bits.take n) = .more

/-- An instruction that needs no further bit. -/
theorem ReadsAs.done {k : List Bool → Decoded} {i : Instr} (h : ∀ rest, k rest = .instr i rest) : ReadsAs k [] i :=
  ⟨h, nofun⟩

/-- A field first, then what the decoder reads once it has the field's value. -/
theorem ReadsAs.field {n v : Nat} {k : Nat → List Bool → Decoded} {bits : List Bool} {i : Instr} (hv : v < 2 ^ n)
    (h : ReadsAs (k v) bits i) : ReadsAs (fun b => withField n b k) (bitsOf n v ++ bits) i where
  whole rest := by
    rw [List.append_assoc, withField, takeField_bitsOf n v _ hv]
    exact h.whole rest
  beginning m hm := by
    rw [List.length_append, bitsOf_length] at hm
    by_cases hn : m < n
    · rw [withField, takeField_short]
      exact (List.length_take_le _ _).trans_lt hn
    · rw [List.take_append, List.take_of_length_le (by rw [bitsOf_length]; omega), bitsOf_length, withField,
        takeField_bitsOf n v _ hv]
      exact h.beginning (m - n) (by omega)

/-- A field that ends the instruction. -/
theorem ReadsAs.lastField {n v : Nat} {k : Nat → List Bool → Decoded} {i : Instr} (hv : v < 2 ^ n)
    (h : ∀ rest, k v rest = .instr i rest) : ReadsAs (fun b => withField n b k) (bitsOf n v) i := by
  rw [← List.append_nil (bitsOf n v)]
  exact .field hv (.done h)

/-- A machine word as the field that ends the instruction. -/
theorem ReadsAs.lastWord {n : Nat} (v : BitVec n) (mk : BitVec n → Instr) :
    ReadsAs (fun b => withField n b fun x r => .instr (mk (BitVec.ofNat n x)) r) (bitsOf n v.toNat) (mk v) :=
  .lastField v.isLt fun rest => by rw [BitVec.ofNat_toNat, BitVec.setWidth_eq]

/-- The version byte first (46_envelope.md R439). -/
theorem ReadsAs.version {k : List Bool → Decoded} {bits : List Bool} {i : Instr} (h : ReadsAs k bits i) :
    ReadsAs (fun b => withVersion b k) (bitsOf 8 formatVersion ++ bits) i :=
  .field (by decide) h

/-- A flag bit first; `h0`: without it the decoder asks for more. -/
theorem ReadsAs.flag {b : Bool} {k f : List Bool → Decoded} {bits : List Bool} {i : Instr} (h0 : k [] = .more)
    (hk : ∀ r, k (b :: r) = f r) (h : ReadsAs f bits i) : ReadsAs k (b :: bits) i where
  whole rest := (hk _).trans (h.whole rest)
  beginning
    | 0, _ => h0
    | n + 1, hn => (hk _).trans (h.beginning n (Nat.lt_of_succ_lt_succ hn))

theorem lzHeader_readsAs (mk : BitVec 5 → BitVec 5 → Instr) (p1 p2 : BitVec 5) :
    ReadsAs (decodeLzHeader mk) (encodeLzHeader p1 p2) (mk p1 p2) := by
  rw [encodeLzHeader, List.append_assoc]
  refine .version (.field p1.isLt ?_)
  rw [BitVec.ofNat_toNat, BitVec.setWidth_eq]
  exact .lastWord p2 (mk p1)

theorem lookupMagic_magic (a : Alg) : lookupMagic a.magic = some a := by cases a <;> rfl

theorem magic_readsAs (a : Alg) : ReadsAs (decodeBits .envelope) (bitsOf 16 a.magic.toNat) a.magicToken :=
  .lastField a.magic.isLt fun rest => by rw [BitVec.ofNat_toNat, BitVec.setWidth_eq, lookupMagic_magic]

theorem command_readsAs {i : Instr} (h : i.wfCommand = true) :
    ReadsAs (decodeBits .command) (encode .command i) i := by
  rw [encode, if_pos h]
  exact .lastField (encodeWord i).isLt fun rest => by
    rw [BitVec.ofNat_toNat, BitVec.setWidth_eq, decodeCommand_encodeWord h]

/-- The bits of an instruction of a context are read as that instruction. -/
theorem encode_readsAs {c : Ctx} {i : Instr} (h : i.wf c = true) : ReadsAs (decodeBits c) (encode c i) i := by
  match c, i, h with
  | .command, _, h => exact command_readsAs h
  | .envelope, .magicHuf, _ => exact magic_readsAs .huf
  | .envelope, .magicLz77, _ => exact magic_readsAs .lz77
  | .envelope, .magicLz78, _ => exact magic_readsAs .lz78
  | .envelope, .magicLzw, _ => exact magic_readsAs .lzw
  | .hufHeader, .hufHeader total, _ => exact .version (.lastWord total .hufHeader)
  | .tree, .hufTreeInternal, _ => exact .flag rfl (fun _ => rfl) (.done fun _ => rfl)
  | .tree, .hufTreeLeaf sym, _ => exact .flag rfl (fun _ => rfl) (.lastWord sym .hufTreeLeaf)
  | .code, .hufCode [b], _ => exact .flag rfl (fun _ => rfl) (.done fun _ => rfl)
  | .lzHeader .lz77, .lz77Header p1 p2, _ => exact lzHeader_readsAs .lz77Header p1 p2
  | .lzHeader .lz78, .lz78Header p1 p2, _ => exact lzHeader_readsAs .lz78Header p1 p2
  | .lzHeader .lzw, .lzwHeader p1 p2, _ => exact lzHeader_readsAs .lzwHeader p1 p2
  | .block _, .blockFull, _ => exact .flag rfl (fun _ => rfl) (.done fun _ => rfl)
  | .block _, .blockShort _, h =>
    exact .flag rfl (fun _ => rfl) (.lastField (of_decide_eq_true h) fun _ => rfl)
  | .lz77Record _ _, .lz77Literal b, _ => exact .flag rfl (fun _ => rfl) (.lastWord b .lz77Literal)
  | .lz77Record _ _, .lz77Match len pos b, h =>
    obtain ⟨hlen, hpos⟩ := Bool.and_eq_true_iff.1 h
    rw [encode, List.append_assoc]
    exact .flag rfl (fun _ => rfl)
      (.field (of_decide_eq_true hlen) (.field (of_decide_eq_true hpos) (.lastWord b (.lz77Match len pos))))
  | .lz78Record _, .lz78Literal b, _ => exact .flag rfl (fun _ => rfl) (.lastWord b .lz78Literal)
  | .lz78Record _, .lz78Phrase index b, h =>
    exact .flag rfl (fun _ => rfl) (.field (of_decide_eq_true h) (.lastWord b (.lz78Phrase index)))
  | .lzwRecord _, .lzwIndex _, h => exact .lastField (of_decide_eq_true h) fun _ => rfl

/-- Settles O7: every context's decoder is built from fields and flags, each of which reads back what was written. -/
theorem instructionsDecodeToThemselves : Obligations.InstructionsDecodeToThemselves := by
  intro c i h
  exact ⟨(encode_readsAs h).whole, (encode_readsAs h).beginning⟩

/-- Settles O8: each word and bit string is a closed term, which the decoder evaluates. -/
theorem wordsOfTheSpecDecode : Obligations.WordsOfTheSpecDecode := by
  unfold Obligations.WordsOfTheSpecDecode
  decide

/-! ## The fetch -/

/-- The token ahead is fetched, and what follows it stays ahead (R140, 40_bitsource.md R208, R209). -/
theorem fetchToken_pending {u : Units} {c : Ctx} {i : Instr} {rest : List Bool} (p : Phase) (hu : u.readable)
    (hi : i.wf c = true) (hne : encode c i ≠ []) (hb : u.pendingBits = encode c i ++ rest) :
    ∃ v, (fetchToken p c).on u = .ok i v ∧ u.readTo v ∧ v.pendingBits = rest := by
  have hread := encode_readsAs hi
  obtain ⟨hlen, hmax⟩ := Laws.TokenLength.every i c hi
  refine fetchBits_pending p c i hu hb hne (hlen ▸ hmax) ?_ fun k _ hk => hread.beginning k hk
  simpa using hread.whole []

/-- Settles O3: the fetch of the token ahead, run by the sequencer's turn. -/
theorem fetchDeliversTheTokenAhead : Obligations.FetchDeliversTheTokenAhead := by
  rintro s c i rest ⟨hturn, hbusy, hnone, hc⟩ hu hi hne hb
  obtain ⟨v, hv, hread, hrest⟩ := fetchToken_pending s.phase hu hi hne hb
  obtain ⟨-, hrun⟩ := stepRunsTheFetchedToken s hturn
  obtain ⟨-, hfetch⟩ := hrun hbusy
  exact ⟨v, hread, hrest, (hfetch hnone).1 c i v hc hv⟩

end Sys2Proof.Machine

namespace Sys2Proof.Machine

/-! # The blocks of a stream (30_encoding.md R131) -/

theorem lz77Block_zero (u : Units) :
    (lz77Block 0).on u = .ok .complete ({ u with lz77 := { u.lz77 with rem := 0 } } : Units).flushed := rfl

theorem lz77Block_pos {n : Nat} (hn : n ≠ 0) (u : Units) :
    (lz77Block n).on u = .ok (.goto (.record .lz77)) { u with lz77 := { u.lz77 with rem := n } } := by
  simp [lz77Block, M.run_bind, hn]

theorem dictBlock_zero (a : DictAlg) (u : Units) :
    (dictBlock a 0).on u = .ok .complete ({ u with dz := { u.dz with cnt := 0 } } : Units).flushed := rfl

theorem dictBlock_lz78_pos {n : Nat} (hn : n ≠ 0) (u : Units) :
    (dictBlock .lz78 n).on u = .ok (.goto (.record .lz78)) { u with dz := { u.dz with cnt := n, i := 0 } } := by
  simp [dictBlock, M.run_bind, hn]

theorem dictBlock_lzw_pos {n : Nat} (hn : n ≠ 0) (u : Units) :
    (dictBlock .lzw n).on u = .ok (.goto (.record .lzw))
      { u with dz := { u.dz with cnt := n, i := 0 }, lzw := { u.lzw with prev := none } } := by
  simp [dictBlock, M.run_bind, hn]

theorem blockFullRule_block {p : Phase} {a : Lz} (h : p = .block a) : blockFullRule p = some (ruleBlockFull a) := by
  rw [h]; rfl

theorem blockShortRule_block {p : Phase} {a : Lz} (h : p = .block a) (n : Nat) :
    blockShortRule n p = some (blockOf a n) := by
  rw [h]; rfl

/-- Settles O47: a block of the stream's size is never empty, so only the count 0 ends the stream. -/
theorem blockTokensFrameTheBlock : Obligations.BlockTokensFrameTheBlock := by
  intro s n
  have hsize (k : Nat) : 2 ^ k ≠ 0 := (Nat.two_pow_pos k).ne'
  have hn : n + 1 ≠ 0 := n.succ_ne_zero
  refine ⟨fun h => ?_, fun h => ?_, fun h => ?_⟩
  · exact ⟨runToken_goto (blockFullRule_block h) (lz77Block_pos (hsize _) _),
      runToken_goto (blockShortRule_block h _) (lz77Block_pos hn _),
      runToken_complete (blockShortRule_block h _) (lz77Block_zero _)⟩
  · exact ⟨runToken_goto (blockFullRule_block h) (dictBlock_lz78_pos (hsize _) _),
      runToken_goto (blockShortRule_block h _) (dictBlock_lz78_pos hn _),
      runToken_complete (blockShortRule_block h _) (dictBlock_zero .lz78 _)⟩
  · exact ⟨runToken_goto (blockFullRule_block h) (dictBlock_lzw_pos (hsize _) _),
      runToken_goto (blockShortRule_block h _) (dictBlock_lzw_pos hn _),
      runToken_complete (blockShortRule_block h _) (dictBlock_zero .lzw _)⟩

end Sys2Proof.Machine

namespace Sys2Proof.Machine

/-! # Reading a serialized tree (42_huffman.md R276, R277)

The nodes of a subtree come to stand one after another in pre-order (`Shape.nodesFrom`), whatever is open above it. -/

/-! ## The symbols of nodes -/

/-- The symbol of a leaf; none of an internal node. -/
def Node.symbol : Node → Option Byte
  | .leaf sym _ => some sym
  | .internal _ _ _ => none

theorem countP_isInternal (nodes : List Node) : nodes.countP Node.isInternal = (nodes.map Node.symbol).count none := by
  rw [List.count, List.countP_map]
  congr 1
  funext x
  cases x <;> rfl

theorem any_isLeafOf (sym : Byte) (nodes : List Node) :
    nodes.any (Node.isLeafOf sym) = true ↔ some sym ∈ nodes.map Node.symbol := by
  rw [List.any_eq_true, List.mem_map]
  refine exists_congr fun x => and_congr_right fun _ => ?_
  cases x <;> simp [Node.isLeafOf, Node.symbol]

/-- Nodes that no token has made malformed: at most 255 are internal and no symbol occurs twice (R277). -/
def LegalTree (symbols : List (Option Byte)) : Prop := symbols.count none ≤ 255 ∧ symbols.reduceOption.Nodup

theorem LegalTree.left {a b : List (Option Byte)} (h : LegalTree (a ++ b)) : LegalTree a := by
  obtain ⟨hc, hn⟩ := h
  rw [List.count_append] at hc
  rw [List.reduceOption_append] at hn
  exact ⟨by omega, hn.of_append_left⟩

/-- There is room for one more internal node. -/
theorem LegalTree.internal {a b : List (Option Byte)} (h : LegalTree (a ++ none :: b)) : a.count none ≠ 255 := by
  have := h.1
  rw [List.count_append, List.count_cons_self] at this
  omega

/-- The next symbol is new. -/
theorem LegalTree.leaf {a : List (Option Byte)} {sym : Byte} (h : LegalTree (a ++ [some sym])) : some sym ∉ a := by
  have := h.2
  rw [List.reduceOption_append] at this
  intro hm
  exact List.disjoint_of_nodup_append this (List.reduceOption_mem_iff.2 hm) (by simp [List.reduceOption])

/-- The symbols of a tree's nodes in pre-order. -/
def Shape.symbols : Shape → List (Option Byte)
  | .leaf sym => [some sym]
  | .node left right => none :: (left.symbols ++ right.symbols)

theorem Shape.reduceOption_symbols (t : Shape) : t.symbols.reduceOption = t.leaves := by
  induction t with
  | leaf sym => rfl
  | node left right ihl ihr =>
    rw [Shape.symbols, List.reduceOption_cons_of_none, List.reduceOption_append, ihl, ihr, Shape.leaves]

/-- A tree has one internal node less than leaves. -/
theorem Shape.count_symbols (t : Shape) : t.symbols.count none + 1 = t.leaves.length := by
  induction t with
  | leaf sym => rfl
  | node left right ihl ihr =>
    simp only [Shape.symbols, Shape.leaves, List.count_cons_self, List.count_append, List.length_append]
    omega

/-- There are 256 bytes. -/
theorem length_le_of_nodup {l : List Byte} (h : l.Nodup) : l.length ≤ 256 := by
  simpa using (h.map (f := BitVec.toFin) fun a b => BitVec.eq_of_toFin_eq).length_le_card

/-- A tree with distinct symbols is not malformed. -/
theorem Shape.legal {t : Shape} (h : t.leaves.Nodup) : LegalTree t.symbols := by
  have hc := t.count_symbols
  have hl := length_le_of_nodup h
  exact ⟨by omega, t.reduceOption_symbols ▸ h⟩

/-! ## Where the nodes of a tree come to stand -/

/-- The nodes of a tree in pre-order, the root at index `i`. -/
def Shape.nodesFrom : Shape → Nat → List Node
  | .leaf sym, _ => [.leaf sym 0]
  | .node left right, i =>
    .internal (some (i + 1)) (some (i + 1 + left.size)) 0 ::
      (left.nodesFrom (i + 1) ++ right.nodesFrom (i + 1 + left.size))

@[simp] theorem Shape.length_nodesFrom (t : Shape) (i : Nat) : (t.nodesFrom i).length = t.size := by
  induction t generalizing i with
  | leaf sym => rfl
  | node left right ihl ihr => simp [Shape.nodesFrom, Shape.size, ihl, ihr]

@[simp] theorem Shape.symbols_nodesFrom (t : Shape) (i : Nat) : (t.nodesFrom i).map Node.symbol = t.symbols := by
  induction t generalizing i with
  | leaf sym => rfl
  | node left right ihl ihr => simp [Shape.nodesFrom, Shape.symbols, Node.symbol, ihl, ihr]

theorem Shape.heldAt_nodesFrom (t : Shape) (before after : List Node) :
    t.heldAt (before ++ t.nodesFrom before.length ++ after) before.length := by
  induction t generalizing before after with
  | leaf sym => exact ⟨0, by simp [Shape.nodesFrom]⟩
  | node left right ihl ihr =>
    have hl := ihl (before ++ [.internal (some (before.length + 1)) (some (before.length + 1 + left.size)) 0])
      (right.nodesFrom (before.length + 1 + left.size) ++ after)
    have hr := ihr (before ++ .internal (some (before.length + 1)) (some (before.length + 1 + left.size)) 0 ::
      left.nodesFrom (before.length + 1)) after
    refine ⟨before.length + 1, before.length + 1 + left.size, 0, by simp [Shape.nodesFrom], ?_, ?_⟩
    · simpa [Shape.nodesFrom] using hl
    · simpa [Shape.nodesFrom, Nat.add_assoc, Nat.add_comm] using hr

theorem Shape.size_eq_one (t : Shape) : t.size = 1 ↔ ∃ sym, t = .leaf sym := by
  cases t with
  | leaf sym => simp [Shape.size]
  | node left right =>
    have : 0 < left.size := by cases left <;> simp [Shape.size]
    simp [Shape.size]
    omega

end Sys2Proof.Machine

namespace Sys2Proof.Machine

/-! ## Attaching a node (R276) -/

/-- The next node, whatever it is, becomes a child in `nodes` and leaves `nodes'`, and of the open nodes `stack` then
`stack'` are still open. -/
structure Attaches (nodes : List Node) (stack : List Nat) (nodes' : List Node) (stack' : List Nat) : Prop where
  attach : ∀ x, attachChild (nodes ++ [x]) nodes.length stack = (nodes' ++ [x], stack')
  symbols : nodes'.map Node.symbol = nodes.map Node.symbol

theorem Attaches.length {nodes nodes' : List Node} {stack stack' : List Nat} (h : Attaches nodes stack nodes' stack') :
    nodes'.length = nodes.length := by simpa using congrArg List.length h.symbols

/-- The root is no node's child. -/
theorem Attaches.root (nodes : List Node) : Attaches nodes [] nodes [] := ⟨fun _ => rfl, rfl⟩

/-- The first child of an open node goes to the left. -/
theorem Attaches.leftChild (before after : List Node) (r : Option Nat) (w : Word) (stack : List Nat) :
    Attaches (before ++ .internal none r w :: after) (before.length :: stack)
      (before ++ .internal (some (before ++ .internal none r w :: after).length) r w :: after)
      (before.length :: stack) where
  attach x := by simp [attachChild]
  symbols := by simp [Node.symbol]

/-- The second child goes to the right and closes the node. -/
theorem Attaches.rightChild (before after : List Node) (l : Nat) (r : Option Nat) (w : Word) (stack : List Nat) :
    Attaches (before ++ .internal (some l) r w :: after) (before.length :: stack)
      (before ++ .internal (some l) (some (before ++ .internal (some l) r w :: after).length) w :: after) stack where
  attach x := by simp [attachChild]
  symbols := by simp [Node.symbol]

/-! ## One token (R276) -/

section
variable {u : Units} {new : Node} {stack stack' : List Nat} {nodes' : List Node}

/-- An internal node stays open. -/
theorem addTreeNode_internal (use : TreeUse)
    (h : attachChild (u.huf.nodes ++ [new]) u.huf.nodes.length stack = (nodes', stack')) :
    (addTreeNode new true stack use).on u =
      .ok (.goto (.tree (u.huf.nodes.length :: stack') use)) { u with huf := { u.huf with nodes := nodes' } } := by
  simp only [addTreeNode, M.run_look_bind, h]
  rfl

/-- A leaf while slots are left. -/
theorem addTreeNode_leaf (use : TreeUse) {p : Nat} {rest : List Nat}
    (h : attachChild (u.huf.nodes ++ [new]) u.huf.nodes.length stack = (nodes', p :: rest)) :
    (addTreeNode new false stack use).on u =
      .ok (.goto (.tree (p :: rest) use)) { u with huf := { u.huf with nodes := nodes' } } := by
  simp only [addTreeNode, M.run_look_bind, h]
  rfl

/-- The last leaf. -/
theorem addTreeNode_lastLeaf (use : TreeUse)
    (h : attachChild (u.huf.nodes ++ [new]) u.huf.nodes.length stack = (nodes', [])) :
    (addTreeNode new false stack use).on u =
      .ok (afterTree ({ u.huf with nodes := nodes' } : Huf).treeEnded use)
        { u with huf := ({ u.huf with nodes := nodes' } : Huf).treeEnded } := by
  simp only [addTreeNode, M.run_look_bind, h]
  rfl

theorem ruleTreeInternal_on (use : TreeUse) (h : u.huf.nodes.countP Node.isInternal ≠ 255) :
    (ruleTreeInternal stack use).on u = (addTreeNode (.internal none none 0) true stack use).on u := by
  simp [ruleTreeInternal, h]

theorem ruleTreeLeaf_on (use : TreeUse) {sym : Byte} (h : u.huf.nodes.any (Node.isLeafOf sym) = false) :
    (ruleTreeLeaf sym stack use).on u = (addTreeNode (.leaf sym 0) false stack use).on u := by
  simp only [ruleTreeLeaf, M.run_look_bind, h]
  rfl

end

/-! ## The tokens of a tree -/

/-- `s` where HUF_DESERIALIZE has read `nodes` and the nodes on the stack are open: it goes on, or the tree is whole. -/
def State.treeRead (s : State) (nodes : List Node) : List Nat → State
  | [] => s.completed { s.units with huf := ({ s.units.huf with nodes := nodes } : Huf).treeEnded }
  | p :: rest => s.goesOn (.tree (p :: rest) .command) { s.units with huf := { s.units.huf with nodes := nodes } }

theorem exec_treeLeaf {s : State} {stack stack' : List Nat} {nodes' : List Node} {sym : Byte}
    (hs : s.phase = .tree stack .command) (ha : Attaches s.units.huf.nodes stack nodes' stack')
    (hl : LegalTree (s.units.huf.nodes.map Node.symbol ++ [some sym])) :
    exec (.hufTreeLeaf sym) s = .next (s.treeRead (nodes' ++ [.leaf sym 0]) stack') := by
  have hrule : treeLeafRule sym s.phase = some (ruleTreeLeaf sym stack .command) := by rw [hs]; rfl
  have hnew : s.units.huf.nodes.any (Node.isLeafOf sym) = false :=
    Bool.eq_false_iff.2 fun h => hl.leaf ((any_isLeafOf sym _).1 h)
  cases stack' with
  | nil =>
    exact runToken_complete hrule ((ruleTreeLeaf_on .command hnew).trans (addTreeNode_lastLeaf .command (ha.attach _)))
  | cons p rest =>
    exact runToken_goto hrule ((ruleTreeLeaf_on .command hnew).trans (addTreeNode_leaf .command (ha.attach _)))

theorem exec_treeInternal {s : State} {stack stack' : List Nat} {nodes' : List Node} {rest : List (Option Byte)}
    (hs : s.phase = .tree stack .command) (ha : Attaches s.units.huf.nodes stack nodes' stack')
    (hl : LegalTree (s.units.huf.nodes.map Node.symbol ++ none :: rest)) :
    exec .hufTreeInternal s =
      .next (s.treeRead (nodes' ++ [.internal none none 0]) (s.units.huf.nodes.length :: stack')) := by
  have hrule : treeInternalRule s.phase = some (ruleTreeInternal stack .command) := by rw [hs]; rfl
  have hroom : s.units.huf.nodes.countP Node.isInternal ≠ 255 := countP_isInternal _ ▸ hl.internal
  exact runToken_goto hrule ((ruleTreeInternal_on .command hroom).trans (addTreeNode_internal .command (ha.attach _)))

theorem execAll_append {a b : List Instr} {s t : State} (h : execAll a s = .next t) :
    execAll (a ++ b) s = execAll b t := by
  induction a generalizing s with
  | nil => cases h; rfl
  | cons i a ih =>
    simp only [execAll, List.cons_append] at h ⊢
    split at h
    · exact ih h
    · cases h
    · cases h

theorem execAll_cons {i : Instr} {is : List Instr} {s t : State} (h : exec i s = .next t) :
    execAll (i :: is) s = execAll is t := by
  rw [execAll, h]

@[simp] theorem treeRead_nodes (s : State) (nodes : List Node) (p : Nat) (rest : List Nat) :
    (s.treeRead nodes (p :: rest)).units.huf.nodes = nodes := rfl

/-- A second part of the tree counts from where the whole began. -/
theorem treeRead_treeRead (s : State) (a b : List Node) (p : Nat) (rest stack : List Nat) :
    (s.treeRead a (p :: rest)).treeRead b stack = s.treeRead b stack := by
  cases stack <;> rfl

/-- The tokens of a tree put its nodes behind those already read, the root becoming a child of the innermost open
node (R276). -/
theorem execAll_tokens (t : Shape) {s : State} {stack stack' : List Nat} {nodes' : List Node}
    (hs : s.phase = .tree stack .command) (ha : Attaches s.units.huf.nodes stack nodes' stack')
    (hl : LegalTree (s.units.huf.nodes.map Node.symbol ++ t.symbols)) :
    execAll t.tokens s = .next (s.treeRead (nodes' ++ t.nodesFrom s.units.huf.nodes.length) stack') := by
  induction t generalizing s stack stack' nodes' with
  | leaf sym => exact execAll_cons (exec_treeLeaf hs ha hl)
  | node left right ihl ihr =>
    rw [Shape.tokens, execAll_cons (exec_treeInternal hs ha hl), ← ha.length]
    have hlegal : LegalTree (nodes'.map Node.symbol ++ [none] ++ left.symbols ++ right.symbols) := by
      simpa [ha.symbols, Shape.symbols] using hl
    let opened := nodes' ++ [Node.internal none none 0]
    have hleft := ihl (s := s.treeRead opened (nodes'.length :: stack')) rfl (.leftChild nodes' [] none 0 stack')
      (by simpa [opened, Node.symbol] using hlegal.left)
    rw [execAll_append hleft, treeRead_treeRead, treeRead_nodes, List.append_assoc]
    let after := left.nodesFrom opened.length
    have hright := ihr
      (s := s.treeRead (nodes' ++ ([Node.internal (some opened.length) none 0] ++ after)) (nodes'.length :: stack')) rfl
      (.rightChild nodes' after opened.length none 0 stack')
      (by simpa [opened, after, Node.symbol] using hlegal)
    refine hright.trans ?_
    simp [treeRead_treeRead, opened, after, Shape.nodesFrom, Nat.add_assoc, Nat.add_comm]

end Sys2Proof.Machine

namespace Sys2Proof.Machine

/-! # The codes of a held tree (42_huffman.md R270) -/

/-- The code table after each of these codes has been written. -/
def writeCodes (code : Sparse (List Bool)) (codes : List (Byte × List Bool)) : Sparse (List Bool) :=
  codes.foldl (fun table e => Sparse.write table [] e.1.toNat e.2) code

theorem writeCodes_append (code : Sparse (List Bool)) (a b : List (Byte × List Bool)) :
    writeCodes code (a ++ b) = writeCodes (writeCodes code a) b := List.foldl_append

/-- A symbol whose code is not written keeps what it had. -/
theorem writeCodes_get_other {codes : List (Byte × List Bool)} {b : Byte} (h : b ∉ codes.map Prod.fst)
    (code : Sparse (List Bool)) : (writeCodes code codes).get b.toNat = code.get b.toNat := by
  induction codes generalizing code with
  | nil => rfl
  | cons e codes ih =>
    rw [List.map_cons, List.mem_cons, not_or] at h
    refine (ih h.2 _).trans (Sparse.get_write_other code [] e.2 fun he => h.1 (BitVec.eq_of_toNat_eq he))

/-- A symbol that is listed once has the code it is listed with. -/
theorem writeCodes_get_mem {codes : List (Byte × List Bool)} (hn : (codes.map Prod.fst).Nodup)
    {e : Byte × List Bool} (he : e ∈ codes) (code : Sparse (List Bool)) :
    ((writeCodes code codes).get e.1.toNat).getD [] = e.2 := by
  induction codes generalizing code with
  | nil => cases he
  | cons x codes ih =>
    obtain ⟨hx, hn⟩ := List.nodup_cons.1 hn
    rcases List.mem_cons.1 he with rfl | he
    · exact (congrArg (Option.getD · []) (writeCodes_get_other hx _)).trans (Sparse.get_write_same code [] _ _)
    · exact ih hn he _

@[simp] theorem Shape.map_fst_paths (t : Shape) : t.paths.map Prod.fst = t.leaves := by
  induction t with
  | leaf sym => rfl
  | node left right ihl ihr =>
    rw [Shape.paths, List.map_append, List.map_map, List.map_map, Shape.leaves, ← ihl, ← ihr]
    rfl

/-- `Codify()` writes the path of every leaf of a held tree, `path` leading to its root (R270). -/
theorem walkCodes_heldAt {nodes : List Node} {t : Shape} {i : Nat} (h : t.heldAt nodes i) {fuel : Nat}
    (hf : t.size ≤ fuel) (path : List Bool) (code : Sparse (List Bool)) :
    walkCodes nodes fuel i path code = writeCodes code (t.paths.map fun e => (e.1, path ++ e.2)) := by
  induction t generalizing i fuel path code with
  | leaf sym =>
    obtain ⟨w, hi⟩ := h
    obtain ⟨fuel, rfl⟩ := Nat.exists_eq_add_one_of_ne_zero (Nat.pos_iff_ne_zero.1 hf)
    simp [walkCodes, hi, writeCodes, Shape.paths]
  | node left right ihl ihr =>
    obtain ⟨l, r, w, hi, hl, hr⟩ := h
    rw [Shape.size] at hf
    obtain ⟨fuel, rfl⟩ := Nat.exists_eq_add_one_of_ne_zero (n := fuel) (by omega)
    simp only [walkCodes, hi]
    rw [ihl hl (by omega), ihr hr (by omega), ← writeCodes_append]
    simp [Shape.paths, Function.comp_def]

/-- The codes of a tree held at an internal root. -/
theorem codified_internalRoot {h : Huf} {t : Shape} (htree : h.tree = .internalRoot) (ht : t.heldAt h.nodes h.root)
    (hsize : t.size ≤ h.nodes.length) : h.codified.code = writeCodes [] t.paths := by
  simp [Huf.codified, htree, walkCodes_heldAt ht hsize]

/-- The code of a single leaf. -/
theorem codified_leafRoot {h : Huf} {sym : Byte} {w : Word} (htree : h.tree = .leafRoot)
    (ht : h.nodes[h.root]? = some (.leaf sym w)) : h.codified.code = writeCodes [] [(sym, [true])] := by
  simp [Huf.codified, htree, ht, writeCodes]

/-- The codes by R270: the paths, but the bit 1 for a single leaf. -/
def Shape.codes (t : Shape) : List (Byte × List Bool) :=
  t.paths.map fun e => (e.1, if t.size = 1 then [true] else e.2)

@[simp] theorem Shape.map_fst_codes (t : Shape) : t.codes.map Prod.fst = t.leaves := by
  rw [← t.map_fst_paths, Shape.codes, List.map_map]
  rfl

/-! ## The tree as it has been read (R276) -/

theorem Shape.heldAt_zero (t : Shape) : t.heldAt (t.nodesFrom 0) 0 := by
  simpa using t.heldAt_nodesFrom [] []

theorem treeEnded_tree (h : Huf) (t : Shape) :
    ({ h with nodes := t.nodesFrom 0 } : Huf).treeEnded.tree = if t.size = 1 then .leafRoot else .internalRoot := by
  cases t with
  | leaf sym => rfl
  | node left right => exact (if_neg (by simp [Shape.size_eq_one])).symm

theorem treeEnded_code (h : Huf) (t : Shape) :
    ({ h with nodes := t.nodesFrom 0 } : Huf).treeEnded.code = writeCodes [] t.codes := by
  cases t with
  | leaf sym => exact codified_leafRoot (w := 0) rfl rfl
  | node left right =>
    have hpaths : (Shape.node left right).codes = (Shape.node left right).paths := by
      simp [Shape.codes, Shape.size_eq_one]
    rw [hpaths]
    exact codified_internalRoot rfl (Shape.node left right).heldAt_zero (Shape.length_nodesFrom _ _).ge

theorem codeOf_eq {h : Huf} (ht : h.tree ≠ .empty) (b : Byte) : h.codeOf b = (Sparse.get h.code b.toNat).getD [] :=
  if_neg ht

theorem treeEnded_codeOf (h : Huf) (t : Shape) (b : Byte) :
    ({ h with nodes := t.nodesFrom 0 } : Huf).treeEnded.codeOf b =
      ((writeCodes [] t.codes).get b.toNat).getD [] := by
  rw [codeOf_eq, treeEnded_code]
  rw [treeEnded_tree]
  split <;> nofun

theorem Shape.encode_tokens (t : Shape) : t.tokens.flatMap (encode .tree) = t.bits := by
  induction t with
  | leaf sym => exact List.append_nil _
  | node left right ihl ihr =>
    rw [Shape.tokens, List.flatMap_cons, List.flatMap_append, ihl, ihr]
    rfl

/-- Settles O41: the tokens lay the tree out in pre-order, and the tree so held has its paths as codes. -/
theorem serializedTreesReadBack : Obligations.SerializedTreesReadBack := by
  intro t s hnodup hphase hnodes
  have hlegal : LegalTree (s.units.huf.nodes.map Node.symbol ++ t.symbols) := by
    rw [hnodes]
    exact Shape.legal hnodup
  have hrun := execAll_tokens t hphase (.root _) hlegal
  rw [hnodes] at hrun
  refine ⟨t.encode_tokens, _, hrun, rfl, rfl, t.heldAt_zero, t.length_nodesFrom 0, rfl, rfl, treeEnded_tree _ t,
    fun e he => ?_, fun b hb => ?_⟩
  · exact (treeEnded_codeOf _ t e.1).trans
      (writeCodes_get_mem (t.map_fst_codes ▸ hnodup) (List.mem_map_of_mem (f := fun e => (e.1, _)) he) _)
  · exact (treeEnded_codeOf _ t b).trans
      (congrArg (Option.getD · []) (writeCodes_get_other (t.map_fst_codes ▸ hb) _))

end Sys2Proof.Machine

namespace Sys2Proof.Machine

/-! # The mirror law (40_bitsource.md R205, R210) -/

/-! ## Bytes and bits -/

/-- Bits read back from the value they stand for. -/
theorem bitsOf_bitsValue (acc : Nat) (bits : List Bool) : bitsOf bits.length (bitsValue acc bits) = bits := by
  induction bits generalizing acc with
  | nil => rfl
  | cons b bits ih =>
    have hbit : (bitsValue acc (b :: bits)).testBit bits.length = b := by
      rw [bitsValue, bitsValue_eq, Nat.mul_comm, Nat.testBit_two_pow_mul_add _ (bitsValue_lt bits), if_neg (by omega),
        Nat.sub_self]
      cases b <;> simp
    rw [List.length_cons, bitsOf_succ, hbit, bitsValue, ih]

theorem bitsValue_replicate_false (acc n : Nat) : bitsValue acc (List.replicate n false) = acc * 2 ^ n := by
  induction n generalizing acc with
  | zero => simp [bitsValue]
  | succ n ih =>
    rw [List.replicate_succ, bitsValue, ih, Bool.toNat_false, pow_succ]
    ring

/-- The bits of a packed byte are those packed, then zeros (41_bitsink.md R237). -/
theorem byteBits_packByte {bits : List Bool} (h : bits.length ≤ 8) :
    byteBits (packByte bits) = bits ++ List.replicate (8 - bits.length) false := by
  obtain ⟨padded, hpadded⟩ : ∃ l, l = bits ++ List.replicate (8 - bits.length) false := ⟨_, rfl⟩
  have hlen : padded.length = 8 := by simp [hpadded, h]
  have hvalue : bitsValue 0 bits <<< (8 - bits.length) = bitsValue 0 padded := by
    rw [hpadded, bitsValue_append, bitsValue_replicate_false, Nat.shiftLeft_eq]
  have hlt : bitsValue 0 padded < 2 ^ 8 := hlen ▸ bitsValue_lt padded
  have hbits := bitsOf_bitsValue 0 padded
  rw [hlen] at hbits
  rw [byteBits, packByte, hvalue, BitVec.toNat_ofNat, Nat.mod_eq_of_lt hlt, hbits, hpadded]

/-- Packing loses no bit. -/
theorem flatMap_packFull (bits : List Bool) : (packFull bits).flatMap byteBits ++ packRest bits = bits := by
  induction bits using packRest.induct with
  | case1 x1 x2 x3 x4 x5 x6 x7 x8 rest ih =>
    have hbyte : byteBits (packByte [x1, x2, x3, x4, x5, x6, x7, x8]) = _ := byteBits_packByte (Nat.le_refl 8)
    rw [packFull, packRest, List.flatMap_cons, List.append_assoc, ih, hbyte]
    rfl
  | case2 bits h =>
    have hshort : bits.length < 8 := by
      by_contra hc
      obtain ⟨x1, x2, x3, x4, x5, x6, x7, x8, r, rfl⟩ := eight_or_more (a := bits) (by omega)
      exact h _ _ _ _ _ _ _ _ _ rfl
    rw [packFull_short hshort, packRest_short hshort]
    rfl

/-- The bytes of a bit string that is flushed: the whole ones, and the rest padded with zeros (41_bitsink.md R237). -/
def packed (bits : List Bool) : List Byte :=
  packFull bits ++ if packRest bits = [] then [] else [packByte (packRest bits)]

theorem length_flatMap_byteBits (bytes : List Byte) : (bytes.flatMap byteBits).length = 8 * bytes.length := by
  simp [List.length_flatMap, Nat.mul_comm]

/-- `ceil(n / 8)` bytes for `n` bits (41_bitsink.md R241). -/
theorem length_packed (bits : List Bool) : (packed bits).length = (bits.length + 7) / 8 := by
  have hsum : 8 * (packFull bits).length + (packRest bits).length = bits.length := by
    rw [← length_flatMap_byteBits, ← List.length_append, flatMap_packFull]
  have hrest := packRest_length bits
  rw [packed, List.length_append]
  split
  · next hnil => rw [hnil] at hsum; simp at hsum ⊢; omega
  · next hne => have := List.length_pos_iff.2 hne; simp; omega

/-- The bytes of a flushed bit string begin with its bits. -/
theorem prefix_packed (bits : List Bool) : bits <+: (packed bits).flatMap byteBits := by
  have hall := flatMap_packFull bits
  rw [packed, List.flatMap_append]
  split
  · next hnil =>
    rw [hnil] at hall
    rw [List.flatMap_nil, hall]
  · rw [List.flatMap_singleton, byteBits_packByte (packRest_length bits).le, ← List.append_assoc, hall]
    exact List.prefix_append ..

/-! ## Writing and reading fields -/

/-- The bits of a list of fields, each of a width and a value. -/
def fieldBits (fields : List (Nat × Nat)) : List Bool := fields.flatMap fun f => bitsOf f.1 f.2

theorem fieldBits_cons (f : Nat × Nat) (fields : List (Nat × Nat)) :
    fieldBits (f :: fields) = bitsOf f.1 f.2 ++ fieldBits fields := rfl

theorem length_fieldBits (fields : List (Nat × Nat)) : (fieldBits fields).length = (fields.map Prod.fst).sum := by
  simp [fieldBits, List.length_flatMap]

/-- Fields through a good sink to a willing consumer, and the flush after them (41_bitsink.md R241). -/
theorem writeFields_writable {u : Units} (h : u.writable) (fields : List (Nat × Nat)) :
    (writeFields fields).on u = .ok () (u.wrote (fieldBits fields)).flushedBits := by
  induction fields generalizing u with
  | nil => exact (snkFlush_writable h).trans (by rw [fieldBits, List.flatMap_nil, Units.wrote_nil h])
  | cons f fields ih =>
    rw [writeFields, M.run_bind_ok (snkPutBits_writable h _), ih (Units.wrote_writable h _), Units.wrote_wrote,
      fieldBits_cons]

/-- What the consumer has accepted of bits once they are flushed. -/
theorem wrote_flushedBits_events (u : Units) (bits : List Bool) :
    (u.wrote bits).flushedBits.out.events =
      u.out.events ++ (packed (u.snk.held ++ bits)).map OutEvent.byte ++ [OutEvent.flush] := by
  have hheld : (u.wrote bits).snk.held = packRest (u.snk.held ++ bits) := held_holding _ (packRest_length _)
  unfold Units.flushedBits packed
  rw [hheld]
  split
  · simp [Units.wrote, Units.emitted, Units.flushed]
  · simp [Units.wrote, Units.emitted, Units.flushed, Snk.holding]

/-- Fields that are ahead are read in order, each as its value's low bits, and the source stays good (R210). -/
theorem readFields_pending {u : Units} {fields : List (Nat × Nat)} {rest : List Bool} (h : u.readable)
    (hb : u.pendingBits = fieldBits fields ++ rest) :
    ∃ v, (readFields (fields.map Prod.fst)).on u = .ok (fields.map fun f => f.2 % 2 ^ f.1) v ∧ v.readable := by
  induction fields generalizing u with
  | nil => exact ⟨u, rfl, h⟩
  | cons f fields ih =>
    rw [fieldBits_cons, List.append_assoc] at hb
    obtain ⟨v, hv, ⟨-, hg, -⟩, hp, -⟩ := srcGetBits_pending 0 h hb
    rw [bitsOf_length, bitsValue_bitsOf] at hv
    obtain ⟨w, hw, hg'⟩ := ih hg hp
    exact ⟨w, by rw [List.map_cons, readFields, M.run_bind_ok hv, M.run_bind_ok hw]; rfl, hg'⟩

theorem bytesAhead_bytes (bytes : List Byte) (t : Terminal) :
    bytesAhead (bytes.map InItem.byte ++ [.stop t]) = bytes := by
  induction bytes with
  | nil => rfl
  | cons b bytes ih => exact congrArg (b :: ·) ih

/-- Settles O33: the fields' bits are packed, with zeros after them, and those bits are ahead of an empty source. -/
theorem mirrorLaw : Obligations.MirrorLaw := by
  intro fields u _ hw hpos
  have hheld : u.snk.held = [] := List.length_eq_zero_iff.1 (by rw [held_length, hpos]; rfl)
  refine ⟨packed (fieldBits fields), _, writeFields_writable hw fields, ?_, ?_, fun w hempty hg hopen hoffer => ?_⟩
  · rw [wrote_flushedBits_events, hheld, List.nil_append]
  · rw [length_packed, length_fieldBits]
  · have hpending : w.pendingBits = (packed (fieldBits fields)).flatMap byteBits := by
      rw [Units.pendingBits, heldBits_empty hempty, List.nil_append, InPort.ahead, if_pos hopen, hoffer,
        bytesAhead_bytes]
    obtain ⟨padding, hpad⟩ := prefix_packed (fieldBits fields)
    exact readFields_pending hg (hpending.trans hpad.symm)

/-- Settles O29: bits that are ahead are read in order, and the command completes with their value. -/
theorem srcGetBitsReturnsTheBitsAhead : Obligations.SrcGetBitsReturnsTheBitsAhead := by
  refine fun s bits rest hg hb => ⟨fun n h1 h32 hlen => ?_, fun b hbits => ?_⟩
  · obtain ⟨v, hv, hr, hp, -⟩ := srcGetBits_pending 0 hg hb
    rw [hlen] at hv
    exact ⟨v, hr, hp, exec_srcGetBits ((bitCountOk_iff n).2 ⟨h1, h32⟩) hv⟩
  · subst hbits
    obtain ⟨v, hv, hr, hp, -⟩ := srcGetBit_pending hg hb
    have hword : BitVec.ofNat 32 b.toNat = if b then 1 else 0 := by cases b <;> rfl
    exact ⟨v, hr, hp, hword ▸ exec_srcGetBit hv⟩

end Sys2Proof.Machine

namespace Sys2Proof.Machine

/-! # Packing bits into bytes (41_bitsink.md R232 to R238) -/

/-- SNK_PUT_BITS through a good sink to a willing consumer (R236). -/
theorem exec_snkPutBits_writable {s : State} (h : s.units.writable) {n : Byte} (hn : bitCountOk n = true) :
    exec (.snkPutBits n) s = .next (s.completed (s.units.wrote (bitsOf n.toNat s.arg.toNat))) := by
  refine runCommand_complete ?_
  rw [ruleSnkPutBits, if_pos hn]
  exact M.run_bind_ok (snkPutBits_writable h _)

/-- SNK_PUT_BITS of an illegal count, before any bit is put (30_encoding.md R122). -/
theorem exec_snkPutBits_badCount {s : State} {n : Byte} (hn : ¬ bitCountOk n = true) :
    exec (.snkPutBits n) s = .next (s.failed .badCommand s.units) := by
  refine runCommand_raise ?_
  rw [ruleSnkPutBits, if_neg hn]
  rfl

/-- Settles O31: each command is what the sink does with its bits, or with the flush, and then completes. -/
theorem snkPutBitsPacksTheBits : Obligations.SnkPutBitsPacksTheBits := by
  refine fun s n b hw => ⟨?bit, fun h1 h32 => ?bits, fun hn => ?badCount, ?flush⟩
  case bit => exact runCommand_complete (M.run_bind_ok (snkPutBit_writable hw b))
  case bits => exact exec_snkPutBits_writable hw ((bitCountOk_iff n).2 ⟨h1, h32⟩)
  case badCount => exact exec_snkPutBits_badCount (mt (bitCountOk_iff n).1 hn)
  case flush => exact runCommand_complete (M.run_bind_ok (snkFlush_writable hw))

end Sys2Proof.Machine

namespace Sys2Proof.Machine

/-! # The walk over a held tree (42_huffman.md R279 to R282, R320 to R322) -/

theorem child_internal {h : Huf} {l r : Option Nat} {w : Word} (hn : h.nodes[h.cursor]? = some (.internal l r w))
    (b : Bool) : h.child b = if b then r else l := by rw [Huf.child, hn]

/-- What a Huffman decoder does at a leaf of symbol `sym`: it emits the symbol, the walk starts anew, and the decode is
over after the `N`-th symbol (R322). -/
def Units.decoded (u : Units) (sym : Byte) (produced : Nat) : EStateM.Result Stop Units Next :=
  let v := ({ u with huf := u.huf.walkReset } : Units).emitted [sym]
  if produced + 1 < u.huf.total.toNat then .ok (.goto (.code (produced + 1))) v else .ok .complete v.flushed

section
variable {u : Units} {b : Bool} {c : Nat} {w : Word} {sym : Byte}

/-- A bit that leads to an internal node only moves the walk (R281). -/
theorem ruleHufCode_internal {l r : Option Nat} (ht : u.huf.tree ≠ .leafRoot) (hc : u.huf.child b = some c)
    (hn : u.huf.nodes[c]? = some (.internal l r w)) (bits : List Bool) (produced : Nat) :
    (ruleHufCode (b :: bits) produced).on u =
      (ruleHufCode bits produced).on { u with huf := { u.huf with cursor := c } } :=
  M.run_bind_ok (addBit_internal ht hc hn)

/-- A last bit that leads to a leaf (R322). -/
theorem ruleHufCode_leaf (ht : u.huf.tree ≠ .leafRoot) (hc : u.huf.child b = some c)
    (hn : u.huf.nodes[c]? = some (.leaf sym w)) (ho : u.out.accepts) (produced : Nat) :
    (ruleHufCode [b] produced).on u = u.decoded sym produced := by
  have hv : ({ u with huf := u.huf.walkReset } : Units).out.accepts := ho
  rw [ruleHufCode, M.run_bind_ok (addBit_leaf ht hc hn)]
  refine (M.run_bind_ok (emitByte_accepts hv sym)).trans ?_
  rw [M.run_look_bind, M.run_ite]
  rfl

/-- One edge down to a subtree, `rest` being the way to a leaf inside it. -/
theorem ruleHufCode_edge {t : Shape} {rest : List Bool} {produced : Nat} (ht : u.huf.tree ≠ .leafRoot)
    (hc : u.huf.child b = some c) (hheld : t.heldAt u.huf.nodes c) (hrest : (sym, rest) ∈ t.paths)
    (ho : u.out.accepts)
    (ih : rest ≠ [] → (ruleHufCode rest produced).on { u with huf := { u.huf with cursor := c } } =
      u.decoded sym produced) :
    (ruleHufCode (b :: rest) produced).on u = u.decoded sym produced := by
  cases t with
  | leaf x =>
    obtain ⟨rfl, rfl⟩ := Prod.mk.inj (List.mem_singleton.1 hrest)
    obtain ⟨w, hn⟩ := hheld
    exact ruleHufCode_leaf ht hc hn ho produced
  | node left right =>
    obtain ⟨l, r, w, hn, -⟩ := hheld
    have hne : rest ≠ [] := by
      rintro rfl
      simp [Shape.paths] at hrest
    exact (ruleHufCode_internal ht hc hn rest produced).trans (ih hne)

end

/-- The path of a leaf under the cursor decodes to the leaf's symbol (R281, R322). -/
theorem ruleHufCode_path {t : Shape} {u : Units} {sym : Byte} {path : List Bool} (ht : u.huf.tree ≠ .leafRoot)
    (hheld : t.heldAt u.huf.nodes u.huf.cursor) (hpath : (sym, path) ∈ t.paths) (hne : path ≠ [])
    (ho : u.out.accepts) (produced : Nat) : (ruleHufCode path produced).on u = u.decoded sym produced := by
  induction t generalizing u path with
  | leaf x => exact absurd (Prod.mk.inj (List.mem_singleton.1 hpath)).2 hne
  | node left right ihl ihr =>
    obtain ⟨l, r, w, hn, hl, hr⟩ := hheld
    have hchild (b : Bool) := child_internal hn b
    simp only [Shape.paths, List.mem_append, List.mem_map, Prod.mk.injEq, Prod.exists] at hpath
    rcases hpath with ⟨_, rest, hrest, rfl, rfl⟩ | ⟨_, rest, hrest, rfl, rfl⟩
    · exact ruleHufCode_edge ht (hchild false) hl hrest ho fun hne =>
        ihl (u := { u with huf := { u.huf with cursor := l } }) ht hl hrest hne ho
    · exact ruleHufCode_edge ht (hchild true) hr hrest ho fun hne =>
        ihr (u := { u with huf := { u.huf with cursor := r } }) ht hr hrest hne ho

/-- A token of code bits whose walk ends at a leaf. -/
theorem exec_hufCode_decoded {s : State} {produced : Nat} {bits : List Bool} {sym : Byte}
    (hphase : s.phase = .code produced) (h : (ruleHufCode bits produced).on s.units = s.units.decoded sym produced) :
    exec (.hufCode bits) s =
      let v := ({ s.units with huf := s.units.huf.walkReset } : Units).emitted [sym]
      .next (if produced + 1 < s.units.huf.total.toNat then s.goesOn (.code (produced + 1)) v
        else s.completed v.flushed) := by
  have hrule : hufCodeRule bits s.phase = some (ruleHufCode bits produced) := by rw [hphase]; rfl
  refine (runToken_eq hrule).trans ?_
  rw [h, Units.decoded]
  dsimp only
  split <;> rfl

/-- Settles O44: by induction on the tree, the path leads from the cursor to the leaf; the walk returns to the root,
where it was. -/
theorem codesDecodeToTheirSymbols : Obligations.CodesDecodeToTheirSymbols := by
  intro s t produced sym path hphase htree hcursor hheld hpath hne ho
  have hroot : s.units.huf.walkReset = s.units.huf := congrArg (fun c => { s.units.huf with cursor := c }) hcursor.symm
  have hon := ruleHufCode_path (by rw [htree]; nofun) (hcursor ▸ hheld) hpath hne ho produced
  have hexec := exec_hufCode_decoded hphase hon
  rwa [hroot] at hexec

/-! ## The walk's commands (R280, R282) -/

theorem ruleHufAddBit_on {u : Units} (h : u.huf.tree ≠ .empty) (bit : Bool) :
    (ruleHufAddBit bit).on u = (addBit bit >>= fun r => completeWith (walkResult r)).on u := by
  rw [ruleHufAddBit, M.run_look_bind, if_pos ((treeValid_iff _).2 h)]

/-- RESULT at a leaf: SYM_VALID and the symbol (10_state.md R35). -/
theorem walkResult_some (sym : Byte) : walkResult (some sym) = BitVec.ofNat 32 (256 + sym.toNat) := by
  have hlow : sym.toNat < 2 ^ 8 := sym.isLt
  refine BitVec.eq_of_toNat_eq ?_
  calc (walkResult (some sym)).toNat = 2 ^ 8 * 1 ||| sym.toNat := by
        change ((0#23 ++ 1#1 : BitVec 24) ++ sym).toNat = _
        rw [BitVec.toNat_append, Nat.shiftLeft_eq]
        rfl
    _ = (BitVec.ofNat 32 (256 + sym.toNat)).toNat := by
        rw [← Nat.two_pow_add_eq_or_of_lt hlow, BitVec.toNat_ofNat]
        omega

/-- Settles O42: each command by what the walk meets. -/
theorem walkCommandsFollowTheTree : Obligations.WalkCommandsFollowTheTree := by
  intro s bit
  dsimp only
  refine ⟨fun he => ?empty, fun hv => ?reset, fun hleaf => ?leafRoot, fun hroot l r w hn => ?descend⟩
  case empty =>
    have hinvalid : ¬ s.units.huf.treeValid = true := fun h => (treeValid_iff _).1 h he
    exact ⟨runCommand_raise (by rw [ruleHufWalkReset, M.run_look_bind, if_neg hinvalid]; rfl),
      runCommand_raise (by rw [ruleHufAddBit, M.run_look_bind, if_neg hinvalid]; rfl)⟩
  case reset =>
    exact runCommand_complete (by rw [ruleHufWalkReset, M.run_look_bind, if_pos ((treeValid_iff _).2 hv)]; rfl)
  case leafRoot =>
    exact runCommand_raise ((ruleHufAddBit_on (by rw [hleaf]; nofun) bit).trans
      (M.run_bind_error (addBit_leafRoot bit hleaf)))
  case descend =>
    have hrule := ruleHufAddBit_on (u := s.units) (by rw [hroot]; nofun) bit
    have htree : s.units.huf.tree ≠ .leafRoot := by rw [hroot]; nofun
    refine ⟨fun c sym v hc hleaf => ?_, fun c l' r' v hc hinner => ?_, fun hc => ?_⟩ <;>
      rw [← child_internal hn bit] at hc
    · rw [← walkResult_some]
      exact runCommand_complete (hrule.trans (M.run_bind_ok (addBit_leaf htree hc hleaf)))
    · exact runCommand_complete (hrule.trans (M.run_bind_ok (addBit_internal htree hc hinner)))
    · exact runCommand_raise (hrule.trans (M.run_bind_error (addBit_missing hc)))

/-! ## The tokens of a payload (R320 to R322) -/

theorem ruleHufHeader_pos {total : Word} (h : total ≠ 0) (u : Units) : (ruleHufHeader total).on u =
    .ok (.goto (.tree [] .payload))
      { u with huf := { u.huf with total := total, tree := .empty, nodes := [], code := [] } } := by
  rw [ruleHufHeader, M.run_bind_ok (run_updHuf _ u), if_neg h]
  rfl

/-- One step of the run of a single leaf (R321). -/
theorem leafRun_on {u : Units} {sym : Byte} {w : Word} (hn : u.huf.nodes[u.huf.root]? = some (.leaf sym w))
    (ho : u.out.accepts) (left : Nat) :
    (leafRun (left + 1)).on u = .ok (.goto (.leafRun left)) (u.emitted [sym]) := by
  rw [leafRun, M.run_look_bind, hn]
  exact M.run_bind_ok (emitByte_accepts ho sym)

/-- Settles O43: the header by its count, a bit by the node it leads to, the leaf run by what is left. -/
theorem huffmanTokensDecode : Obligations.HuffmanTokensDecode := by
  intro s
  refine ⟨fun hphase => ?header, fun produced bit l r w c hphase htree hn hc => ?code,
    fun left sym w hturn hbusy hcurrent hphase hleaf ho => ?leafRun⟩
  case header =>
    have hrule (total : Word) : hufHeaderRule total s.phase = some (ruleHufHeader total) := by rw [hphase]; rfl
    exact ⟨runToken_complete (hrule 0) rfl, fun total h => runToken_goto (hrule total) (ruleHufHeader_pos h _)⟩
  case code =>
    have hroot : s.units.huf.tree ≠ .leafRoot := by rw [htree]; nofun
    rw [← child_internal hn bit] at hc
    refine ⟨fun l' r' v hinner => ?_, fun sym v hleaf ho => ?_⟩
    · exact runToken_goto (p := ruleHufCode [bit] produced) (by rw [hphase]; rfl)
        (ruleHufCode_internal hroot hc hinner [] produced)
    · exact exec_hufCode_decoded hphase (ruleHufCode_leaf hroot hc hleaf ho produced)
  case leafRun =>
    have hencodes : s.encodes (.leafRun left) := ⟨hturn, hbusy, hcurrent, hphase⟩
    cases left with
    | zero => exact step_stretch_completes hencodes rfl rfl
    | succ left => exact step_stretch_goes hencodes rfl (leafRun_on hleaf ho left)

end Sys2Proof.Machine

namespace Sys2Proof.Machine

/-! # Counting and serializing (42_huffman.md R262 to R264, R274, R275) -/

/-- Settles O34: what `FreqAdd` does, and the counters after it. -/
theorem frequencyCommandsCount : Obligations.FrequencyCommandsCount := by
  intro s sym
  have hadd := freqAdd_on sym s.units
  refine ⟨fun _ hroom => ?_, fun hfull => ?_, runCommand_complete (M.run_look_bind _ _ _)⟩
  · rw [if_neg hroom] at hadd
    exact ⟨s.units.huf.counted sym, runCommand_complete (M.run_bind_ok hadd), rfl,
      fun b hb => Huf.count_counted_other _ hb, Huf.count_counted_same _ sym⟩
  · rw [if_pos hfull] at hadd
    exact runCommand_raise (M.run_bind_error hadd)

/-- Settles O39: no tree has no bits, and the bits of a held tree go through the sink. -/
theorem serializeWritesTheTree : Obligations.SerializeWritesTheTree := by
  refine fun s => ⟨fun hempty => ?_, fun t ht hheld hsize hw => ?_⟩
  · have hbits : s.units.huf.serialized = [] := by rw [Huf.serialized, hempty]
    have hon : serialize.on s.units = .ok () s.units := by
      rw [serialize, M.run_look_bind, hbits]
      rfl
    exact runCommand_complete (M.run_bind_ok hon)
  · have hon := serialize_writable hw
    rw [serialized_heldAt ht hheld hsize] at hon
    exact runCommand_complete (M.run_bind_ok hon)

end Sys2Proof.Machine

namespace Sys2Proof.Machine

/-! # The tokens of a tree in both uses (42_huffman.md R276, R277) -/

/-! ## The place of a new node -/

theorem getElem?_append_of_some {α : Type} {l : List α} {i : Nat} {x : α} (h : l[i]? = some x) (l' : List α) :
    (l ++ l')[i]? = some x := by
  rw [List.getElem?_append_left (List.getElem?_eq_some_iff.1 h).1, h]

section
variable {nodes : List Node} {p : Nat} {w : Word}

theorem attachChild_first {r : Option Nat} (h : nodes[p]? = some (.internal none r w)) (new : Node) (i : Nat)
    (rest : List Nat) : attachChild (nodes ++ [new]) i (p :: rest) =
      ((nodes ++ [new]).set p (.internal (some i) r w), p :: rest) := by
  have hp : (nodes ++ [new])[p]? = some (.internal none r w) := getElem?_append_of_some h [new]
  rw [attachChild, hp]

theorem attachChild_second {l : Nat} {r : Option Nat} (h : nodes[p]? = some (.internal (some l) r w)) (new : Node)
    (i : Nat) (rest : List Nat) : attachChild (nodes ++ [new]) i (p :: rest) =
      ((nodes ++ [new]).set p (.internal (some l) (some i) w), rest) := by
  have hp : (nodes ++ [new])[p]? = some (.internal (some l) r w) := getElem?_append_of_some h [new]
  rw [attachChild, hp]

end

/-! ## The symbols read before -/

theorem any_isLeafOf_eq_false {nodes : List Node} {sym : Byte} (h : ∀ w, Node.leaf sym w ∉ nodes) :
    nodes.any (Node.isLeafOf sym) = false := by
  refine Bool.eq_false_iff.2 fun hany => ?_
  obtain ⟨x, hx, hsym⟩ := List.mem_map.1 ((any_isLeafOf sym nodes).1 hany)
  cases x with
  | leaf a w => exact h w (by rwa [← Option.some.inj hsym])
  | internal l r w => cases hsym

/-! ## The whole tree -/

theorem treeEnded_leafRoot {h : Huf} {sym : Byte} {w : Word} (hn : h.nodes.head? = some (.leaf sym w)) :
    h.treeEnded.tree = .leafRoot := by
  simp [Huf.treeEnded, Huf.codified, hn]

theorem treeEnded_internalRoot {h : Huf} {l r : Option Nat} {w : Word}
    (hn : h.nodes.head? = some (.internal l r w)) : h.treeEnded.tree = .internalRoot := by
  simp [Huf.treeEnded, Huf.codified, hn]

theorem treeEnded_ne_empty (h : Huf) : h.treeEnded.tree ≠ .empty := by
  rcases hn : h.nodes.head? with _ | _ | _ <;> simp [Huf.treeEnded, Huf.codified, hn]

theorem afterTree_payload {h : Huf} (ht : h.tree ≠ .empty) :
    afterTree h .payload = .goto (if h.tree = .leafRoot then .leafRun h.total.toNat else .code 0) := by
  unfold afterTree
  cases hk : h.tree with
  | empty => exact absurd hk ht
  | leafRoot | internalRoot => rfl

/-- Settles O40: a malformed tree is refused before the node is made; any other node is attached where the stack says,
and the tree is whole where that leaves no node open. -/
theorem treeTokensBuildTheTree : Obligations.TreeTokensBuildTheTree := by
  intro s stack use hphase
  dsimp only
  have hinternal : treeInternalRule s.phase = some (ruleTreeInternal stack use) := by rw [hphase]; rfl
  have hleaf (sym : Byte) : treeLeafRule sym s.phase = some (ruleTreeLeaf sym stack use) := by rw [hphase]; rfl
  refine ⟨fun hmany => ?many, fun sym w hmem => ?again, fun new nodes' stack' hplace => ?_⟩
  case many =>
    exact runToken_raise hinternal (by rw [ruleTreeInternal, M.run_look_bind, if_pos hmany]; rfl)
  case again =>
    have hany : s.units.huf.nodes.any (Node.isLeafOf sym) = true :=
      (any_isLeafOf sym _).2 (List.mem_map_of_mem (f := Node.symbol) hmem)
    exact runToken_raise (hleaf sym) (by rw [ruleTreeLeaf, M.run_look_bind, if_pos hany]; rfl)
  have hattach : attachChild (s.units.huf.nodes ++ [new]) s.units.huf.nodes.length stack = (nodes', stack') := by
    rcases hplace with ⟨rfl, rfl, rfl⟩ | ⟨p, rest, r, w, rfl, hp, rfl, rfl⟩ | ⟨p, rest, l, r, w, rfl, hp, rfl, rfl⟩
    · rfl
    · exact attachChild_first hp new _ rest
    · exact attachChild_second hp new _ _
  refine ⟨?internal, fun sym hnew hfresh => ?leaf⟩
  case internal =>
    rintro rfl hroom
    exact runToken_goto hinternal ((ruleTreeInternal_on use hroom).trans (addTreeNode_internal use hattach))
  subst hnew
  have hrule := ruleTreeLeaf_on (stack := stack) use (any_isLeafOf_eq_false hfresh)
  refine ⟨fun hopen => ?_, fun hwhole => ?_⟩
  · obtain ⟨p, rest, rfl⟩ := List.exists_cons_of_ne_nil hopen
    exact runToken_goto (hleaf sym) (hrule.trans (addTreeNode_leaf use hattach))
  · subst hwhole
    have hon := hrule.trans (addTreeNode_lastLeaf use hattach)
    refine ⟨({ s.units.huf with nodes := nodes' } : Huf).treeEnded, rfl, fun a w hn => treeEnded_leafRoot hn,
      fun l r w hn => treeEnded_internalRoot hn, ?_⟩
    cases use with
    | command => exact runToken_complete (hleaf sym) hon
    | payload =>
      rw [afterTree_payload (treeEnded_ne_empty _)] at hon
      exact runToken_goto (hleaf sym) hon

end Sys2Proof.Machine

namespace Sys2Proof.Machine

/-! # The leaves of the tree HUF_BUILD makes (42_huffman.md R265, R266, R268) -/

/-- A canonical table reads exactly what it lists. -/
theorem Sparse.get_eq_some_iff {α : Type} {m : Sparse α} (h : m.wf) {k : Nat} {v : α} :
    m.get k = some v ↔ (k, v) ∈ m := by
  induction m with
  | nil => simp [Sparse.get]
  | cons e m ih =>
    obtain ⟨a, x⟩ := e
    obtain ⟨hlt, hm⟩ := Sparse.wf_cons.1 h
    rw [Sparse.get, List.mem_cons, Prod.mk.injEq]
    by_cases hk : a = k
    · subst hk
      have hnot : (a, v) ∉ m := fun hmem => Nat.lt_irrefl a (hlt _ hmem)
      simp [hnot, eq_comm]
    · rw [if_neg hk, ih hm]
      simp [Ne.symm hk]

/-- The byte values that occur, in ascending order. -/
def Huf.occurring (h : Huf) : List Nat := (List.range 256).filter fun b => h.count (BitVec.ofNat 8 b) ≠ 0

/-- The leaf of a byte value. -/
def Huf.leafOf (h : Huf) (b : Nat) : Node := .leaf (BitVec.ofNat 8 b) (h.count (BitVec.ofNat 8 b))

theorem Huf.mem_occurring {h : Huf} {b : Nat} : b ∈ h.occurring ↔ b < 256 ∧ h.count (BitVec.ofNat 8 b) ≠ 0 := by
  simp [Huf.occurring]

theorem Huf.occurring_pairwise (h : Huf) : h.occurring.Pairwise (· < ·) := List.pairwise_lt_range.filter _

/-- The keys of a canonical frequency table are the byte values that occur. -/
theorem Huf.keys_eq_occurring {h : Huf} (hw : h.TablesWf) : h.freq.map Prod.fst = h.occurring := by
  refine hw.freq.eq_of_mem_iff h.occurring_pairwise fun b => ?_
  rw [Huf.mem_occurring, List.mem_map]
  constructor
  · rintro ⟨⟨b, v⟩, hmem, rfl⟩
    obtain ⟨hb, hv⟩ := hw.counters _ hmem
    refine ⟨hb, ?_⟩
    rwa [Huf.count, BitVec.toNat_ofNat, Nat.mod_eq_of_lt hb, (Sparse.get_eq_some_iff hw.freq).2 hmem]
  · rintro ⟨hb, hv⟩
    rw [Huf.count, BitVec.toNat_ofNat, Nat.mod_eq_of_lt hb] at hv
    cases hget : Sparse.get h.freq b with
    | none => exact absurd (by rw [hget]; rfl) hv
    | some v => exact ⟨(b, v), (Sparse.get_eq_some_iff hw.freq).1 hget, rfl⟩

/-- The leaves are those of the byte values that occur, in ascending order (R268). -/
theorem Huf.leaves_eq {h : Huf} (hw : h.TablesWf) : h.leaves = h.occurring.map h.leafOf := by
  have hall : (h.freq.filter fun e => e.2 ≠ 0) = h.freq :=
    List.filter_eq_self.2 fun e he => by simpa using (hw.counters e he).2
  rw [Huf.leaves, hall, ← Huf.keys_eq_occurring hw, List.map_map]
  refine List.map_congr_left fun e he => ?_
  have hcount : h.count (BitVec.ofNat 8 e.1) = e.2 := by
    rw [Huf.count, BitVec.toNat_ofNat, Nat.mod_eq_of_lt (hw.counters e he).1,
      (Sparse.get_eq_some_iff hw.freq).2 he]
    rfl
  rw [Function.comp_apply, Huf.leafOf, hcount]

theorem Huf.occurring_none {h : Huf} (hz : ∀ b, h.count b = 0) : h.occurring = [] := by
  simp [Huf.occurring, hz]

theorem Huf.occurring_one {h : Huf} {sym : Byte} (hs : h.count sym ≠ 0) (hz : ∀ b, b ≠ sym → h.count b = 0) :
    h.occurring = [sym.toNat] := by
  refine h.occurring_pairwise.eq_of_mem_iff (List.pairwise_singleton _ _) fun b => ?_
  rw [Huf.mem_occurring, List.mem_singleton]
  constructor
  · rintro ⟨hb, hc⟩
    have hsym : BitVec.ofNat 8 b = sym := by_contra fun hne => hc (hz _ hne)
    rw [← hsym, BitVec.toNat_ofNat, Nat.mod_eq_of_lt hb]
  · rintro rfl
    exact ⟨sym.isLt, by rwa [BitVec.ofNat_toNat, BitVec.setWidth_eq]⟩

theorem exec_hufBuild (s : State) :
    exec .hufBuild s = .next (s.completed { s.units with huf := s.units.huf.built }) :=
  runCommand_complete (M.run_bind_ok (run_hufBuild s.units))

/-- Settles O35: the table lists no leaf, or one. -/
theorem buildOfSmallTables : Obligations.BuildOfSmallTables := by
  intro s hmem
  have hleaves := Huf.leaves_eq ((memWf_iff _).1 hmem).2
  refine ⟨fun hz => ?none, fun sym hs hz => ?one⟩ <;> rw [exec_hufBuild]
  case none =>
    rw [Huf.occurring_none hz] at hleaves
    simp [Huf.built, Huf.treeBuilt, hleaves, Huf.codified, Huf.walkReset]
  case one =>
    rw [Huf.occurring_one hs hz] at hleaves
    simp [Huf.built, Huf.treeBuilt, hleaves, Huf.leafOf, Huf.codified, Huf.walkReset, Sparse.write, Sparse.set]

end Sys2Proof.Machine

namespace Sys2Proof.Machine

/-! # The merges of HUF_BUILD (42_huffman.md R267, R268) -/

/-- The internal node made of nodes `a` and `b`. -/
def mergedNode (nodes : List Node) (a b : Nat) : Node :=
  .internal (some a) (some b) (addWeights (weightAt nodes a) (weightAt nodes b))

/-- `a` and then `b` leave the queue first, and `rest` stays. -/
structure TakesTwo (nodes : List Node) (queue : List Nat) (a b : Nat) (rest : List Nat) : Prop where
  perm : queue.Perm (a :: b :: rest)
  left : ∀ i ∈ queue, i ≠ a → leavesBefore nodes a i = true
  right : ∀ i ∈ queue, i ≠ a → i ≠ b → leavesBefore nodes b i = true

/-- A queue of two or more loses its two least elements and gains the node made of them. -/
theorem mergeNodes_step {nodes : List Node} {queue : List Nat} (hq : 2 ≤ queue.length) :
    ∃ a b rest, TakesTwo nodes queue a b rest ∧ ∀ fuel, mergeNodes (fuel + 1) queue nodes =
      mergeNodes fuel (nodes.length :: rest) (nodes ++ [mergedNode nodes a b]) := by
  match queue, hq with
  | i :: more, hq =>
    obtain ⟨a, ha⟩ : ∃ a, a = leastKey nodes i more := ⟨_, rfl⟩
    have hamem : a ∈ i :: more := ha ▸ leastKey_mem nodes i more
    have hperm := List.perm_cons_erase hamem
    match herase : (i :: more).erase a with
    | [] =>
      rw [herase] at hperm
      have := hperm.length_eq
      simp only [List.length_cons, List.length_nil] at this hq
      omega
    | j :: more' =>
      rw [herase] at hperm
      obtain ⟨b, hb⟩ : ∃ b, b = leastKey nodes j more' := ⟨_, rfl⟩
      have hbmem : b ∈ j :: more' := hb ▸ leastKey_mem nodes j more'
      refine ⟨a, b, (j :: more').erase b, ⟨hperm.trans ((List.perm_cons_erase hbmem).cons a), fun x hx hne => ?_,
        fun x hx hna hnb => ?_⟩, fun fuel => ?_⟩
      · rw [ha] at hne ⊢
        exact leastKey_least nodes i more x hx hne
      · rw [hb] at hnb ⊢
        exact leastKey_least nodes j more' x (herase ▸ (List.mem_erase_of_ne hna).2 hx) hnb
      · simp only [mergeNodes, ← ha, herase, ← hb]
        rfl

/-- What every merge keeps holds when one node is left in the queue. -/
theorem mergeNodes_induct {P : List Nat → List Node → Prop}
    (hstep : ∀ {queue nodes a b rest}, P queue nodes → TakesTwo nodes queue a b rest →
      P (nodes.length :: rest) (nodes ++ [mergedNode nodes a b]))
    {fuel : Nat} {queue : List Nat} {nodes : List Node} (h : P queue nodes) (hne : queue ≠ [])
    (hf : queue.length ≤ fuel) : ∃ root, P [root] (mergeNodes fuel queue nodes) := by
  induction fuel generalizing queue nodes with
  | zero => exact absurd (List.length_eq_zero_iff.1 (Nat.le_zero.1 hf)) hne
  | succ fuel ih =>
    by_cases hq : 2 ≤ queue.length
    · obtain ⟨a, b, rest, htakes, hmerge⟩ := mergeNodes_step (nodes := nodes) hq
      have hlen := htakes.perm.length_eq
      simp only [List.length_cons] at hlen
      rw [hmerge]
      exact ih (hstep h htakes) (List.cons_ne_nil _ _) (by rw [List.length_cons]; omega)
    · obtain ⟨i, rfl⟩ := List.length_eq_one_iff.1
        (by have := List.length_pos_iff.2 hne; omega : queue.length = 1)
      exact ⟨i, by simpa [mergeNodes, leastKey] using h⟩

/-! ## Nodes that are added leave the earlier ones alone -/

section
variable {nodes nodes' : List Node} {i j a b : Nat}

theorem getElem?_prefix (hp : nodes <+: nodes') (hi : i < nodes.length) : nodes'[i]? = nodes[i]? := by
  obtain ⟨more, rfl⟩ := hp
  exact List.getElem?_append_left hi

theorem weightAt_prefix (hp : nodes <+: nodes') (hi : i < nodes.length) : weightAt nodes' i = weightAt nodes i := by
  rw [weightAt, getElem?_prefix hp hi, weightAt]

theorem leavesBefore_prefix (hp : nodes <+: nodes') (hi : i < nodes.length) (hj : j < nodes.length) :
    leavesBefore nodes' i j = leavesBefore nodes i j := by
  rw [leavesBefore, weightAt_prefix hp hi, weightAt_prefix hp hj, leavesBefore]

theorem mergedNode_prefix (hp : nodes <+: nodes') (ha : a < nodes.length) (hb : b < nodes.length) :
    mergedNode nodes' a b = mergedNode nodes a b := by
  rw [mergedNode, weightAt_prefix hp ha, weightAt_prefix hp hb, mergedNode]

theorem queuedAt_prefix (hp : nodes <+: nodes') (hj : j ≤ nodes.length) :
    queuedAt nodes' j i ↔ queuedAt nodes j i := by
  have hchild : childBelow nodes' i j ↔ childBelow nodes i j :=
    exists_congr fun m => exists_congr fun l => exists_congr fun r => exists_congr fun w =>
      and_congr_right fun hm => by rw [getElem?_prefix hp (Nat.lt_of_lt_of_le hm hj)]
  rw [queuedAt, hchild, queuedAt]

/-- The children below the next index are the earlier ones and those of the new node. -/
theorem childBelow_append (w : Word) : childBelow (nodes ++ [.internal (some a) (some b) w]) i (nodes.length + 1) ↔
    childBelow nodes i nodes.length ∨ i = a ∨ i = b := by
  constructor
  · rintro ⟨m, l, r, v, hm, hn, hchild⟩
    rcases Nat.lt_succ_iff_lt_or_eq.1 hm with hm | rfl
    · rw [List.getElem?_append_left hm] at hn
      exact .inl ⟨m, l, r, v, hm, hn, hchild⟩
    · rw [List.getElem?_concat_length] at hn
      cases hn
      exact .inr (by simpa [eq_comm] using hchild)
  · rintro (⟨m, l, r, v, hm, hn, hchild⟩ | h)
    · exact ⟨m, l, r, v, by omega, getElem?_append_of_some hn _, hchild⟩
    · exact ⟨nodes.length, some a, some b, w, by omega, List.getElem?_concat_length,
        by simpa [eq_comm] using h⟩

end

/-! ## Which nodes are merged (R267) -/

/-- Of the nodes queued when node `j` is made, `a` is the least and `b` the least of the others (R268). -/
structure LeastTwo (nodes : List Node) (j a b : Nat) : Prop where
  ne : a ≠ b
  left : queuedAt nodes j a
  right : queuedAt nodes j b
  leftLeast : ∀ i, queuedAt nodes j i → i ≠ a → leavesBefore nodes a i = true
  rightLeast : ∀ i, queuedAt nodes j i → i ≠ a → i ≠ b → leavesBefore nodes b i = true

theorem LeastTwo.of_prefix {nodes nodes' : List Node} {j a b : Nat} (h : LeastTwo nodes j a b) (hp : nodes <+: nodes')
    (hj : j ≤ nodes.length) : LeastTwo nodes' j a b := by
  have hlt {i : Nat} (hi : queuedAt nodes j i) : i < nodes.length := Nat.lt_of_lt_of_le hi.1 hj
  refine ⟨h.ne, (queuedAt_prefix hp hj).2 h.left, (queuedAt_prefix hp hj).2 h.right, fun i hi hne => ?_,
    fun i hi hna hnb => ?_⟩ <;> rw [queuedAt_prefix hp hj] at hi
  · rw [leavesBefore_prefix hp (hlt h.left) (hlt hi)]
    exact h.leftLeast i hi hne
  · rw [leavesBefore_prefix hp (hlt h.right) (hlt hi)]
    exact h.rightLeast i hi hna hnb

/-- Node `j` is made of the two least of the nodes queued then. -/
def MergedAt (nodes : List Node) (j : Nat) : Prop :=
  ∃ a b, nodes[j]? = some (mergedNode nodes a b) ∧ LeastTwo nodes j a b

theorem MergedAt.of_prefix {nodes nodes' : List Node} {j : Nat} (h : MergedAt nodes j) (hp : nodes <+: nodes') :
    MergedAt nodes' j := by
  obtain ⟨a, b, hn, hleast⟩ := h
  have hj : j < nodes.length := (List.getElem?_eq_some_iff.1 hn).1
  refine ⟨a, b, ?_, hleast.of_prefix hp hj.le⟩
  rw [getElem?_prefix hp hj, hn, mergedNode_prefix hp (hleast.left.1.trans hj) (hleast.right.1.trans hj)]

/-- Between two merges: the queue holds the nodes without a parent, every node's children stand below it, and every
node after the leaves was made of the two least. -/
structure Merging (leaves : List Node) (queue : List Nat) (nodes : List Node) : Prop where
  base : leaves <+: nodes
  length : nodes.length + queue.length = 2 * leaves.length
  nodup : queue.Nodup
  queued : ∀ i, i ∈ queue ↔ queuedAt nodes nodes.length i
  children : ∀ i, childBelow nodes i nodes.length → i < nodes.length
  merged : ∀ j, leaves.length ≤ j → j < nodes.length → MergedAt nodes j

/-- At the start every node is a leaf, and all are in the queue. -/
theorem Merging.start {leaves : List Node} (h : ∀ x ∈ leaves, x.isInternal = false) :
    Merging leaves (List.range leaves.length) leaves := by
  have hnone (i : Nat) : ¬ childBelow leaves i leaves.length := by
    rintro ⟨m, l, r, w, -, hn, -⟩
    exact absurd (h _ (List.mem_of_getElem? hn)) (by simp [Node.isInternal])
  exact ⟨List.prefix_rfl, by simp; omega, List.nodup_range, fun i => by simp [queuedAt, hnone],
    fun i hi => absurd hi (hnone i), fun j hj hlt => absurd hlt (by omega)⟩

theorem Merging.step {leaves nodes : List Node} {queue rest : List Nat} {a b : Nat} (h : Merging leaves queue nodes)
    (ht : TakesTwo nodes queue a b rest) :
    Merging leaves (nodes.length :: rest) (nodes ++ [mergedNode nodes a b]) := by
  have hp : nodes <+: nodes ++ [mergedNode nodes a b] := List.prefix_append _ _
  obtain ⟨⟨hab, ha⟩, hb, hrest⟩ : (a ≠ b ∧ a ∉ rest) ∧ b ∉ rest ∧ rest.Nodup := by
    simpa using ht.perm.nodup_iff.1 h.nodup
  have hmem (i : Nat) : i ∈ queue ↔ i = a ∨ i = b ∨ i ∈ rest := by simp [ht.perm.mem_iff]
  have hlt {i : Nat} (hi : i ∈ queue) : i < nodes.length := ((h.queued i).1 hi).1
  have hqa : a ∈ queue := (hmem a).2 (.inl rfl)
  have hqb : b ∈ queue := (hmem b).2 (.inr (.inl rfl))
  have hchild (i : Nat) : childBelow (nodes ++ [mergedNode nodes a b]) i (nodes.length + 1) ↔
      childBelow nodes i nodes.length ∨ i = a ∨ i = b := childBelow_append _
  have hleast : LeastTwo nodes nodes.length a b :=
    ⟨hab, (h.queued a).1 hqa, (h.queued b).1 hqb, fun i hi => ht.left i ((h.queued i).2 hi),
      fun i hi => ht.right i ((h.queued i).2 hi)⟩
  refine ⟨h.base.trans hp, ?length, ?nodup, fun i => ?queued, fun i hi => ?children, fun j hj hlt' => ?merged⟩
  case length =>
    have := h.length
    have := ht.perm.length_eq
    simp only [List.length_append, List.length_cons, List.length_nil] at *
    omega
  case nodup =>
    exact List.nodup_cons.2 ⟨fun hn => Nat.lt_irrefl _ (hlt ((hmem _).2 (.inr (.inr hn)))), hrest⟩
  case queued =>
    rw [List.length_append, List.length_singleton, queuedAt, hchild, List.mem_cons]
    constructor
    · rintro (rfl | hi)
      · refine ⟨Nat.lt_succ_self _, ?_⟩
        rintro (hc | hn | hn)
        · exact Nat.lt_irrefl _ (h.children _ hc)
        · exact (hlt hqa).ne' hn
        · exact (hlt hqb).ne' hn
      · obtain ⟨hi', hnc⟩ := (h.queued i).1 ((hmem i).2 (.inr (.inr hi)))
        refine ⟨Nat.lt_succ_of_lt hi', ?_⟩
        rintro (hc | rfl | rfl)
        · exact hnc hc
        · exact ha hi
        · exact hb hi
    · rintro ⟨hi, hnc⟩
      rw [not_or, not_or] at hnc
      obtain ⟨hnc, hna, hnb⟩ := hnc
      rcases Nat.lt_succ_iff_lt_or_eq.1 hi with hi | hi
      · exact .inr ((((hmem i).1 ((h.queued i).2 ⟨hi, hnc⟩)).resolve_left hna).resolve_left hnb)
      · exact .inl hi
  case children =>
    rw [List.length_append, List.length_singleton] at hi ⊢
    rcases (hchild i).1 hi with hi | rfl | rfl
    · exact Nat.lt_succ_of_lt (h.children i hi)
    · exact Nat.lt_succ_of_lt (hlt hqa)
    · exact Nat.lt_succ_of_lt (hlt hqb)
  case merged =>
    rw [List.length_append, List.length_singleton] at hlt'
    rcases Nat.lt_succ_iff_lt_or_eq.1 hlt' with hj' | rfl
    · exact (h.merged j hj hj').of_prefix hp
    · exact ⟨a, b, by rw [List.getElem?_concat_length, mergedNode_prefix hp (hlt hqa) (hlt hqb)],
        hleast.of_prefix hp le_rfl⟩

end Sys2Proof.Machine

namespace Sys2Proof.Machine

/-! # The tree HUF_BUILD makes of two symbols or more (42_huffman.md R267 to R271) -/

/-- The node memory after the merges. -/
def Huf.mergedNodes (h : Huf) : List Node := mergeNodes h.leaves.length (List.range h.leaves.length) h.leaves

/-- The Huffman state with that tree. -/
def Huf.mergedTree (h : Huf) : Huf :=
  { h with nodes := h.mergedNodes, root := h.mergedNodes.length - 1, tree := .internalRoot }

theorem Huf.treeBuilt_eq_mergedTree {h : Huf} (h2 : 2 ≤ h.leaves.length) : h.treeBuilt = h.mergedTree := by
  unfold Huf.treeBuilt Huf.mergedTree Huf.mergedNodes
  generalize h.leaves = leaves at h2 ⊢
  match leaves, h2 with
  | _ :: _ :: _, _ => rfl

/-- What the merges keep from the leaves in a full queue on holds of the whole node memory. -/
theorem Huf.mergedNodes_induct {P : List Nat → List Node → Prop} {h : Huf} (h2 : 2 ≤ h.leaves.length)
    (hstart : P (List.range h.leaves.length) h.leaves)
    (hstep : ∀ {queue nodes a b rest}, P queue nodes → TakesTwo nodes queue a b rest →
      P (nodes.length :: rest) (nodes ++ [mergedNode nodes a b])) : ∃ root, P [root] h.mergedNodes :=
  mergeNodes_induct hstep hstart (List.ne_nil_of_length_pos (by rw [List.length_range]; omega))
    List.length_range.le

theorem Huf.leaves_isInternal {h : Huf} : ∀ x ∈ h.leaves, x.isInternal = false := by
  intro x hx
  obtain ⟨e, -, rfl⟩ := List.mem_map.1 hx
  rfl

/-- Settles O36: what the merges keep (`Merging`), where one node is left in the queue. -/
theorem buildMergesTheTwoLeast : Obligations.BuildMergesTheTwoLeast := by
  intro s k hmem hk h2
  have hleaves := Huf.leaves_eq ((memWf_iff _).1 hmem).2
  have hlen : s.units.huf.leaves.length = k := by rw [hleaves, List.length_map, hk]; rfl
  rw [← hlen] at h2
  obtain ⟨root, hmerging⟩ := Huf.mergedNodes_induct h2 (Merging.start Huf.leaves_isInternal) Merging.step
  have hcount : s.units.huf.mergedNodes.length + 1 = 2 * k := hlen ▸ hmerging.length
  have htake : s.units.huf.mergedNodes.take k = s.units.huf.leaves :=
    hlen ▸ (List.prefix_iff_eq_take.1 hmerging.base).symm
  rw [exec_hufBuild, Huf.built, Huf.treeBuilt_eq_mergedTree h2]
  refine ⟨_, rfl, rfl, rfl, rfl, Nat.eq_sub_of_add_eq hcount, ?_, rfl, htake.trans hleaves, fun j hj hlt => ?_⟩
  · change s.units.huf.mergedNodes.length - 1 = 2 * k - 2
    omega
  · obtain ⟨a, b, hn, hleast⟩ := hmerging.merged j (hlen.trans_le hj) (by omega)
    exact ⟨a, b, hleast.ne, hn, hleast.left, hleast.right, hleast.leftLeast, hleast.rightLeast⟩

/-! ## The forest of the queue (R267) -/

theorem Shape.heldAt.lt_length {nodes : List Node} {t : Shape} {i : Nat} (h : t.heldAt nodes i) : i < nodes.length := by
  cases t with
  | leaf sym => obtain ⟨w, hn⟩ := h; exact (List.getElem?_eq_some_iff.1 hn).1
  | node left right => obtain ⟨l, r, w, hn, -⟩ := h; exact (List.getElem?_eq_some_iff.1 hn).1

theorem Shape.heldAt.append {nodes : List Node} {t : Shape} {i : Nat} (h : t.heldAt nodes i) (more : List Node) :
    t.heldAt (nodes ++ more) i := by
  induction t generalizing i with
  | leaf sym =>
    obtain ⟨w, hn⟩ := h
    exact ⟨w, getElem?_append_of_some hn more⟩
  | node left right ihl ihr =>
    obtain ⟨l, r, w, hn, hl, hr⟩ := h
    exact ⟨l, r, w, getElem?_append_of_some hn more, ihl hl, ihr hr⟩

/-- Between two merges every node in the queue is the root of a tree; these trees take up the whole node memory, and
their leaves are the symbols. The newest node is in the queue. -/
structure Forest (symbols : List Byte) (tree : Nat → Shape) (queue : List Nat) (nodes : List Node) : Prop where
  held : ∀ i ∈ queue, (tree i).heldAt nodes i
  size : (queue.map fun i => (tree i).size).sum = nodes.length
  leaves : (queue.flatMap fun i => (tree i).leaves).Perm symbols
  newest : nodes.length - 1 ∈ queue

/-- The trees after a merge. -/
def mergedTrees (tree : Nat → Shape) (n a b : Nat) : Nat → Shape :=
  Function.update tree n (.node (tree a) (tree b))

theorem Forest.step {symbols : List Byte} {tree : Nat → Shape} {nodes : List Node} {queue rest : List Nat} {a b : Nat}
    (h : Forest symbols tree queue nodes) (ht : TakesTwo nodes queue a b rest) :
    Forest symbols (mergedTrees tree nodes.length a b) (nodes.length :: rest) (nodes ++ [mergedNode nodes a b]) := by
  have hheld (i : Nat) (hi : i ∈ a :: b :: rest) : (tree i).heldAt nodes i := h.held i (ht.perm.mem_iff.2 hi)
  have hnew : mergedTrees tree nodes.length a b nodes.length = .node (tree a) (tree b) := Function.update_self ..
  have hold (i : Nat) (hi : i ∈ rest) : mergedTrees tree nodes.length a b i = tree i :=
    Function.update_of_ne (hheld i (by simp [hi])).lt_length.ne _ _
  refine ⟨fun i hi => ?held, ?size, ?leaves, by simp⟩
  case held =>
    rcases List.mem_cons.1 hi with rfl | hi
    · rw [hnew]
      exact ⟨a, b, _, List.getElem?_concat_length, (hheld a (by simp)).append _,
        (hheld b (by simp)).append _⟩
    · rw [hold i hi]
      exact (hheld i (by simp [hi])).append _
  case size =>
    have hsum := (ht.perm.map fun i => (tree i).size).sum_eq.symm.trans h.size
    rw [List.map_cons, hnew, List.map_congr_left fun i hi => congrArg Shape.size (hold i hi)]
    simp only [List.map_cons, List.sum_cons, Shape.size, List.length_append, List.length_singleton] at hsum ⊢
    omega
  case leaves =>
    refine List.Perm.trans (.of_eq ?_) ((ht.perm.flatMap_right fun i => (tree i).leaves).symm.trans h.leaves)
    rw [List.flatMap_cons, hnew, List.flatMap_congr fun i hi => congrArg Shape.leaves (hold i hi)]
    simp [Shape.leaves]

/-- Before the first merge every tree is a leaf. -/
theorem Forest.start (h : Huf) {bytes : List Nat} (hne : bytes ≠ []) :
    Forest (bytes.map (BitVec.ofNat 8)) (fun i => .leaf (BitVec.ofNat 8 (bytes.getD i 0))) (List.range bytes.length)
      (bytes.map h.leafOf) := by
  have hpos : 0 < bytes.length := List.length_pos_iff.2 hne
  refine ⟨fun i hi => ?held, by simp [Shape.size], .of_eq ?leaves, by simp; omega⟩
  case held =>
    rw [List.mem_range] at hi
    exact ⟨h.count (BitVec.ofNat 8 bytes[i]), by simp [hi, Huf.leafOf]⟩
  case leaves =>
    simp only [Shape.leaves, ← List.map_eq_flatMap]
    refine List.ext_getElem (by simp) fun i hi _ => ?_
    have hlt : i < bytes.length := by simpa using hi
    simp [hlt]

/-! ## The codes of the tree (R270) -/

/-- Where there are two leaves no path is empty. -/
theorem Shape.path_ne_nil {t : Shape} (ht : 2 ≤ t.leaves.length) {e : Byte × List Bool} (he : e ∈ t.paths) :
    e.2 ≠ [] := by
  cases t with
  | leaf sym => simp [Shape.leaves] at ht
  | node left right =>
    rcases List.mem_append.1 he with he | he <;>
    · obtain ⟨x, -, rfl⟩ := List.mem_map.1 he
      exact List.cons_ne_nil _ _

/-- The codes are the paths of the tree at the root, and no other symbol has one. -/
theorem codified_codeOf {h : Huf} {t : Shape} (htree : h.tree = .internalRoot) (ht : t.heldAt h.nodes h.root)
    (hsize : t.size ≤ h.nodes.length) (hnodup : t.leaves.Nodup) :
    (∀ e ∈ t.paths, h.codified.codeOf e.1 = e.2) ∧ ∀ b, b ∉ t.leaves → h.codified.codeOf b = [] := by
  have hcode (b : Byte) : h.codified.codeOf b = ((writeCodes [] t.paths).get b.toNat).getD [] := by
    rw [codeOf_eq (by rw [Huf.codified, htree]; nofun), codified_internalRoot htree ht hsize]
  rw [← t.map_fst_paths] at hnodup ⊢
  exact ⟨fun e he => (hcode e.1).trans (writeCodes_get_mem hnodup he _),
    fun b hb => (hcode b).trans (congrArg (Option.getD · []) (writeCodes_get_other hb _))⟩

theorem Huf.mem_occurring_bytes {h : Huf} {b : Byte} : b ∈ h.occurring.map (BitVec.ofNat 8) ↔ h.count b ≠ 0 := by
  rw [List.mem_map]
  constructor
  · rintro ⟨n, hn, rfl⟩
    exact (Huf.mem_occurring.1 hn).2
  · intro hb
    have hofNat : BitVec.ofNat 8 b.toNat = b := by simp
    exact ⟨b.toNat, Huf.mem_occurring.2 ⟨b.isLt, hofNat.symm ▸ hb⟩, hofNat⟩

theorem Huf.occurring_bytes_nodup (h : Huf) : (h.occurring.map (BitVec.ofNat 8)).Nodup := by
  refine List.Nodup.map_on (fun a ha b hb hab => ?_) (h.occurring_pairwise.imp Nat.ne_of_lt)
  have hab := congrArg BitVec.toNat hab
  rwa [BitVec.toNat_ofNat, BitVec.toNat_ofNat, Nat.mod_eq_of_lt (Huf.mem_occurring.1 ha).1,
    Nat.mod_eq_of_lt (Huf.mem_occurring.1 hb).1] at hab

/-- Two symbols that occur are two leaves at least. -/
theorem Huf.two_le_occurring {h : Huf} {x y : Byte} (hne : x ≠ y) (hx : h.count x ≠ 0) (hy : h.count y ≠ 0) :
    2 ≤ h.occurring.length := by
  have hpair : [x, y] ⊆ h.occurring.map (BitVec.ofNat 8) := by
    simp [Huf.mem_occurring_bytes.2 hx, Huf.mem_occurring_bytes.2 hy]
  have hnodup : [x, y].Nodup := by simpa using hne
  simpa using (hnodup.subperm hpair).length_le

/-- One tree of the forest is left at the end, and it takes up the whole node memory. -/
theorem Huf.mergedTree_held {h : Huf} (hw : h.TablesWf) (h2 : 2 ≤ h.leaves.length) :
    ∃ t : Shape, t.heldAt h.mergedTree.nodes h.mergedTree.root ∧ t.size = h.mergedTree.nodes.length ∧
      t.leaves.Perm (h.occurring.map (BitVec.ofNat 8)) := by
  have hlen : h.leaves.length = h.occurring.length := by rw [Huf.leaves_eq hw, List.length_map]
  have hstart := Forest.start h (List.ne_nil_of_length_pos (by omega : 0 < h.occurring.length))
  rw [← Huf.leaves_eq hw, ← hlen] at hstart
  obtain ⟨root, tree, hforest⟩ := Huf.mergedNodes_induct
    (P := fun queue nodes => ∃ tree, Forest (h.occurring.map (BitVec.ofNat 8)) tree queue nodes)
    h2 ⟨_, hstart⟩ fun ⟨_, hf⟩ ht => ⟨_, hf.step ht⟩
  obtain rfl : h.mergedNodes.length - 1 = root := List.mem_singleton.1 hforest.newest
  exact ⟨tree (h.mergedNodes.length - 1), hforest.held _ hforest.newest,
    by simpa [Huf.mergedTree] using hforest.size, by simpa using hforest.leaves⟩

/-- Settles O37: the codes are the paths of the one tree that the merges leave. -/
theorem builtTreeCodesEverySymbol : Obligations.BuiltTreeCodesEverySymbol := by
  intro s x y hmem hxy hx hy
  have hw := ((memWf_iff _).1 hmem).2
  have htwo := Huf.two_le_occurring hxy hx hy
  have h2 : 2 ≤ s.units.huf.leaves.length := by rwa [Huf.leaves_eq hw, List.length_map]
  obtain ⟨t, hheld, hsize, hperm⟩ := Huf.mergedTree_held hw h2
  have hlength : 2 ≤ t.leaves.length := by rwa [hperm.length_eq, List.length_map]
  have hnodup : t.leaves.Nodup := hperm.nodup_iff.2 (Huf.occurring_bytes_nodup _)
  have hsymbols (b : Byte) : b ∈ t.leaves ↔ s.units.huf.count b ≠ 0 := hperm.mem_iff.trans Huf.mem_occurring_bytes
  obtain ⟨hpaths, hothers⟩ := codified_codeOf rfl hheld hsize.le hnodup
  rw [exec_hufBuild, Huf.built, Huf.treeBuilt_eq_mergedTree h2]
  exact ⟨_, t, rfl, hheld, hsize, hnodup, hsymbols, fun e he => ⟨Shape.path_ne_nil hlength he, hpaths e he⟩,
    fun b hb => hothers b fun hl => (hsymbols b).1 hl hb⟩

end Sys2Proof.Machine

namespace Sys2Proof.Machine

/-! # The match search (43_lz77.md R336, R337) -/

/-- The comparison from byte `len` on: it goes as far as the bytes agree and the fuel lasts. -/
theorem Lz77.matchLen_spec (z : Lz77) (p fuel len : Nat) :
    z.matchLen p fuel len ≤ len + fuel ∧
      (∀ k, len ≤ k → k < z.matchLen p fuel len → z.winAt (p + k) = z.winAt (z.ls + k)) ∧
      (z.matchLen p fuel len < len + fuel →
        z.winAt (p + z.matchLen p fuel len) ≠ z.winAt (z.ls + z.matchLen p fuel len)) := by
  induction fuel generalizing len with
  | zero => exact ⟨le_rfl, fun k h h' => absurd h' (Nat.not_lt.2 h), fun h => absurd h (lt_irrefl _)⟩
  | succ fuel ih =>
    rw [Lz77.matchLen]
    split
    next hagree =>
      obtain ⟨hle, hbytes, hstop⟩ := ih (len + 1)
      refine ⟨by omega, fun k hk hlt => ?_, fun h => hstop (by omega)⟩
      rcases hk.eq_or_lt with rfl | hk
      · exact hagree
      · exact hbytes k hk hlt
    next hdiffer => exact ⟨by omega, fun k h h' => absurd h' (Nat.not_lt.2 h), fun _ => hdiffer⟩

/-- `m` is the length and the offset of the longest match of the first `n` offsets, the first one that has it; length 0
where there is no match. -/
def Lz77.FirstLongest (z : Lz77) (n : Nat) (m : Nat × Nat) : Prop :=
  (∀ off < n, z.matchLen (z.ss + off) z.rem 0 ≤ m.1) ∧
    (0 < m.1 → m.2 < n ∧ z.matchLen (z.ss + m.2) z.rem 0 = m.1 ∧
      ∀ off < m.2, z.matchLen (z.ss + off) z.rem 0 < m.1)

/-- Only a strictly longer match replaces the best. -/
theorem Lz77.FirstLongest.next {z : Lz77} {n : Nat} {m : Nat × Nat} (h : z.FirstLongest n m) :
    z.FirstLongest (n + 1) (if m.1 < z.matchLen (z.ss + n) z.rem 0 then (z.matchLen (z.ss + n) z.rem 0, n) else m) := by
  obtain ⟨hmax, hfirst⟩ := h
  split
  next hlonger =>
    refine ⟨fun off hoff => ?_, fun _ => ⟨Nat.lt_succ_self n, rfl, fun off hoff => (hmax off hoff).trans_lt hlonger⟩⟩
    rcases Nat.lt_succ_iff_lt_or_eq.1 hoff with hoff | rfl
    · exact (hmax off hoff).trans hlonger.le
    · exact le_rfl
  next hshorter =>
    refine ⟨fun off hoff => ?_, fun hpos => ?_⟩
    · rcases Nat.lt_succ_iff_lt_or_eq.1 hoff with hoff | rfl
      · exact hmax off hoff
      · exact Nat.not_lt.1 hshorter
    · obtain ⟨hlt, hrest⟩ := hfirst hpos
      exact ⟨hlt.trans (Nat.lt_succ_self n), hrest⟩

theorem Lz77.FirstLongest.scan {z : Lz77} {off : Nat} {best : Nat × Nat} (h : z.FirstLongest off best) (count : Nat) :
    z.FirstLongest (off + count) (z.scan count off best) := by
  induction count generalizing off best with
  | zero => exact h
  | succ count ih =>
    exact Nat.add_right_comm off 1 count ▸ ih h.next

theorem Lz77.findMatch_firstLongest (z : Lz77) : z.FirstLongest z.csize z.findMatch := by
  have start : z.FirstLongest 0 (0, 0) := ⟨fun _ h => absurd h (Nat.not_lt_zero _), fun h => absurd h (lt_irrefl 0)⟩
  exact Nat.zero_add z.csize ▸ start.scan z.csize

/-- Settles O50: the comparison stops at the first byte that differs, and the scan keeps the first longest match. -/
theorem matchSearchFindsTheFirstLongest : Obligations.MatchSearchFindsTheFirstLongest := by
  intro z
  obtain ⟨hmax, hfirst⟩ := z.findMatch_firstLongest
  refine ⟨fun off => ?_, hmax, hfirst, rfl⟩
  obtain ⟨hle, hbytes, hstop⟩ := z.matchLen_spec (z.ss + off) z.rem 0
  rw [Nat.zero_add] at hle hstop
  exact ⟨hle, fun k hk => hbytes k (Nat.zero_le k) hk, hstop⟩

end Sys2Proof.Machine

namespace Sys2Proof.Machine

/-! # The headers of the LZ decoders (43_lz77.md R351, 44_lz78.md R382, 45_lzw.md R406) -/

/-- A header token whose rule checks its parameters and then goes on; `format` and `limit` say what is checked. -/
theorem runToken_checkHeader {s : State} {i : Instr} {f : Phase → Option (M Next)} {a : Alg} {p1 p2 : BitVec 5}
    {rest : M Next} {q : Phase} {v : Units} {format : Prop} [Decidable format] {limit : Nat}
    (hrule : f s.phase = some (checkHeader s.cfg a p1 p2 >>= fun _ => rest))
    (hrest : rest.on { s.units with detect := { s.units.detect with p1 := p1, p2 := p2 } } = .ok (.goto q) v)
    (hformat : paramsInFormat a p1.toNat p2.toNat = true ↔ format)
    (hlimit : headerInLimits s.cfg a p1.toNat = true ↔ p1.toNat ≤ limit) :
    runToken i f s = .next (
      if ¬ format then
        s.failed .headerInvalid { s.units with detect := { s.units.detect with p1 := p1, p2 := p2 } }
      else if limit < p1.toNat then
        s.failed .capacityExceeded { s.units with detect := { s.units.detect with p1 := p1, p2 := p2 } }
      else s.goesOn q v) := by
  have hcheck := checkHeader_eq s.cfg a p1 p2 s.units
  by_cases hf : format
  · rw [if_pos (hformat.2 hf)] at hcheck
    rw [if_neg (not_not_intro hf)]
    by_cases hl : limit < p1.toNat
    · rw [if_neg (mt hlimit.1 (Nat.not_le.2 hl))] at hcheck
      rw [if_pos hl]
      exact runToken_raise hrule (M.run_bind_error hcheck)
    · rw [if_pos (hlimit.2 (Nat.not_lt.1 hl))] at hcheck
      rw [if_neg hl]
      exact runToken_goto hrule ((M.run_bind_ok hcheck).trans hrest)
  · rw [if_neg (mt hformat.1 hf)] at hcheck
    rw [if_pos hf]
    exact runToken_raise hrule (M.run_bind_error hcheck)

/-- Settles O46: the three headers differ in their range, their limit and what starts after the check. -/
theorem lzHeadersAreChecked : Obligations.LzHeadersAreChecked := by
  refine fun s p1 p2 => ⟨fun hphase => ?lz77, fun hphase => ?lz78, fun hphase => ?lzw⟩
  case lz77 =>
    exact runToken_checkHeader (f := lz77HeaderRule s.cfg p1 p2) (by rw [hphase]; rfl) rfl lz77_inFormat_iff
      decide_eq_true_iff
  case lz78 =>
    exact runToken_checkHeader (f := lz78HeaderRule s.cfg p1 p2) (by rw [hphase]; rfl) rfl lz78_inFormat_iff
      decide_eq_true_iff
  case lzw =>
    exact runToken_checkHeader (f := lzwHeaderRule s.cfg p1 p2) (by rw [hphase]; rfl) rfl lzw_inFormat_iff
      decide_eq_true_iff

end Sys2Proof.Machine

namespace Sys2Proof.Machine

/-! # The records of the LZ77 decoder (43_lz77.md R334, R352, R353) -/

/-! ## The copy of a match (R352) -/

/-- The unit once the first `n` bytes of a match at position `pos` have been copied to `LS` and on. -/
def Lz77.copied (z : Lz77) (pos : Nat) : Nat → Lz77
  | 0 => z
  | n + 1 => (z.copied pos n).winSet (z.ls + n) ((z.copied pos n).winAt (z.ss + pos + n))

/-- Byte `i` of a match at position `pos`: it is read when the bytes before it have been written. -/
def Lz77.matchByte (z : Lz77) (pos i : Nat) : Byte := (z.copied pos i).winAt (z.ss + pos + i)

/-- The copy writes window bytes and nothing else. -/
theorem Lz77.copied_eq (z : Lz77) (pos n : Nat) : z.copied pos n = { z with win := (z.copied pos n).win } := by
  induction n with
  | zero => rfl
  | succ n ih => rw [Lz77.copied, Lz77.winSet, ih]

@[simp] theorem Lz77.copied_windowSize (z : Lz77) (pos n : Nat) : (z.copied pos n).windowSize = z.windowSize := by
  rw [z.copied_eq pos n]
  rfl

@[simp] theorem Lz77.copied_ss (z : Lz77) (pos n : Nat) : (z.copied pos n).ss = z.ss := by rw [z.copied_eq pos n]

@[simp] theorem Lz77.copied_ls (z : Lz77) (pos n : Nat) : (z.copied pos n).ls = z.ls := by rw [z.copied_eq pos n]

/-- With a willing consumer the copy, `i` bytes of it made, writes and emits the next `count`. -/
theorem lz77Copy_accepts {u : Units} (z : Lz77) (pos count i : Nat) (hz : u.lz77 = z.copied pos i)
    (h : u.out.accepts) : (lz77Copy pos count i).on u =
      .ok () (({ u with lz77 := z.copied pos (i + count) } : Units).emitted
        ((List.range' i count).map (z.matchByte pos))) := by
  induction count generalizing u i with
  | zero => rw [Nat.add_zero, ← hz]; exact congrArg _ (Units.emitted_nil u).symm
  | succ count ih =>
    have hbyte : u.lz77.winAt (u.lz77.ss + pos + i) = z.matchByte pos i := by
      rw [hz, Lz77.copied_ss, Lz77.matchByte]
    have hset : u.lz77.winSet (u.lz77.ls + i) (z.matchByte pos i) = z.copied pos (i + 1) := by
      rw [hz, Lz77.copied_ls, Lz77.copied, Lz77.matchByte]
    let v : Units := { u with lz77 := z.copied pos (i + 1) }
    have hv : v.out.accepts := h
    have hon := ih (u := v.emitted [z.matchByte pos i]) (i + 1) rfl (Units.emitted_accepts hv _)
    rw [lz77Copy, M.run_look_bind, hbyte, M.run_bind_ok (run_updLz77 _ _), hset, M.run_bind_ok (emitByte_accepts hv _),
      hon, Nat.add_right_comm i 1 count]
    exact congrArg _ (Units.emitted_emitted { u with lz77 := z.copied pos (i + (count + 1)) } [z.matchByte pos i] _)

/-! ## The record (R334, R352) -/

/-- The bytes of a match. -/
def Lz77.matchBytes (z : Lz77) (pos len : Nat) : List Byte := (List.range len).map (z.matchByte pos)

/-- The unit after a record: the window with the match and its next byte, and the cursors of `Advance`. -/
def Lz77.recorded (z : Lz77) (len pos : Nat) (c : Byte) : Lz77 :=
  { z.advanced len with win := ((z.copied pos len).winSet (z.ls + len) c).win }

theorem Lz77.advanced_copied (z : Lz77) (len pos : Nat) (c : Byte) :
    ((z.copied pos len).winSet (z.ls + len) c).advanced len = z.recorded len pos c := by
  rw [Lz77.recorded, z.copied_eq pos len]
  rfl

theorem Lz77.winAt_recorded (z : Lz77) (len pos : Nat) (c : Byte) (a : Nat) :
    (z.recorded len pos c).winAt a = ((z.copied pos len).winSet (z.ls + len) c).winAt a := by
  rw [← Lz77.advanced_copied]
  rfl

/-- With a willing consumer a record emits the bytes of its match and its next byte. -/
theorem lz77Record_accepts {u : Units} (h : u.out.accepts) (len pos : Nat) (c : Byte) :
    (lz77Record len pos c).on u = .ok (.goto (if u.lz77.rem ≤ len + 1 then .block .lz77 else .record .lz77))
      (({ u with lz77 := u.lz77.recorded len pos c } : Units).emitted (u.lz77.matchBytes pos len ++ [c])) := by
  have hcopy := lz77Copy_accepts u.lz77 pos len 0 rfl h
  rw [Nat.zero_add, ← List.range_eq_range'] at hcopy
  let stored : Units := { u with lz77 := (u.lz77.copied pos len).winSet (u.lz77.ls + len) c }
  have hout : (stored.emitted (u.lz77.matchBytes pos len)).out.accepts := Units.emitted_accepts (u := stored) h _
  have hrem : (u.lz77.recorded len pos c).rem = 0 ↔ u.lz77.rem ≤ len + 1 := Nat.sub_eq_zero_iff_le
  rw [lz77Record, M.run_bind_ok hcopy, M.run_bind_ok (run_updLz77 _ _), Units.emitted_lz77, Lz77.copied_ls]
  refine (M.run_bind_ok (emitByte_accepts hout c)).trans ((M.run_bind_ok (run_updLz77 _ _)).trans ?_)
  rw [M.run_look_bind, M.run_ite, ← Units.emitted_emitted]
  simp only [stored, Units.emitted_lz77, Lz77.advanced_copied, hrem]
  split <;> rfl

/-! ## The window (20_memory.md R101) -/

section
variable {z : Lz77} {pos n a b : Nat}

/-- The window is addressed modulo its size. -/
theorem Lz77.winAt_congr (h : a % z.windowSize = b % z.windowSize) : z.winAt a = z.winAt b := by
  rw [Lz77.winAt, h, Lz77.winAt]

/-- The places from `LS` on are distinct, once round the window. -/
theorem Lz77.lookahead_inj {j k : Nat} (h : (z.ls + j) % z.windowSize = (z.ls + k) % z.windowSize)
    (hj : j < z.windowSize) (hk : k < z.windowSize) : j = k :=
  (Nat.ModEq.add_left_cancel' z.ls h).eq_of_lt_of_lt hj hk

/-- The copy leaves every place alone but the ones it writes. -/
theorem Lz77.winAt_copied_outside (h : ∀ k < n, a % z.windowSize ≠ (z.ls + k) % z.windowSize) :
    (z.copied pos n).winAt a = z.winAt a := by
  induction n with
  | zero => rfl
  | succ n ih =>
    rw [Lz77.copied, Lz77.winAt_winSet_other]
    · exact ih fun k hk => h k (hk.trans (Nat.lt_succ_self n))
    · rw [Lz77.copied_windowSize]
      exact h n (Nat.lt_succ_self n)

/-- The bytes of a match stand in the window from `LS` on. -/
theorem Lz77.winAt_copied_inside {k : Nat} (hk : k < n) (hn : n ≤ z.windowSize) :
    (z.copied pos n).winAt (z.ls + k) = z.matchByte pos k := by
  induction n with
  | zero => exact absurd hk (Nat.not_lt_zero k)
  | succ n ih =>
    rcases Nat.lt_succ_iff_lt_or_eq.1 hk with hlt | rfl
    · rw [Lz77.copied, Lz77.winAt_winSet_other]
      · exact ih hlt (by omega)
      · rw [Lz77.copied_windowSize]
        exact fun h => hlt.ne (Lz77.lookahead_inj h (by omega) (by omega))
    · exact Lz77.winAt_winSet_same _ _ _

/-- The search region and a whole lookahead fit the window side by side (R331). -/
theorem Lz77.search_lookahead_fit (h : z.geometry) : z.csize + z.lookaheadSize ≤ z.windowSize := by
  obtain ⟨_, hcsize, _⟩ := h
  exact Nat.add_le_add_right hcsize _

/-- The search region ends where the lookahead begins (R331): its places follow those of the lookahead round the
window. -/
theorem Lz77.searchPlace_eq (h : z.geometry) (j : Nat) :
    (z.ss + j) % z.windowSize = (z.ls + (z.windowSize - z.csize + j)) % z.windowSize := by
  have hle : z.csize ≤ z.windowSize := (Nat.le_add_right _ _).trans (Lz77.search_lookahead_fit h)
  obtain ⟨_, _, _, _, _, hss⟩ := h
  rw [hss, Nat.mod_add_mod, Nat.add_sub_assoc hle, Nat.add_assoc]

/-- Inside the search region a match reads what was there before it (R352). -/
theorem Lz77.matchByte_region (h : z.geometry) {i : Nat} (hi : i < z.lookaheadSize) (hpos : pos + i < z.csize) :
    z.matchByte pos i = z.winAt (z.ss + pos + i) := by
  have hroom := Lz77.search_lookahead_fit h
  refine Lz77.winAt_copied_outside fun k hk hplace => ?_
  rw [Nat.add_assoc, Lz77.searchPlace_eq h] at hplace
  have hsame := Lz77.lookahead_inj hplace (by omega) (by omega)
  omega

/-- Past the search region a match reads a byte it has written itself (R352). -/
theorem Lz77.matchByte_overlap (h : z.geometry) {i : Nat} (hi : i < z.lookaheadSize) (hpos : pos < z.csize)
    (hpast : z.csize ≤ pos + i) : z.matchByte pos i = z.matchByte pos (pos + i - z.csize) := by
  have hroom := Lz77.search_lookahead_fit h
  have hplace : (z.ss + pos + i) % z.windowSize = (z.ls + (pos + i - z.csize)) % z.windowSize := calc
    (z.ss + pos + i) % z.windowSize = (z.ls + (z.windowSize - z.csize + (pos + i))) % z.windowSize := by
      rw [Nat.add_assoc, Lz77.searchPlace_eq h]
    _ = (z.ls + (pos + i - z.csize) + z.windowSize) % z.windowSize := by congr 1; omega
    _ = (z.ls + (pos + i - z.csize)) % z.windowSize := Nat.add_mod_right _ _
  have hread : (z.copied pos i).winAt (z.ls + (pos + i - z.csize)) = z.matchByte pos (pos + i - z.csize) :=
    Lz77.winAt_copied_inside (by omega) (by omega)
  exact (Lz77.winAt_congr (by rwa [Lz77.copied_windowSize])).trans hread

/-- A record leaves the other places of the window as they were. -/
theorem Lz77.winAt_recorded_outside {len : Nat} {c : Byte}
    (h : ∀ k ≤ len, a % z.windowSize ≠ (z.ls + k) % z.windowSize) : (z.recorded len pos c).winAt a = z.winAt a := by
  rw [Lz77.winAt_recorded, Lz77.winAt_winSet_other]
  · exact Lz77.winAt_copied_outside fun k hk => h k hk.le
  · rw [Lz77.copied_windowSize]
    exact h len le_rfl

/-- The bytes of a record stand in the window from `LS` on. -/
theorem Lz77.winAt_recorded_inside {len k : Nat} {c : Byte} (hk : k ≤ len) (hlen : len < z.windowSize) :
    (z.matchBytes pos len ++ [c])[k]? = some ((z.recorded len pos c).winAt (z.ls + k)) := by
  rw [Lz77.winAt_recorded]
  rcases hk.lt_or_eq with hlt | rfl
  · have hother : (z.ls + k) % (z.copied pos len).windowSize ≠ (z.ls + len) % (z.copied pos len).windowSize := by
      rw [Lz77.copied_windowSize]
      exact fun h => hlt.ne (Lz77.lookahead_inj h (by omega) hlen)
    rw [Lz77.winAt_winSet_other _ _ hother, Lz77.winAt_copied_inside hlt hlen.le]
    simp [Lz77.matchBytes, List.getElem?_append_left, hlt]
  · rw [Lz77.winAt_winSet_same]
    simp [Lz77.matchBytes]

end

/-- The bytes of a match are those of the search region from its position on, then its own (R352). -/
theorem Lz77.matchBytes_getElem? {z : Lz77} {pos len i : Nat} (h : z.geometry) (hlen : len < z.lookaheadSize)
    (hpos : pos < z.csize) (hi : i < len) : (z.matchBytes pos len)[i]? =
      if pos + i < z.csize then some (z.winAt (z.ss + pos + i)) else (z.matchBytes pos len)[pos + i - z.csize]? := by
  have hget {k : Nat} (hk : k < len) : (z.matchBytes pos len)[k]? = some (z.matchByte pos k) := by
    simp [Lz77.matchBytes, hk]
  rw [hget hi]
  split
  next hregion => rw [Lz77.matchByte_region h (hi.trans hlen) hregion]
  next hpast => rw [hget (by omega), Lz77.matchByte_overlap h (hi.trans hlen) hpos (Nat.not_lt.1 hpast)]

/-! ## The tokens -/

/-- Settles O48: a literal is a record with an empty match. -/
theorem lz77LiteralExtendsTheWindow : Obligations.Lz77LiteralExtendsTheWindow :=
  fun s b hphase ho => runToken_goto (f := lz77LiteralRule b) (by rw [hphase]; rfl)
    (lz77Record_accepts (u := s.units) ho 0 0 b)

/-- Settles O49: the two checks, then the record, whose copy reads the bytes it has written where it runs past the
search region. -/
theorem lz77MatchCopiesFromTheWindow : Obligations.Lz77MatchCopiesFromTheWindow := by
  intro s len pos b hphase
  have hrule : lz77MatchRule len pos b s.phase = some (ruleLz77Match len pos b) := by rw [hphase]; rfl
  refine ⟨fun h0 hpos => ?outside, fun hpos hrem => ?tooLong, fun hpos hrem hsize hgeo ho => ?record⟩
  case outside =>
    exact runToken_raise hrule (by rw [ruleLz77Match, M.run_look_bind, if_pos ⟨h0, hpos⟩]; rfl)
  case tooLong =>
    exact runToken_raise hrule (by rw [ruleLz77Match, M.run_look_bind, if_neg (by omega), if_pos hrem]; rfl)
  case record =>
    have hon := (ruleLz77Match_legal hpos hrem b).trans (lz77Record_accepts ho len pos b)
    have hlen : len < s.units.lz77.lookaheadSize := Nat.lt_of_lt_of_le hrem hsize
    have hwindow : len < s.units.lz77.windowSize := hlen.trans_le (Nat.le_add_left _ _)
    have hend : s.units.lz77.rem ≤ len + 1 ↔ s.units.lz77.rem = len + 1 := ⟨fun h => h.antisymm hrem, Eq.le⟩
    simp only [hend] at hon
    refine ⟨s.units.lz77.matchBytes pos len, s.units.lz77.recorded len pos b, runToken_goto hrule hon, ?_,
      fun i hi => Lz77.matchBytes_getElem? hgeo hlen (by omega) hi, rfl, rfl, rfl, rfl, rfl, rfl, rfl, rfl,
      fun k hk => Lz77.winAt_recorded_inside hk hwindow, fun a ha hother => Lz77.winAt_recorded_outside fun k hk => ?_⟩
    · simp [Lz77.matchBytes]
    · rw [Nat.mod_eq_of_lt ha]
      exact hother k hk

end Sys2Proof.Machine

namespace Sys2Proof.Machine

/-! # LZ78 records (44_lz78.md R375 to R377, R383) -/

/-! ## What encoder and decoder do alike (R377) -/

/-- `u` after a record `(w, c)` of `n` bytes: `DZ.I` has advanced, and the pair is the next entry where there is room
and the block goes on. -/
def Units.recorded (u : Units) (w : Option Nat) (c : Byte) (n : Nat) : Units :=
  { u with
    dz := { u.dz with i := u.dz.i + n }
    dict := if u.dz.i + n < u.dz.cnt ∧ u.dict.length < u.dz.cap then u.dict ++ [.pair w c] else u.dict }

/-- Encoder and decoder end a record with the same two steps. -/
theorem advance_insert (w : Option Nat) (c : Byte) (n : Nat) (rest : M Next) (u : Units) :
    (do
      updDz fun z => { z with i := z.i + n }
      insertInBlock w c
      rest : M Next).on u = rest.on (u.recorded w c n) := by
  rw [M.run_bind_ok (run_updDz _ _), M.run_bind_ok (insertInBlock_eq w c _)]
  rfl

/-- From the same dictionary and counters the same record leaves the same dictionary (R385). -/
theorem Units.recorded_dict_congr {u v : Units} (hdict : v.dict = u.dict) (hdb : v.dz.db = u.dz.db)
    (hcnt : v.dz.cnt = u.dz.cnt) (hi : v.dz.i = u.dz.i) (w : Option Nat) (c : Byte) (n : Nat) :
    (v.recorded w c n).dict = (u.recorded w c n).dict := by
  have hroom : (v.dz.i + n < v.dz.cnt ∧ v.dict.length < v.dz.cap) ↔
      u.dz.i + n < u.dz.cnt ∧ u.dict.length < u.dz.cap := by
    simp only [Dz.cap, hdict, hdb, hcnt, hi]
  exact if_congr hroom (by rw [hdict]) hdict

/-! ## The decoder (R383) -/

theorem nextRecord_on (a : Lz) (u : Units) :
    (nextRecord a).on u = .ok (.goto (if u.dz.i < u.dz.cnt then .record a else .block a)) u := by
  rw [nextRecord, M.run_look_bind]
  split <;> rfl

section
variable {s : State} {u : Units} {w : Option Nat} {c : Byte} {bytes : List Byte}

theorem lz78Record_too_long (h : u.dz.cnt < u.dz.i + (phraseOf u.dict w ++ [c]).length) :
    (lz78Record w c).on u = .error (.raise .headerInvalid) u := by
  rw [lz78Record, M.run_look_bind, M.run_look_bind, if_pos h]
  rfl

/-- A record that fits the block, before a willing consumer. -/
theorem lz78Record_accepts (hbytes : phraseOf u.dict w ++ [c] = bytes) (h : u.dz.i + bytes.length ≤ u.dz.cnt)
    (ho : u.out.accepts) : (lz78Record w c).on u =
      .ok (.goto (if u.dz.i + bytes.length < u.dz.cnt then .record .lz78 else .block .lz78))
        ((u.emitted bytes).recorded w c bytes.length) := by
  subst hbytes
  rw [lz78Record, M.run_look_bind, M.run_look_bind, if_neg (Nat.not_lt.2 h), M.run_bind_ok (emitBytes_accepts ho _),
    advance_insert, nextRecord_on]
  rfl

theorem exec_phraseToken_beyond {index : Nat} (hphase : s.phase = .record .lz78) (h : s.units.dict.length ≤ index) :
    exec (phraseToken (some index) c) s = .next (s.failed .dictionaryIndex s.units) := by
  refine runToken_raise (p := ruleLz78Phrase index c) (by rw [hphase]; rfl) ?_
  rw [ruleLz78Phrase, M.run_look_bind, if_pos h]
  rfl

/-- The token of a legal record runs the record. -/
theorem exec_phraseToken (hphase : s.phase = .record .lz78) (h : ∀ index ∈ w, index < s.units.dict.length) :
    ∃ n, exec (phraseToken w c) s =
      .next (s.afterStretch (some (phraseToken w c)) n ((lz78Record w c).on s.units)) := by
  cases w with
  | none => exact ⟨_, runToken_eq (by rw [hphase]; rfl)⟩
  | some index =>
    have hrule : (ruleLz78Phrase index c).on s.units = (lz78Record (some index) c).on s.units := by
      rw [ruleLz78Phrase, M.run_look_bind, if_neg (Nat.not_le.2 (h index rfl))]
    rw [← hrule]
    exact ⟨_, runToken_eq (by rw [hphase]; rfl)⟩

theorem exec_phraseToken_accepts (hphase : s.phase = .record .lz78) (h : ∀ index ∈ w, index < s.units.dict.length)
    (hbytes : phraseOf s.units.dict w ++ [c] = bytes) (hfits : s.units.dz.i + bytes.length ≤ s.units.dz.cnt)
    (ho : s.units.out.accepts) : exec (phraseToken w c) s =
      .next (s.goesOn (if s.units.dz.i + bytes.length < s.units.dz.cnt then .record .lz78 else .block .lz78)
        ((s.units.emitted bytes).recorded w c bytes.length)) := by
  obtain ⟨_, hexec⟩ := exec_phraseToken (c := c) hphase h
  rw [hexec, lz78Record_accepts hbytes hfits ho]
  rfl

end

/-- Settles O53: the check of the index, then the record. -/
theorem lz78RecordsDecode : Obligations.Lz78RecordsDecode := by
  intro s w c i hphase hi
  obtain rfl : i = phraseToken w c := by
    obtain ⟨rfl, rfl⟩ | ⟨index, rfl, rfl⟩ := hi <;> rfl
  refine ⟨fun ⟨index, hw, hbeyond⟩ => ?beyond, fun hlegal hlong => ?tooLong, fun hlegal hfits ho => ?record⟩
  case beyond =>
    subst hw
    exact exec_phraseToken_beyond hphase hbeyond
  case tooLong =>
    obtain ⟨_, hexec⟩ := exec_phraseToken (c := c) hphase hlegal
    rw [hexec, lz78Record_too_long hlong]
    rfl
  case record => exact exec_phraseToken_accepts hphase hlegal rfl hfits ho

end Sys2Proof.Machine

namespace Sys2Proof.Machine

/-! # The phrases of an LZ78 dictionary (44_lz78.md R373, R375) -/

section
variable {dict : List Entry} (hbelow : parentsBelow dict)
include hbelow

/-- Only NONE has the empty phrase: the reserved entry is no phrase to continue (R375). -/
theorem NamesPhrase.eq_none {w : Option Nat} (hw : NamesPhrase dict w) (h : phraseOf dict w = []) : w = none := by
  cases w with
  | none => rfl
  | some k =>
    obtain ⟨p, b, hget⟩ := hw k rfl
    simp [phraseOf_pair hbelow hget] at h

variable (hdistinct : distinctPhrases dict)
include hdistinct

/-- The parent of a phrase is a phrase, never the reserved entry. -/
theorem namesPhrase_parent {w : Nat} {p : Option Nat} {b : Byte} (hw : dict[w]? = some (.pair p b)) :
    NamesPhrase dict p := by
  rintro q rfl
  have hlt : q < dict.length := (parent_lt hbelow hw).trans (List.getElem?_eq_some_iff.1 hw).1
  have hne := hdistinct.2 q b (List.mem_of_getElem? hw)
  rw [List.getElem?_eq_getElem hlt] at hne ⊢
  rcases hq : dict[q] with _ | ⟨r, x⟩
  · exact absurd (congrArg some hq) hne
  · exact ⟨r, x, rfl⟩

/-- A phrase that is not empty is an entry's: its parent's phrase and its byte (20_memory.md R100). -/
theorem NamesPhrase.of_concat {w : Option Nat} (hw : NamesPhrase dict w) {bytes : List Byte} {c : Byte}
    (h : phraseOf dict w = bytes ++ [c]) :
    ∃ k p, w = some k ∧ dict[k]? = some (.pair p c) ∧ NamesPhrase dict p ∧ phraseOf dict p = bytes := by
  cases w with
  | none => simp [phraseOf] at h
  | some k =>
    obtain ⟨p, b, hget⟩ := hw k rfl
    rw [phraseOf_pair hbelow hget] at h
    obtain ⟨hp, hb⟩ := List.append_inj' h rfl
    cases hb
    exact ⟨k, p, rfl, hget, namesPhrase_parent hbelow hdistinct hget, hp⟩

/-- The phrases are prefix-closed (R373). -/
theorem NamesPhrase.of_append {bytes rest : List Byte} {w : Option Nat} (hw : NamesPhrase dict w)
    (h : phraseOf dict w = bytes ++ rest) : ∃ v, NamesPhrase dict v ∧ phraseOf dict v = bytes := by
  induction rest using List.reverseRecOn generalizing w with
  | nil => exact ⟨w, hw, by rw [h, List.append_nil]⟩
  | append_singleton rest c ih =>
    obtain ⟨-, p, -, -, hp, hbytes⟩ := hw.of_concat hbelow hdistinct (h.trans (List.append_assoc ..).symm)
    exact ih hp hbytes

/-- Different phrases have different bytes. -/
theorem NamesPhrase.unique {v w : Option Nat} (hv : NamesPhrase dict v) (hw : NamesPhrase dict w)
    (h : phraseOf dict v = phraseOf dict w) : v = w := by
  generalize hbytes : phraseOf dict w = bytes at h
  induction bytes using List.reverseRecOn generalizing v w with
  | nil => rw [hv.eq_none hbelow h, hw.eq_none hbelow hbytes]
  | append_singleton bytes c ih =>
    obtain ⟨i, p, rfl, hi, hp, hpb⟩ := hv.of_concat hbelow hdistinct h
    obtain ⟨j, q, rfl, hj, hq, hqb⟩ := hw.of_concat hbelow hdistinct hbytes
    rw [← ih hp hq hqb hpb] at hj
    have hlt : i < dict.length := (List.getElem?_eq_some_iff.1 hi).1
    exact congrArg some ((List.getElem?_inj hlt hdistinct.1).1 (hi.trans hj.symm))

end

/-! ## The search (R375) -/

/-- The next `n` bytes of the encoder's block. -/
def Dz.blockBytes (z : Dz) (n : Nat) : List Byte := (List.range n).map fun k => z.blockAt (z.i + k)

@[simp] theorem Dz.blockBytes_length (z : Dz) (n : Nat) : (z.blockBytes n).length = n := by simp [Dz.blockBytes]

theorem Dz.blockBytes_succ (z : Dz) (n : Nat) : z.blockBytes (n + 1) = z.blockBytes n ++ [z.blockAt (z.i + n)] := by
  simp [Dz.blockBytes, List.range_succ]

theorem Dz.blockBytes_add (z : Dz) (m n : Nat) : ∃ rest, z.blockBytes (m + n) = z.blockBytes m ++ rest := by
  simp [Dz.blockBytes, List.range_add]

section
variable {dict : List Entry} {z : Dz} (hbelow : parentsBelow dict)
include hbelow

/-- The search extends a phrase that the block goes on with to another one, a byte of the block being left. -/
theorem extendPhrase_matches {fuel : Nat} {w : Option Nat} {len : Nat} (hw : phraseOf dict w = z.blockBytes len)
    (hlen : z.i + len < z.cnt) :
    phraseOf dict (extendPhrase dict z fuel w len).1 = z.blockBytes (extendPhrase dict z fuel w len).2 ∧
      z.i + (extendPhrase dict z fuel w len).2 < z.cnt := by
  induction fuel generalizing w len with
  | zero => exact ⟨hw, hlen⟩
  | succ fuel ih =>
    unfold extendPhrase
    split
    next hroom =>
      split
      next j hj =>
        refine ih ?_ (by omega)
        rw [phraseOf_pair hbelow (findEntry_some hj), hw, Dz.blockBytes_succ]
      next => exact ⟨hw, hlen⟩
    next => exact ⟨hw, hlen⟩

theorem findPhrase_matches (hi : z.i < z.cnt) :
    phraseOf dict (findPhrase dict z).1 = z.blockBytes (findPhrase dict z).2 ∧ z.i + (findPhrase dict z).2 < z.cnt :=
  extendPhrase_matches hbelow rfl hi

section
variable (hdistinct : distinctPhrases dict)
include hdistinct

/-- Where no entry continues phrase `v`, the block goes on with no longer phrase: a longer one would have a prefix one
byte longer than `v`, whose parent has the bytes of `v` and so is `v` (R375). -/
theorem longest_of_findEntry_none {v w : Option Nat} {len n : Nat} (hv : NamesPhrase dict v)
    (hvbytes : phraseOf dict v = z.blockBytes len) (hstop : findEntry dict v (z.blockAt (z.i + len)) = none)
    (hw : NamesPhrase dict w) (hwbytes : phraseOf dict w = z.blockBytes n) : n ≤ len := by
  by_contra hlonger
  obtain ⟨more, rfl⟩ : ∃ more, n = len + 1 + more := Nat.exists_eq_add_of_le (Nat.not_le.1 hlonger)
  obtain ⟨rest, hrest⟩ := z.blockBytes_add (len + 1) more
  obtain ⟨x, hx, hxbytes⟩ := hw.of_append hbelow hdistinct (hwbytes.trans hrest)
  rw [Dz.blockBytes_succ] at hxbytes
  obtain ⟨k, p, -, hk, hp, hpbytes⟩ := hx.of_concat hbelow hdistinct hxbytes
  obtain rfl : p = v := hp.unique hbelow hdistinct hv (hpbytes.trans hvbytes.symm)
  exact findEntry_none hstop (List.mem_of_getElem? hk)

/-- No phrase that the block goes on with and that leaves a byte of it is longer than the one found. -/
theorem findPhrase_longest {w : Option Nat} {n : Nat} (hw : NamesPhrase dict w)
    (hbytes : phraseOf dict w = z.blockBytes n) (hn : z.i + n < z.cnt) : n ≤ (findPhrase dict z).2 := by
  by_contra hlonger
  have hstop : findEntry dict (findPhrase dict z).1 (z.blockAt (z.i + (findPhrase dict z).2)) = none :=
    extendPhrase_stops (by change (findPhrase dict z).2 < _; omega) (by change (findPhrase dict z).2 + 1 ≤ _; omega)
  exact hlonger (longest_of_findEntry_none hbelow hdistinct (extendPhrase_names (none_namesPhrase _))
    (findPhrase_matches hbelow (by omega)).1 hstop hw hbytes)

/-- The same of every entry: the reserved one has no byte. -/
theorem findPhrase_longest_entry {j : Nat} (hj : j < dict.length)
    (hbytes : phraseOf dict (some j) = z.blockBytes (phraseOf dict (some j)).length)
    (hn : z.i + (phraseOf dict (some j)).length < z.cnt) :
    (phraseOf dict (some j)).length ≤ (findPhrase dict z).2 := by
  obtain ⟨-, hreserved, -⟩ := phrasesFollowTheirParents dict j hbelow
  have hget : dict[j]? = some dict[j] := List.getElem?_eq_getElem hj
  rcases he : dict[j] with _ | ⟨p, b⟩ <;> rw [he] at hget
  · rw [hreserved hget]
    exact Nat.zero_le _
  · exact findPhrase_longest hbelow hdistinct (fun k hk => ⟨p, b, Option.some.inj hk ▸ hget⟩) hbytes hn

/-- What the search finds in a block with a byte left: a phrase of `len` bytes that the block goes on with and that
leaves a byte of it, and no entry like it is longer (R375). -/
theorem findPhrase_spec (hi : z.i < z.cnt) :
    ∃ w len, findPhrase dict z = (w, len) ∧ NamesPhrase dict w ∧ phraseOf dict w = z.blockBytes len ∧
      z.i + len < z.cnt ∧ ∀ j < dict.length, z.i + (phraseOf dict (some j)).length < z.cnt →
        phraseOf dict (some j) = z.blockBytes (phraseOf dict (some j)).length →
          (phraseOf dict (some j)).length ≤ len := by
  obtain ⟨hphrase, hfits⟩ := findPhrase_matches hbelow hi
  exact ⟨_, _, rfl, extendPhrase_names (none_namesPhrase _), hphrase, hfits, fun j hj hn hbytes =>
    findPhrase_longest_entry hbelow hdistinct hj hbytes hn⟩

end

end

/-! ## The encoder's record (R376) -/

theorem lz78Emit_writable {u : Units} (h : u.writable) (hi : u.dz.i < u.dz.cnt) {w : Option Nat} {len : Nat} {c : Byte}
    (hfound : findPhrase u.dict u.dz = (w, len)) (hc : u.dz.blockAt (u.dz.i + len) = c) :
    lz78Emit.on u = .ok (.goto (.dictEmit .lz78))
      ((u.wrote (encode (.lz78Record u.dz.db.toNat) (phraseToken w c))).recorded w c (len + 1)) := by
  subst hc
  rw [lz78Emit, M.run_look_bind, if_pos hi, M.run_look_bind, hfound]
  exact (M.run_bind_ok (writeToken_writable h _ _)).trans (advance_insert w _ (len + 1) (pure _) _)

theorem phraseToken_wf {w : Option Nat} {db : Nat} (h : ∀ index ∈ w, index < 2 ^ db) (c : Byte) :
    (phraseToken w c).wf (.lz78Record db) = true := by
  cases w with
  | none => rfl
  | some index => exact decide_eq_true (h index rfl)

theorem phraseToken_index {w : Option Nat} {b c : Byte} {index : Nat} (h : phraseToken w b = .lz78Phrase index c) :
    w = some index := by
  cases w <;> cases h
  rfl

/-- Settles O58: both sides go on with the same record of the phrase found, from the same dictionary and counters. -/
theorem lz78EncoderAndDecoderMirror : Obligations.Lz78EncoderAndDecoderMirror := by
  intro s d hturn hw hbelow hdistinct hcap hi hphase ho hdict hdb hcnt hdi
  obtain ⟨w, len, hfound, hnames, hphrase, hfits, hlongest⟩ := findPhrase_spec hbelow hdistinct hi
  obtain ⟨c, hc⟩ : ∃ c, s.origin.dz.blockAt (s.origin.dz.i + len) = c := ⟨_, rfl⟩
  obtain ⟨bytes, hblock⟩ : ∃ bytes, s.origin.dz.blockBytes (len + 1) = bytes := ⟨_, rfl⟩
  have hlen : bytes.length = len + 1 := hblock ▸ Dz.blockBytes_length ..
  have hbytes : phraseOf d.units.dict w ++ [c] = bytes := by
    rw [hdict, hphrase, ← hc, ← hblock, Dz.blockBytes_succ]
  have hemit := lz78Emit_writable hw hi hfound hc
  rw [← hlen] at hemit
  have hexec := exec_phraseToken_accepts hphase (hdict ▸ hnames.lt) hbytes (by rw [hdi, hcnt, hlen]; exact hfits) ho
  refine ⟨_, bytes, _, _, step_stretch_goes hturn rfl hemit, hexec,
    phraseToken_wf (fun index hx => (hnames.lt index hx).trans_le hcap) c, fun index c htoken => ?index, rfl, rfl, rfl,
    ?nonempty, ?block, fun j hj phrase hp hroom hgoes => ?longest, rfl, ?fits, ?sameCount, ?sameDict⟩
  case index =>
    obtain ⟨p, b, hget⟩ := hnames index (phraseToken_index htoken)
    rw [hdict]
    exact ⟨hnames.lt index (phraseToken_index htoken), by simp [hget]⟩
  case nonempty => exact List.length_pos_iff.1 (hlen ▸ Nat.succ_pos len)
  case block => exact hblock.symm.trans (hlen ▸ rfl)
  case longest =>
    subst hp
    rw [hlen]
    exact Nat.lt_succ_of_le (hlongest j hj hroom hgoes)
  case fits => exact hlen ▸ hfits
  case sameCount => exact congrArg (· + bytes.length) hdi
  case sameDict => exact Units.recorded_dict_congr hdict hdb hcnt hdi w c bytes.length

end Sys2Proof.Machine

namespace Sys2Proof.Machine

/-! # LZW indices (45_lzw.md R402, R407, R408) -/

/-! ## The index read (R407, R408) -/

/-- Whether index `p` is legal after the previous index `prev` of its block: the first one by the configured policy
(R408), a later one up to the next entry (R407). -/
def lzwLegal (cfg : Params) (dict : List Entry) (p : Nat) (prev : Option Nat) : Prop :=
  match prev with
  | none => if cfg.lzwPolicy = .dictSize then p < dict.length else p < 256
  | some _ => p ≤ dict.length

/-- The phrase of a legal index: the next entry's is the previous phrase and its first byte (R407). -/
def lzwIndexPhrase (dict : List Entry) (p : Nat) (prev : Option Nat) : List Byte :=
  match prev with
  | some q =>
    if p = dict.length then phraseOf dict (some q) ++ (phraseOf dict (some q)).take 1 else phraseOf dict (some p)
  | none => phraseOf dict (some p)

/-- The dictionary after index `prev` is followed by a phrase that begins with `f` (R407). -/
def lzwInserted (u : Units) (prev : Option Nat) (f : Byte) : List Entry :=
  match prev with
  | some q => if u.dict.length < u.dz.cap then u.dict ++ [.pair (some q) f] else u.dict
  | none => u.dict

section
variable {cfg : Params} {dict : List Entry} {p : Nat} {prev : Option Nat}

theorem firstIndexOk_iff : firstIndexOk cfg dict p = true ↔ lzwLegal cfg dict p none := by
  unfold firstIndexOk lzwLegal
  cases cfg.lzwPolicy <;> simp

theorem lzwPhrase_illegal (h : ¬ lzwLegal cfg dict p prev) :
    lzwPhrase cfg dict prev p = .error (if prev = none then .headerInvalid else .dictionaryIndex) := by
  cases prev with
  | none => exact if_neg (mt firstIndexOk_iff.1 h)
  | some q =>
    have hbeyond : dict.length < p := Nat.lt_of_not_le h
    exact (if_neg hbeyond.not_gt).trans (if_neg hbeyond.ne')

theorem lzwPhrase_legal (h : lzwLegal cfg dict p prev) :
    lzwPhrase cfg dict prev p = .ok (lzwIndexPhrase dict p prev) := by
  cases prev with
  | none => exact if_pos (firstIndexOk_iff.2 h)
  | some q =>
    rcases Nat.lt_or_eq_of_le h with hlt | heq
    · exact (if_pos hlt).trans (congrArg Except.ok (if_neg hlt.ne).symm)
    · exact (if_neg heq.not_lt).trans ((if_pos heq).trans (congrArg Except.ok (if_pos heq).symm))

end

/-- Everything the insertion after a phrase with a first byte can do. -/
theorem lzwInsert_cons (prev : Option Nat) (f : Byte) (rest : List Byte) (u : Units) :
    (lzwInsert prev (f :: rest)).on u = .ok () { u with dict := lzwInserted u prev f } := by
  cases prev with
  | none => rfl
  | some q => exact insertIfRoom_eq (some q) f u

section
variable {cfg : Params} {u : Units} {p : Nat}

theorem ruleLzwIndex_illegal (h : ¬ lzwLegal cfg u.dict p u.lzw.prev) : (ruleLzwIndex cfg p).on u =
    .error (.raise (if u.lzw.prev = none then .headerInvalid else .dictionaryIndex)) u := by
  rw [ruleLzwIndex, M.run_look_bind, M.run_look_bind, lzwPhrase_illegal h]
  rfl

theorem ruleLzwIndex_too_long {phrase : List Byte} (h : lzwPhrase cfg u.dict u.lzw.prev p = .ok phrase)
    (hlong : u.dz.cnt < u.dz.i + phrase.length) : (ruleLzwIndex cfg p).on u = .error (.raise .headerInvalid) u := by
  rw [ruleLzwIndex, M.run_look_bind, M.run_look_bind, h]
  refine (M.run_look_bind _ _ _).trans ?_
  rw [if_pos hlong]
  rfl

/-- A phrase that fits the block, before a willing consumer. -/
theorem ruleLzwIndex_accepts {f : Byte} {rest : List Byte}
    (h : lzwPhrase cfg u.dict u.lzw.prev p = .ok (f :: rest)) (hfits : u.dz.i + (f :: rest).length ≤ u.dz.cnt)
    (ho : u.out.accepts) : (ruleLzwIndex cfg p).on u =
      .ok (.goto (if u.dz.i + (f :: rest).length < u.dz.cnt then .record .lzw else .block .lzw))
        { u.emitted (f :: rest) with
          dz := { u.dz with i := u.dz.i + (f :: rest).length }
          dict := lzwInserted u u.lzw.prev f
          lzw := { u.lzw with prev := some p } } := by
  rw [ruleLzwIndex, M.run_look_bind, M.run_look_bind, h]
  refine (M.run_look_bind _ _ _).trans ?_
  rw [if_neg (Nat.not_lt.2 hfits), M.run_bind_ok (emitBytes_accepts ho _), M.run_bind_ok (run_updDz _ _),
    M.run_bind_ok (lzwInsert_cons _ _ _ _), M.run_bind_ok (run_updLzw _ _), nextRecord_on]
  rfl

end

/-- Settles O54: the phrase that the index names, then the check of its length, then the record. -/
theorem lzwIndicesDecode : Obligations.LzwIndicesDecode := by
  intro s p hphase
  have hrule : lzwIndexRule s.cfg p s.phase = some (ruleLzwIndex s.cfg p) := by rw [hphase]; rfl
  refine ⟨fun hillegal => runToken_raise hrule (ruleLzwIndex_illegal hillegal), fun hlegal f rest hphrase => ?_⟩
  have hp : lzwPhrase s.cfg s.units.dict s.units.lzw.prev p = .ok (f :: rest) :=
    (lzwPhrase_legal hlegal).trans (congrArg Except.ok hphrase.symm)
  exact ⟨fun hlong => runToken_raise hrule (ruleLzwIndex_too_long hp hlong),
    fun hfits ho => runToken_goto hrule (ruleLzwIndex_accepts hp hfits ho)⟩

/-! ## The index written (R402) -/

/-- An entry `(w, c)` that the dictionary has is found. -/
theorem findEntry_of_getElem? {dict : List Entry} {w : Option Nat} {c : Byte} {j : Nat}
    (h : dict[j]? = some (.pair w c)) : ∃ i, findEntry dict w c = some i :=
  Option.ne_none_iff_exists'.1 fun hnone => findEntry_none hnone (List.mem_of_getElem? h)

theorem findEntry_eq_none {dict : List Entry} {w : Option Nat} {c : Byte}
    (h : ∀ j : Nat, dict[j]? ≠ some (.pair w c)) : findEntry dict w c = none :=
  Option.eq_none_iff_forall_ne_some.2 fun j hj => h j (findEntry_some hj)

section
variable {u v : Units} {c : Byte} {k : Nat}

/-- The first byte of a block is its phrase. -/
theorem lzwByte_starts (hw : u.lzw.w = none) :
    (lzwByte c).on u = .ok () { u with lzw := { u.lzw with w := some c.toNat } } := by
  rw [lzwByte, M.run_look_bind, M.run_look_bind, hw]
  rfl

theorem lzwByte_extends {j : Nat} (hw : u.lzw.w = some k) (hj : findEntry u.dict (some k) c = some j) :
    (lzwByte c).on u = .ok () { u with lzw := { u.lzw with w := some j } } := by
  rw [lzwByte, M.run_look_bind, M.run_look_bind, hw]
  simp only [hj]
  rfl

/-- A byte that continues the phrase to no entry ends it, before a willing consumer. -/
theorem lzwByte_writes (hw : u.lzw.w = some k) (hnone : findEntry u.dict (some k) c = none) (h : u.writable) :
    (lzwByte c).on u = .ok ()
      { u.wrote (bitsOf u.dz.db.toNat k) with
        dict := lzwInserted u (some k) c
        lzw := { u.lzw with w := some c.toNat } } := by
  rw [lzwByte, M.run_look_bind, M.run_look_bind, hw]
  simp only [hnone]
  rw [M.run_look_bind, M.run_bind_ok (writeToken_writable h _ _), M.run_bind_ok (insertIfRoom_eq _ _ _)]
  rfl

/-- Where the block has a byte left, the stretch is that byte's step and `DZ.I` advances. -/
theorem lzwEmit_byte (hi : u.dz.i < u.dz.cnt) (hbyte : (lzwByte (u.dz.blockAt u.dz.i)).on u = .ok () v) :
    lzwEmit.on u = .ok (.goto (.dictEmit .lzw)) { v with dz := { v.dz with i := v.dz.i + 1 } } := by
  rw [lzwEmit, M.run_look_bind, if_pos hi, M.run_bind_ok hbyte, M.run_bind_ok (run_updDz _ _)]
  rfl

theorem lzwBlockEnd_empty (hw : u.lzw.w = none) : lzwBlockEnd.on u = .ok () u := by
  rw [lzwBlockEnd, M.run_look_bind, hw]
  rfl

theorem lzwBlockEnd_writes (hw : u.lzw.w = some k) (h : u.writable) :
    lzwBlockEnd.on u = .ok () (u.wrote (bitsOf u.dz.db.toNat k)) := by
  rw [lzwBlockEnd, M.run_look_bind, hw]
  exact (M.run_look_bind _ _ _).trans (writeToken_writable h _ _)

/-- Where the block has no byte left, the stretch is its end and the next block begins. -/
theorem lzwEmit_end (hi : u.dz.cnt ≤ u.dz.i) (hend : lzwBlockEnd.on u = .ok () v) :
    lzwEmit.on u = .ok (.goto (.dictRead .lzw)) { v with dz := { v.dz with cnt := 0 } } := by
  rw [lzwEmit, M.run_look_bind, if_neg (Nat.not_lt.2 hi), M.run_bind_ok hend]
  rfl

end

/-- Settles O57: the stretch by what the phrase and its next byte are, or by what the block's end leaves over. -/
theorem lzwEncoderWritesIndices : Obligations.LzwEncoderWritesIndices := by
  refine fun s h => ⟨fun hi => ⟨fun hw => ?starts, fun k hw => ⟨fun ⟨_, hentry⟩ => ?longer, fun hno hout => ?writes⟩⟩,
    fun hi => ⟨fun hw => ?empty, fun k hw hout => ?leftOver⟩⟩
  case starts => exact step_stretch_goes h rfl (lzwEmit_byte hi (lzwByte_starts hw))
  case longer =>
    obtain ⟨j, hj⟩ := findEntry_of_getElem? hentry
    exact ⟨j, findEntry_some hj, step_stretch_goes h rfl (lzwEmit_byte hi (lzwByte_extends hw hj))⟩
  case writes =>
    exact step_stretch_goes h rfl (lzwEmit_byte hi (lzwByte_writes hw (findEntry_eq_none hno) hout))
  case empty => exact step_stretch_goes h rfl (lzwEmit_end hi (lzwBlockEnd_empty hw))
  case leftOver => exact step_stretch_goes h rfl (lzwEmit_end hi (lzwBlockEnd_writes hw hout))

end Sys2Proof.Machine

namespace Sys2Proof.Machine

/-! # The magic commands and tokens (46_envelope.md R430, R431, R434, R437) -/

theorem exec_magicToken (a : Alg) (s : State) : exec a.magicToken s = runToken a.magicToken (magicRule a) s := by
  cases a <;> rfl

/-- RESULT after a magic: bit 18, the algorithm's code in bits 17:16, the magic below (R434). -/
theorem magicResult_some (a : Alg) : magicResult a.magic (some a) =
    BitVec.ofNat 32 (2 ^ 18 + a.code.toNat * 2 ^ 16 + a.magic.toNat) := by
  cases a <;> rfl

theorem exec_envPutMagic_writable {s : State} (h : s.units.writable) (a : Alg) :
    exec (.envPutMagic a) s = .next (s.completed (s.units.wrote (bitsOf 16 a.magic.toNat))) := by
  rw [← encode_magicToken]
  exact runCommand_complete (M.run_bind_ok (writeToken_writable h _ _))

theorem exec_magicToken_identify {s : State} (h : s.phase = .magic .identify) (a : Alg) :
    exec a.magicToken s = .next (s.completed { s.units with
      result := magicResult a.magic (some a)
      detect := { s.units.detect with alg := a, valid := true } }) :=
  (exec_magicToken a s).trans (runToken_complete (p := ruleMagic a .identify) (by rw [h]; rfl) rfl)

theorem exec_magicToken_decode {s : State} (h : s.phase = .magic .decode) (a : Alg) :
    exec a.magicToken s = .next (s.goesOn (.header a)
      { s.units with detect := { s.units.detect with alg := a, valid := true } }) :=
  (exec_magicToken a s).trans (runToken_goto (p := ruleMagic a .decode) (by rw [h]; rfl) rfl)

/-- The four rows of R430 are each algorithm with its own magic, token and code. -/
theorem magicRow_eq {a : Alg} {m : BitVec 16} {token : Instr} {code : Nat}
    (h : (a, m, token, code) ∈ [(Alg.huf, (0x27AB : BitVec 16), Instr.magicHuf, 0), (.lz77, 0xA5E8, .magicLz77, 1),
      (.lz78, 0x7869, .magicLz78, 2), (.lzw, 0x8E83, .magicLzw, 3)]) :
    m = a.magic ∧ token = a.magicToken ∧ code = a.code.toNat := by
  simp only [List.mem_cons, List.not_mem_nil, or_false, Prod.mk.injEq] at h
  rcases h with ⟨rfl, rfl, rfl, rfl⟩ | ⟨rfl, rfl, rfl, rfl⟩ | ⟨rfl, rfl, rfl, rfl⟩ | ⟨rfl, rfl, rfl, rfl⟩ <;>
    exact ⟨rfl, rfl, rfl⟩

/-- Settles O59: the rules of the command and of the token, for each algorithm with its own magic. -/
theorem magicCommandsAndTokens : Obligations.MagicCommandsAndTokens := by
  intro s a m token code hrow
  obtain ⟨rfl, rfl, rfl⟩ := magicRow_eq hrow
  rw [← magicResult_some]
  exact ⟨fun h => exec_envPutMagic_writable h a, fun h => exec_magicToken_identify h a,
    fun h => exec_magicToken_decode h a⟩

end Sys2Proof.Machine

namespace Sys2Proof.Machine

/-! # Bits that are no token (30_encoding.md R139, 46_envelope.md R432, R439) -/

/-- Bits of which no proper beginning is rejected, but which are, are all read, and then the rejection runs. -/
theorem fetchBits_rejects {p : Phase} {c : Ctx} {r : Reject} {more bits rest : List Bool} {b : Bool} {fuel : Nat}
    {u : Units} (hu : u.readable) (hp : u.pendingBits = more ++ b :: rest) (hf : more.length < fuel)
    (hmore : decodeBits c (bits ++ more) = .more) (hreject : decodeBits c (bits ++ more ++ [b]) = .reject r) :
    ∃ v, u.readTo v ∧ v.pendingBits = rest ∧ (fetchBits p c fuel bits).on u = (rejectToken p r).on v := by
  obtain ⟨fuel, rfl⟩ : ∃ n, fuel = n + 1 := ⟨fuel - 1, by omega⟩
  induction more generalizing u bits fuel with
  | nil =>
    obtain ⟨v, hv, hread, hrest, -⟩ := readBit_pending (eofError c bits) hu hp
    refine ⟨v, hread, hrest, ?_⟩
    rw [List.append_nil] at hreject
    rw [fetchBits, M.run_bind_ok hv, hreject]
  | cons d more ih =>
    obtain ⟨v, hv, hread, hvp, -⟩ := readBit_pending (eofError c bits) hu hp
    rw [List.append_cons bits d more] at hmore hreject
    obtain ⟨fuel, rfl⟩ : ∃ n, fuel = n + 1 := ⟨fuel - 1, by simp at hf; omega⟩
    obtain ⟨w, hw, hrest, hon⟩ := ih hread.2.1 hvp hmore hreject fuel (by simp at hf; omega)
    refine ⟨w, Units.readTo_trans hread hw, hrest, ?_⟩
    rw [fetchBits, M.run_bind_ok hv, (decodeBits_asksFor c).before _ _ hmore]
    exact hon

/-- A context's first field whose value is rejected is read, and no bit after it. -/
theorem fetchToken_rejects_field {p : Phase} {c : Ctx} {r : Reject} {n v : Nat} {k : Nat → List Bool → Decoded}
    {rest : List Bool} {u : Units} (hc : ∀ bits, decodeBits c bits = withField (n + 1) bits k) (hv : v < 2 ^ (n + 1))
    (hk : k v [] = .reject r) (hu : u.readable) (hp : u.pendingBits = bitsOf (n + 1) v ++ rest) :
    ∃ w, u.readTo w ∧ w.pendingBits = rest ∧ (fetchToken p c).on u = (rejectToken p r).on w := by
  obtain ⟨more, b, hbits⟩ : ∃ more b, bitsOf (n + 1) v = more ++ [b] :=
    (List.eq_nil_or_concat' _).resolve_left nofun
  have hlength : more.length = n := by simpa using (congrArg List.length hbits).symm
  have hmore : decodeBits c more = .more := by rw [hc, withField, takeField_short (by omega)]
  have hreject : decodeBits c (more ++ [b]) = .reject r := by
    rw [← hbits, hc, ← List.append_nil (bitsOf _ _), withField, takeField_bitsOf _ _ _ hv]
    exact hk
  exact fetchBits_rejects (bits := []) hu (by rw [hp, hbits, List.append_assoc]; rfl)
    ((decodeBits_asksFor c).short _ hmore) hmore hreject

theorem rejectToken_badVersion (p : Phase) : rejectToken p .badVersion = raise .headerInvalid := by
  cases p <;> rfl

/-- Every header begins with the version (R439). -/
theorem decodeBits_header {c : Ctx} (h : c = .hufHeader ∨ ∃ a, c = .lzHeader a) :
    ∃ k, ∀ bits, decodeBits c bits = withVersion bits k := by
  obtain rfl | ⟨a, rfl⟩ := h
  · exact ⟨_, fun _ => rfl⟩
  · cases a <;> exact ⟨_, fun _ => rfl⟩

theorem lookupMagic_eq_none {m : BitVec 16} (h : m ∉ [0x27AB, 0xA5E8, 0x7869, 0x8E83]) : lookupMagic m = none := by
  simp only [List.mem_cons, List.not_mem_nil, or_false, not_or] at h
  obtain ⟨hhuf, hlz77, hlz78, hlzw⟩ := h
  exact (if_neg hhuf).trans ((if_neg hlz77).trans ((if_neg hlz78).trans (if_neg hlzw)))

theorem magicResult_none (m : BitVec 16) : magicResult m none = m.setWidth 32 :=
  (BitVec.setWidth_eq_append (by decide)).symm

/-- What sixteen bits that are no magic leave of the units: ENV_GET_MAGIC reports them (R434), DEC does not (R437). -/
def Units.withUnknownMagic (u : Units) (m : BitVec 16) : MagicUse → Units
  | .identify => { u with result := m.setWidth 32, detect := { u.detect with alg := .huf, valid := false } }
  | .decode => u

theorem rejectToken_unknownMagic (use : MagicUse) (m : BitVec 16) (u : Units) :
    (rejectToken (.magic use) (.unknownMagic m)).on u =
      .error (.raise .headerInvalid) (u.withUnknownMagic m use) := by
  cases use with
  | identify =>
    rw [Units.withUnknownMagic, ← magicResult_none]
    rfl
  | decode => rfl

section
variable {s : State} {rest : List Bool}

/-- A wrong version byte ends the command once its eight bits are read (R439). -/
theorem step_badVersion {c : Ctx} {version : Nat} (hs : s.reads c) (hu : s.origin.readable)
    (hc : c = .hufHeader ∨ ∃ a, c = .lzHeader a) (hlt : version < 256) (hne : version ≠ 1)
    (hp : s.origin.pendingBits = bitsOf 8 version ++ rest) :
    ∃ v, s.origin.readTo v ∧ v.pendingBits = rest ∧ step s = .next (s.turned.failed .headerInvalid v) := by
  obtain ⟨k, hk⟩ := decodeBits_header hc
  obtain ⟨v, hread, hrest, hon⟩ := fetchToken_rejects_field (p := s.phase) (n := 7) hk hlt (if_neg hne) hu hp
  rw [rejectToken_badVersion] at hon
  exact ⟨v, hread, hrest, step_fetch_fails hs hon⟩

/-- Sixteen bits that are no magic end the command once they are read (R432). -/
theorem step_unknownMagic {c : Ctx} {use : MagicUse} {m : BitVec 16} (hs : s.reads c) (hu : s.origin.readable)
    (hphase : s.phase = .magic use) (hm : m ∉ [0x27AB, 0xA5E8, 0x7869, 0x8E83])
    (hp : s.origin.pendingBits = bitsOf 16 m.toNat ++ rest) :
    ∃ v, s.origin.readTo v ∧ v.pendingBits = rest ∧
      step s = .next (s.turned.failed .headerInvalid (v.withUnknownMagic m use)) := by
  have henvelope : c = .envelope := by
    obtain ⟨-, -, -, hc⟩ := hs
    rw [hphase] at hc
    exact (Option.some.inj hc).symm
  subst henvelope
  obtain ⟨v, hread, hrest, hon⟩ := fetchToken_rejects_field (p := s.phase) (c := .envelope)
    (r := .unknownMagic m) (n := 15) (fun _ => rfl) m.isLt
    (by rw [BitVec.ofNat_toNat, BitVec.setWidth_eq, lookupMagic_eq_none hm]) hu hp
  rw [hphase, rejectToken_unknownMagic, ← hphase] at hon
  exact ⟨v, hread, hrest, step_fetch_fails hs hon⟩

end

/-- Settles O5: a first field that is rejected is all the fetch reads, and the rejection ends the command. -/
theorem badVersionsAndMagicsEndTheCommand : Obligations.BadVersionsAndMagicsEndTheCommand :=
  fun _ _ _ hs hu => ⟨fun _ hlt hne hc hp => step_badVersion hs hu hc hlt hne hp,
    fun _ hm hp => ⟨fun hdecode => step_unknownMagic hs hu hdecode hm hp,
      fun hidentify => step_unknownMagic hs hu hidentify hm hp⟩⟩

end Sys2Proof.Machine

namespace Sys2Proof.Machine

/-! # The control commands (47_control.md R460 to R463)

STATUS clears by ones; the commands here need nothing of the state, as each rule is updates of the units and then its
end. -/

/-- Each of the two flags stays where the host wrote a 0. -/
theorem writeStatus_eq (s : State) (v : Word) :
    writeStatus s v = { s with
      irqPend := if v.getLsbD 13 then false else s.irqPend
      ovr := if v.getLsbD 14 then false else s.ovr } := by
  simp only [writeStatus, Bool.if_false_left, Bool.decide_eq_true, Bool.and_comm]

/-- Settles O20: an aligned write of STATUS reaches `writeStatus`. -/
theorem statusWritesClearByOnes : Obligations.StatusWritesClearByOnes := by
  intro s v rest hs
  rw [step_write hs (by decide) (by decide)]
  exact congrArg Host.Outcome.next (writeStatus_eq { s with script := rest } v)

/-- The units SOFT_RESET leaves are those of `State.reset`, but for the ports and the three free values (R462). -/
theorem unitsReset_eq (u : Units) :
    unitsReset u = { State.reset.units with
      src := { State.reset.units.src with holder := (unitsReset u).src.holder }
      huf := { State.reset.units.huf with root := (unitsReset u).huf.root, cursor := (unitsReset u).huf.cursor }
      inp := u.inp
      out := u.out } := rfl

theorem ruleDec_on (u : Units) :
    ruleDec.on u = .ok (.goto (.magic .decode)) { u with src := u.src.cleared, detect := Detect.zero } :=
  (M.run_upd_bind _ _ u).trans (M.run_upd_bind _ _ _)

/-- Settles O28: each rule is at most two updates of the units before its end. -/
theorem plainCommandsSucceed : Obligations.PlainCommandsSucceed := by
  intro s a
  refine ⟨?nop, ?srcReset, ?snkReset, ?freqClear, ?softReset, ?hufDeserialize, ?envGetMagic, ?dec, ?decBody⟩
  case nop => exact runCommand_complete (M.run_pure _ _)
  case srcReset | snkReset | freqClear => exact runCommand_complete (M.run_upd_bind _ _ _)
  case softReset =>
    exact ⟨unitsReset s.units, runCommand_complete (s := softResetStart s) (M.run_upd_bind _ _ _),
      unitsReset_eq s.units⟩
  case hufDeserialize => exact runCommand_goto (M.run_upd_bind _ _ _)
  case envGetMagic | decBody => exact runCommand_goto (M.run_pure _ _)
  case dec => exact runCommand_goto (ruleDec_on _)

end Sys2Proof.Machine

namespace Sys2Proof.Machine

/-! # The reset and the writes that come while a command runs (70_reset_and_hazards.md R600, R611) -/

/-- Settles O11: a reset leaves the units `unitsReset` names, whose free values are the only ones left open. -/
theorem hardResetAbandonsTheCommand : Obligations.HardResetAbandonsTheCommand := by
  intro s rest hs
  exact ⟨unitsReset s.units, congrArg Work.outcome (stepWork_move hs), unitsReset_eq s.units⟩

/-- Settles O21: an aligned write of CMD reaches `hostCommand`, which drops the word while a command runs. -/
theorem commandWritesWhileBusyAreDropped : Obligations.CommandWritesWhileBusyAreDropped := by
  intro s w rest hs hb
  rw [step_write (offset := 0) hs (by decide) rfl]
  exact congrArg Host.Outcome.next (if_pos hb)

end Sys2Proof.Machine

namespace Sys2Proof.Machine

/-! # The stretch of an instruction in its place (assumption 12) -/

/-- A command has its stretch in every state. -/
theorem CommandRule.instrStretch {i : Instr} {m : M Next} {s : State} (h : CommandRule s.cfg s.arg s.config i m) :
    instrStretch i s = some (commandStretch i m (entered i s)) := by
  cases h <;> rfl

/-- A token has its stretch in the phases that read it. -/
theorem TokenRule.instrStretch {i : Instr} {m : M Next} {s : State} (h : TokenRule s.cfg s.phase i m) :
    instrStretch i s = some ⟨{ s with current := some i }, m⟩ := by
  cases s
  dsimp only at h
  cases h with
  | magic a => cases a <;> rfl
  | _ => rfl

theorem exists_commandRule (cfg : Params) (arg : Word) (config : ConfigReg) {i : Instr} (h : i.wfCommand = true) :
    ∃ m, CommandRule cfg arg config i m := by
  cases i with
  | magicHuf | magicLz77 | magicLz78 | magicLzw | hufHeader | hufTreeInternal | hufTreeLeaf | hufCode | lz77Header
  | lz78Header | lzwHeader | blockFull | blockShort | lz77Literal | lz77Match | lz78Literal | lz78Phrase
  | lzwIndex => cases h
  | _ => exact ⟨_, by constructor⟩

theorem exists_tokenRule (cfg : Params) {p : Phase} {i : Instr} (hp : p ≠ .command) (h : p.admits i = true) :
    ∃ m, TokenRule cfg p i m := by
  have magic (a : Alg) (use : MagicUse) : ∃ m, TokenRule cfg (.magic use) a.magicToken m := ⟨_, .magic a use⟩
  cases p with dsimp only [Phase.admits] at h
  | command => exact absurd rfl hp
  | magic => split at h; exacts [magic .huf _, magic .lz77 _, magic .lz78 _, magic .lzw _, nomatch h]
  | header =>
    split at h
    exacts [⟨_, .hufHeader _⟩, ⟨_, .lz77Header ..⟩, ⟨_, .lz78Header ..⟩, ⟨_, .lzwHeader ..⟩, nomatch h]
  | tree => split at h; exacts [⟨_, .treeInternal ..⟩, ⟨_, .treeLeaf ..⟩, nomatch h]
  | code => split at h; exacts [⟨_, .hufCode ..⟩, nomatch h]
  | block => split at h; exacts [⟨_, .blockFull _⟩, ⟨_, .blockShort ..⟩, nomatch h]
  | record a =>
    cases a with dsimp only at h
    | lz77 => split at h; exacts [⟨_, .lz77Literal _⟩, ⟨_, .lz77Match ..⟩, nomatch h]
    | lz78 => split at h; exacts [⟨_, .lz78Literal _⟩, ⟨_, .lz78Phrase ..⟩, nomatch h]
    | lzw => split at h; exacts [⟨_, .lzwIndex _⟩, nomatch h]
  | _ => cases h

/-- What a phase executes has its stretch there. -/
theorem exists_instrStretch {i : Instr} {s : State} (h : s.phase.admits i = true) :
    ∃ r, instrStretch i s = some r := by
  by_cases hp : s.phase = .command
  · rw [hp] at h
    obtain ⟨m, hm⟩ := exists_commandRule s.cfg s.arg s.config h
    exact ⟨_, hm.instrStretch⟩
  · obtain ⟨m, hm⟩ := exists_tokenRule s.cfg hp h
    exact ⟨_, hm.instrStretch⟩

@[simp] theorem entered_script (i : Instr) (s : State) : (entered i s).script = s.script := by
  cases i <;> rfl

/-- Where the stretch of an instruction begins. -/
structure Stretch.Begins (i : Instr) (s : State) (r : Stretch) : Prop where
  units : r.start.units = s.units
  script : r.start.script = s.script
  current : r.start.current = some i
  busy : s.busy = true → r.start.busy = true
  begun : s.begun = none → r.start.begun = none

theorem instrStretch_begins {i : Instr} {s : State} {r : Stretch} (h : instrStretch i s = some r) : r.Begins i s := by
  obtain ⟨m, -, rfl⟩ | ⟨m, -, rfl⟩ := instrStretch_cases h
  · exact ⟨entered_units i s, entered_script i s, rfl, fun _ => rfl, fun _ => rfl⟩
  · exact ⟨rfl, rfl, rfl, id, id⟩

/-- The rule of a command is the same where it began: no rule reads a register that its start resets. -/
theorem CommandRule.entered {i : Instr} {m : M Next} {s : State} (h : CommandRule s.cfg s.arg s.config i m) :
    CommandRule (entered i s).cfg (entered i s).arg (entered i s).config i m := by
  cases h <;> constructor

/-- An instruction executed where its stretch began runs that stretch again. -/
theorem instrStretch_again {i : Instr} {s : State} {r : Stretch} (h : instrStretch i s = some r) :
    instrStretch i r.start = some r := by
  obtain ⟨m, hm, rfl⟩ | ⟨m, hm, rfl⟩ := instrStretch_cases h
  · refine (CommandRule.instrStretch (s := (commandStretch i m (entered i s)).start) hm.entered).trans
      (congrArg some ?_)
    cases i <;> rfl
  · exact TokenRule.instrStretch (s := { s with current := some i }) hm

/-- The stretch of an instruction does not depend on the moves to come. -/
theorem instrStretch_turned {i : Instr} {s : State} {r : Stretch} (h : instrStretch i s = some r) :
    instrStretch i s.turned = some ⟨r.start.turned, r.rule⟩ := by
  obtain ⟨m, hm, rfl⟩ | ⟨m, hm, rfl⟩ := instrStretch_cases h
  · refine (CommandRule.instrStretch (s := s.turned) hm).trans (congrArg some ?_)
    cases i <;> rfl
  · exact TokenRule.instrStretch (s := s.turned) hm

theorem exec_of_instrStretch {i : Instr} {s : State} {r : Stretch} (h : instrStretch i s = some r) :
    exec i s = .next (r.start.settle r.rule) := by
  rw [exec_eq, h]
  rfl

end Sys2Proof.Machine

namespace Sys2Proof.Machine

/-! # The sequencer answers at every turn (60_exceptions.md R510, 70_reset_and_hazards.md R617)

## What it does at its turn -/

/-- `t` has its stretch where `s` has it: the same command stands in the same place, whatever has been made of the
stretch and whatever moves are to come. -/
structure State.SamePlace (s t : State) : Prop where
  cfg : t.cfg = s.cfg
  busy : t.busy = s.busy
  cmd : t.cmd = s.cmd
  phase : t.phase = s.phase
  current : t.current = s.current
  origin : t.origin = s.origin

theorem State.SamePlace.refl (s : State) : s.SamePlace s := ⟨rfl, rfl, rfl, rfl, rfl, rfl⟩

/-- The moves to come have no part in it. -/
theorem samePlace_turned (s : State) : s.SamePlace s.turned := ⟨rfl, rfl, rfl, rfl, rfl, rfl⟩

/-- Nor have the steps that have been made. -/
theorem samePlace_amid (s : State) (u : Units) (k : Nat) : s.SamePlace (s.resumed.amid u k).turned :=
  ⟨rfl, rfl, rfl, rfl, rfl, rfl⟩

theorem turnWork_instr {s : State} {limit : Option Nat} {i : Instr} (hb : s.busy = true) (hi : s.current = some i) :
    turnWork limit s = instrWork (limit.map (s.made + ·)) i s.resumed := by
  simp [turnWork, hb, hi]

/-- What a running sequencer does at its turn, in every state that has its stretch where `s` has it: it executes an
instruction of its phase, fetches a token, or runs another stretch. -/
theorem turnWork_forms {s : State} (hs : s.seqInv) (hb : s.busy = true) :
    (∃ i, s.phase.admits i = true ∧ ∀ limit t, s.SamePlace t →
      turnWork limit t = instrWork (limit.map (t.made + ·)) i t.resumed) ∨
    (∃ c, readCtx s.phase s.origin = some c ∧ ∀ limit t, s.SamePlace t →
      turnWork limit t = fetchWork (limit.map (t.made + ·)) c t.resumed) ∨
    (∃ m, ∀ limit t, s.SamePlace t → turnWork limit t = stretchWork (limit.map (t.made + ·)) m t.resumed) := by
  obtain ⟨-, hrun, -, -, -, hcur⟩ := hs
  cases hi : s.current with
  | some i =>
    exact .inl ⟨i, (hcur i hi).2.1, fun _ _ ht => turnWork_instr (ht.busy.trans hb) (ht.current.trans hi)⟩
  | none =>
    by_cases hp : s.phase = .command
    · have command {limit t} (ht : s.SamePlace t) :
          turnWork limit t = commandWork (limit.map (t.made + ·)) t.resumed :=
        turnWork_command (ht.busy.trans hb) (ht.current.trans hi) (ht.phase.trans hp)
      cases hd : decodeCommand s.cmd with
      | ok i =>
        refine .inl ⟨i, by rw [hp]; exact decodeCommand_wf hd, fun limit t ht => ?_⟩
        simp [command ht, commandWork, ht.cmd, hd]
      | error e =>
        refine .inr (.inr ⟨raise .badCommand, fun limit t ht => ?_⟩)
        simp [command ht, commandWork, ht.cmd, hd]
    · cases hc : readCtx s.phase s.origin with
      | some c =>
        refine .inr (.inl ⟨c, rfl, fun limit t ht => ?_⟩)
        simp [turnWork, ht.busy, hb, ht.current, hi, ht.phase, hp, ht.origin, hc]
      | none =>
        obtain ⟨m, hm⟩ : ∃ m, stretchOf s.cfg s.phase = some m :=
          Option.ne_none_iff_exists'.1 fun h => (hrun hb).1 (phase_idle_of_no_work hp hc h)
        refine .inr (.inr ⟨m, fun limit t ht => ?_⟩)
        simp [turnWork, ht.busy, hb, ht.current, hi, ht.phase, hp, ht.origin, hc, ht.cfg, hm]

/-! ## Each piece of work -/

theorem stretchWork_answers (limit : Option Nat) (m : M Next) (s : State) :
    ∃ t, (stretchWork limit m s).outcome = .next t := by
  cases limit <;> exact ⟨_, rfl⟩

theorem instrWork_answers (limit : Option Nat) {i : Instr} {s : State} (h : s.phase.admits i = true) :
    ∃ t, (instrWork limit i s).outcome = .next t := by
  obtain ⟨r, hr⟩ := exists_instrStretch h
  rw [instrWork_outcome, hr]
  cases limit with
  | none => exact ⟨_, exec_of_instrStretch hr⟩
  | some n => exact ⟨_, rfl⟩

theorem fetchWork_error {limit : Option Nat} {c : Ctx} {s : State} {e : Stop} {u : Units}
    (h : (fetchToken s.phase c).on s.units = .error e u) :
    fetchWork limit c s = stretchWork limit (fetchRule s.phase c) s := by
  simp [fetchWork, h]

/-- The steps of a fetch that ends within the turn are followed by those of its token. -/
theorem fetchWork_some {n : Nat} {c : Ctx} {s : State} {i : Instr} {u : Units}
    (h : (fetchToken s.phase c).on s.units = .ok i u) :
    fetchWork (some n) c s =
      if n < (fetchRule s.phase c).steps s.units then stretchWork (some n) (fetchRule s.phase c) s
      else instrWork (some (n - (fetchRule s.phase c).steps s.units)) i { s with units := u } := by
  simp [fetchWork, h]

theorem fetchWork_answers (limit : Option Nat) {c : Ctx} {s : State} (hc : readCtx s.phase s.units = some c) :
    ∃ t, (fetchWork limit c s).outcome = .next t := by
  cases hf : (fetchToken s.phase c).on s.units with
  | error e u =>
    rw [fetchWork_error hf]
    exact stretchWork_answers ..
  | ok i u =>
    have hadm : s.phase.admits i = true := admits_of_wf hc (fetchToken_wf hf)
    cases limit with
    | none =>
      rw [fetchWork_ok hf]
      exact instrWork_answers none (s := { s with units := u }) hadm
    | some n =>
      rw [fetchWork_some hf]
      split
      · exact stretchWork_answers ..
      · exact instrWork_answers _ (s := { s with units := u }) hadm

/-- A turn of any number of steps, or a whole one, is answered. -/
theorem turnWork_answers (limit : Option Nat) {s : State} (hs : s.seqInv) :
    ∃ t, (turnWork limit s).outcome = .next t := by
  cases hb : s.busy with
  | false => exact ⟨s, by simp [turnWork, hb, Work.outcome]⟩
  | true =>
    obtain ⟨i, hadm, h⟩ | ⟨c, hc, h⟩ | ⟨m, h⟩ := turnWork_forms hs hb <;> rw [h limit s (.refl s)]
    · exact instrWork_answers _ (s := s.resumed) hadm
    · exact fetchWork_answers _ (s := s.resumed) hc
    · exact stretchWork_answers ..

end Sys2Proof.Machine

namespace Sys2Proof.Machine

/-! # Going on after a turn of some steps (70_reset_and_hazards.md R615, assumptions 2 and 3) -/

/-- The turn that leaves `t` of `s` is a part of a whole turn: where the stretch is not over, a whole turn from `t` ends
as one from `s` does, the next move being taken; where it is over, the whole turn ends in `t`. -/
structure State.Resumes (s t : State) : Prop where
  script : t.script = s.script
  again : t.begun ≠ none → (turnWork none t.turned).outcome = (turnWork none s.turned).outcome
  ended : t.begun = none → (turnWork none s.turned).outcome = .next t.turned

theorem amid_resumed {s : State} (h : s.begun = none) (u : Units) (n : Nat) : (s.amid u n).resumed = s := by
  cases s
  cases h
  rfl

theorem settle_turned (s : State) (p : M Next) : (s.settle p).turned = s.turned.settle p := by
  unfold State.settle
  simp only [State.turned_units]
  rcases p.on s.units with ⟨_ | q, u⟩ | ⟨e | _, u⟩ <;> rfl

/-- Some steps of a stretch end amid it or at its end. -/
theorem partly_amid_or_ended (s : State) (n : Nat) (p : M Next) :
    (∃ u k, s.partly n p = s.amid u k) ∨ (s.partly n p = s.settle p ∧ (s.settle p).begun = none) := by
  obtain ⟨u, -, ht⟩ | ht := State.partly_cases s n p
  · exact .inl ⟨u, n, ht⟩
  · obtain ⟨u, -, he⟩ | ⟨q, u, -, he⟩ | ⟨e, u, -, he⟩ | ⟨u, -, he⟩ := State.settle_cases s p
    · exact .inr ⟨ht, by rw [he]; rfl⟩
    · exact .inr ⟨ht, by rw [he]; rfl⟩
    · exact .inr ⟨ht, by rw [he]; rfl⟩
    · exact .inl ⟨u, _, ht.trans he⟩

theorem amid_resumes {s start : State} (hs : start.script = s.script) {u : Units} {n : Nat}
    (hagain : (turnWork none (start.amid u n).turned).outcome = (turnWork none s.turned).outcome) :
    s.Resumes (start.amid u n) :=
  ⟨hs, fun _ => hagain, nofun⟩

/-- Some steps of the stretch that a whole turn runs are a part of it, where a turn from its middle runs it too. -/
theorem partly_resumes {s : State} {r : Stretch} (n : Nat) (hs : r.start.script = s.script)
    (hagain : ∀ u k, (turnWork none (r.start.amid u k).turned).outcome = (turnWork none s.turned).outcome)
    (hwhole : (turnWork none s.turned).outcome = .next (r.start.turned.settle r.rule)) :
    s.Resumes (r.start.partly n r.rule) := by
  obtain ⟨u, k, ht⟩ | ⟨ht, hended⟩ := partly_amid_or_ended r.start n r.rule <;> rw [ht]
  · exact amid_resumes hs (hagain u k)
  · rw [← settle_turned] at hwhole
    exact ⟨(settle_hostSame ..).script.trans hs, fun h => absurd hended h, fun _ => hwhole⟩

/-- Some steps of an instruction, the units being those that the fetch of a token may have left. -/
theorem instrWork_resumes {s t : State} {n : Nat} {i : Instr} {u : Units} (hb : s.busy = true)
    (hadm : s.phase.admits i = true)
    (hwhole : (turnWork none s.turned).outcome = exec i { s.turned.resumed with units := u })
    (h : (instrWork (some n) i { s.resumed with units := u }).outcome = .next t) : s.Resumes t := by
  obtain ⟨r, hr⟩ := exists_instrStretch (s := { s.resumed with units := u }) hadm
  obtain ⟨-, hscript, hcurrent, hbusy, hbegun⟩ := instrStretch_begins hr
  rw [instrWork_outcome, hr] at h
  cases h
  have whole := hwhole.trans (exec_of_instrStretch (instrStretch_turned hr))
  refine partly_resumes n hscript (fun v k => ?_) whole
  have hresumed : (r.start.amid v k).turned.resumed = r.start.turned :=
    amid_resumed (s := r.start.turned) (hbegun rfl) v k
  rw [turnWork_current (s := (r.start.amid v k).turned) (hbusy hb) hcurrent, hresumed, whole]
  exact exec_of_instrStretch (instrStretch_turned (instrStretch_again hr))

section
variable {s t : State} {n : Nat}

/-- A turn from the middle of a stretch does what one from its start does. -/
theorem turnWork_amid {work : State → Work} (h : ∀ t, s.SamePlace t → turnWork none t = work t.resumed) (u : Units)
    (k : Nat) : turnWork none (s.resumed.amid u k).turned = turnWork none s.turned :=
  (h _ (samePlace_amid s u k)).trans (h _ (samePlace_turned s)).symm

theorem stretchWork_resumes {m : M Next} (h : ∀ t, s.SamePlace t → turnWork none t = stretchWork none m t.resumed)
    (ht : (stretchWork (some n) m s.resumed).outcome = .next t) : s.Resumes t := by
  cases ht
  exact partly_resumes (r := ⟨s.resumed, m⟩) n rfl (fun u k => congrArg Work.outcome (turnWork_amid h u k))
    (congrArg Work.outcome (h _ (samePlace_turned s)))

theorem fetchWork_resumes {c : Ctx} (hb : s.busy = true) (hc : readCtx s.phase s.origin = some c)
    (h : ∀ t, s.SamePlace t → turnWork none t = fetchWork none c t.resumed)
    (ht : (fetchWork (some n) c s.resumed).outcome = .next t) : s.Resumes t := by
  cases hf : (fetchToken s.phase c).on s.origin with
  | error e u =>
    rw [fetchWork_error (s := s.resumed) hf] at ht
    refine stretchWork_resumes (fun t hp => ?_) ht
    have hphase : t.resumed.phase = s.resumed.phase := hp.phase
    have hunits : t.resumed.units = s.origin := hp.origin
    rw [h t hp, fetchWork_error (e := e) (u := u) (by rw [hphase, hunits]; exact hf), hphase]
  | ok i u =>
    rw [fetchWork_some (s := s.resumed) hf] at ht
    split at ht
    next hn =>
      cases ht
      rw [State.partly_amid hn]
      exact amid_resumes (s := s) (start := s.resumed) rfl (congrArg Work.outcome (turnWork_amid h _ _))
    next =>
      refine instrWork_resumes hb (admits_of_wf hc (fetchToken_wf hf)) ?_ ht
      rw [h _ (samePlace_turned s), fetchWork_ok (s := s.turned.resumed) hf]
      rfl

end

/-- Whatever the sequencer does, a turn of some steps is a part of the whole turn. -/
theorem turnWork_resumes {s t : State} {n : Nat} (hs : s.seqInv) (ht : (turnWork (some n) s).outcome = .next t) :
    s.Resumes t := by
  cases hb : s.busy with
  | false =>
    rw [turnWork, hb] at ht
    cases ht
    exact ⟨rfl, fun _ => rfl, fun _ => congrArg Work.outcome (turnWork_idle (s := s.turned) hb)⟩
  | true =>
    obtain ⟨i, hadm, h⟩ | ⟨c, hc, h⟩ | ⟨m, h⟩ := turnWork_forms hs hb <;> rw [h (some n) s (.refl s)] at ht
    · refine instrWork_resumes (u := s.origin) hb hadm ?_ ht
      rw [h none _ (samePlace_turned s)]
      exact instrWork_outcome ..
    · exact fetchWork_resumes hb hc (h none) ht
    · exact stretchWork_resumes (h none) ht

/-! ## The steps of the machine -/

theorem turned_of_script {s : State} {m : Move} {rest : List Move} (h : s.script = m :: rest) :
    s.turned = { s with script := rest } := by
  simp [State.turned, h]

theorem step_coreFor {s : State} {n : Nat} {rest : List Move} (h : s.script = .coreFor n :: rest) :
    step s = (turnWork (some n) s.turned).outcome :=
  congrArg Work.outcome (stepWork_coreFor h)

/-- A step at the sequencer's turn always answers. -/
theorem step_answers {s : State} (hs : s.seqInv)
    (hturn : s.coreTurn ∨ ∃ n, s.script.head? = some (.coreFor n)) : ∃ t, step s = .next t := by
  obtain hcore | ⟨n, hfor⟩ := hturn
  · rw [step_core hcore]
    exact turnWork_answers none (s := s.turned) hs
  · obtain ⟨rest, hscript⟩ := List.head?_eq_some_iff.1 hfor
    rw [step_coreFor hscript]
    exact turnWork_answers (some n) (s := s.turned) hs

/-- Some steps and then a whole turn end as a whole turn does. -/
theorem step_coreFor_core {s : State} {n : Nat} {rest : List Move} (hs : s.seqInv)
    (hscript : s.script = .coreFor n :: .core :: rest) :
    ∃ t, step s = .next t ∧ t.script = .core :: rest ∧
      (t.begun ≠ none → step t = step { s with script := .core :: rest }) ∧
      (t.begun = none → step { s with script := .core :: rest } = .next { t with script := rest }) := by
  obtain ⟨t, ht⟩ := turnWork_answers (some n) (s := s.turned) hs
  obtain ⟨hsame, hagain, hended⟩ := turnWork_resumes (s := s.turned) hs ht
  have htscript : t.script = .core :: rest := hsame.trans (congrArg List.tail hscript)
  have hwhole : step { s with script := .core :: rest } = (turnWork none s.turned.turned).outcome := by
    rw [step_core (.inr rfl), turned_of_script hscript]
  have htcore : t.coreTurn := .inr (by rw [htscript]; rfl)
  refine ⟨t, (step_coreFor hscript).trans ht, htscript, ?_, ?_⟩
  · rwa [step_core htcore, hwhole]
  · rwa [hwhole, ← turned_of_script htscript]

/-- Some steps of a command from its start are those of its stretch. -/
theorem step_coreFor_command {s : State} {n : Nat} {rest : List Move} {i : Instr} {r : Stretch}
    (hscript : s.script = .coreFor n :: rest) (hb : s.busy = true) (hp : s.phase = .command) (hn : s.current = none)
    (hbegun : s.begun = none) (hd : decodeCommand s.cmd = .ok i) (hr : instrStretch i s.turned = some r) :
    step s = .next (r.start.partly n r.rule) := by
  have hresumed : s.turned.resumed = s.turned := by
    cases s
    cases hbegun
    rfl
  have hmade : s.turned.made = 0 := State.made_fresh hbegun
  rw [step_coreFor hscript, turnWork_command (s := s.turned) hb hn hp, hresumed, hmade, Option.map_some,
    Nat.zero_add, commandWork]
  simp only [State.turned_cmd, hd]
  rw [instrWork_outcome, hr]

theorem unitsAt_eq (u : Units) (past : List Units) (n : Nat) :
    unitsAt u past n = if n = 0 then u else (past[n - 1]?).getD u := by
  cases n <;> rfl

/-- Settles O17: a turn always answers, as what a phase executes has a stretch; stopped in the middle of a stretch, the
sequencer runs the same one again. -/
theorem sequencerNeverRefuses : Obligations.SequencerNeverRefuses := by
  refine ⟨fun s => step_answers, fun s n rest => step_coreFor_core,
    fun s n rest i r hscript hb hp hn hbegun hd hr => ?_⟩
  have hunits : r.start.units = s.units := (instrStretch_begins hr).units
  rw [step_coreFor_command hscript hb hp hn hbegun hd hr]
  refine ⟨exec_of_instrStretch hr, fun hlt => ?_, fun hle => ?_⟩
  · rw [State.partly_amid (by rwa [hunits]), unitsAt_eq, hunits, State.amid, hunits]
  · rw [State.partly_settle (by rwa [hunits]), exec_of_instrStretch hr]

end Sys2Proof.Machine
